-- ==== Sys2Proof/Word.lean ====
section
/-! DEFINITION. The widths the part works in: bytes of the register window, channel numbers. -/

namespace Sys2Proof

/-- One byte of the register window (09, R164). -/
abbrev Byte := BitVec 8

/-- A channel number, 0 to 15 (02, chapter opening). -/
abbrev ChannelId := Fin 16

/-- A drive pin number, D0 to D7 (01, R2). -/
abbrev PinId := Fin 8

end Sys2Proof
end

