-- ==== Sys2Proof/Syntax.lean ====
section
/-! DEFINITION. The commands of the part: one constructor for each row of spec/opcode_table.json. -/

namespace Sys2Proof

/-- One command. A command of the Command Port takes its argument from the register ARG0, as the spec has it,
so its constructor has no operand; pin levels that the event samples are operands. -/
inductive Instr where
  /-- R90 -/
  | measureNow
  /-- R64 -/
  | abortJob
  /-- R101 -/
  | flushQueue
  /-- R111 -/
  | scanStart
  /-- R113 -/
  | scanStop
  /-- R112 -/
  | scanOnce
  /-- R108 -/
  | swapBanks
  /-- R28 -/
  | commitChannel
  /-- R27 -/
  | fetchChannel
  /-- R80 -/
  | invalidateReference
  /-- R142 -/
  | clearZone
  /-- R141 -/
  | clearAlerts
  /-- R159 -/
  | clearResults
  /-- R12 -/
  | setTimebase
  /-- R15 -/
  | sleep
  /-- R18 -/
  | wake
  /-- R178 -/
  | engineReset
  /-- R173: a write of an unassigned code to 18h. -/
  | unknownCommand (code : Byte)
  /-- R157: a register read of 60h. -/
  | resultWindowPop
  /-- R139: a register read of 80h. -/
  | alertWindowPop
  /-- R184: a register write to 10h. -/
  | eventFlagsWrite (value : Byte)
  /-- R186: a register write to 11h. -/
  | eventEnablesWrite (value : Byte)
  /-- R122: a register write to 0Bh. -/
  | overrunCounterWrite (value : Byte)
  /-- R150: a register write to 24h. -/
  | fullPolicyWrite (value : Byte)
  /-- R107: a register write to a bank entry byte or a bank length. -/
  | scanBankWrite (address value : Byte)
  /-- R168: a register write to any other address. -/
  | registerWrite (address value : Byte)
  /-- R164: the first data byte of a write transaction. -/
  | registerPointerLoad (value : Byte)
  /-- R166: the address acknowledge of a read transaction. -/
  | statusSnapshotCopy
  /-- R19: VDD below the detector threshold, or RSTN low. -/
  | powerOnReset
  /-- R19: the end of the reset, with the level of ADDR. -/
  | resetEnd (addrHigh : Bool)
  /-- R7: a TB tick, with the level of TRIG at it. -/
  | tbTick (trigHigh : Bool)
  /-- R8: a slow tick, with the level of TRIG at it. -/
  | slowTick (trigHigh : Bool)
  /-- R3: a rising edge of the comparator; `close` says that it follows the edge before by less than 250 ns (R5). -/
  | oscillatorEdge (close : Bool)
  /-- R45 -/
  | dischargeEnd
  /-- R46 -/
  | settleEnd
  /-- R51 -/
  | edgeTimeout
  /-- R48 -/
  | windowGateClose
  /-- R49 -/
  | periodGateClose
  /-- R52 -/
  | overflow
  /-- R121 -/
  | passTimerExpiry
  /-- R124 -/
  | trigEdgeQualified
  /-- R94 -/
  | arbiterSelection
  /-- R116 -/
  | cursorAdvance
  /-- R93 -/
  | offerRetake
  /-- R164: a start or repeated start followed by the port's own address with the write bit. -/
  | writeTransactionStart
  deriving DecidableEq, Repr

end Sys2Proof
end

