-- ==== Sys2Proof/WellFormed.lean ====
section
/-! DEFINITION. Which commands are well formed: a register write stands in the row its address belongs to. -/

namespace Sys2Proof

/-- R195: the codes of Table 9-1. -/
def assignedCode (code : Byte) : Bool :=
  [0x01#8, 0x02#8, 0x03#8, 0x10#8, 0x11#8, 0x12#8, 0x13#8, 0x20#8, 0x21#8, 0x30#8,
   0x38#8, 0x39#8, 0x3A#8, 0x40#8, 0x41#8, 0x42#8, 0x50#8].contains code

/-- R107: the bank lengths at 26h and 27h and the bank entries at 90h to EFh. -/
def scanBankAddress (address : Byte) : Bool :=
  address == 0x26#8 || address == 0x27#8 || (0x90#8 ≤ address && address ≤ 0xEF#8)

/-- The addresses whose writes have a row of their own: the overrun counter, the event flags, the enables,
COMMAND and the full policy. -/
def singleRowAddress (address : Byte) : Bool :=
  [0x0B#8, 0x10#8, 0x11#8, 0x18#8, 0x24#8].contains address

/-- A command is well formed when its operands belong to its row. -/
def Instr.wellFormed : Instr → Bool
  | .unknownCommand code => !assignedCode code
  | .scanBankWrite address _ => scanBankAddress address
  | .registerWrite address _ => !scanBankAddress address && !singleRowAddress address
  | .measureNow => true
  | .abortJob => true
  | .flushQueue => true
  | .scanStart => true
  | .scanStop => true
  | .scanOnce => true
  | .swapBanks => true
  | .commitChannel => true
  | .fetchChannel => true
  | .invalidateReference => true
  | .clearZone => true
  | .clearAlerts => true
  | .clearResults => true
  | .setTimebase => true
  | .sleep => true
  | .wake => true
  | .engineReset => true
  | .resultWindowPop => true
  | .alertWindowPop => true
  | .eventFlagsWrite _ => true
  | .eventEnablesWrite _ => true
  | .overrunCounterWrite _ => true
  | .fullPolicyWrite _ => true
  | .registerPointerLoad _ => true
  | .statusSnapshotCopy => true
  | .powerOnReset => true
  | .resetEnd _ => true
  | .tbTick _ => true
  | .slowTick _ => true
  | .oscillatorEdge _ => true
  | .dischargeEnd => true
  | .settleEnd => true
  | .edgeTimeout => true
  | .windowGateClose => true
  | .periodGateClose => true
  | .overflow => true
  | .passTimerExpiry => true
  | .trigEdgeQualified => true
  | .arbiterSelection => true
  | .cursorAdvance => true
  | .offerRetake => true
  | .writeTransactionStart => true

end Sys2Proof
end

