-- ==== Sys2Proof/Decode.lean ====
section
/-! DEFINITION. No row of the opcode table has bits of its own; the bytes a row puts on the bus, and the row a register write is. -/

namespace Sys2Proof

/-- No row of spec/opcode_table.json gives bits, so no word spells a command. -/
def decodeTableWord (_nbits _w : Nat) : Option Instr := none

/-- R195: the command of a code written to 18h. -/
def Instr.ofCode (code : Byte) : Instr :=
  if code = 0x01#8 then .measureNow
  else if code = 0x02#8 then .abortJob
  else if code = 0x03#8 then .flushQueue
  else if code = 0x10#8 then .scanStart
  else if code = 0x11#8 then .scanStop
  else if code = 0x12#8 then .scanOnce
  else if code = 0x13#8 then .swapBanks
  else if code = 0x20#8 then .commitChannel
  else if code = 0x21#8 then .fetchChannel
  else if code = 0x30#8 then .invalidateReference
  else if code = 0x38#8 then .clearZone
  else if code = 0x39#8 then .clearAlerts
  else if code = 0x3A#8 then .clearResults
  else if code = 0x40#8 then .setTimebase
  else if code = 0x41#8 then .sleep
  else if code = 0x42#8 then .wake
  else if code = 0x50#8 then .engineReset
  else .unknownCommand code

/-- The row of a register write of `value` at `address` (R164, R168). -/
def Instr.ofRegisterWrite (address value : Byte) : Instr :=
  if address = 0x18#8 then .ofCode value
  else if address = 0x0B#8 then .overrunCounterWrite value
  else if address = 0x10#8 then .eventFlagsWrite value
  else if address = 0x11#8 then .eventEnablesWrite value
  else if address = 0x24#8 then .fullPolicyWrite value
  else if scanBankAddress address then .scanBankWrite address value
  else .registerWrite address value

/-- The address and the byte of the register write that a row is, for the rows that are one. -/
def Instr.busWrite : Instr → Option (Byte × Byte)
  | .measureNow => some (0x18#8, 0x01#8)
  | .abortJob => some (0x18#8, 0x02#8)
  | .flushQueue => some (0x18#8, 0x03#8)
  | .scanStart => some (0x18#8, 0x10#8)
  | .scanStop => some (0x18#8, 0x11#8)
  | .scanOnce => some (0x18#8, 0x12#8)
  | .swapBanks => some (0x18#8, 0x13#8)
  | .commitChannel => some (0x18#8, 0x20#8)
  | .fetchChannel => some (0x18#8, 0x21#8)
  | .invalidateReference => some (0x18#8, 0x30#8)
  | .clearZone => some (0x18#8, 0x38#8)
  | .clearAlerts => some (0x18#8, 0x39#8)
  | .clearResults => some (0x18#8, 0x3A#8)
  | .setTimebase => some (0x18#8, 0x40#8)
  | .sleep => some (0x18#8, 0x41#8)
  | .wake => some (0x18#8, 0x42#8)
  | .engineReset => some (0x18#8, 0x50#8)
  | .unknownCommand code => some (0x18#8, code)
  | .overrunCounterWrite value => some (0x0B#8, value)
  | .eventFlagsWrite value => some (0x10#8, value)
  | .eventEnablesWrite value => some (0x11#8, value)
  | .fullPolicyWrite value => some (0x24#8, value)
  | .scanBankWrite address value => some (address, value)
  | .registerWrite address value => some (address, value)
  | .resultWindowPop => none
  | .alertWindowPop => none
  | .registerPointerLoad _ => none
  | .statusSnapshotCopy => none
  | .powerOnReset => none
  | .resetEnd _ => none
  | .tbTick _ => none
  | .slowTick _ => none
  | .oscillatorEdge _ => none
  | .dischargeEnd => none
  | .settleEnd => none
  | .edgeTimeout => none
  | .windowGateClose => none
  | .periodGateClose => none
  | .overflow => none
  | .passTimerExpiry => none
  | .trigEdgeQualified => none
  | .arbiterSelection => none
  | .cursorAdvance => none
  | .offerRetake => none
  | .writeTransactionStart => none

end Sys2Proof
end

