-- ==== Sys2Proof/Config.lean ====
section
/-! DEFINITION. The constants of the part and the free values: what the spec leaves open, as opaque constants no proof can see into. -/

namespace Sys2Proof.Config

/-- R5: which pairs of oscillator edges less than 250 ns apart are taken as two is not specified.
`true` means the later edge of the pair is taken. Applied to a counter, so every pair is free on its own (log 2). -/
opaque closeEdgeTaken : Nat → Bool

/-- R3: the moment at which the node falls below the lower threshold is the external circuit's, and no command brings it.
`true` means that a comparator output that is high has fallen by the time a step takes its command, if it has one.
Applied to a counter, so every such step is free on its own (log 19). -/
opaque comparatorFalls : Nat → Bool

/-- R8, R74, R82, R119, R123: the order in which the blocks take one tick is not defined.
The number picks one of the orders. Applied to a counter, so every tick is free on its own (log 3). -/
opaque tickOrder : Nat → Nat

/-- R88. -/
def queueCapacity : Nat := 8

/-- R146. -/
def fifoCapacity : Nat := 16

/-- R8: TB ticks in one slow tick. -/
def slowTickLength : Nat := 1024

/-- R48, R49, R52: the count of a sample at which it overflows, 2^20. -/
def overflowCount : Nat := 1048576

/-- R53: the largest count that still steps the range down is below this, 2^18. -/
def stepDownCount : Nat := 262144

/-- R59: LOW_RES is set below this count. -/
def lowResCount : Nat := 1024

/-- R59: the largest value that is reported, 2^32 - 1. -/
def valueMax : Nat := 4294967295

/-- R72: the age at which an entry stops rising. -/
def ageMax : Nat := 65535

end Sys2Proof.Config
end

