-- ==== Sys2Proof/Machine/Types.lean ====
section
/-! DEFINITION. The enumerated fields of the part and their codes (11, Table 11-1), and byte helpers. -/

namespace Sys2Proof.Machine

/-- R20. -/
inductive Role where
  | unused | absolute | ratio | reference
  deriving DecidableEq, Repr

/-- Table 2-1. -/
inductive Method where
  | window | period
  deriving DecidableEq, Repr

/-- R151. -/
inductive ReportPolicy where
  | always | onZoneChange | onFault | never
  deriving DecidableEq, Repr

/-- Table 7-1. -/
inductive Zone where
  | unknown | below | inside | above | fault
  deriving DecidableEq, Repr

/-- R60; `none` is NONE of the last status (Table 2-3). OPEN is written `openArm`. -/
inductive JobStatus where
  | none | ok | over | under | openArm | refFault | aborted
  deriving DecidableEq, Repr

/-- Table 4-1. -/
inductive FaultReason where
  | none | openArm | over | under
  deriving DecidableEq, Repr

/-- Table 3-1. -/
inductive SeqState where
  | idle | discharge | settle | arm | count
  deriving DecidableEq, Repr

/-- R110. -/
inductive ScanState where
  | stopped | waiting | running | stopping
  deriving DecidableEq, Repr

/-- R110. -/
inductive ScanMode where
  | periodic | triggered | single
  deriving DecidableEq, Repr

/-- R106. -/
inductive Bank where
  | a | b
  deriving DecidableEq, Repr

/-- R15. -/
inductive Power where
  | awake | asleep
  deriving DecidableEq, Repr

/-- R172. -/
inductive OutcomeState where
  | empty | working | done | merged | refused | cancelled
  deriving DecidableEq, Repr

/-- R172. -/
inductive Reason where
  | badArg | badField | channelUnused | channelDisabled | queueFull | queueNotEmpty | refMissing | refMismatch
  | refInUse | noRefSlot | notStopped | notIdle | passActive | swapPending | asleep | unknownCommand
  deriving DecidableEq, Repr

/-- R87: the class of a job, with the ticket of a DIRECT job or the pass number of a SCAN job. -/
inductive JobTag where
  | direct (ticket : Byte)
  | scan (pass : BitVec 16)
  deriving DecidableEq, Repr

/-- Table 1-1. The clamp and the selected pin move together (R4), so they are one condition; the comparator output is
low in CLAMPED and in HELD (R3, R6), and `high` is that output while the oscillator runs. -/
inductive FrontEnd where
  | clamped | running (pin : PinId) (high : Bool) | held
  deriving DecidableEq, Repr

/-- R164, R165: where the port stands in a transaction. -/
inductive BusState where
  | idle | awaitPointer | writing | reading
  deriving DecidableEq, Repr

/-- R150. -/
inductive FullPolicy where
  | hold | overwrite
  deriving DecidableEq, Repr

/-- R116: `settled n`: the offer at entry n was admitted, merged or withdrawn and the cursor moves on at the next
TB tick; `waiting n c`: the offer for c at entry n was declined and waits. -/
inductive Cursor where
  | cleared | settled (entry : Nat) | waiting (entry : Nat) (channel : ChannelId) | done
  deriving DecidableEq, Repr

/-- R42. -/
inductive PhaseKind where
  | refresh | primary
  deriving DecidableEq, Repr

/-- R45 to R52: how a phase ends. -/
inductive PhaseEnd where
  | ok | over | under | openArm
  deriving DecidableEq, Repr

/-- R183: the eight event flags. -/
inductive Flag where
  | results | alert | fault | overrun | pass | drop | command | stall
  deriving DecidableEq, Repr

/-- R2: the selected pin, if any. -/
def FrontEnd.selected : FrontEnd → Option PinId
  | .clamped => none | .running pin _ => some pin | .held => none

/-- R3, R6: the comparator output. -/
def FrontEnd.comparator : FrontEnd → Bool
  | .clamped => false | .running _ high => high | .held => false

/-- R1, R4: a run request. The node starts from 0 V, so the comparator output is low; on the pin that already runs, it
stays as it is. -/
def FrontEnd.run (pin : PinId) (fe : FrontEnd) : FrontEnd :=
  .running pin (fe.selected == some pin && fe.comparator)

def Role.code : Role → Byte
  | .unused => 0 | .absolute => 1 | .ratio => 2 | .reference => 3

/-- Codes above 3 are refused at commit (R29), so what this reads from them reaches nothing. -/
def Role.ofCode (b : Byte) : Role :=
  if b = 1 then .absolute else if b = 2 then .ratio else if b = 3 then .reference else .unused

def Method.code : Method → Byte
  | .window => 0 | .period => 1

def Method.ofCode (b : Byte) : Method := if b = 1 then .period else .window

def ReportPolicy.code : ReportPolicy → Byte
  | .always => 0 | .onZoneChange => 1 | .onFault => 2 | .never => 3

def ReportPolicy.ofCode (b : Byte) : ReportPolicy :=
  if b = 1 then .onZoneChange else if b = 2 then .onFault else if b = 3 then .never else .always

def Zone.code : Zone → Byte
  | .unknown => 0 | .below => 1 | .inside => 2 | .above => 3 | .fault => 4

def JobStatus.code : JobStatus → Byte
  | .none => 0 | .ok => 1 | .over => 2 | .under => 3 | .openArm => 4 | .refFault => 5 | .aborted => 6

def FaultReason.code : FaultReason → Byte
  | .none => 0 | .openArm => 1 | .over => 2 | .under => 3

def SeqState.code : SeqState → Byte
  | .idle => 0 | .discharge => 1 | .settle => 2 | .arm => 3 | .count => 4

def ScanState.code : ScanState → Byte
  | .stopped => 0 | .waiting => 1 | .running => 2 | .stopping => 3

def ScanMode.code : ScanMode → Byte
  | .periodic => 0 | .triggered => 1 | .single => 2

def Bank.code : Bank → Byte
  | .a => 0 | .b => 1

def Bank.other : Bank → Bank
  | .a => .b | .b => .a

def Power.code : Power → Byte
  | .awake => 0 | .asleep => 1

def OutcomeState.code : OutcomeState → Byte
  | .empty => 0 | .working => 1 | .done => 2 | .merged => 3 | .refused => 4 | .cancelled => 5

/-- R195. -/
def Reason.code : Reason → Byte
  | .badArg => 0x0 | .badField => 0x1 | .channelUnused => 0x2 | .channelDisabled => 0x3
  | .queueFull => 0x4 | .queueNotEmpty => 0x5 | .refMissing => 0x6 | .refMismatch => 0x7
  | .refInUse => 0x8 | .noRefSlot => 0x9 | .notStopped => 0xA | .notIdle => 0xB
  | .passActive => 0xC | .swapPending => 0xD | .asleep => 0xE | .unknownCommand => 0xF

def FullPolicy.code : FullPolicy → Byte
  | .hold => 0 | .overwrite => 1

/-- Table 11-1: origin. -/
def JobTag.originCode : JobTag → Byte
  | .direct _ => 0 | .scan _ => 1

def JobTag.isDirect : JobTag → Bool
  | .direct _ => true | .scan _ => false

def JobTag.isScan : JobTag → Bool
  | .direct _ => false | .scan _ => true

/-- The 16 bits of the ticket-or-pass field (R194): the high byte of a ticket reads 0. -/
def JobTag.number : JobTag → BitVec 16
  | .direct ticket => ticket.setWidth 16
  | .scan pass => pass

/-- R183: the bit of a flag at 10h and of its enable at 11h. -/
def Flag.mask : Flag → Byte
  | .results => 0x01 | .alert => 0x02 | .fault => 0x04 | .overrun => 0x08
  | .pass => 0x10 | .drop => 0x20 | .command => 0x40 | .stall => 0x80

/-- A yes/no byte of staging, and of every one-bit field shown (Table 11-1). -/
def boolByte (flag : Bool) : Byte := if flag then 1 else 0

/-- R23: any nonzero staging byte is yes. -/
def byteBool (b : Byte) : Bool := b != 0

/-- R190: byte `n` of a number, byte 0 the least significant. -/
def byteOfNat (x n : Nat) : Byte := BitVec.ofNat 8 (x / 256 ^ n)

/-- R190: two bytes as a number, the first the least significant. -/
def word16 (b0 b1 : Byte) : BitVec 16 := b1 ++ b0

/-- R190: four bytes as a number, the first the least significant. -/
def word32 (b0 b1 b2 b3 : Byte) : BitVec 32 := b3 ++ b2 ++ b1 ++ b0

/-- `f` on every element of a table of fixed length. -/
def mapTable {α β : Type} {n : Nat} (f : α → β) (v : Vector α n) : Vector β n :=
  ⟨⟨v.toArray.toList.map f⟩, by simp⟩

end Sys2Proof.Machine
end

