-- ==== Sys2Proof/Machine/State.lean ====
section
/-! DEFINITION. The state of the part, as plain data, and its value right after reset. -/

namespace Sys2Proof.Machine

/-- What the part keeps in a channel descriptor (Table 2-1). -/
structure Descriptor where
  role : Role
  enabled : Bool
  pin : PinId
  method : Method
  /-- gate exponent g -/
  g : Fin 8
  /-- samples exponent s -/
  s : Fin 5
  /-- timeout exponent e -/
  e : Fin 8
  /-- slow ticks of SETTLE -/
  settle : Byte
  autoRange : Bool
  refChannel : ChannelId
  maxAge : BitVec 16
  zoneMonitor : Bool
  lowT : BitVec 32
  highT : BitVec 32
  hyst : BitVec 32
  policy : ReportPolicy
  alert : Bool
  deriving DecidableEq, Repr

/-- One channel: its committed descriptor and its runtime record (R24, R25). -/
structure Channel where
  desc : Descriptor
  zone : Zone
  /-- committed range step k -/
  rangeStep : Nat
  lastStatus : JobStatus
  engaged : Bool
  deriving DecidableEq, Repr

/-- The 27 descriptor bytes of staging, field by field as they were written (Table 11-4). -/
structure Image where
  role : Byte
  enabled : Byte
  pin : Byte
  method : Byte
  g : Byte
  s : Byte
  e : Byte
  settle : Byte
  autoRange : Byte
  refChannel : Byte
  maxAge : BitVec 16
  zoneMonitor : Byte
  lowT : BitVec 32
  highT : BitVec 32
  hyst : BitVec 32
  policy : Byte
  alert : Byte
  deriving DecidableEq, Repr

/-- R36: the deferred commit. -/
structure DeferredCommit where
  channel : ChannelId
  image : Image
  deriving DecidableEq, Repr

/-- The timebase (01, section 1.2). -/
structure Timebase where
  /-- prescale exponent -/
  p : Fin 8
  /-- XIN periods within the current TB tick; every TB tick ends with it at 0 -/
  prescaleDivider : Nat
  slowDivider : Nat
  stamp : BitVec 32
  power : Power
  /-- the byte at 23h, D -/
  discharge : Byte
  deriving DecidableEq, Repr

/-- R42, R43: the reference half of a ratio. -/
structure RefCopy where
  cRef : Nat
  gRef : Nat
  step : Nat
  age : Nat
  deriving DecidableEq, Repr

/-- R42: the in-flight job record. -/
structure InFlight where
  channel : ChannelId
  tag : JobTag
  refresh : Option ChannelId
  phase : PhaseKind
  refCopy : Option RefCopy
  refreshed : Bool
  rangeChanged : Bool
  stepAtStart : Nat
  deriving DecidableEq, Repr

/-- 03, section 3.3: the phase working copy, with the counts of DISCHARGE and SETTLE. -/
structure Working where
  pin : PinId
  method : Method
  g : Fin 8
  s : Fin 5
  e : Fin 8
  settle : Byte
  autoRange : Bool
  /-- working range step -/
  k : Nat
  samples : Nat
  cTotal : Nat
  gTotal : Nat
  largest : Nat
  steppedUp : Bool
  count : Nat
  gate : Nat
  timeout : Nat
  dischargeLength : Nat
  dischargeCount : Nat
  settleCount : Nat
  deriving DecidableEq, Repr

/-- R67: the working copy when no phase runs. -/
def Working.cleared : Working :=
  { pin := 0, method := .window, g := 0, s := 0, e := 0, settle := 0, autoRange := false, k := 0, samples := 0,
    cTotal := 0, gTotal := 0, largest := 0, steppedUp := false, count := 0, gate := 0, timeout := 0,
    dischargeLength := 0, dischargeCount := 0, settleCount := 0 }

/-- The Measurement Sequencer (03). -/
structure Sequencer where
  state : SeqState
  job : Option InFlight
  work : Working
  deriving DecidableEq, Repr

/-- One slot of the Reference Table (Table 4-1); no owner means free. -/
structure RefSlot where
  owner : Option ChannelId
  users : Nat
  valid : Bool
  cRef : Nat
  gRef : Nat
  method : Method
  age : Nat
  fault : FaultReason
  deriving DecidableEq, Repr

/-- R68: a free slot. -/
def RefSlot.free : RefSlot :=
  { owner := none, users := 0, valid := false, cRef := 0, gRef := 0, method := .window, age := 0, fault := .none }

/-- R87: a queued job. -/
structure QueuedJob where
  channel : ChannelId
  tag : JobTag
  deriving DecidableEq, Repr

/-- The Job Queue and the Arbiter (05). -/
structure JobQueue where
  /-- oldest first -/
  jobs : List QueuedJob
  nextTicket : Byte
  stalled : Bool
  /-- R63: the Sequencer has been offered as available -/
  available : Bool
  deriving DecidableEq, Repr

/-- The Scan Controller (06). -/
structure ScanController where
  bankA : Vector Byte 48
  bankB : Vector Byte 48
  lengthA : Byte
  lengthB : Byte
  active : Bank
  swapPending : Bool
  mode : ScanMode
  state : ScanState
  passNumber : BitVec 16
  cursor : Cursor
  /-- R115: the active bank's length, read at the pass start -/
  extent : Nat
  passCount : Nat
  timer : Nat
  /-- R120: the length of the interval in progress -/
  latched : Nat
  periodLow : Byte
  periodHigh : Byte
  /-- the byte at 22h -/
  trigSetting : Byte
  filtered : Bool
  stable : Nat
  overrun : Byte
  deriving DecidableEq, Repr

/-- R136: an alert entry. -/
structure AlertEntry where
  channel : ChannelId
  fromZone : Zone
  toZone : Zone
  count : Nat
  stamp : BitVec 32
  deriving DecidableEq, Repr

/-- The alert list and latch (07); a latch of `none` is the empty entry. -/
structure AlertList where
  /-- oldest first -/
  entries : List AlertEntry
  latch : Option AlertEntry
  deriving DecidableEq, Repr

/-- R155: the reference part of a record. -/
structure RefPart where
  cRef : Nat
  step : Nat
  age : Nat
  deriving DecidableEq, Repr

/-- R155: a result record; VALUE_PRESENT and REF_PRESENT are the presence of `value` and `refPart`. -/
structure ResultRecord where
  sequence : BitVec 16
  channel : ChannelId
  tag : JobTag
  status : JobStatus
  samplesExp : Fin 5
  step : Nat
  gap : Bool
  saturated : Bool
  lowRes : Bool
  refreshed : Bool
  rangeChanged : Bool
  zone : Zone
  cTotal : Nat
  value : Option Nat
  refPart : Option RefPart
  timestamp : BitVec 32
  deriving DecidableEq, Repr

/-- The Result FIFO (08); a latch of `none` is the NONE record. -/
structure ResultFifo where
  /-- oldest first -/
  records : List ResultRecord
  reserved : Nat
  nextSequence : BitVec 16
  gapPending : Bool
  policy : FullPolicy
  watermark : Byte
  latch : Option ResultRecord
  deriving DecidableEq, Repr

/-- R167: the items of the status snapshot. -/
structure Snapshot where
  seqState : SeqState
  scanState : ScanState
  scanMode : ScanMode
  active : Bank
  swapPending : Bool
  power : Power
  filtered : Bool
  queueDepth : Nat
  occupancy : Nat
  reserved : Nat
  alertCount : Nat
  passNumber : BitVec 16
  overrun : Byte
  stamp : BitVec 32
  deriving DecidableEq, Repr

/-- The Serial Port (09). -/
structure SerialPort where
  address : BitVec 7
  pointer : Byte
  snapshot : Snapshot
  bus : BusState
  /-- the byte last sent in a read transaction -/
  sent : Byte
  deriving DecidableEq, Repr

/-- R172: the outcome record. -/
structure OutcomeRecord where
  command : Byte
  state : OutcomeState
  reason : Option Reason
  result : Byte
  collision : Bool
  deriving DecidableEq, Repr

/-- The Command Port (09). -/
structure CommandPort where
  arg0 : Byte
  arg1 : Byte
  arg2 : Byte
  arg3 : Byte
  outcome : OutcomeRecord
  deriving DecidableEq, Repr

/-- The Event Unit (10); bit positions by R183. -/
structure EventUnit where
  flags : Byte
  enables : Byte
  deriving DecidableEq, Repr

/-- The input pins, at the level last sampled. -/
structure InputPins where
  trig : Bool
  addr : Bool
  deriving DecidableEq, Repr

/-- The whole part, with the queue of commands not yet taken. -/
structure State where
  pending : List Instr
  /-- R19: a reset is held -/
  inReset : Bool
  frontEnd : FrontEnd
  timebase : Timebase
  channels : Vector Channel 16
  staging : Vector Byte 32
  deferred : Option DeferredCommit
  seq : Sequencer
  refs : Vector RefSlot 4
  queue : JobQueue
  scan : ScanController
  alerts : AlertList
  fifo : ResultFifo
  port : SerialPort
  cmd : CommandPort
  events : EventUnit
  pins : InputPins
  /-- the model's own: numbers the draws of free values -/
  freeIndex : Nat
  deriving DecidableEq, Repr

/-- Why the part would stop. The spec gives it no such case: a command it cannot serve is REFUSED in the outcome
record (R172), and a failed measurement ends with a status (R60). So there is no constructor and nothing raises one. -/
inductive Fault where
  deriving DecidableEq, Repr

/-- Why the model would not answer. -/
inductive Refusal where
  /-- Raised by an arm of `exec` whose command has no meaning yet; safe. No arm is left so. -/
  | notModelled (mnemonic : String)
  deriving DecidableEq, Repr

/-- What a meaning answers. -/
abbrev Answer := Host.Outcome State Fault Refusal

namespace State

/-! Updates of one block each; Laws/State.lean has their lemmas. -/

def withPending (s : State) (x : List Instr) : State := { s with pending := x }
def withInReset (s : State) (x : Bool) : State := { s with inReset := x }
def withFrontEnd (s : State) (x : FrontEnd) : State := { s with frontEnd := x }
def withTimebase (s : State) (x : Timebase) : State := { s with timebase := x }
def withChannels (s : State) (x : Vector Channel 16) : State := { s with channels := x }
def withStaging (s : State) (x : Vector Byte 32) : State := { s with staging := x }
def withDeferred (s : State) (x : Option DeferredCommit) : State := { s with deferred := x }
def withSeq (s : State) (x : Sequencer) : State := { s with seq := x }
def withRefs (s : State) (x : Vector RefSlot 4) : State := { s with refs := x }
def withQueue (s : State) (x : JobQueue) : State := { s with queue := x }
def withScan (s : State) (x : ScanController) : State := { s with scan := x }
def withAlerts (s : State) (x : AlertList) : State := { s with alerts := x }
def withFifo (s : State) (x : ResultFifo) : State := { s with fifo := x }
def withPort (s : State) (x : SerialPort) : State := { s with port := x }
def withCmd (s : State) (x : CommandPort) : State := { s with cmd := x }
def withEvents (s : State) (x : EventUnit) : State := { s with events := x }
def withPins (s : State) (x : InputPins) : State := { s with pins := x }
def withFreeIndex (s : State) (x : Nat) : State := { s with freeIndex := x }

end State

/-- R40: the descriptor of every channel after power-on (Table 2-1, note 2). -/
def Descriptor.zero : Descriptor :=
  { role := .unused, enabled := false, pin := 0, method := .window, g := 0, s := 0, e := 0, settle := 0,
    autoRange := false, refChannel := 0, maxAge := 0, zoneMonitor := false, lowT := 0, highT := 0, hyst := 0,
    policy := .always, alert := false }

/-- R40: a channel after power-on. -/
def Channel.zero : Channel :=
  { desc := .zero, zone := .unknown, rangeStep := 0, lastStatus := .none, engaged := false }

/-- R67. -/
def Sequencer.quiet : Sequencer := { state := .idle, job := none, work := .cleared }

/-- R105. -/
def JobQueue.quiet : JobQueue := { jobs := [], nextTicket := 1, stalled := false, available := true }

/-- R127; the extent and the latched interval before any pass are DESIGN CHOICE 0 (log 5). -/
def ScanController.reset : ScanController :=
  { bankA := Vector.replicate 48 0, bankB := Vector.replicate 48 0, lengthA := 0, lengthB := 0, active := .a,
    swapPending := false, mode := .periodic, state := .stopped, passNumber := 0, cursor := .cleared, extent := 0,
    passCount := 0, timer := 0, latched := 0, periodLow := 0xE8, periodHigh := 0x03, trigSetting := 0,
    filtered := false, stable := 0, overrun := 0 }

/-- R162. -/
def ResultFifo.reset : ResultFifo :=
  { records := [], reserved := 0, nextSequence := 0, gapPending := false, policy := .hold, watermark := 1,
    latch := none }

/-- R191: what a snapshot shows after power-on; before any copy, DESIGN CHOICE (log 6). -/
def Snapshot.reset : Snapshot :=
  { seqState := .idle, scanState := .stopped, scanMode := .periodic, active := .a, swapPending := false,
    power := .awake, filtered := false, queueDepth := 0, occupancy := 0, reserved := 0, alertCount := 0,
    passNumber := 0, overrun := 0, stamp := 0 }

/-- R172. -/
def OutcomeRecord.empty : OutcomeRecord :=
  { command := 0, state := .empty, reason := none, result := 0, collision := false }

/-- The part right after a power-on reset has ended with ADDR low (R19, R40, R67, R85, R105, R127, R145, R162, R181,
R189). The level of ADDR is DESIGN CHOICE low (log 4), as are the fields logs 3, 5 and 6 name. -/
def State.reset : State :=
  { pending := [], inReset := false, frontEnd := .clamped,
    timebase := { p := 3, prescaleDivider := 0, slowDivider := 0, stamp := 0, power := .awake, discharge := 4 },
    channels := Vector.replicate 16 .zero, staging := Vector.replicate 32 0, deferred := none,
    seq := .quiet, refs := Vector.replicate 4 .free, queue := .quiet, scan := .reset,
    alerts := { entries := [], latch := none }, fifo := .reset,
    port := { address := 0x2C, pointer := 0, snapshot := .reset, bus := .idle, sent := 0 },
    cmd := { arg0 := 0, arg1 := 0, arg2 := 0, arg3 := 0, outcome := .empty },
    events := { flags := 0, enables := 0 }, pins := { trig := false, addr := false }, freeIndex := 0 }

end Sys2Proof.Machine
end

