-- ==== Sys2Proof/Machine/Flags.lean ====
section
/-! DEFINITION. The Event Unit (10): setting and clearing flags, the enables, the IRQ pin. -/

namespace Sys2Proof.Machine

/-- R182: a set leaves the flag set and reaches no other flag. -/
def raise (f : Flag) (s : State) : State :=
  s.withEvents { s.events with flags := s.events.flags ||| f.mask }

/-- R184: each flag written with 1 becomes clear. -/
def clearFlags (value : Byte) (s : State) : State :=
  s.withEvents { s.events with flags := s.events.flags &&& ~~~value }

/-- R186. -/
def writeEnables (value : Byte) (s : State) : State :=
  s.withEvents { s.events with enables := value }

/-- R183. -/
def flagSet (f : Flag) (s : State) : Bool := s.events.flags &&& f.mask != 0

/-- R187: IRQ is a level that follows the flags and the enables; during a reset it is released (R19). -/
def irqLow (s : State) : Bool := !s.inReset && (s.events.flags &&& s.events.enables != 0)

end Sys2Proof.Machine
end

