-- ==== Sys2Proof/Machine/Operands.lean ====
section
/-! DEFINITION. The operand forms: ARG0 as a channel, the staged image, configuration bytes (11, Tables 11-3 to 11-5). -/

namespace Sys2Proof.Machine

/-- A channel number in a byte, 0 to 15. -/
def channelOf (b : Byte) : Option ChannelId :=
  if h : b.toNat < 16 then some ⟨b.toNat, h⟩ else none

/-- The byte of staging at an offset from 40h. -/
def stagedByte (staging : Vector Byte 32) (offset : Nat) : Byte := staging[offset]?.getD 0

/-- R36, Table 11-4: the descriptor bytes of staging, by field. -/
def Image.ofStaging (v : Vector Byte 32) : Image :=
  { role := stagedByte v 0x00, enabled := stagedByte v 0x01, pin := stagedByte v 0x02, method := stagedByte v 0x03,
    g := stagedByte v 0x04, s := stagedByte v 0x05, e := stagedByte v 0x06, settle := stagedByte v 0x07,
    autoRange := stagedByte v 0x08, refChannel := stagedByte v 0x09,
    maxAge := word16 (stagedByte v 0x0A) (stagedByte v 0x0B),
    zoneMonitor := stagedByte v 0x0C,
    lowT := word32 (stagedByte v 0x0D) (stagedByte v 0x0E) (stagedByte v 0x0F) (stagedByte v 0x10),
    highT := word32 (stagedByte v 0x11) (stagedByte v 0x12) (stagedByte v 0x13) (stagedByte v 0x14),
    hyst := word32 (stagedByte v 0x15) (stagedByte v 0x16) (stagedByte v 0x17) (stagedByte v 0x18),
    policy := stagedByte v 0x19, alert := stagedByte v 0x1A }

/-- Table 2-4, check 1: the staging offset of the first field out of range, in staging order (R30). -/
def Image.badField (im : Image) : Option Byte :=
  if 3 < im.role.toNat then some 0x00
  else if 7 < im.pin.toNat then some 0x02
  else if 1 < im.method.toNat then some 0x03
  else if 7 < im.g.toNat then some 0x04
  else if 4 < im.s.toNat then some 0x05
  else if 7 < im.e.toNat then some 0x06
  else if 3 < im.policy.toNat then some 0x19
  else none

/-- R22, R23: the descriptor an accepted image is stored as. Yes/no bytes are stored as yes or no; the reference
channel and the maximum age are stored as 0 unless the role is RATIO. -/
def Image.descriptor (im : Image) : Descriptor :=
  let role := Role.ofCode im.role
  { role := role, enabled := byteBool im.enabled, pin := Fin.ofNat 8 im.pin.toNat, method := Method.ofCode im.method,
    g := Fin.ofNat 8 im.g.toNat, s := Fin.ofNat 5 im.s.toNat, e := Fin.ofNat 8 im.e.toNat, settle := im.settle,
    autoRange := byteBool im.autoRange,
    refChannel := if role = .ratio then Fin.ofNat 16 im.refChannel.toNat else 0,
    maxAge := if role = .ratio then im.maxAge else 0,
    zoneMonitor := byteBool im.zoneMonitor, lowT := im.lowT, highT := im.highT, hyst := im.hyst,
    policy := ReportPolicy.ofCode im.policy, alert := byteBool im.alert }

/-- R27, R193: what FETCH_CHANNEL writes to staging: the descriptor, then the runtime view. -/
def fetchedBytes (ch : ChannelId) (c : Channel) : Vector Byte 32 :=
  let d := c.desc
  #v[d.role.code, boolByte d.enabled, BitVec.ofNat 8 d.pin.val, d.method.code,
     BitVec.ofNat 8 d.g.val, BitVec.ofNat 8 d.s.val, BitVec.ofNat 8 d.e.val, d.settle,
     boolByte d.autoRange, BitVec.ofNat 8 d.refChannel.val, byteOfNat d.maxAge.toNat 0, byteOfNat d.maxAge.toNat 1,
     boolByte d.zoneMonitor, byteOfNat d.lowT.toNat 0, byteOfNat d.lowT.toNat 1, byteOfNat d.lowT.toNat 2,
     byteOfNat d.lowT.toNat 3, byteOfNat d.highT.toNat 0, byteOfNat d.highT.toNat 1, byteOfNat d.highT.toNat 2,
     byteOfNat d.highT.toNat 3, byteOfNat d.hyst.toNat 0, byteOfNat d.hyst.toNat 1, byteOfNat d.hyst.toNat 2,
     byteOfNat d.hyst.toNat 3, d.policy.code, boolByte d.alert, c.zone.code,
     BitVec.ofNat 8 c.rangeStep, c.lastStatus.code, boolByte c.engaged, BitVec.ofNat 8 ch.val]

/-- R192: the filter length F of the TRIG setting, in slow ticks. -/
def filterLength (setting : Byte) : Nat :=
  match (setting &&& 0x03#8).toNat with
  | 0 => 0 | 1 => 1 | 2 => 4 | _ => 16

/-- R192: the level a qualified edge of the chosen polarity ends at. -/
def polarityLevel (setting : Byte) : Bool := !setting.getLsbD 4

/-- R192: what a write of the TRIG setting stores. -/
def storedTrig (value : Byte) : Byte := value &&& 0x13#8

/-- R11: a written 0 is stored as 1. -/
def storedDischarge (value : Byte) : Byte := if value = 0 then 1 else value

/-- R153. -/
def storedWatermark (value : Byte) : Byte := if value = 0 then 1 else if 16 < value.toNat then 16 else value

/-- R107: a length above 24 is stored as 24. -/
def storedLength (value : Byte) : Byte := if 24 < value.toNat then 24 else value

/-- R150. -/
def storedPolicy (value : Byte) : FullPolicy := if value = 0 then .hold else .overwrite

end Sys2Proof.Machine
end

