-- ==== Sys2Proof/Machine/Ops.lean ====
section
/-! DEFINITION. The operations the blocks share: node requests, channel and slot access, free orders, outcomes. -/

namespace Sys2Proof.Machine

/-! ### Node Front End (01) -/

/-- R4: a clamp request deselects the pin and closes the clamp; made while HELD it leaves the front end HELD. -/
def clampRequest (s : State) : State :=
  match s.frontEnd with
  | .held => s
  | .clamped => s
  | .running _ _ => s.withFrontEnd .clamped

/-- R4: a run request opens the clamp and selects the pin. -/
def runRequest (pin : PinId) (s : State) : State := s.withFrontEnd (s.frontEnd.run pin)

/-- R1. -/
def clampClosed (s : State) : Bool := s.frontEnd.selected == none

/-- R2: the one selected pin, if any. -/
def drivenPin (s : State) : Option PinId := s.frontEnd.selected

/-- R2: what a drive pin does: the selected one drives the inverse of the comparator output, every other one is
high-impedance (`none`). -/
def pinLevel (pin : PinId) (s : State) : Option Bool :=
  if drivenPin s = some pin then some (!s.frontEnd.comparator) else none

/-- R7, R19: ticks arrive: the part is AWAKE and no reset is held. -/
def clocked (s : State) : Bool := !s.inReset && s.timebase.power == .awake

/-! ### Channel Table (02) -/

/-- One channel changed. -/
def onChannel (ch : ChannelId) (f : Channel → Channel) (s : State) : State :=
  s.withChannels (s.channels.set ch.val (f s.channels[ch.val]))

/-- R25. -/
def setEngaged (mark : Bool) (ch : ChannelId) (s : State) : State :=
  onChannel ch (fun c => { c with engaged := mark }) s

/-- R25: the marks of a job: its channel and its refresh channel when it has one. -/
def markJob (mark : Bool) (j : InFlight) (s : State) : State :=
  match j.refresh with
  | none => setEngaged mark j.channel s
  | some r => setEngaged mark r (setEngaged mark j.channel s)

/-! ### Reference Table (04) -/

/-- R68: the slot a channel owns. -/
def slotOf (ch : ChannelId) (s : State) : Option RefSlot :=
  s.refs.toList.find? (fun sl => sl.owner == some ch)

/-- `f` on the slot a channel owns. -/
def onSlot (ch : ChannelId) (f : RefSlot → RefSlot) (s : State) : State :=
  s.withRefs (mapTable (fun sl => if sl.owner = some ch then f sl else sl) s.refs)

/-- R79: owner and users are kept, and so is the method, which is not used while invalid (Table 4-2). -/
def RefSlot.invalidate (sl : RefSlot) : RefSlot :=
  { sl with valid := false, cRef := 0, gRef := 0, age := 0, fault := .none }

/-- R77: the fault form of invalidation. -/
def RefSlot.faulted (reason : FaultReason) (sl : RefSlot) : RefSlot :=
  { sl with valid := false, cRef := 0, gRef := 0, age := 0, fault := reason }

/-- R75. -/
def RefSlot.measured (c g : Nat) (m : Method) (sl : RefSlot) : RefSlot :=
  { sl with valid := true, cRef := c, gRef := g, method := m, age := 0, fault := .none }

/-- R72: ageing by one slow tick. -/
def RefSlot.aged (sl : RefSlot) : RefSlot :=
  if sl.valid then { sl with age := min (sl.age + 1) Config.ageMax } else sl

/-- R79: every slot's entry invalidated. -/
def invalidateAll (s : State) : State := s.withRefs (mapTable RefSlot.invalidate s.refs)

/-- R69: ownership of the lowest-numbered free slot. -/
def allocateSlot (ch : ChannelId) (v : Vector RefSlot 4) : Vector RefSlot 4 :=
  let fresh : RefSlot := { RefSlot.free with owner := some ch }
  if v[0].owner = none then v.set 0 fresh
  else if v[1].owner = none then v.set 1 fresh
  else if v[2].owner = none then v.set 2 fresh
  else if v[3].owner = none then v.set 3 fresh
  else v

/-! ### Command outcomes (09) -/

/-- What an owning block's rule answers to a command (R172). -/
structure Reply where
  state : OutcomeState
  reason : Option Reason
  result : Byte
  deriving DecidableEq, Repr

def Reply.done (result : Nat) : Reply := { state := .done, reason := none, result := BitVec.ofNat 8 result }

def Reply.working (result : Nat) : Reply := { state := .working, reason := none, result := BitVec.ofNat 8 result }

def Reply.refused (r : Reason) (result : Byte) : Reply := { state := .refused, reason := some r, result := result }

/-- R173: the record is rewritten as one whole, with the collision mark cleared. -/
def recordOutcome (code : Byte) (r : Reply) (s : State) : State :=
  s.withCmd { s.cmd with outcome :=
    { command := code, state := r.state, reason := r.reason, result := r.result, collision := false } }

/-- R175: a discarded command leaves the collision mark. -/
def collide (s : State) : State :=
  s.withCmd { s.cmd with outcome := { s.cmd.outcome with collision := true } }

/-- R176: the end of a WORKING command, with the COMMAND event; the last command and the collision mark stay. -/
def finishWorking (r : Reply) (s : State) : State :=
  raise .command (s.withCmd { s.cmd with outcome :=
    { s.cmd.outcome with state := r.state, reason := r.reason, result := r.result } })

/-! ### Open orders (log 3) -/

/-- One of the given results: the first when all agree, else the one a fresh free value picks. -/
def oneOf (x : State) (rest : List State) : State :=
  if rest.all (fun y => y == x) then x
  else
    let chosen := (x :: rest).getD (Config.tickOrder x.freeIndex % (rest.length + 1)) x
    chosen.withFreeIndex (chosen.freeIndex + 1)

/-- Two actions that fall together, in either order. -/
def eitherOrder (a b : State → State) (s : State) : State := oneOf (b (a s)) [a (b s)]

/-- Three actions that fall together, in any order. -/
def anyOrder (a b c : State → State) (s : State) : State :=
  oneOf (c (b (a s))) [b (c (a s)), c (a (b s)), a (c (b s)), b (a (c s)), a (b (c s))]

end Sys2Proof.Machine
end

