-- ==== Sys2Proof/Machine/Phases.lean ====
section
/-! DEFINITION. The states of the Sequencer (03, section 3.3): entries to DISCHARGE, SETTLE and ARM, and the quantities of Table 2-2. -/

namespace Sys2Proof.Machine

/-- R11: 16 x D TB ticks. -/
def dischargeTime (s : State) : Nat := 16 * s.timebase.discharge.toNat

/-- R48: the WINDOW gate, W / 2^k TB ticks. -/
def windowGate (w : Working) : Nat := 256 * 2 ^ w.g.val / 2 ^ w.k

/-- R49: the PERIOD gate, 2^(g-k) oscillator periods. -/
def periodGate (w : Working) : Nat := 2 ^ (w.g.val - w.k)

/-- The gate of the working copy, by its method. -/
def gateLength (w : Working) : Nat :=
  match w.method with
  | .window => windowGate w
  | .period => periodGate w

/-- R51: the edge timeout, 1,024 x 2^e TB ticks. -/
def timeoutLength (w : Working) : Nat := 1024 * 2 ^ w.e.val

/-- R21: samples per phase, 2^s. -/
def samplesPerPhase (w : Working) : Nat := 2 ^ w.s.val

/-- R52: the limit of the working step. -/
def stepLimit (w : Working) : Nat :=
  match w.method with
  | .window => 3
  | .period => min 3 w.g.val

/-- The channel the current phase measures (R21). -/
def InFlight.measured (j : InFlight) : ChannelId :=
  match j.phase, j.refresh with
  | .refresh, some r => r
  | .refresh, none => j.channel
  | .primary, _ => j.channel

/-- R45: entry to DISCHARGE for a phase that measures `ch`. -/
def startPhase (ch : ChannelId) (s : State) : State :=
  let c := s.channels[ch.val]
  let d := c.desc
  let w : Working :=
    { Working.cleared with
      pin := d.pin, method := d.method, g := d.g, s := d.s, e := d.e, settle := d.settle, autoRange := d.autoRange,
      k := c.rangeStep, dischargeLength := dischargeTime s }
  clampRequest (s.withSeq { s.seq with state := .discharge, work := w })

/-- R47: entry to ARM. -/
def enterArm (s : State) : State :=
  s.withSeq { s.seq with state := .arm, work := { s.seq.work with timeout := 0 } }

/-- R46: entry to SETTLE, with ARM entered at once for a settle value of 0. -/
def enterSettle (s : State) : State :=
  let t := runRequest s.seq.work.pin
    (s.withSeq { s.seq with state := .settle, work := { s.seq.work with settleCount := 0 } })
  if s.seq.work.settle = 0 then enterArm t else t

/-- R47: the edge that starts a sample. -/
def startSample (s : State) : State :=
  s.withSeq { s.seq with state := .count, work := { s.seq.work with count := 0, gate := 0, timeout := 0 } }

end Sys2Proof.Machine
end

