-- ==== Sys2Proof/Machine/Queue.lean ====
section
/-! DEFINITION. The Job Queue and the Arbiter (05), the reservation (08, section 8.2) and the job start (R43). -/

namespace Sys2Proof.Machine

def QueuedJob.isDirectFor (ch : ChannelId) (j : QueuedJob) : Bool := j.channel == ch && j.tag.isDirect

def QueuedJob.isScanFor (ch : ChannelId) (j : QueuedJob) : Bool := j.channel == ch && j.tag.isScan

/-- R92: an offer for `ch` at entry `entry`, decided against the queue as it stands. -/
def decideOffer (entry : Nat) (ch : ChannelId) (s : State) : State :=
  if s.queue.jobs.any (QueuedJob.isScanFor ch) then
    s.withScan { s.scan with cursor := .settled entry }
  else if Config.queueCapacity ≤ s.queue.jobs.length then
    s.withScan { s.scan with cursor := .waiting entry ch }
  else
    (s.withQueue { s.queue with jobs := s.queue.jobs ++ [{ channel := ch, tag := .scan s.scan.passNumber }] }).withScan
      { s.scan with cursor := .settled entry, passCount := s.scan.passCount + 1 }

/-- R93: a waiting offer is retaken, decided against the queue as it then stands. -/
def retakeOffer (s : State) : State :=
  match s.scan.cursor with
  | .waiting entry ch => decideOffer entry ch s
  | .settled _ => s
  | .cleared => s
  | .done => s

/-- R93: a MEASURE_NOW that comes together with a job's leaving is taken before the retake: the sender has placed it, and
the retake as an event of its own after it (log 18). -/
def measureNowFirst (s : State) : Bool :=
  match s.pending with
  | .measureNow :: .offerRetake :: _ => true
  | _ => false

/-- R93, R96: when a job leaves the queue, a waiting offer is retaken at once, unless a MEASURE_NOW is taken first. -/
def retake (s : State) : State := if measureNowFirst s then s else retakeOffer s

/-- R94: the oldest DIRECT job, else the oldest SCAN job, with the jobs left behind in their order. -/
def selectJob (jobs : List QueuedJob) : Option (QueuedJob × List QueuedJob) :=
  match jobs.find? (fun j => j.tag.isDirect) with
  | some j => some (j, jobs.eraseP (fun x => x.tag.isDirect))
  | none =>
    match jobs with
    | [] => none
    | j :: rest => some (j, rest)

/-- R147. -/
def freeSlots (f : ResultFifo) : Nat := Config.fifoCapacity - f.records.length - f.reserved

/-- R148, R149: a reservation request; `none` is a refusal, which changes nothing. -/
def reserve (s : State) : Option State :=
  if 0 < freeSlots s.fifo then some (s.withFifo { s.fifo with reserved := 1 })
  else
    match s.fifo.policy with
    | .hold => none
    | .overwrite =>
      some (raise .drop
        (s.withFifo { s.fifo with records := s.fifo.records.drop 1, gapPending := true, reserved := 1 }))

/-- R73: the entry of the reference's slot when it is fresh for a channel of this descriptor. -/
def freshCopy (d : Descriptor) (s : State) : Option RefCopy :=
  match slotOf d.refChannel s with
  | none => none
  | some sl =>
    if sl.valid && d.maxAge != 0 && decide (sl.age ≤ d.maxAge.toNat) && sl.method == d.method then
      some { cRef := sl.cRef, gRef := sl.gRef, step := s.channels[d.refChannel.val].rangeStep, age := sl.age }
    else none

/-- R42, R43: the in-flight record of a job as it starts. -/
def jobRecord (q : QueuedJob) (s : State) : InFlight :=
  let c := s.channels[q.channel.val]
  let plain : InFlight :=
    { channel := q.channel, tag := q.tag, refresh := none, phase := .primary, refCopy := none,
      refreshed := false, rangeChanged := false, stepAtStart := c.rangeStep }
  if c.desc.role = .ratio then
    match freshCopy c.desc s with
    | some copy => { plain with refCopy := some copy }
    | none => { plain with refresh := some c.desc.refChannel, phase := .refresh }
  else plain

/-- R43: the job start, as one action. -/
def jobStart (q : QueuedJob) (s : State) : State :=
  let j := jobRecord q s
  startPhase j.measured
    (markJob true j
      ((s.withSeq { s.seq with job := some j }).withQueue { s.queue with available := false }))

/-- R94: what a selection needs beside jobs and a clear stalled mark. -/
def arbiterReady (s : State) : Bool :=
  s.seq.state == .idle && s.queue.available && clocked s

/-- R95 to R97: selection, request, and the grant or the refusal, as one action. -/
def arbitrate (s : State) : State :=
  match selectJob s.queue.jobs with
  | none => s
  | some (q, rest) =>
    match reserve s with
    | some t => retake (jobStart q (t.withQueue { t.queue with jobs := rest, stalled := false }))
    | none =>
      if s.queue.stalled then s
      else raise .stall (s.withQueue { s.queue with stalled := true })

/-- R94: a selection is made while the stalled mark is clear. -/
def select (s : State) : State :=
  if arbiterReady s && !s.queue.stalled then arbitrate s else s

/-- R98: a retry is made while the stalled mark is set. -/
def retry (s : State) : State :=
  if arbiterReady s && s.queue.stalled then arbitrate s else s

/-- R89: after 255 the counter goes to 1. -/
def ticketAfter (t : Byte) : Byte := if t = 255 then 1 else t + 1

end Sys2Proof.Machine
end

