-- ==== Sys2Proof/Machine/Scan.lean ====
section
/-! DEFINITION. The Scan Controller (06): the cursor, passes, the pass timer, TRIG, overruns, and removal from the queue (R100). -/

namespace Sys2Proof.Machine

/-- R107: the stored length of a bank. -/
def bankLength (bank : Bank) (sc : ScanController) : Nat :=
  match bank with
  | .a => sc.lengthA.toNat
  | .b => sc.lengthB.toNat

/-- A stored byte of a bank, by its offset in the bank (Table 11-5). -/
def bankByte (bank : Bank) (sc : ScanController) (offset : Nat) : Byte :=
  match bank with
  | .a => sc.bankA[offset]?.getD 0
  | .b => sc.bankB[offset]?.getD 0

/-- R106: the channel an entry of the active bank offers in this pass, if it is not passed over. -/
def entryOffer (s : State) (n : Nat) : Option ChannelId :=
  let name := bankByte s.scan.active s.scan (2 * n)
  let fields := bankByte s.scan.active s.scan (2 * n + 1)
  let m := (fields &&& 0x07#8).toNat
  match channelOf name with
  | none => none
  | some ch =>
    let d := s.channels[ch.val].desc
    if fields.getLsbD 7 && decide (m ≤ 4) && d.role != .unused && d.enabled
        && s.scan.passNumber.toNat % 2 ^ m == 0 then some ch
    else none

/-- R116: the first entry from `n` on, among the next `fuel`, that makes an offer. -/
def nextOffer (s : State) : Nat → Nat → Option (Nat × ChannelId)
  | 0, _ => none
  | fuel + 1, n =>
    match entryOffer s n with
    | some ch => some (n, ch)
    | none => nextOffer s fuel (n + 1)

/-- R109: a pending swap is applied and cleared. -/
def applySwap (s : State) : State :=
  if s.scan.swapPending then s.withScan { s.scan with active := s.scan.active.other, swapPending := false } else s

/-- R118: the pass number rises and the state leaves RUNNING; a pass end into STOPPED stops the timer (R121). -/
def closePass (s : State) : State :=
  match s.scan.mode with
  | .single =>
    s.withScan { s.scan with passNumber := s.scan.passNumber + 1, state := .stopped, cursor := .cleared, timer := 0 }
  | .periodic =>
    s.withScan { s.scan with passNumber := s.scan.passNumber + 1, state := .waiting, cursor := .cleared }
  | .triggered =>
    s.withScan { s.scan with passNumber := s.scan.passNumber + 1, state := .waiting, cursor := .cleared }

/-- R118: the pass end, as one action. -/
def passEnd (s : State) : State := closePass (applySwap (raise .pass s))

/-- R118: the pass ends when, in RUNNING, the cursor is done and the count is 0. -/
def checkPassEnd (s : State) : State :=
  if s.scan.state = .running ∧ s.scan.cursor = .done ∧ s.scan.passCount = 0 then passEnd s else s

/-- R92, R94: an offer from the cursor; admitted into an empty queue, it selects at once. -/
def offer (entry : Nat) (ch : ChannelId) (s : State) : State := select (decideOffer entry ch s)

/-- R116: the cursor moves onto entry `n`, or past the last entry. -/
def moveOnto (n : Nat) (s : State) : State :=
  match nextOffer s (s.scan.extent - n) n with
  | some (entry, ch) => offer entry ch s
  | none => checkPassEnd (s.withScan { s.scan with cursor := .done })

/-- R116: the move at a TB tick: from an entry whose offer was admitted, merged or withdrawn. -/
def cursorMove (s : State) : State :=
  match s.scan.cursor with
  | .settled n => moveOnto (n + 1) s
  | .waiting _ _ => s
  | .cleared => s
  | .done => s

/-- R115: the pass start, as one action, with the move onto entry 0. -/
def passStart (s : State) : State :=
  moveOnto 0 (s.withScan { s.scan with
    state := .running, cursor := .cleared, extent := bankLength s.scan.active s.scan })

/-- R122. -/
def overrun (s : State) : State :=
  raise .overrun
    (s.withScan { s.scan with overrun := if s.scan.overrun = 255 then 255 else s.scan.overrun + 1 })

/-- R120: the pass period setting. -/
def passPeriod (sc : ScanController) : Nat := (word16 sc.periodLow sc.periodHigh).toNat

/-- The timer runs (R121). -/
def timerRuns (s : State) : Bool :=
  s.scan.mode == .periodic && (s.scan.state == .waiting || s.scan.state == .running)

/-- What is due at a WAITING or RUNNING scan: a pass start, or an overrun (R121, R126). -/
def passDue (s : State) : State :=
  match s.scan.state with
  | .waiting => passStart s
  | .running => overrun s
  | .stopped => s
  | .stopping => s

/-- R121: an expiry. -/
def expiry (s : State) : State :=
  passDue (s.withScan { s.scan with timer := 0, latched := passPeriod s.scan })

/-- R121: the pass timer's share of a slow tick. -/
def timerTick (s : State) : State :=
  if timerRuns s then
    if s.scan.latched ≤ s.scan.timer + 1 then expiry s
    else s.withScan { s.scan with timer := s.scan.timer + 1 }
  else s

/-- R124, R126: a qualified edge to `level`. -/
def qualifiedEdge (level : Bool) (s : State) : State :=
  let t := s.withScan { s.scan with filtered := level, stable := 0 }
  if t.scan.mode = .triggered ∧ level = polarityLevel t.scan.trigSetting then passDue t else t

/-- R124: the TRIG sample of a slow tick. -/
def trigSample (s : State) : State :=
  if s.pins.trig = s.scan.filtered then s.withScan { s.scan with stable := 0 }
  else if filterLength s.scan.trigSetting < s.scan.stable + 1 then qualifiedEdge s.pins.trig s
  else s.withScan { s.scan with stable := s.scan.stable + 1 }

/-- R100: the jobs that `p` names leave the queue, and the pass job count falls with each SCAN job. -/
def dropJobs (p : QueuedJob → Bool) (s : State) : State :=
  (s.withQueue { s.queue with jobs := s.queue.jobs.filter (fun j => !p j) }).withScan
    { s.scan with passCount := s.scan.passCount - (s.queue.jobs.filter p).countP (fun j => j.tag.isScan) }

/-- R98: a removal that leaves the queue empty clears the stalled mark. -/
def clearStallIfEmpty (s : State) : State :=
  if s.queue.jobs.isEmpty then s.withQueue { s.queue with stalled := false } else s

/-- R100: the jobs that `p` names are removed; the number removed is the second part. The room is offered to a waiting
offer, and an emptied queue clears the stalled mark (log 8). -/
def removeJobs (p : QueuedJob → Bool) (s : State) : State × Nat :=
  if (s.queue.jobs.filter p).isEmpty then (s, 0)
  else (checkPassEnd (clearStallIfEmpty (retake (dropJobs p s))), (s.queue.jobs.filter p).length)

/-- R114: the stop completes: STOPPED, a pending swap applied, the outcome DONE with its result byte, COMMAND set. -/
def completeStop (s : State) : State :=
  finishWorking { state := .done, reason := none, result := s.cmd.outcome.result }
    (applySwap (s.withScan { s.scan with state := .stopped }))

/-- R117, R114: a SCAN job's completion is counted out; it may end the pass or complete a stop. -/
def countOut (s : State) : State :=
  let t := s.withScan { s.scan with passCount := s.scan.passCount - 1 }
  match s.scan.state with
  | .running => checkPassEnd t
  | .stopping => if t.scan.passCount = 0 then completeStop t else t
  | .stopped => t
  | .waiting => t

end Sys2Proof.Machine
end

