-- ==== Sys2Proof/Machine/Commit.lean ====
section
/-! DEFINITION. Validation and apply of a commit (02, section 2.4), and its deferral (section 2.5). -/

namespace Sys2Proof.Machine

/-- R68: the users of the slot a channel owns, 0 when it owns none. -/
def usersOf (ch : ChannelId) (s : State) : Nat :=
  match slotOf ch s with
  | some sl => sl.users
  | none => 0

def someSlotFree (s : State) : Bool := s.refs.toList.any (fun sl => sl.owner == none)

/-- The committed descriptor of the channel a byte names; for a byte that names none, the zero descriptor, which
no check reads (check 2 has refused it). -/
def namedDescriptor (b : Byte) (s : State) : Descriptor :=
  match channelOf b with
  | some r => s.channels[r.val].desc
  | none => .zero

/-- R29, Table 2-4, with the result bytes of R30: the first check that fails, in order. -/
def validate (ch : ChannelId) (im : Image) (s : State) : Option (Reason × Byte) :=
  let d := im.descriptor
  let reference := namedDescriptor im.refChannel s
  match im.badField with
  | some offset => some (.badField, offset)
  | none =>
    if d.role = .ratio ∧ 15 < im.refChannel.toNat then some (.badField, 0x09)
    else if d.zoneMonitor ∧ im.highT.toNat < im.lowT.toNat + 2 * im.hyst.toNat then some (.badField, 0x15)
    else if d.role = .ratio ∧ im.refChannel.toNat = ch.val then some (.badField, im.refChannel)
    else if d.role = .ratio ∧ ¬(reference.role = .reference ∧ reference.enabled) then some (.refMissing, im.refChannel)
    else if d.role = .ratio ∧ reference.method ≠ d.method then some (.refMismatch, im.refChannel)
    else if d.role = .reference ∧ slotOf ch s = none ∧ someSlotFree s = false then some (.noRefSlot, 0)
    else if 0 < usersOf ch s ∧
        ¬(d.role = .reference ∧ d.method = s.channels[ch.val].desc.method ∧ d.enabled) then
      some (.refInUse, BitVec.ofNat 8 (usersOf ch s))
    else none

/-- R31, R34, R69 to R71: the apply's changes to the slots. -/
def relink (ch : ChannelId) (old new : Descriptor) (s : State) : State :=
  let s1 := if old.role = .ratio then onSlot old.refChannel (fun sl => { sl with users := sl.users - 1 }) s else s
  let s2 := if new.role = .ratio then onSlot new.refChannel (fun sl => { sl with users := sl.users + 1 }) s1 else s1
  if old.role = .reference ∧ new.role ≠ .reference then onSlot ch (fun _ => .free) s2
  else if new.role = .reference ∧ slotOf ch s2 = none then s2.withRefs (allocateSlot ch s2.refs)
  else if old.role = .reference ∧ new.role = .reference ∧
      (old.pin ≠ new.pin ∨ old.method ≠ new.method ∨ old.g ≠ new.g ∨ old.s ≠ new.s) then
    onSlot ch RefSlot.invalidate s2
  else s2

/-- R32: what the apply changes that returns the range step to 0. -/
def rangeReset (old new : Descriptor) : Bool :=
  old.method != new.method || old.g != new.g || old.autoRange != new.autoRange

/-- R33: what the apply changes that resets the zone. -/
def zoneReset (old new : Descriptor) : Bool :=
  old.role != new.role || old.zoneMonitor != new.zoneMonitor || old.lowT != new.lowT || old.highT != new.highT
    || old.hyst != new.hyst

/-- R143: one channel's alert entry is removed. -/
def removeAlert (ch : ChannelId) (s : State) : State :=
  s.withAlerts { s.alerts with entries := s.alerts.entries.filter (fun a => a.channel != ch) }

/-- R35: a waiting offer for the channel is withdrawn; the cursor then moves on by R116. -/
def withdrawOffer (ch : ChannelId) (s : State) : State :=
  match s.scan.cursor with
  | .waiting entry c => if c = ch then s.withScan { s.scan with cursor := .settled entry } else s
  | .settled _ => s
  | .cleared => s
  | .done => s

/-- R30 to R35: the apply, as a single action. -/
def applyCommit (ch : ChannelId) (im : Image) (s : State) : State × Reply :=
  let old := s.channels[ch.val].desc
  let new := im.descriptor
  let s1 := relink ch old new s
  let s2 := onChannel ch (fun c =>
    { c with desc := new
             rangeStep := if rangeReset old new then 0 else c.rangeStep
             zone := if zoneReset old new then .unknown else c.zone }) s1
  let s3 := if zoneReset old new then removeAlert ch s2 else s2
  if new.role = .unused ∨ new.enabled = false then
    let r := removeJobs (fun j => j.channel == ch) (withdrawOffer ch s3)
    (r.1, .done r.2)
  else (s3, .done 0)

/-- R29, R30: a commit is refused, with no change, or applied. -/
def decideCommit (ch : ChannelId) (im : Image) (s : State) : State × Reply :=
  match validate ch im s with
  | some (reason, result) => (s, .refused reason result)
  | none => applyCommit ch im s

/-- R37: the deferred commit is decided at the end of the job, and the copy is discarded. -/
def decideDeferred (s : State) : State :=
  match s.deferred with
  | none => s
  | some dc =>
    let r := decideCommit dc.channel dc.image (s.withDeferred none)
    finishWorking r.2 r.1

end Sys2Proof.Machine
end

