-- ==== Sys2Proof/Machine/Completion.lean ====
section
/-! DEFINITION. Job end and completion (03, section 3.6), zones and alerts (07), the record write (08, section 8.3). -/

namespace Sys2Proof.Machine

/-- R62: the completion announcement, before the Zone Monitor enters the zone. -/
structure Completion where
  channel : ChannelId
  tag : JobTag
  status : JobStatus
  samplesExp : Fin 5
  step : Nat
  cTotal : Nat
  gTotal : Nat
  method : Method
  value : Option Nat
  saturated : Bool
  lowRes : Bool
  refPart : Option RefPart
  refreshed : Bool
  rangeChanged : Bool
  timestamp : BitVec 32
  deriving DecidableEq, Repr

/-- R57, R58: the value of a primary phase that ended OK, before saturation. A RATIO job that ends OK always has its
reference copy, so the `none` of that case does not arise. -/
def jobValue (role : Role) (w : Working) (copy : Option RefCopy) : Option Nat :=
  match role, copy with
  | .ratio, some r =>
    match w.method with
    | .window => some (65536 * r.cRef * w.gTotal / (r.gRef * w.cTotal))
    | .period => some (65536 * w.cTotal * r.gRef / (w.gTotal * r.cRef))
  | .ratio, none => none
  | .absolute, _ => some (65536 * w.cTotal / w.gTotal)
  | .reference, _ => some (65536 * w.cTotal / w.gTotal)
  | .unused, _ => some (65536 * w.cTotal / w.gTotal)

/-- R54, R56, R57 to R59, R62: the record a job announces when it ends with `status`. -/
def announce (status : JobStatus) (j : InFlight) (s : State) : Completion :=
  let w := s.seq.work
  let d := s.channels[j.channel.val].desc
  let begun := j.phase = .primary
  let ok := status = .ok
  let raw := if ok then jobValue d.role w j.refCopy else none
  { channel := j.channel, tag := j.tag, status := status, samplesExp := d.s,
    step := if begun then w.k else j.stepAtStart,
    cTotal := if begun then w.cTotal else 0, gTotal := if begun then w.gTotal else 0, method := w.method,
    value := raw.map (fun v => min v Config.valueMax),
    saturated := match raw with
      | some v => decide (Config.valueMax < v)
      | none => false,
    lowRes := decide (ok ∧ w.largest < Config.lowResCount),
    refPart := if ok ∧ d.role = .ratio then j.refCopy.map (fun r => { cRef := r.cRef, step := r.step, age := r.age })
      else none,
    refreshed := j.refreshed, rangeChanged := j.rangeChanged, timestamp := s.timebase.stamp }

/-- R77: the fault reason a status leaves in a slot. -/
def JobStatus.reason : JobStatus → FaultReason
  | .openArm => .openArm
  | .over => .over
  | .under => .under
  | .none => .none
  | .ok => .none
  | .refFault => .none
  | .aborted => .none

/-- R61: the statuses that set FAULT. -/
def JobStatus.isFault : JobStatus → Bool
  | .over => true
  | .under => true
  | .openArm => true
  | .refFault => true
  | .none => false
  | .ok => false
  | .aborted => false

/-- R76 to R78: a REFERENCE channel's own job updates or invalidates its slot. -/
def referenceShare (a : Completion) (s : State) : State :=
  if s.channels[a.channel.val].desc.role = .reference then
    match a.status with
    | .ok => onSlot a.channel (RefSlot.measured a.cTotal a.gTotal a.method) s
    | .over => onSlot a.channel (RefSlot.faulted .over) s
    | .under => onSlot a.channel (RefSlot.faulted .under) s
    | .openArm => onSlot a.channel (RefSlot.faulted .openArm) s
    | .aborted => s
    | .refFault => s
    | .none => s
  else s

/-- R133, Table 7-2: the zone of an OK result. -/
def classify (old : Zone) (value : Nat) (d : Descriptor) : Zone :=
  let low := d.lowT.toNat
  let high := d.highT.toNat
  let hyst := d.hyst.toNat
  match old with
  | .unknown => if value < low then .below else if high < value then .above else .inside
  | .fault => if value < low then .below else if high < value then .above else .inside
  | .below => if high < value then .above else if low + hyst ≤ value then .inside else .below
  | .inside => if value < low then .below else if high < value then .above else .inside
  | .above => if value < low then .below else if value ≤ high - hyst then .inside else .above

/-- R131 to R135: the zone of the job's channel after this job. -/
def zoneAfter (a : Completion) (c : Channel) : Zone :=
  if c.desc.zoneMonitor then
    match a.status with
    | .ok => classify c.zone (a.value.getD 0) c.desc
    | .over => .fault
    | .under => .fault
    | .openArm => .fault
    | .refFault => .fault
    | .aborted => c.zone
    | .none => c.zone
  else c.zone

/-- R137: the entry of a zone change: the channel's entry is updated in place, or a new one joins at the tail. -/
def alertEntries (ch : ChannelId) (old new : Zone) (stamp : BitVec 32) (l : List AlertEntry) : List AlertEntry :=
  if l.any (fun a => a.channel == ch) then
    l.map (fun a => if a.channel = ch then { a with toZone := new, count := min (a.count + 1) 255, stamp := stamp } else a)
  else l ++ [{ channel := ch, fromZone := old, toZone := new, count := 1, stamp := stamp }]

/-- R131, R137, R138: the Zone Monitor's share of a completion. -/
def zoneShare (a : Completion) (s : State) : State :=
  let c := s.channels[a.channel.val]
  let new := zoneAfter a c
  let t := onChannel a.channel (fun c => { c with zone := new }) s
  if new ≠ c.zone ∧ c.desc.alert then
    raise .alert (t.withAlerts { t.alerts with entries := alertEntries a.channel c.zone new a.timestamp t.alerts.entries })
  else t

/-- R151: whether a completion writes a record. -/
def writesRecord (a : Completion) (changed : Bool) (policy : ReportPolicy) : Bool :=
  match a.tag with
  | .direct _ => true
  | .scan _ =>
    match policy with
    | .always => true
    | .onZoneChange => changed
    | .onFault => a.status.isFault || a.status == .aborted
    | .never => false

/-- R155: the record of a completion. -/
def recordOf (a : Completion) (zone : Zone) (f : ResultFifo) : ResultRecord :=
  { sequence := f.nextSequence, channel := a.channel, tag := a.tag, status := a.status, samplesExp := a.samplesExp,
    step := a.step, gap := f.gapPending, saturated := a.saturated, lowRes := a.lowRes, refreshed := a.refreshed,
    rangeChanged := a.rangeChanged, zone := zone, cTotal := a.cTotal, value := a.value, refPart := a.refPart,
    timestamp := a.timestamp }

/-- R152, R154: the record is written into the reserved slot, or the slot is released. -/
def fifoShare (a : Completion) (zone : Zone) (changed : Bool) (policy : ReportPolicy) (s : State) : State :=
  if writesRecord a changed policy then
    let f := s.fifo
    let t := s.withFifo { f with records := f.records ++ [recordOf a zone f], nextSequence := f.nextSequence + 1,
                                 gapPending := false, reserved := 0 }
    if t.fifo.watermark.toNat ≤ t.fifo.records.length then raise .results t else t
  else s.withFifo { s.fifo with reserved := 0 }

/-- R24. -/
def lastStatusShare (a : Completion) (s : State) : State :=
  onChannel a.channel (fun c => { c with lastStatus := a.status }) s

/-- R61: the Sequencer's own part of a job end: IDLE, the clamp, the marks, the FAULT event, the record cleared. -/
def quietSequencer (j : InFlight) (status : JobStatus) (s : State) : State :=
  let t := markJob false j (clampRequest (s.withSeq .quiet))
  if status.isFault then raise .fault t else t

/-- R62: every block that acts on the announcement, in the order R37, R62 and R118 give. -/
def announceTo (a : Completion) (s : State) : State :=
  let c := s.channels[a.channel.val]
  let zone := zoneAfter a c
  let s1 := zoneShare a (referenceShare a s)
  let s2 := lastStatusShare a (fifoShare a zone (decide (zone ≠ c.zone)) c.desc.policy s1)
  let s3 := if a.tag.isScan then countOut s2 else s2
  decideDeferred s3

/-- R63: the Sequencer is offered to the Arbiter, which may select. -/
def offerSequencer (s : State) : State := select (s.withQueue { s.queue with available := true })

/-- R60 to R63: the job end with its completion, one event; the Sequencer is then offered to the Arbiter. -/
def jobEnd (status : JobStatus) (s : State) : State :=
  match s.seq.job with
  | none => s
  | some j => offerSequencer (announceTo (announce status j s) (quietSequencer j status s))

/-- R64: ABORT_JOB's effect and reply. -/
def abortJob (s : State) : State × Reply :=
  if s.seq.state = .idle then (s, .done 0) else (jobEnd .aborted s, .done 1)

end Sys2Proof.Machine
end

