-- ==== Sys2Proof/Machine/Sampling.lean ====
section
/-! DEFINITION. Samples, overflow, phase ends (03, sections 3.3 and 3.4), the Sequencer's share of ticks and edges, and the
comparator output (01, R3). -/

namespace Sys2Proof.Machine

/-- R53: the committed range step a phase end leaves, from the step before it. -/
def stepAfter (pe : PhaseEnd) (w : Working) (committed : Nat) : Nat :=
  if w.autoRange then
    match pe with
    | .ok =>
      if w.steppedUp = false ∧ 0 < w.k ∧ w.largest < Config.stepDownCount then w.k - 1 else w.k
    | .over => w.k
    | .under => committed
    | .openArm => committed
  else committed

def PhaseEnd.status : PhaseEnd → JobStatus
  | .ok => .ok | .over => .over | .under => .under | .openArm => .openArm

/-- R54 to R56, R60: what follows the end of a phase. -/
def phaseEnd (pe : PhaseEnd) (s : State) : State :=
  match s.seq.job with
  | none => s
  | some j =>
    let w := s.seq.work
    let t := onChannel j.measured (fun c => { c with rangeStep := stepAfter pe w c.rangeStep }) s
    match j.phase with
    | .primary => jobEnd pe.status t
    | .refresh =>
      match pe with
      | .ok =>
        let k : InFlight :=
          { j with refreshed := true, phase := .primary,
                   refCopy := some { cRef := w.cTotal, gRef := w.gTotal, step := w.k, age := 0 } }
        let u := onSlot j.measured (RefSlot.measured w.cTotal w.gTotal w.method) t
        startPhase j.channel (u.withSeq { u.seq with job := some k })
      | .over => jobEnd .refFault (onSlot j.measured (RefSlot.faulted .over) t)
      | .under => jobEnd .refFault (onSlot j.measured (RefSlot.faulted .under) t)
      | .openArm => jobEnd .refFault (onSlot j.measured (RefSlot.faulted .openArm) t)

/-- R50: a complete sample's count is examined. -/
def sampleComplete (s : State) : State :=
  let w := s.seq.work
  if w.count = 0 then phaseEnd .under s
  else
    let v := { w with cTotal := w.cTotal + w.count, gTotal := w.gTotal + gateLength w,
                      largest := max w.largest w.count, samples := w.samples + 1 }
    let t := s.withSeq { s.seq with work := v }
    if samplesPerPhase w ≤ v.samples then phaseEnd .ok t else enterArm t

/-- R52: an overflow. -/
def overflowed (s : State) : State :=
  let w := s.seq.work
  if w.autoRange ∧ w.k < stepLimit w then
    let v := { w with k := w.k + 1, cTotal := 0, gTotal := 0, samples := 0, largest := 0, count := 0, steppedUp := true }
    let j := s.seq.job.map (fun j => { j with rangeChanged := true })
    enterArm (runRequest w.pin (s.withSeq { s.seq with job := j, work := v }))
  else phaseEnd .over s

/-- Table 3-1: the Sequencer's share of a TB tick (R45, R48, R49, R51). -/
def sequencerTb (s : State) : State :=
  let w := s.seq.work
  match s.seq.state with
  | .idle => s
  | .settle => s
  | .discharge =>
    let t := s.withSeq { s.seq with work := { w with dischargeCount := w.dischargeCount + 1 } }
    if w.dischargeLength ≤ w.dischargeCount + 1 then enterSettle t else t
  | .arm =>
    let t := s.withSeq { s.seq with work := { w with timeout := w.timeout + 1 } }
    if timeoutLength w ≤ w.timeout + 1 then phaseEnd .openArm t else t
  | .count =>
    match w.method with
    | .window =>
      let t := s.withSeq { s.seq with work := { w with gate := w.gate + 1, timeout := w.timeout + 1 } }
      if windowGate w ≤ w.gate + 1 then sampleComplete t
      else if timeoutLength w ≤ w.timeout + 1 then phaseEnd .openArm t
      else t
    | .period =>
      if Config.overflowCount ≤ w.count + 1 then overflowed s
      else
        let t := s.withSeq { s.seq with work := { w with count := w.count + 1, timeout := w.timeout + 1 } }
        if timeoutLength w ≤ w.timeout + 1 then phaseEnd .openArm t else t

/-- Table 3-1: the Sequencer's share of a slow tick (R46). -/
def sequencerSlow (s : State) : State :=
  match s.seq.state with
  | .settle =>
    let w := s.seq.work
    let t := s.withSeq { s.seq with work := { w with settleCount := w.settleCount + 1 } }
    if w.settle.toNat ≤ w.settleCount + 1 then enterArm t else t
  | .idle => s
  | .discharge => s
  | .arm => s
  | .count => s

/-- Table 3-1: the Sequencer's share of an oscillator edge (R47 to R49). -/
def sequencerEdge (s : State) : State :=
  let w := s.seq.work
  match s.seq.state with
  | .idle => s
  | .discharge => s
  | .settle => s
  | .arm => startSample s
  | .count =>
    match w.method with
    | .window =>
      if Config.overflowCount ≤ w.count + 1 then overflowed s
      else s.withSeq { s.seq with work := { w with count := w.count + 1, timeout := 0 } }
    | .period =>
      let t := s.withSeq { s.seq with work := { w with gate := w.gate + 1, timeout := 0 } }
      if periodGate w ≤ w.gate + 1 then sampleComplete t else t

/-- R5: a rising edge as the edge detector delivers it; of two less than 250 ns apart the later one is taken or not by
a free value (log 2). -/
def deliverEdge (close : Bool) (s : State) : State :=
  if close then
    let t := s.withFreeIndex (s.freeIndex + 1)
    if Config.closeEdgeTaken s.freeIndex then sequencerEdge t else t
  else sequencerEdge s

/-- R3: the node has crossed a threshold: the comparator output of the selected pin goes high or low. -/
def comparatorTo (high : Bool) (s : State) : State :=
  match s.frontEnd with
  | .clamped => s
  | .held => s
  | .running pin _ => s.withFrontEnd (.running pin high)

/-- R3: an oscillator edge, which arises only while the front end is RUNNING, is a rising transition of the comparator
output: an output that is high has fallen before it (log 19). -/
def oscillatorEdge (close : Bool) (s : State) : State :=
  match s.frontEnd with
  | .clamped => s
  | .held => s
  | .running _ _ => deliverEdge close (comparatorTo true (comparatorTo false s))

/-- R2, R3: what the node does between two commands: a high comparator output falls or keeps its level, by a free value,
with no reference to any tick, and the falling transition is not delivered (log 19). -/
def nodeMoves (s : State) : State :=
  if s.frontEnd.comparator then
    let t := s.withFreeIndex (s.freeIndex + 1)
    if Config.comparatorFalls s.freeIndex then comparatorTo false t else t
  else s

end Sys2Proof.Machine
end

