-- ==== Sys2Proof/Machine/Ticks.lean ====
section
/-! DEFINITION. TB ticks and slow ticks (01, section 1.2) delivered to the blocks that count them. -/

namespace Sys2Proof.Machine

/-- R9. -/
def stampTick (s : State) : State :=
  s.withTimebase { s.timebase with stamp := s.timebase.stamp + 1 }

/-- R72. -/
def ageTick (s : State) : State := s.withRefs (mapTable RefSlot.aged s.refs)

/-- The Scan Controller's share of a slow tick: the pass timer and the TRIG sample. At most one of them starts a pass
or counts an overrun, because the mode decides which (R121, R126). -/
def scanSlow (s : State) : State := trigSample (timerTick s)

/-- R8: a slow tick at the blocks other than the Sequencer. A pass that starts at the tick may start a job, whose
freshness decision sees the ages before or after the tick (R74). -/
def slowShare (s : State) : State := eitherOrder ageTick scanSlow (stampTick s)

/-- What the Sequencer does at a TB tick, by the state it stood in when the tick came; each state counts one kind of
tick (Table 3-1), so a slow tick that falls on the TB tick that enters SETTLE is not counted there (R46, log 3). -/
def sequencerShare (before : SeqState) (slow : Bool) (s : State) : State :=
  match before with
  | .idle => s
  | .settle => if slow then sequencerSlow s else s
  | .discharge => sequencerTb s
  | .arm => sequencerTb s
  | .count => sequencerTb s

/-- R116: the cursor's share of a TB tick: it moves on from an offer settled before the tick. -/
def cursorShare (before : Cursor) (s : State) : State :=
  match before with
  | .settled _ => cursorMove s
  | .waiting _ _ => s
  | .cleared => s
  | .done => s

/-- R7, R8: a TB tick. On the tick that brings the slow-tick divider to 1,024 a slow tick is produced. The order in
which the blocks take what falls on one tick is free (log 3). -/
def tbTick (trigHigh : Bool) (s : State) : State :=
  if clocked s then
    let slow := decide (Config.slowTickLength ≤ s.timebase.slowDivider + 1)
    let t := (s.withTimebase { s.timebase with
        prescaleDivider := 0, slowDivider := if slow then 0 else s.timebase.slowDivider + 1 }).withPins
      { s.pins with trig := trigHigh }
    anyOrder (sequencerShare s.seq.state slow) (cursorShare s.scan.cursor)
      (fun u => if slow then slowShare u else u) t
  else s

/-- R8: a slow tick. -/
def slowTick (trigHigh : Bool) (s : State) : State :=
  if clocked s then
    slowShare (sequencerSlow
      ((s.withTimebase { s.timebase with slowDivider := 0 }).withPins { s.pins with trig := trigHigh }))
  else s

end Sys2Proof.Machine
end

