-- ==== Sys2Proof/Machine/Commands.lean ====
section
/-! DEFINITION. The effect and the reply of each command of Table 9-1 but ABORT_JOB (Completion) and ENGINE_RESET (Resets). -/

namespace Sys2Proof.Machine

/-- A refusal with result byte 0 changes no state (R172). -/
def refuse (r : Reason) (s : State) : State × Reply := (s, .refused r 0)

/-- R90, checks 3 to 6, for a channel while AWAKE. -/
def admitDirect (ch : ChannelId) (s : State) : State × Reply :=
  let d := s.channels[ch.val].desc
  if d.role = .unused then refuse .channelUnused s
  else if d.enabled = false then refuse .channelDisabled s
  else
    match s.queue.jobs.find? (QueuedJob.isDirectFor ch) with
    | some j => (s, { state := .merged, reason := none, result := BitVec.ofNat 8 j.tag.number.toNat })
    | none =>
      if Config.queueCapacity ≤ s.queue.jobs.length then refuse .queueFull s
      else
        let ticket := s.queue.nextTicket
        (select (s.withQueue { s.queue with
            jobs := s.queue.jobs ++ [{ channel := ch, tag := .direct ticket }],
            nextTicket := ticketAfter ticket }),
          .done ticket.toNat)

/-- R90, R91: MEASURE_NOW. An admission into an empty queue selects at once (R94). -/
def measureNow (s : State) : State × Reply :=
  match channelOf s.cmd.arg0 with
  | none => refuse .badArg s
  | some ch => if s.timebase.power = .asleep then refuse .asleep s else admitDirect ch s

/-- R101: the classes a mask names. -/
def classMask (mask : Byte) : Option (QueuedJob → Bool) :=
  if mask = 0x01 then some (fun j => j.tag.isDirect)
  else if mask = 0x02 then some (fun j => j.tag.isScan)
  else if mask = 0x03 then some (fun _ => true)
  else none

/-- R101: FLUSH_QUEUE. -/
def flushQueue (s : State) : State × Reply :=
  match classMask s.cmd.arg0 with
  | none => refuse .badArg s
  | some p => ((removeJobs p s).1, .done (removeJobs p s).2)

/-- R111: the mode a SCAN_START argument names. -/
def startMode (b : Byte) : Option ScanMode :=
  if b = 0x01 then some .periodic else if b = 0x02 then some .triggered else none

/-- R111: SCAN_START. -/
def scanStart (s : State) : State × Reply :=
  match startMode s.cmd.arg0 with
  | none => refuse .badArg s
  | some mode =>
    if s.timebase.power = .asleep then refuse .asleep s
    else if s.scan.state ≠ .stopped then refuse .notStopped s
    else
      (passStart (s.withScan { s.scan with
          mode := mode, passNumber := 0, timer := 0,
          latched := if mode = .periodic then passPeriod s.scan else s.scan.latched }),
        .done 0)

/-- R112: SCAN_ONCE. STOPPING is not reached: the stop holds the outcome WORKING (R175). -/
def scanOnce (s : State) : State × Reply :=
  if s.timebase.power = .asleep then refuse .asleep s
  else
    match s.scan.state with
    | .stopped => (passStart (s.withScan { s.scan with mode := .single, passNumber := 0 }), .done 0)
    | .waiting => (passStart s, .done 0)
    | .running => refuse .passActive s
    | .stopping => refuse .passActive s

/-- A SCAN job is in flight (R113). -/
def scanInFlight (s : State) : Bool :=
  match s.seq.job with
  | some j => j.tag.isScan
  | none => false

/-- R113: SCAN_STOP. -/
def scanStop (s : State) : State × Reply :=
  if s.scan.state = .stopped then (s, .done 0)
  else
    let r := removeJobs (fun j => j.tag.isScan) (s.withScan { s.scan with cursor := .cleared, timer := 0 })
    if scanInFlight s then (r.1.withScan { r.1.scan with state := .stopping }, .working r.2)
    else
      let t := applySwap r.1
      (t.withScan { t.scan with state := .stopped }, .done r.2)

/-- R108: SWAP_BANKS. STOPPING is not reached, as for SCAN_ONCE. -/
def swapBanks (s : State) : State × Reply :=
  let next := s.scan.active.other
  if s.scan.swapPending then refuse .swapPending s
  else
    match s.scan.state with
    | .stopped => (s.withScan { s.scan with active := next }, .done next.code.toNat)
    | .waiting => (s.withScan { s.scan with active := next }, .done next.code.toNat)
    | .running => (s.withScan { s.scan with swapPending := true }, .done next.code.toNat)
    | .stopping => (s.withScan { s.scan with swapPending := true }, .done next.code.toNat)

/-- R28, R36: COMMIT_CHANNEL. -/
def commitChannel (s : State) : State × Reply :=
  match channelOf s.cmd.arg0 with
  | none => refuse .badArg s
  | some ch =>
    let im := Image.ofStaging s.staging
    if s.channels[ch.val].engaged then (s.withDeferred (some { channel := ch, image := im }), .working 0)
    else decideCommit ch im s

/-- R27: FETCH_CHANNEL. -/
def fetchChannel (s : State) : State × Reply :=
  match channelOf s.cmd.arg0 with
  | none => refuse .badArg s
  | some ch =>
    let c := s.channels[ch.val]
    (s.withStaging (fetchedBytes ch c), .done (if c.engaged then 1 else 0))

/-- R80: INVALIDATE_REFERENCE. -/
def invalidateReference (s : State) : State × Reply :=
  if s.cmd.arg0 = 0xFF then (invalidateAll s, .done (s.refs.toList.countP (fun sl => sl.valid)))
  else
    match channelOf s.cmd.arg0 with
    | none => refuse .badArg s
    | some ch =>
      match slotOf ch s with
      | none => refuse .refMissing s
      | some sl => (onSlot ch RefSlot.invalidate s, .done (if sl.valid then 1 else 0))

/-- R142: CLEAR_ZONE. -/
def clearZone (s : State) : State × Reply :=
  if s.cmd.arg0 = 0xFF then
    ((s.withChannels (mapTable (fun c => { c with zone := .unknown }) s.channels)).withAlerts
      { s.alerts with entries := [] }, .done s.alerts.entries.length)
  else
    match channelOf s.cmd.arg0 with
    | none => refuse .badArg s
    | some ch =>
      (removeAlert ch (onChannel ch (fun c => { c with zone := .unknown }) s),
        .done (s.alerts.entries.countP (fun a => a.channel == ch)))

/-- R141: CLEAR_ALERTS. -/
def clearAlerts (s : State) : State × Reply :=
  (s.withAlerts { s.alerts with entries := [] }, .done s.alerts.entries.length)

/-- R159: CLEAR_RESULTS, a retry event of a stalled Arbiter (R98). -/
def clearResults (s : State) : State × Reply :=
  (retry (s.withFifo { s.fifo with records := [] }), .done s.fifo.records.length)

/-- R12, R13: SET_TIMEBASE. -/
def setTimebase (s : State) : State × Reply :=
  if 7 < s.cmd.arg0.toNat then refuse .badArg s
  else if s.timebase.power = .asleep then refuse .asleep s
  else if s.seq.state ≠ .idle then refuse .notIdle s
  else if s.scan.state ≠ .stopped then refuse .notStopped s
  else
    (invalidateAll (s.withTimebase { s.timebase with
        p := Fin.ofNat 8 s.cmd.arg0.toNat, prescaleDivider := 0, slowDivider := 0 }),
      .done s.timebase.p.val)

/-- R15, R16: SLEEP. -/
def sleep (s : State) : State × Reply :=
  if s.timebase.power = .asleep then (s, .done 0)
  else if s.seq.state ≠ .idle then refuse .notIdle s
  else if s.scan.state ≠ .stopped then refuse .notStopped s
  else if s.queue.jobs ≠ [] then refuse .queueNotEmpty s
  else
    (invalidateAll ((s.withTimebase { s.timebase with
        power := .asleep, prescaleDivider := 0, slowDivider := 0 }).withFrontEnd .held),
      .done 0)

/-- R18: WAKE. -/
def wake (s : State) : State × Reply :=
  if s.timebase.power = .awake then (s, .done 0)
  else
    ((s.withTimebase { s.timebase with power := .awake, prescaleDivider := 0, slowDivider := 0 }).withFrontEnd .clamped,
      .done 0)

/-- R173: an unassigned code. -/
def unknownCommand (s : State) : State × Reply := refuse .unknownCommand s

end Sys2Proof.Machine
end

