-- ==== Sys2Proof/Machine/Resets.lean ====
section
/-! DEFINITION. ENGINE_RESET (09, section 9.11), the power-on reset and its end (01, R19). -/

namespace Sys2Proof.Machine

/-- R40: a channel after ENGINE_RESET; its descriptor is kept. -/
def Channel.quiet (c : Channel) : Channel :=
  { c with zone := .unknown, rangeStep := 0, lastStatus := .none, engaged := false }

/-- R128: the Scan Controller after ENGINE_RESET. -/
def ScanController.quiet (sc : ScanController) : ScanController :=
  { sc with state := .stopped, swapPending := false, passNumber := 0, cursor := .cleared, passCount := 0, timer := 0,
            overrun := 0 }

/-- R162: the Result FIFO after ENGINE_RESET. -/
def ResultFifo.quiet (f : ResultFifo) : ResultFifo :=
  { f with records := [], reserved := 0, nextSequence := 0, gapPending := false, latch := none }

/-- Table 9-2: every engine block in its ENGINE_RESET state, with every event flag clear (R188). -/
def quietEngine (s : State) : State :=
  clampRequest (invalidateAll
    ((((((((s.withSeq .quiet).withChannels (mapTable Channel.quiet s.channels)).withDeferred none).withQueue .quiet).withScan
      s.scan.quiet).withAlerts { entries := [], latch := none }).withFifo s.fifo.quiet).withEvents
      { s.events with flags := 0 }))

/-- R178: ENGINE_RESET, as one action. The flags are cleared before a cancellation sets COMMAND; the result byte is the
cancelled command's code, or 0. -/
def engineReset (s : State) : State :=
  let t := quietEngine s
  if s.cmd.outcome.state = .working then
    recordOutcome 0x50 { state := .done, reason := none, result := s.cmd.outcome.command } (raise .command t)
  else recordOutcome 0x50 (.done 0) t

/-- R19: the start of a reset: HELD, and every block in its power-on state. The queue of commands, the pin levels, the
free counter and the I2C address, which the end of the reset fixes anew, are no block's reset. -/
def powerOn (s : State) : State :=
  { State.reset with
    pending := s.pending, inReset := true, frontEnd := .held, pins := s.pins, freeIndex := s.freeIndex,
    port := { State.reset.port with address := s.port.address } }

/-- R19, R163: the end of a reset: ADDR is sampled and the front end becomes CLAMPED (R6). -/
def endReset (addrHigh : Bool) (s : State) : State :=
  if s.inReset then
    (((s.withInReset false).withFrontEnd .clamped).withPins { s.pins with addr := addrHigh }).withPort
      { s.port with address := if addrHigh then 0x2D else 0x2C }
  else s

end Sys2Proof.Machine
end

