-- ==== Sys2Proof/Machine/Window.lean ====
section
/-! DEFINITION. What a register read of each window address returns (09 R168, 11), the two pops, and the starts and the
sent bytes of transactions (R163 to R166). -/

namespace Sys2Proof.Machine

/-- R166, R167: the live state the snapshot copies. -/
def liveSnapshot (s : State) : Snapshot :=
  { seqState := s.seq.state, scanState := s.scan.state, scanMode := s.scan.mode, active := s.scan.active,
    swapPending := s.scan.swapPending, power := s.timebase.power, filtered := s.scan.filtered,
    queueDepth := s.queue.jobs.length, occupancy := s.fifo.records.length, reserved := s.fifo.reserved,
    alertCount := s.alerts.entries.length, passNumber := s.scan.passNumber, overrun := s.scan.overrun,
    stamp := s.timebase.stamp }

/-- Table 11-2: the byte of the snapshot at an address from 02h to 0Fh. -/
def Snapshot.byte (n : Snapshot) (address : Nat) : Byte :=
  match address with
  | 0x02 => n.seqState.code
  | 0x03 => n.scanState.code ||| (n.scanMode.code <<< 4)
  | 0x04 => n.active.code ||| (boolByte n.swapPending <<< 1) ||| (n.power.code <<< 2) ||| (boolByte n.filtered <<< 3)
  | 0x05 => BitVec.ofNat 8 n.queueDepth
  | 0x06 => BitVec.ofNat 8 n.occupancy
  | 0x07 => BitVec.ofNat 8 n.reserved
  | 0x08 => BitVec.ofNat 8 n.alertCount
  | 0x09 => byteOfNat n.passNumber.toNat 0
  | 0x0A => byteOfNat n.passNumber.toNat 1
  | 0x0B => n.overrun
  | 0x0C => byteOfNat n.stamp.toNat 0
  | 0x0D => byteOfNat n.stamp.toNat 1
  | 0x0E => byteOfNat n.stamp.toNat 2
  | 0x0F => byteOfNat n.stamp.toNat 3
  | _ => 0

/-- Table 11-6, byte 7: the flags of a record. -/
def ResultRecord.flagByte (r : ResultRecord) : Byte :=
  boolByte r.value.isSome ||| (boolByte r.refPart.isSome <<< 1) ||| (boolByte r.saturated <<< 2)
    ||| (boolByte r.lowRes <<< 3) ||| (boolByte r.refreshed <<< 4) ||| (boolByte r.rangeChanged <<< 5)
    ||| (boolByte r.gap <<< 6)

/-- Table 11-6: the byte of a record at an offset from 60h; a field not present reads 0 (R156). -/
def ResultRecord.byte (r : ResultRecord) (offset : Nat) : Byte :=
  let value := r.value.getD 0
  let part := r.refPart.getD { cRef := 0, step := 0, age := 0 }
  match offset with
  | 0x00 => byteOfNat r.sequence.toNat 0
  | 0x01 => byteOfNat r.sequence.toNat 1
  | 0x02 => BitVec.ofNat 8 r.channel.val
  | 0x03 => r.status.code ||| (r.tag.originCode <<< 3) ||| (r.zone.code <<< 4)
  | 0x04 => byteOfNat r.tag.number.toNat 0
  | 0x05 => byteOfNat r.tag.number.toNat 1
  | 0x06 => BitVec.ofNat 8 r.samplesExp.val ||| (BitVec.ofNat 8 (r.step % 4) <<< 3)
      ||| (BitVec.ofNat 8 (part.step % 4) <<< 5)
  | 0x07 => r.flagByte
  | 0x08 => byteOfNat r.cTotal 0
  | 0x09 => byteOfNat r.cTotal 1
  | 0x0A => byteOfNat r.cTotal 2
  | 0x0B => byteOfNat value 0
  | 0x0C => byteOfNat value 1
  | 0x0D => byteOfNat value 2
  | 0x0E => byteOfNat value 3
  | 0x0F => byteOfNat part.cRef 0
  | 0x10 => byteOfNat part.cRef 1
  | 0x11 => byteOfNat part.cRef 2
  | 0x12 => byteOfNat part.age 0
  | 0x13 => byteOfNat part.age 1
  | 0x14 => byteOfNat r.timestamp.toNat 0
  | 0x15 => byteOfNat r.timestamp.toNat 1
  | 0x16 => byteOfNat r.timestamp.toNat 2
  | 0x17 => byteOfNat r.timestamp.toNat 3
  | _ => 0

/-- R194: the result latch in the window; the NONE record reads FFh, FFh, then 00h. -/
def resultLatchByte (latch : Option ResultRecord) (offset : Nat) : Byte :=
  match latch with
  | some r => r.byte offset
  | none => if offset ≤ 1 then 0xFF else 0

/-- R194: the alert latch in the window; the empty entry reads FFh, then 00h. -/
def alertLatchByte (latch : Option AlertEntry) (offset : Nat) : Byte :=
  match latch with
  | none => if offset = 0 then 0xFF else 0
  | some a =>
    match offset with
    | 0 => BitVec.ofNat 8 a.channel.val
    | 1 => a.fromZone.code
    | 2 => a.toZone.code
    | 3 => BitVec.ofNat 8 a.count
    | 4 => byteOfNat a.stamp.toNat 0
    | 5 => byteOfNat a.stamp.toNat 1
    | 6 => byteOfNat a.stamp.toNat 2
    | 7 => byteOfNat a.stamp.toNat 3
    | _ => 0

/-- Table 11-9: a byte of a slot in the table view. -/
def RefSlot.byte (sl : RefSlot) (n : Nat) : Byte :=
  match n with
  | 0 => match sl.owner with
    | some ch => BitVec.ofNat 8 ch.val
    | none => 0xFF
  | 1 => BitVec.ofNat 8 (sl.users % 16) ||| (boolByte sl.valid <<< 4) ||| (sl.fault.code <<< 5)
  | 2 => byteOfNat sl.age 0
  | 3 => byteOfNat sl.age 1
  | _ => 0

/-- R195: the reason field; reason none reads 0. -/
def reasonCode : Option Reason → Byte
  | some r => r.code
  | none => 0

/-- Table 11-8: the outcome record, from 1Dh; the reason reads 0 in every state but REFUSED. -/
def OutcomeRecord.byte (o : OutcomeRecord) (n : Nat) : Byte :=
  match n with
  | 0 => o.command
  | 1 => o.state.code ||| (boolByte o.collision <<< 3)
      ||| (reasonCode o.reason <<< 4)
  | 2 => o.result
  | _ => 0

/-- Table 11-3: the configuration bytes as stored. -/
def configByte (s : State) (address : Nat) : Byte :=
  match address with
  | 0x20 => s.scan.periodLow
  | 0x21 => s.scan.periodHigh
  | 0x22 => s.scan.trigSetting
  | 0x23 => s.timebase.discharge
  | 0x24 => s.fifo.policy.code
  | 0x25 => s.fifo.watermark
  | 0x26 => s.scan.lengthA
  | 0x27 => s.scan.lengthB
  | _ => 0

/-- R168: the byte a register read of an address returns; at 60h and 80h, the latch as it stands (after the pop). -/
def readByte (s : State) (address : Byte) : Byte :=
  let a := address.toNat
  if a = 0x00 then 0x16
  else if a = 0x01 then 0x01
  else if a ≤ 0x0F then s.port.snapshot.byte a
  else if a = 0x10 then s.events.flags
  else if a = 0x11 then s.events.enables
  else if a = 0x19 then s.cmd.arg0
  else if a = 0x1A then s.cmd.arg1
  else if a = 0x1B then s.cmd.arg2
  else if a = 0x1C then s.cmd.arg3
  else if 0x1D ≤ a ∧ a ≤ 0x1F then s.cmd.outcome.byte (a - 0x1D)
  else if 0x20 ≤ a ∧ a ≤ 0x27 then configByte s a
  else if 0x40 ≤ a ∧ a ≤ 0x5F then stagedByte s.staging (a - 0x40)
  else if 0x60 ≤ a ∧ a ≤ 0x77 then resultLatchByte s.fifo.latch (a - 0x60)
  else if 0x80 ≤ a ∧ a ≤ 0x87 then alertLatchByte s.alerts.latch (a - 0x80)
  else if 0x90 ≤ a ∧ a ≤ 0xBF then bankByte .a s.scan (a - 0x90)
  else if 0xC0 ≤ a ∧ a ≤ 0xEF then bankByte .b s.scan (a - 0xC0)
  else if 0xF0 ≤ a then ((s.refs[(a - 0xF0) / 4]?).getD .free).byte ((a - 0xF0) % 4)
  else 0

/-- R157: the pop of the Result FIFO, before any retry. -/
def takeResult (s : State) : State :=
  match s.fifo.records with
  | [] => s.withFifo { s.fifo with latch := none }
  | r :: rest => s.withFifo { s.fifo with records := rest, latch := some r }

/-- R157, R98: the pop, a retry event of a stalled Arbiter. -/
def popResult (s : State) : State := retry (takeResult s)

/-- R139: the pop of the alert list. -/
def popAlert (s : State) : State :=
  match s.alerts.entries with
  | [] => s.withAlerts { s.alerts with latch := none }
  | a :: rest => s.withAlerts { entries := rest, latch := some a }

/-- R165, R169: the action of reading an address: a pop at 60h and at 80h, none elsewhere. -/
def readAction (address : Byte) (s : State) : State :=
  if address = 0x60 then popResult s else if address = 0x80 then popAlert s else s

/-! ### Transactions -/

/-- R163: the port acknowledges a start followed by its own 7-bit address, with either direction bit, and no other: not
the general call, and not the first byte of a ten-bit address; while a reset is held it acknowledges none. -/
def acknowledges (addressByte : Byte) (s : State) : Bool := !s.inReset && addressByte >>> 1 == s.port.address.setWidth 8

/-- R163: the address byte of a transaction of this port, with its direction bit: 1 for a read. -/
def ownAddress (read : Bool) (s : State) : Byte := s.port.address ++ BitVec.ofBool read

/-- R164, R165: the pointer rises by 1, and FFh is followed by 00h. -/
def advancePointer (s : State) : State := s.withPort { s.port with pointer := s.port.pointer + 1 }

/-- R163 to R166, R170: a start or repeated start, followed by an address byte. It ends the transaction before it. The
port's own address opens a write transaction, or a read transaction with the snapshot copied; a transaction to another
target leaves the port out of the bus, with its pointer (log 20). -/
def busStart (addressByte : Byte) (s : State) : State :=
  if acknowledges addressByte s then
    if addressByte.getLsbD 0 then s.withPort { s.port with snapshot := liveSnapshot s, bus := .reading }
    else s.withPort { s.port with bus := .awaitPointer }
  else if s.inReset then s
  else s.withPort { s.port with bus := .idle }

/-- R164: the port's own address with the write bit. -/
def openWrite (s : State) : State := busStart (ownAddress false s) s

/-- R165, R166: the port's own address with the read bit. -/
def copySnapshot (s : State) : State := busStart (ownAddress true s) s

/-- R165: the port begins to send the byte at the pointer: the read's action, the byte it then gives, the pointer past
it. -/
def sendByte (action : State → State) (s : State) : State :=
  let t := action s
  advancePointer (t.withPort { t.port with sent := readByte t s.port.pointer })

/-- R165, R170: a byte of a read transaction, in the row of the read of `address` that has the action `pop`. The byte
is the one at the pointer: elsewhere than at `address` it is that address's read (log 7). No byte is sent outside a
read transaction. -/
def windowRead (address : Byte) (pop : State → State) (s : State) : State :=
  if s.inReset then s
  else
    match s.port.bus with
    | .reading => sendByte (if s.port.pointer = address then pop else readAction s.port.pointer) s
    | .idle => s
    | .awaitPointer => s
    | .writing => s

end Sys2Proof.Machine
end

