-- ==== Sys2Proof/Machine/CommandPort.lean ====
section
/-! DEFINITION. The Command Port (09): decoding, collisions, priority commands; register writes by address (R168)
and the data bytes that bring them (R164). -/

namespace Sys2Proof.Machine

/-- R173, R175: a command that is not a priority command: decoded while no command is WORKING, else discarded. -/
def issue (code : Byte) (effect : State → State × Reply) (s : State) : State :=
  if s.cmd.outcome.state = .working then collide s
  else recordOutcome code (effect s).2 (effect s).1

/-- R177: ABORT_JOB: taken while a command is WORKING without touching the record. -/
def issueAbort (s : State) : State :=
  if s.cmd.outcome.state = .working then (abortJob s).1 else recordOutcome 0x02 (abortJob s).2 (abortJob s).1

/-- R171, R195: the command of a code. -/
def issueCode (code : Byte) (s : State) : State :=
  if code = 0x01#8 then issue 0x01 measureNow s
  else if code = 0x02#8 then issueAbort s
  else if code = 0x03#8 then issue 0x03 flushQueue s
  else if code = 0x10#8 then issue 0x10 scanStart s
  else if code = 0x11#8 then issue 0x11 scanStop s
  else if code = 0x12#8 then issue 0x12 scanOnce s
  else if code = 0x13#8 then issue 0x13 swapBanks s
  else if code = 0x20#8 then issue 0x20 commitChannel s
  else if code = 0x21#8 then issue 0x21 fetchChannel s
  else if code = 0x30#8 then issue 0x30 invalidateReference s
  else if code = 0x38#8 then issue 0x38 clearZone s
  else if code = 0x39#8 then issue 0x39 clearAlerts s
  else if code = 0x3A#8 then issue 0x3A clearResults s
  else if code = 0x40#8 then issue 0x40 setTimebase s
  else if code = 0x41#8 then issue 0x41 sleep s
  else if code = 0x42#8 then issue 0x42 wake s
  else if code = 0x50#8 then engineReset s
  else issue code unknownCommand s

/-- R107: a bank's entries and length take writes while it is inactive, or while the scan is STOPPED. -/
def bankWritable (bank : Bank) (s : State) : Bool := bank != s.scan.active || s.scan.state == .stopped

/-- The bank a scan-bank address belongs to. -/
def bankOf (address : Byte) : Bank :=
  if address = 0x26#8 then .a else if address = 0x27#8 then .b else if address.toNat < 0xC0 then .a else .b

/-- R107: a write that is taken: an entry byte as written, a length at most 24. -/
def storeBank (address value : Byte) (sc : ScanController) : ScanController :=
  let a := address.toNat
  if address = 0x26#8 then { sc with lengthA := storedLength value }
  else if address = 0x27#8 then { sc with lengthB := storedLength value }
  else if a < 0xC0 then { sc with bankA := sc.bankA.setIfInBounds (a - 0x90) value }
  else { sc with bankB := sc.bankB.setIfInBounds (a - 0xC0) value }

/-- R107: a write to a bank entry byte or a bank length. -/
def writeBank (address value : Byte) (s : State) : State :=
  if bankWritable (bankOf address) s then s.withScan (storeBank address value s.scan) else s

/-- R122: a write of 00h clears the live counter; any other value is ignored. -/
def writeOverrun (value : Byte) (s : State) : State :=
  if value = 0 then s.withScan { s.scan with overrun := 0 } else s

/-- R150: the policy byte, a retry event of a stalled Arbiter (R98). -/
def writePolicy (value : Byte) (s : State) : State :=
  retry (s.withFifo { s.fifo with policy := storedPolicy value })

/-- R120: a write that would leave both period bytes 0 stores 1 in the low byte. -/
def writePeriodLow (value : Byte) (s : State) : State :=
  s.withScan { s.scan with periodLow := if value = 0 ∧ s.scan.periodHigh = 0 then 1 else value }

/-- R120, R192. -/
def writePeriodHigh (value : Byte) (s : State) : State :=
  s.withScan { s.scan with
    periodHigh := value, periodLow := if value = 0 ∧ s.scan.periodLow = 0 then 1 else s.scan.periodLow }

/-- R168: the writes that have no row of their own: arguments, configuration, staging; every other address ignores. -/
def writePlain (address value : Byte) (s : State) : State :=
  let a := address.toNat
  if a = 0x19 then s.withCmd { s.cmd with arg0 := value }
  else if a = 0x1A then s.withCmd { s.cmd with arg1 := value }
  else if a = 0x1B then s.withCmd { s.cmd with arg2 := value }
  else if a = 0x1C then s.withCmd { s.cmd with arg3 := value }
  else if a = 0x20 then writePeriodLow value s
  else if a = 0x21 then writePeriodHigh value s
  else if a = 0x22 then s.withScan { s.scan with trigSetting := storedTrig value }
  else if a = 0x23 then s.withTimebase { s.timebase with discharge := storedDischarge value }
  else if a = 0x25 then s.withFifo { s.fifo with watermark := storedWatermark value }
  else if 0x40 ≤ a ∧ a ≤ 0x5F then s.withStaging (s.staging.setIfInBounds (a - 0x40) value)
  else s

/-- R168: a register write at any address, by the rule of the block that owns it. -/
def registerWrite (address value : Byte) (s : State) : State :=
  if address = 0x18#8 then issueCode value s
  else if address = 0x0B#8 then writeOverrun value s
  else if address = 0x10#8 then clearFlags value s
  else if address = 0x11#8 then writeEnables value s
  else if address = 0x24#8 then writePolicy value s
  else if scanBankAddress address then writeBank address value s
  else writePlain address value s

/-- R163, R164, R170: a whole data byte: the first of a write transaction loads the pointer and writes nothing; each
later one is written, by `write`, with the pointer past its address. Outside a write transaction no byte is taken. -/
def takeByte (value : Byte) (write : State → State) (s : State) : State :=
  if s.inReset then s
  else
    match s.port.bus with
    | .awaitPointer => s.withPort { s.port with pointer := value, bus := .writing }
    | .writing => write (advancePointer s)
    | .idle => s
    | .reading => s

/-- R164: a data byte in the row of the register write of `value` at `address`, with the owner's `effect`. The byte is
written at the address held in the pointer: elsewhere than at `address` it is that address's write (log 12). -/
def dataByte (address value : Byte) (effect : State → State) (s : State) : State :=
  takeByte value (if s.port.pointer = address then effect else registerWrite s.port.pointer value) s

/-- R164: a data byte in the row of the pointer load. -/
def loadPointer (value : Byte) (s : State) : State := takeByte value (registerWrite s.port.pointer value) s

end Sys2Proof.Machine
end

