-- ==== Sys2Proof/Machine/ExecCommands.lean ====
section
/-! DEFINITION. The meanings of the commands written to COMMAND at 18h (09, Table 9-1): each is the write of its code. -/

namespace Sys2Proof.Machine

/-- R90. -/
def execMeasureNow (s : State) : Answer := .next (dataByte 0x18 0x01 (issue 0x01 measureNow) s)
/-- R64, R177. -/
def execAbortJob (s : State) : Answer := .next (dataByte 0x18 0x02 issueAbort s)
/-- R101. -/
def execFlushQueue (s : State) : Answer := .next (dataByte 0x18 0x03 (issue 0x03 flushQueue) s)
/-- R111. -/
def execScanStart (s : State) : Answer := .next (dataByte 0x18 0x10 (issue 0x10 scanStart) s)
/-- R113. -/
def execScanStop (s : State) : Answer := .next (dataByte 0x18 0x11 (issue 0x11 scanStop) s)
/-- R112. -/
def execScanOnce (s : State) : Answer := .next (dataByte 0x18 0x12 (issue 0x12 scanOnce) s)
/-- R108. -/
def execSwapBanks (s : State) : Answer := .next (dataByte 0x18 0x13 (issue 0x13 swapBanks) s)
/-- R28. -/
def execCommitChannel (s : State) : Answer := .next (dataByte 0x18 0x20 (issue 0x20 commitChannel) s)
/-- R27. -/
def execFetchChannel (s : State) : Answer := .next (dataByte 0x18 0x21 (issue 0x21 fetchChannel) s)
/-- R80. -/
def execInvalidateReference (s : State) : Answer := .next (dataByte 0x18 0x30 (issue 0x30 invalidateReference) s)
/-- R142. -/
def execClearZone (s : State) : Answer := .next (dataByte 0x18 0x38 (issue 0x38 clearZone) s)
/-- R141. -/
def execClearAlerts (s : State) : Answer := .next (dataByte 0x18 0x39 (issue 0x39 clearAlerts) s)
/-- R159. -/
def execClearResults (s : State) : Answer := .next (dataByte 0x18 0x3A (issue 0x3A clearResults) s)
/-- R12. -/
def execSetTimebase (s : State) : Answer := .next (dataByte 0x18 0x40 (issue 0x40 setTimebase) s)
/-- R15. -/
def execSleep (s : State) : Answer := .next (dataByte 0x18 0x41 (issue 0x41 sleep) s)
/-- R18. -/
def execWake (s : State) : Answer := .next (dataByte 0x18 0x42 (issue 0x42 wake) s)
/-- R178. -/
def execEngineReset (s : State) : Answer := .next (dataByte 0x18 0x50 engineReset s)
/-- R173. A code that Table 9-1 assigns, which is no operand of this row, is the command it names. -/
def execUnknownCommand (code : Byte) (s : State) : Answer := .next (dataByte 0x18 code (issueCode code) s)

end Sys2Proof.Machine
end

