-- ==== Sys2Proof/Machine/ExecEvents.lean ====
section
/-! DEFINITION. The meanings of resets, ticks, edges, and the events of the Sequencer, the scan and the queue.

A row that names the moment at which a count is complete stands for that moment (log 1): its rule's effect follows
whatever the model's own count shows. In a state in which the event cannot arise it changes nothing. -/

namespace Sys2Proof.Machine

/-- R19. -/
def execPowerOnReset (s : State) : Answer := .next (powerOn s)
/-- R19. -/
def execResetEnd (addrHigh : Bool) (s : State) : Answer := .next (endReset addrHigh s)
/-- R7. -/
def execTbTick (trigHigh : Bool) (s : State) : Answer := .next (tbTick trigHigh s)
/-- R8. -/
def execSlowTick (trigHigh : Bool) (s : State) : Answer := .next (slowTick trigHigh s)
/-- R3, R5. -/
def execOscillatorEdge (close : Bool) (s : State) : Answer := .next (oscillatorEdge close s)
/-- R45: the discharge time is complete. -/
def execDischargeEnd (s : State) : Answer := .next (if s.seq.state = .discharge then enterSettle s else s)
/-- R46: the settle count is complete. -/
def execSettleEnd (s : State) : Answer := .next (if s.seq.state = .settle then enterArm s else s)
/-- R51: the edge timeout is reached, in ARM or COUNT. -/
def execEdgeTimeout (s : State) : Answer :=
  .next (if s.seq.state = .arm ∨ s.seq.state = .count then phaseEnd .openArm s else s)
/-- R48: the WINDOW gate is reached. -/
def execWindowGateClose (s : State) : Answer :=
  .next (if s.seq.state = .count ∧ s.seq.work.method = .window then sampleComplete s else s)
/-- R49: the PERIOD gate is reached. -/
def execPeriodGateClose (s : State) : Answer :=
  .next (if s.seq.state = .count ∧ s.seq.work.method = .period then sampleComplete s else s)
/-- R52. -/
def execOverflow (s : State) : Answer := .next (if s.seq.state = .count then overflowed s else s)
/-- R121. -/
def execPassTimerExpiry (s : State) : Answer := .next (if clocked s && timerRuns s then expiry s else s)
/-- R124: the sampled level has differed from the filtered level for long enough. -/
def execTrigEdgeQualified (s : State) : Answer :=
  .next (if clocked s then
      qualifiedEdge (!s.scan.filtered) (s.withPins { s.pins with trig := !s.scan.filtered })
    else s)
/-- R94. -/
def execArbiterSelection (s : State) : Answer := .next (select s)
/-- R116. -/
def execCursorAdvance (s : State) : Answer := .next (if clocked s then cursorMove s else s)
/-- R93, R94: an offer admitted into an empty queue selects at once. An offer waits in RUNNING alone, where ticks arrive
(R15, R116). -/
def execOfferRetake (s : State) : Answer := .next (if clocked s then select (retakeOffer s) else s)

end Sys2Proof.Machine
end

