-- ==== Sys2Proof/Machine/ExecRegisters.lean ====
section
/-! DEFINITION. The meanings of the register writes, the two popping reads, and the transactions of the Serial Port (09). -/

namespace Sys2Proof.Machine

/-- R157: a register read of 60h. -/
def execResultWindowPop (s : State) : Answer := .next (windowRead 0x60 popResult s)
/-- R139: a register read of 80h. -/
def execAlertWindowPop (s : State) : Answer := .next (windowRead 0x80 popAlert s)
/-- R184. -/
def execEventFlagsWrite (value : Byte) (s : State) : Answer := .next (dataByte 0x10 value (clearFlags value) s)
/-- R186. -/
def execEventEnablesWrite (value : Byte) (s : State) : Answer := .next (dataByte 0x11 value (writeEnables value) s)
/-- R122. -/
def execOverrunCounterWrite (value : Byte) (s : State) : Answer := .next (dataByte 0x0B value (writeOverrun value) s)
/-- R150. -/
def execFullPolicyWrite (value : Byte) (s : State) : Answer := .next (dataByte 0x24 value (writePolicy value) s)
/-- R107. An address outside the banks and their lengths, which is no operand of this row, is written by its owner. -/
def execScanBankWrite (address value : Byte) (s : State) : Answer :=
  .next (dataByte address value
    (fun t => if scanBankAddress address then writeBank address value t else registerWrite address value t) s)
/-- R168. -/
def execRegisterWrite (address value : Byte) (s : State) : Answer :=
  .next (dataByte address value (registerWrite address value) s)
/-- R164. -/
def execRegisterPointerLoad (value : Byte) (s : State) : Answer := .next (loadPointer value s)
/-- R166. -/
def execStatusSnapshotCopy (s : State) : Answer := .next (copySnapshot s)
/-- R164. -/
def execWriteTransactionStart (s : State) : Answer := .next (openWrite s)

end Sys2Proof.Machine
end

