-- ==== Sys2Proof/Machine/Dispatch.lean ====
section
/-! DEFINITION. One arm for each command. -/

namespace Sys2Proof.Machine

def exec (i : Instr) (s : State) : Host.Outcome State Fault Refusal :=
  match i with
  | .measureNow => Sys2Proof.Machine.execMeasureNow s
  | .abortJob => Sys2Proof.Machine.execAbortJob s
  | .flushQueue => Sys2Proof.Machine.execFlushQueue s
  | .scanStart => Sys2Proof.Machine.execScanStart s
  | .scanStop => Sys2Proof.Machine.execScanStop s
  | .scanOnce => Sys2Proof.Machine.execScanOnce s
  | .swapBanks => Sys2Proof.Machine.execSwapBanks s
  | .commitChannel => Sys2Proof.Machine.execCommitChannel s
  | .fetchChannel => Sys2Proof.Machine.execFetchChannel s
  | .invalidateReference => Sys2Proof.Machine.execInvalidateReference s
  | .clearZone => Sys2Proof.Machine.execClearZone s
  | .clearAlerts => Sys2Proof.Machine.execClearAlerts s
  | .clearResults => Sys2Proof.Machine.execClearResults s
  | .setTimebase => Sys2Proof.Machine.execSetTimebase s
  | .sleep => Sys2Proof.Machine.execSleep s
  | .wake => Sys2Proof.Machine.execWake s
  | .engineReset => Sys2Proof.Machine.execEngineReset s
  | .unknownCommand code => Sys2Proof.Machine.execUnknownCommand code s
  | .resultWindowPop => Sys2Proof.Machine.execResultWindowPop s
  | .alertWindowPop => Sys2Proof.Machine.execAlertWindowPop s
  | .eventFlagsWrite value => Sys2Proof.Machine.execEventFlagsWrite value s
  | .eventEnablesWrite value => Sys2Proof.Machine.execEventEnablesWrite value s
  | .overrunCounterWrite value => Sys2Proof.Machine.execOverrunCounterWrite value s
  | .fullPolicyWrite value => Sys2Proof.Machine.execFullPolicyWrite value s
  | .scanBankWrite address value => Sys2Proof.Machine.execScanBankWrite address value s
  | .registerWrite address value => Sys2Proof.Machine.execRegisterWrite address value s
  | .registerPointerLoad value => Sys2Proof.Machine.execRegisterPointerLoad value s
  | .statusSnapshotCopy => Sys2Proof.Machine.execStatusSnapshotCopy s
  | .powerOnReset => Sys2Proof.Machine.execPowerOnReset s
  | .resetEnd addrHigh => Sys2Proof.Machine.execResetEnd addrHigh s
  | .tbTick trigHigh => Sys2Proof.Machine.execTbTick trigHigh s
  | .slowTick trigHigh => Sys2Proof.Machine.execSlowTick trigHigh s
  | .oscillatorEdge close => Sys2Proof.Machine.execOscillatorEdge close s
  | .dischargeEnd => Sys2Proof.Machine.execDischargeEnd s
  | .settleEnd => Sys2Proof.Machine.execSettleEnd s
  | .edgeTimeout => Sys2Proof.Machine.execEdgeTimeout s
  | .windowGateClose => Sys2Proof.Machine.execWindowGateClose s
  | .periodGateClose => Sys2Proof.Machine.execPeriodGateClose s
  | .overflow => Sys2Proof.Machine.execOverflow s
  | .passTimerExpiry => Sys2Proof.Machine.execPassTimerExpiry s
  | .trigEdgeQualified => Sys2Proof.Machine.execTrigEdgeQualified s
  | .arbiterSelection => Sys2Proof.Machine.execArbiterSelection s
  | .cursorAdvance => Sys2Proof.Machine.execCursorAdvance s
  | .offerRetake => Sys2Proof.Machine.execOfferRetake s
  | .writeTransactionStart => Sys2Proof.Machine.execWriteTransactionStart s

end Sys2Proof.Machine
end

