-- ==== Sys2Proof/Machine/Step.lean ====
section
/-! DEFINITION. One step: the command at the front of the queue, with the queue's rest; on an empty queue the part idles. -/

namespace Sys2Proof.Machine

/-- One step (log 11): the node moves as it does between two commands (log 19), and the command at the front is taken. -/
def step (s : State) : Host.Outcome State Fault Refusal :=
  match s.pending with
  | [] => .next (nodeMoves s)
  | c :: rest => exec c ((nodeMoves s).withPending rest)

/-- The command a table word spells, put at the front of the queue; no row of the table has bits, so s is unchanged. -/
def State.withFetchWord (s : State) (nbits w : Nat) : State :=
  match decodeTableWord nbits w with
  | some c => s.withPending (c :: s.pending)
  | none => s

end Sys2Proof.Machine
end

