-- ==== Sys2Proof/Safety.lean ====
section
/-! DEFINITION. What the statements speak of: the parts of State only the host writes, and the laws of the part. -/

namespace Sys2Proof.Machine

/-! ### Views -/

/-- What only a register write, a read, the pins or a power-on reset changes. -/
structure HostView where
  pending : List Instr
  inReset : Bool
  port : SerialPort
  pins : InputPins
  args : Byte × Byte × Byte × Byte
  enables : Byte
  discharge : Byte
  bankA : Vector Byte 48
  bankB : Vector Byte 48
  lengths : Byte × Byte
  period : Byte × Byte
  trigSetting : Byte
  policy : FullPolicy
  watermark : Byte
  deriving DecidableEq, Repr

def hostView (s : State) : HostView :=
  { pending := s.pending, inReset := s.inReset, port := s.port, pins := s.pins,
    args := (s.cmd.arg0, s.cmd.arg1, s.cmd.arg2, s.cmd.arg3), enables := s.events.enables,
    discharge := s.timebase.discharge, bankA := s.scan.bankA, bankB := s.scan.bankB,
    lengths := (s.scan.lengthA, s.scan.lengthB), period := (s.scan.periodLow, s.scan.periodHigh),
    trigSetting := s.scan.trigSetting, policy := s.fifo.policy, watermark := s.fifo.watermark }

/-- What no event of the Sequencer, the Arbiter or the cursor changes either: staging, the timebase, the two latches,
the ticket counter, the scan's mode, interval, TRIG filter and overrun counter, and whose outcome the record is. -/
structure QuietView where
  host : HostView
  staging : Vector Byte 32
  timebase : Timebase
  resultLatch : Option ResultRecord
  alertLatch : Option AlertEntry
  nextTicket : Byte
  mode : ScanMode
  latched : Nat
  filtered : Bool
  stable : Nat
  overrun : Byte
  lastCommand : Byte
  collision : Bool
  deriving DecidableEq, Repr

def quietView (s : State) : QuietView :=
  { host := hostView s, staging := s.staging, timebase := s.timebase, resultLatch := s.fifo.latch,
    alertLatch := s.alerts.latch, nextTicket := s.queue.nextTicket, mode := s.scan.mode, latched := s.scan.latched,
    filtered := s.scan.filtered, stable := s.scan.stable, overrun := s.scan.overrun,
    lastCommand := s.cmd.outcome.command, collision := s.cmd.outcome.collision }

/-! ### When a byte of the bus is taken, and what its place in the transaction does -/

/-- R163, R164: no reset is held, a write transaction is open past its first data byte, and the pointer holds `address`:
the next data byte is a register write there. -/
def takesWrite (address : Byte) (s : State) : Prop :=
  s.inReset = false ∧ s.port.bus = .writing ∧ s.port.pointer = address

/-- R171, R173: the next data byte is written to COMMAND, and the command is decoded. -/
def decodesCommand (s : State) : Prop := takesWrite 0x18 s ∧ s.cmd.outcome.state ≠ .working

/-- R163, R165: no reset is held, a read transaction is open, and the pointer holds `address`: the next byte sent is the
one there. -/
def sendsFrom (address : Byte) (s : State) : Prop :=
  s.inReset = false ∧ s.port.bus = .reading ∧ s.port.pointer = address

/-- R164: the pointer has passed the address of a register write. -/
def pointerPast (address : Byte) (s : State) : State := s.withPort { s.port with pointer := address + 1 }

/-! ### A pass that starts and ends -/

/-- R109, R118: the Scan Controller after a pass end. -/
def passClosed (sc : ScanController) : ScanController :=
  { sc with
    state := if sc.mode = .single then .stopped else .waiting, passNumber := sc.passNumber + 1, cursor := .cleared,
    active := if sc.swapPending then sc.active.other else sc.active, swapPending := false,
    timer := if sc.mode = .single then 0 else sc.timer }

/-- R92: the offer of entry `n` for `ch` in pass `number`, decided against a queue that holds `jobs`: merged with a SCAN
job of the channel, admitted at the tail, or declined and left waiting. -/
def offerDecided (number : BitVec 16) (n : Nat) (ch : ChannelId) (jobs : List QueuedJob) (s t : State) : Prop :=
  let merged := jobs.any (fun j => j.channel == ch && j.tag.isScan)
  let admitted := !merged && decide (jobs.length < 8)
  t.queue.jobs = (if admitted then jobs ++ [{ channel := ch, tag := .scan number }] else jobs) ∧
    t.scan.passCount = (if admitted then s.scan.passCount + 1 else s.scan.passCount) ∧
    t.scan.cursor = (if merged || admitted then .settled n else .waiting n ch)

/-- R94 to R97: the offer of entry `n` for `ch` in pass `number`, admitted into an empty queue with the Sequencer
available: with a slot the job starts at once, and without one, under HOLD, the Arbiter stalls. -/
def offerStarted (number : BitVec 16) (n : Nat) (ch : ChannelId) (s t : State) : Prop :=
  let room := s.fifo.records.length + s.fifo.reserved < 16
  t.scan.cursor = .settled n ∧ t.scan.passCount = s.scan.passCount + 1 ∧
    (room ∨ s.fifo.policy = .overwrite → t.queue = { s.queue with jobs := [], available := false } ∧
      t.seq.state = .discharge ∧ ∃ j, t.seq.job = some j ∧ j.channel = ch ∧ j.tag = .scan number) ∧
    (¬room → s.fifo.policy = .hold →
      t.queue = { s.queue with jobs := [{ channel := ch, tag := .scan number }], stalled := true } ∧ t.seq = s.seq ∧
        flagSet .stall t = true)

/-- R92, R94, R106, R115, R116, R118: what the start of pass `number` in `mode` leaves. Where entry `n` is the first of
the list that makes an offer, the pass is RUNNING with its cursor there, and the offer is decided; where every entry is
passed over, as in an empty list, and no SCAN job is left over, the pass ends at once. -/
def passStarted (number : BitVec 16) (mode : ScanMode) (s t : State) : Prop :=
  let length := bankLength s.scan.active s.scan
  let offers := entryOffer (s.withScan { s.scan with passNumber := number })
  (s.scan.passCount = 0 → (∀ n, n < length → offers n = none) →
    t.scan.state = (if mode = .single then .stopped else .waiting) ∧ t.scan.passNumber = number + 1 ∧
      t.scan.cursor = .cleared ∧ t.scan.passCount = 0 ∧ flagSet .pass t = true ∧ t.queue = s.queue ∧ t.seq = s.seq) ∧
  ∀ n ch, n < length → (∀ m, m < n → offers m = none) → offers n = some ch →
    t.scan.state = .running ∧ t.scan.passNumber = number ∧ t.scan.extent = length ∧
      (t.scan.cursor = .settled n ∨ t.scan.cursor = .waiting n ch) ∧
      (arbiterReady s = false ∨ s.queue.stalled = true → offerDecided number n ch s.queue.jobs s t ∧
        t.queue = { s.queue with jobs := t.queue.jobs } ∧ t.seq = s.seq) ∧
      (arbiterReady s = true → s.queue.stalled = false → s.queue.jobs = [] → offerStarted number n ch s t)

/-! ### Jobs that leave the queue -/

/-- R93, R98, R100, R118: the jobs that `named` picks have left the queue. With a job gone, a waiting offer is retaken
into the room, where the sender has not placed a MEASURE_NOW before the retake (log 18); a queue left empty is not
stalled; and a pass that was waiting for these jobs alone has ended. -/
def jobsRemoved (named : QueuedJob → Bool) (s t : State) : Prop :=
  let gone := s.queue.jobs.filter named
  let left := s.queue.jobs.filter (fun j => !named j)
  let count := s.scan.passCount - gone.countP (fun j => j.tag.isScan)
  (gone = [] → t.queue = s.queue ∧ t.scan = s.scan) ∧
  (gone ≠ [] →
    (∀ n ch, s.scan.cursor ≠ .waiting n ch) ∨ (∃ rest, s.pending = .measureNow :: .offerRetake :: rest) →
    t.queue = { s.queue with jobs := left, stalled := s.queue.stalled && !left.isEmpty } ∧
    (s.scan.state = .running ∧ s.scan.cursor = .done ∧ count = 0 →
      t.scan = passClosed { s.scan with passCount := 0 } ∧ flagSet .pass t = true) ∧
    (¬(s.scan.state = .running ∧ s.scan.cursor = .done ∧ count = 0) → t.scan = { s.scan with passCount := count })) ∧
  ∀ n ch, gone ≠ [] → s.scan.cursor = .waiting n ch → left.length < 8 →
    (∀ rest, s.pending ≠ .measureNow :: .offerRetake :: rest) →
    let merged := left.any (fun j => j.channel == ch && j.tag.isScan)
    let jobs := if merged then left else left ++ [{ channel := ch, tag := .scan s.scan.passNumber }]
    t.queue = { s.queue with jobs := jobs, stalled := s.queue.stalled && !jobs.isEmpty } ∧
    t.scan = { s.scan with cursor := .settled n, passCount := if merged then count else count + 1 }

/-! ### A job that starts, and a job that ends -/

/-- R21, R45: the working copy at the entry to DISCHARGE of a phase that measures `ch`: the settings of its descriptor,
its committed range step, the discharge time, and every count and total at 0. -/
def phaseCopy (ch : ChannelId) (s : State) : Working :=
  let d := s.channels[ch.val].desc
  { pin := d.pin, method := d.method, g := d.g, s := d.s, e := d.e, settle := d.settle, autoRange := d.autoRange,
    k := s.channels[ch.val].rangeStep, dischargeLength := 16 * s.timebase.discharge.toNat, samples := 0, cTotal := 0,
    gTotal := 0, largest := 0, steppedUp := false, count := 0, gate := 0, timeout := 0, dischargeCount := 0,
    settleCount := 0 }

/-- R25: the channels a job engages. -/
def InFlight.engages (j : InFlight) (ch : ChannelId) : Bool := ch == j.channel || j.refresh == some ch

/-- R61, R63, R152: what the end of `j` leaves of it where nothing is queued: the Sequencer IDLE with no job and a cleared
working copy, offered to the Arbiter, the node clamped, the engaged marks clear, and the reservation over. -/
def jobOver (j : InFlight) (s t : State) : Prop :=
  t.seq = { state := .idle, job := none, work := .cleared } ∧ t.queue = { s.queue with available := true } ∧
    t.frontEnd = (if s.frontEnd = .held then .held else .clamped) ∧
    (∀ ch : ChannelId, j.engages ch = true → t.channels[ch.val].engaged = false) ∧ t.fifo.reserved = 0

/-- R48 to R52, R54, R56, R60, R64: the events at which the job in flight ends: an abort, the edge timeout, a gate
that closes on a count of 0 or on the last sample of the primary phase, an overflow at the limit of the step. -/
def endsJob (c : Instr) (j : InFlight) (s : State) : Prop :=
  let w := s.seq.work
  let gate := (c = .windowGateClose ∧ w.method = .window) ∨ (c = .periodGateClose ∧ w.method = .period)
  s.seq.job = some j ∧
    ((c = .abortJob ∧ takesWrite 0x18 s ∧ s.seq.state ≠ .idle) ∨
      (c = .edgeTimeout ∧ (s.seq.state = .arm ∨ s.seq.state = .count)) ∨
      (gate ∧ s.seq.state = .count ∧ (w.count = 0 ∨ (j.phase = .primary ∧ 2 ^ w.s.val ≤ w.samples + 1))) ∨
      (c = .overflow ∧ s.seq.state = .count ∧ (w.autoRange = false ∨ stepLimit w ≤ w.k)))

/-- R114, R117, R118: the scan after the end of job `j`: a DIRECT job leaves it; a SCAN job is counted out of its pass,
which its last job ends, and in STOPPING it completes the stop. -/
def countedOut (j : InFlight) (s t : State) : Prop :=
  let sc := { s.scan with passCount := s.scan.passCount - 1 }
  (j.tag.isDirect = true → t.scan = s.scan) ∧
  (j.tag.isScan = true → s.scan.state = .running →
    (s.scan.cursor ≠ .done ∨ 2 ≤ s.scan.passCount → t.scan = sc) ∧
    (s.scan.cursor = .done → s.scan.passCount = 1 → t.scan = passClosed sc ∧ flagSet .pass t = true)) ∧
  (j.tag.isScan = true → s.scan.state = .stopping → s.scan.passCount = 1 →
    t.scan = { sc with
      state := .stopped, active := if sc.swapPending then sc.active.other else sc.active, swapPending := false } ∧
    flagSet .command t = true ∧
    (s.cmd.outcome.state = .working → t.cmd.outcome = { s.cmd.outcome with state := .done, reason := none }))

/-- R146, R152: the Result FIFO with the record of the job that ended, where one is written. -/
def recordedIn (written : Bool) (r : ResultRecord) (f : ResultFifo) : ResultFifo :=
  if written then
    { f with reserved := 0, nextSequence := f.nextSequence + 1, gapPending := false, records := f.records ++ [r] }
  else { f with reserved := 0 }

/-- R54, R56, R59, R155: the record of a job that ends with a status other than OK: no value and no reference part, and
the totals of the primary phase where one was begun. -/
def failedRecord (status : JobStatus) (zone : Zone) (j : InFlight) (s : State) : ResultRecord :=
  { sequence := s.fifo.nextSequence, channel := j.channel, tag := j.tag, status := status,
    samplesExp := s.channels[j.channel.val].desc.s,
    step := if j.phase = .primary then s.seq.work.k else j.stepAtStart, gap := s.fifo.gapPending,
    saturated := false, lowRes := false, refreshed := j.refreshed, rangeChanged := j.rangeChanged, zone := zone,
    cTotal := if j.phase = .primary then s.seq.work.cTotal else 0, value := none, refPart := none,
    timestamp := s.timebase.stamp }

/-- R137, R138: the alert list after the zone of `ch` went from `old` to `new`. -/
def alertedIn (ch : ChannelId) (alert : Bool) (old new : Zone) (stamp : BitVec 32) (l : AlertList) : AlertList :=
  if new ≠ old ∧ alert = true then { l with entries := alertEntries ch old new stamp l.entries } else l

/-! ### The laws -/

/-- R11, R107, R120, R153, R192: what the configuration bytes can hold. -/
def configLaw (s : State) : Prop :=
  1 ≤ s.timebase.discharge.toNat ∧ 1 ≤ s.fifo.watermark.toNat ∧ s.fifo.watermark.toNat ≤ 16 ∧
    s.scan.lengthA.toNat ≤ 24 ∧ s.scan.lengthB.toNat ≤ 24 ∧ 1 ≤ passPeriod s.scan ∧
    s.scan.trigSetting &&& 0x13#8 = s.scan.trigSetting

/-- R88: what two queued jobs never share. -/
def QueuedJob.key (j : QueuedJob) : ChannelId × Bool := (j.channel, j.tag.isDirect)

/-- R88: the law of the queue. -/
def queueLaw (s : State) : Prop :=
  s.queue.jobs.length ≤ 8 ∧ (s.queue.jobs.map QueuedJob.key).Nodup

/-- R136: the law of the alert list. -/
def alertLaw (s : State) : Prop := (s.alerts.entries.map AlertEntry.channel).Nodup

/-- R146: the law of the sequence: the newest record carries the number before the next, and the numbers are
consecutive modulo 65,536. -/
def sequenceLaw (s : State) : Prop :=
  ∀ (i : Nat) (h : i < s.fifo.records.length),
    s.fifo.records[i].sequence = s.fifo.nextSequence - BitVec.ofNat 16 (s.fifo.records.length - i)

/-- R41, R63, R147: a job is in flight exactly while the Sequencer is not IDLE, exactly then it is not available and a
slot is reserved, and the FIFO has room for what is reserved. -/
def jobLaw (s : State) : Prop :=
  (s.seq.state = .idle ↔ s.seq.job = none) ∧ s.queue.available = s.seq.job.isNone ∧
    s.fifo.reserved = (if s.seq.job.isSome then 1 else 0) ∧ s.fifo.records.length + s.fifo.reserved ≤ 16

/-- R94, R97, R103: the law of the stall: jobs are queued at a Sequencer that is IDLE and available only while the Arbiter is
stalled, because every other such job is selected in the event that allows it. -/
def stallLaw (s : State) : Prop :=
  s.seq.state = .idle → s.queue.available = true → s.queue.jobs ≠ [] → s.queue.stalled = true

/-- R1, R2, R4, R6: the law of the node: clamped in IDLE and DISCHARGE, held in reset and sleep, and otherwise running
on the pin of the phase; and no job runs in reset or sleep. -/
def nodeLaw (s : State) : Prop :=
  (s.inReset = true → s.timebase.power = .awake) ∧
    match s.seq.state with
    | .idle => s.frontEnd = (if clocked s then .clamped else .held)
    | .discharge => s.frontEnd = .clamped ∧ clocked s = true
    | .settle => drivenPin s = some s.seq.work.pin ∧ clocked s = true
    | .arm => drivenPin s = some s.seq.work.pin ∧ clocked s = true
    | .count => drivenPin s = some s.seq.work.pin ∧ clocked s = true

/-- R25, R41: the engaged marks are those of the job in flight, and in IDLE there is none. -/
def engagedLaw (s : State) : Prop :=
  (s.seq.state = .idle → s.seq.job = none) ∧ ∀ ch : ChannelId, s.channels[ch.val].engaged =
    match s.seq.job with
    | none => false
    | some j => j.engages ch

/-- R53: the law of the range step, of one channel. -/
def Channel.stepLaw (c : Channel) : Prop :=
  c.rangeStep ≤ 3 ∧ (c.desc.method = .period → c.rangeStep ≤ c.desc.g.val) ∧ (c.desc.autoRange = false → c.rangeStep = 0)

/-- R21, R45, R52: the working copy agrees with the descriptor of the channel being measured, and its step is within
its limit. -/
def Working.agrees (w : Working) (d : Descriptor) : Prop :=
  w.method = d.method ∧ w.g = d.g ∧ w.autoRange = d.autoRange ∧ w.k ≤ stepLimit w ∧ (w.autoRange = false → w.k = 0)

/-- R53: the law of the range step. -/
def rangeLaw (s : State) : Prop :=
  (∀ ch : ChannelId, s.channels[ch.val].stepLaw) ∧
    ∀ j, s.seq.job = some j → s.seq.work.agrees s.channels[j.measured.val].desc

/-- R117: the SCAN jobs queued or in flight. -/
def scanJobs (s : State) : Nat :=
  s.queue.jobs.countP (fun j => j.tag.isScan) + (if scanInFlight s then 1 else 0)

/-- R109, R117, Table 6-1: the law of the pass count, with the cursor, the swap-pending mark and the timer; and in IDLE
no job is in flight (R41). -/
def passLaw (s : State) : Prop :=
  (s.seq.state = .idle → s.seq.job = none) ∧ s.scan.passCount = scanJobs s ∧
    match s.scan.state with
    | .stopped => scanJobs s = 0 ∧ s.scan.cursor = .cleared ∧ s.scan.swapPending = false ∧ s.scan.timer = 0
    | .waiting => scanJobs s = 0 ∧ s.scan.cursor = .cleared ∧ s.scan.swapPending = false ∧ s.scan.mode ≠ .single
    | .running => s.scan.cursor ≠ .cleared ∧ ¬(s.scan.cursor = .done ∧ s.scan.passCount = 0)
    | .stopping => scanJobs s = 1 ∧ scanInFlight s = true ∧ s.scan.cursor = .cleared ∧ s.scan.timer = 0

/-- R71: the committed RATIO descriptors that name `r`. -/
def namersOf (r : ChannelId) (s : State) : Nat :=
  (List.finRange 16).countP (fun ch =>
    s.channels[ch.val].desc.role == .ratio && s.channels[ch.val].desc.refChannel == r)

/-- R68, R71: the law of the slots. A free slot is empty, owners are distinct and are the REFERENCE channels, users
counts the RATIO descriptors that name the owner, and each such descriptor names an enabled REFERENCE channel of its
own method. -/
def slotLaw (s : State) : Prop :=
  (∀ i : Fin 4, s.refs[i.val].owner = none → s.refs[i.val] = .free) ∧
    (∀ i j : Fin 4, ∀ r, s.refs[i.val].owner = some r → s.refs[j.val].owner = some r → i = j) ∧
    (∀ r : ChannelId, s.channels[r.val].desc.role = .reference ↔ ∃ i : Fin 4, s.refs[i.val].owner = some r) ∧
    (∀ i : Fin 4, ∀ r, s.refs[i.val].owner = some r → s.refs[i.val].users = namersOf r s) ∧
    ∀ ch : ChannelId, s.channels[ch.val].desc.role = .ratio →
      let r := s.channels[s.channels[ch.val].desc.refChannel.val].desc
      r.role = .reference ∧ r.enabled = true ∧ r.method = s.channels[ch.val].desc.method

/-- R36, R113, R174: a command is WORKING exactly while a commit waits for the channel's job or a stop for the scan's,
and the record says which. -/
def workingLaw (s : State) : Prop :=
  (s.cmd.outcome.state = .working ↔ s.deferred.isSome = true ∨ s.scan.state = .stopping) ∧
    (s.scan.state = .stopping → s.deferred = none ∧ s.cmd.outcome.command = 0x11) ∧
    ∀ dc, s.deferred = some dc → s.channels[dc.channel.val].engaged = true ∧ s.cmd.outcome.command = 0x20

end Sys2Proof.Machine
end

