-- ==== Sys2Proof/Certificates/Slice0/Obligations.lean ====
section
/-! DEFINITION. The statements about the part, for the provers. -/

open Sys2Proof Sys2Proof.Machine

/-! ### The step -/

/-- Log 11: the step takes the command at the front of the queue: it is exec of that command on the state with the queue's
rest. All that comes between two commands is the fall of a comparator output that is high (R3), which it may have had by
then, by a free value (log 19). -/
def Obligations.StepTakesFront : Prop :=
  ∀ (c : Instr) (rest : List Instr) (s : State), s.pending = c :: rest →
    let found := s.withPending rest
    (s.frontEnd.comparator = false → step s = exec c found) ∧
    ∀ pin, s.frontEnd = .running pin true →
      step s = exec c (found.withFreeIndex (s.freeIndex + 1)) ∨
        step s = exec c ((found.withFrontEnd (.running pin false)).withFreeIndex (s.freeIndex + 1))

/-- On an empty queue the part idles (log 11): nothing changes but a high comparator output, which may fall (R3, log 19).
No command stops the part: one it cannot serve is refused in the outcome record (R172). -/
def Obligations.NoStepStops : Prop :=
  (∀ s : State, s.pending = [] → ∃ t, step s = .next t ∧
    t = (s.withFrontEnd t.frontEnd).withFreeIndex t.freeIndex ∧ t.frontEnd.selected = s.frontEnd.selected ∧
    (s.frontEnd.comparator = false → t = s)) ∧
  (∀ (c : Instr) (s : State), ∃ t, exec c s = .next t)

/-! ### Resets -/

/-- R19, R40, R67, R85, R105, R127, R145, R162, R181: POWER_ON_RESET from any state.
That the queue of commands is kept is log 13. -/
def Obligations.PowerOnResetState : Prop :=
  ∀ s : State, ∃ t, exec .powerOnReset s = .next t ∧
    t.pending = s.pending ∧ t.inReset = true ∧ t.frontEnd = .held ∧
    t.timebase = { p := 3, prescaleDivider := 0, slowDivider := 0, stamp := 0, power := .awake, discharge := 4 } ∧
    (∀ ch : ChannelId, t.channels[ch.val].desc.role = .unused ∧ t.channels[ch.val].desc = .zero ∧
      t.channels[ch.val].zone = .unknown ∧ t.channels[ch.val].rangeStep = 0 ∧
      t.channels[ch.val].lastStatus = .none ∧ t.channels[ch.val].engaged = false) ∧
    (∀ i : Fin 32, t.staging[i.val] = 0) ∧ t.deferred = none ∧
    t.seq = { state := .idle, job := none, work := .cleared } ∧
    (∀ i : Fin 4, t.refs[i.val] = { owner := none, users := 0, valid := false, cRef := 0, gRef := 0, method := .window,
                                    age := 0, fault := .none }) ∧
    t.queue = { jobs := [], nextTicket := 1, stalled := false, available := true } ∧
    (∀ i : Fin 48, t.scan.bankA[i.val] = 0 ∧ t.scan.bankB[i.val] = 0) ∧
    t.scan.lengthA = 0 ∧ t.scan.lengthB = 0 ∧ t.scan.active = .a ∧ t.scan.swapPending = false ∧
    t.scan.mode = .periodic ∧ t.scan.state = .stopped ∧ t.scan.passNumber = 0 ∧ t.scan.cursor = .cleared ∧
    t.scan.passCount = 0 ∧ t.scan.timer = 0 ∧ t.scan.periodLow = 0xE8 ∧ t.scan.periodHigh = 0x03 ∧
    t.scan.trigSetting = 0 ∧ t.scan.filtered = false ∧ t.scan.stable = 0 ∧ t.scan.overrun = 0 ∧
    t.alerts = { entries := [], latch := none } ∧
    t.fifo = { records := [], reserved := 0, nextSequence := 0, gapPending := false, policy := .hold, watermark := 1,
               latch := none } ∧
    t.port.pointer = 0 ∧ t.port.bus = .idle ∧
    t.cmd.outcome = { command := 0, state := .empty, reason := none, result := 0, collision := false } ∧
    t.cmd.arg0 = 0 ∧ t.cmd.arg1 = 0 ∧ t.cmd.arg2 = 0 ∧ t.cmd.arg3 = 0 ∧
    t.events.flags = 0 ∧ t.events.enables = 0

/-- R6, R19, R163: the end of a reset clamps the node and takes the address from ADDR, and from then on the port
acknowledges that address with either direction bit and no other; with no reset held, no such event arises and nothing
changes (log 1). -/
def Obligations.ResetEndState : Prop :=
  ∀ (addrHigh : Bool) (s : State),
    (s.inReset = true → ∃ t, exec (.resetEnd addrHigh) s = .next t ∧ t.inReset = false ∧ t.frontEnd = .clamped ∧
      t.port = { s.port with address := if addrHigh then 0x2D else 0x2C } ∧ t.timebase = s.timebase ∧
      t.channels = s.channels ∧ t.staging = s.staging ∧ t.seq = s.seq ∧ t.refs = s.refs ∧ t.queue = s.queue ∧
      t.scan = s.scan ∧ t.alerts = s.alerts ∧ t.fifo = s.fifo ∧ t.cmd = s.cmd ∧ t.events = s.events ∧
      (∀ (target : BitVec 7) (read : Bool), acknowledges (target ++ BitVec.ofBool read) t =
        (target == if addrHigh then 0x2D#7 else 0x2C#7))) ∧
    (s.inReset = false → exec (.resetEnd addrHigh) s = .next s)

/-- R19, R163: while a reset is held the port takes and answers nothing, and no tick arrives. -/
def Obligations.HeldResetTakesNothing : Prop :=
  ∀ s : State, s.inReset = true →
    (∀ c address value, c.busWrite = some (address, value) → exec c s = .next s) ∧
    exec .resultWindowPop s = .next s ∧ exec .alertWindowPop s = .next s ∧ exec .statusSnapshotCopy s = .next s ∧
    exec .writeTransactionStart s = .next s ∧ (∀ value, exec (.registerPointerLoad value) s = .next s) ∧
    (∀ addressByte, acknowledges addressByte s = false ∧ busStart addressByte s = s) ∧
    (∀ level, exec (.tbTick level) s = .next s) ∧ (∀ level, exec (.slowTick level) s = .next s)

/-- R178, Table 9-2, R40, R67, R86, R105, R128, R145, R162, R188: ENGINE_RESET in every state.
That it keeps the extent of the walk and the latched interval, which no rule names, is log 5. -/
def Obligations.EngineResetState : Prop :=
  ∀ s : State, takesWrite 0x18 s → ∃ t, exec .engineReset s = .next t ∧
    hostView t = hostView (pointerPast 0x18 s) ∧
    t.frontEnd = (if s.frontEnd = .held then .held else .clamped) ∧ t.timebase = s.timebase ∧
    t.staging = s.staging ∧ t.deferred = none ∧
    (∀ ch : ChannelId, t.channels[ch.val] =
      { s.channels[ch.val] with zone := .unknown, rangeStep := 0, lastStatus := .none, engaged := false }) ∧
    t.seq = { state := .idle, job := none, work := .cleared } ∧
    (∀ i : Fin 4, t.refs[i.val] =
      { s.refs[i.val] with valid := false, cRef := 0, gRef := 0, age := 0, fault := .none }) ∧
    t.queue = { jobs := [], nextTicket := 1, stalled := false, available := true } ∧
    t.scan = { s.scan with state := .stopped, swapPending := false, passNumber := 0, cursor := .cleared,
                           passCount := 0, timer := 0, overrun := 0 } ∧
    t.alerts = { entries := [], latch := none } ∧
    t.fifo = { s.fifo with records := [], reserved := 0, nextSequence := 0, gapPending := false, latch := none } ∧
    t.events.enables = s.events.enables ∧
    t.events.flags = (if s.cmd.outcome.state = .working then 0x40 else 0) ∧
    t.cmd.outcome = { command := 0x50, state := .done, reason := none, collision := false,
                      result := if s.cmd.outcome.state = .working then s.cmd.outcome.command else 0 }

/-- R189: the Event Unit after each kind of reset; no flag drives IRQ while the enables are 00h, and a set is recorded
whatever the enables are. -/
def Obligations.EventUnitResets : Prop :=
  (∀ s : State, ∃ t, exec .powerOnReset s = .next t ∧ t.events.flags = 0 ∧ t.events.enables = 0 ∧ irqLow t = false ∧
    ∀ level, ∃ u, exec (.resetEnd level) t = .next u ∧ u.events.flags = 0 ∧ u.events.enables = 0 ∧ irqLow u = false) ∧
  (∀ s : State, takesWrite 0x18 s → ∃ t, exec .engineReset s = .next t ∧
    t.events.flags = (if s.cmd.outcome.state = .working then Flag.command.mask else 0) ∧
    t.events.enables = s.events.enables ∧ irqLow t = (t.events.flags &&& s.events.enables != 0)) ∧
  (∀ u : State, u.events.enables = 0 → irqLow u = false) ∧
  (∀ (f : Flag) (u : State), flagSet f (raise f u) = true ∧ (raise f u).events.enables = u.events.enables ∧
    readByte (raise f u) 0x10 = u.events.flags ||| f.mask)

/-! ### The Command Port -/

/-- R173, R175: while a command is WORKING, every other command but ABORT_JOB and ENGINE_RESET only sets the collision mark;
an unassigned code is REFUSED with UNKNOWN_COMMAND. -/
def Obligations.CommandsThatReachNoBlock : Prop :=
  (∀ (c : Instr) (code : Byte) (s : State), takesWrite 0x18 s → s.cmd.outcome.state = .working → c.wellFormed = true →
     c.busWrite = some (0x18#8, code) → c ≠ .abortJob → c ≠ .engineReset →
     exec c s = .next ((pointerPast 0x18 s).withCmd { s.cmd with outcome := { s.cmd.outcome with collision := true } })) ∧
  (∀ (code : Byte) (s : State), decodesCommand s → assignedCode code = false →
     exec (.unknownCommand code) s = .next ((pointerPast 0x18 s).withCmd { s.cmd with outcome :=
       { command := code, state := .refused, reason := some .unknownCommand, result := 0, collision := false } }))

/-- R90: what MEASURE_NOW refuses or merges, with the checks in order. -/
def Obligations.MeasureNowRefusesOrMerges : Prop :=
  ∀ s : State, decodesCommand s →
    let refused := fun r => exec .measureNow s = .next (recordOutcome 0x01 (.refused r 0) (pointerPast 0x18 s))
    (16 ≤ s.cmd.arg0.toNat → refused .badArg) ∧
    ∀ ch : ChannelId, s.cmd.arg0.toNat = ch.val →
      (s.timebase.power = .asleep → refused .asleep) ∧
      (s.timebase.power = .awake →
        (s.channels[ch.val].desc.role = .unused → refused .channelUnused) ∧
        (s.channels[ch.val].desc.role ≠ .unused → s.channels[ch.val].desc.enabled = false → refused .channelDisabled) ∧
        (s.channels[ch.val].desc.role ≠ .unused → s.channels[ch.val].desc.enabled = true →
          (∀ ticket, queueLaw s → { channel := ch, tag := .direct ticket } ∈ s.queue.jobs →
            exec .measureNow s = .next (recordOutcome 0x01 { state := .merged, reason := none, result := ticket }
              (pointerPast 0x18 s))) ∧
          ((∀ j ∈ s.queue.jobs, j.channel = ch → j.tag.isDirect = false) → 8 ≤ s.queue.jobs.length →
            refused .queueFull)))

/-- R89, R90, R94: MEASURE_NOW appends a DIRECT job with the next ticket, and an idle Sequencer starts it at once when it
is alone and the Result FIFO has room. -/
def Obligations.MeasureNowAdmits : Prop :=
  ∀ (ch : ChannelId) (s : State), decodesCommand s → s.cmd.arg0.toNat = ch.val → s.timebase.power = .awake →
    s.channels[ch.val].desc.role ≠ .unused → s.channels[ch.val].desc.enabled = true →
    (∀ j ∈ s.queue.jobs, j.channel = ch → j.tag.isDirect = false) → s.queue.jobs.length < 8 →
    ∃ t, exec .measureNow s = .next t ∧ hostView t = hostView (pointerPast 0x18 s) ∧
      t.cmd.outcome = { command := 0x01, state := .done, reason := none, result := s.queue.nextTicket, collision := false } ∧
      t.queue.nextTicket = (if s.queue.nextTicket = 255 then 1 else s.queue.nextTicket + 1) ∧
      (s.seq.state ≠ .idle ∨ s.queue.available = false ∨ s.queue.stalled = true →
        t.queue.jobs = s.queue.jobs ++ [{ channel := ch, tag := .direct s.queue.nextTicket }] ∧ t.seq = s.seq) ∧
      (s.seq.state = .idle → s.queue.available = true → s.queue.stalled = false → s.queue.jobs = [] →
        s.fifo.records.length + s.fifo.reserved < 16 →
        t.seq.state = .discharge ∧ t.fifo.reserved = 1 ∧ t.channels[ch.val].engaged = true ∧
        ∃ j, t.seq.job = some j ∧ j.channel = ch ∧ j.tag = .direct s.queue.nextTicket)

/-- R61, R63, R64, R177: ABORT_JOB with the Sequencer IDLE, with a job in flight, and while a command is WORKING. With
nothing queued, the job leaves the Sequencer, its record is written by its class and its channel's report policy (R151,
R152), and a SCAN job is counted out of its pass (R114, R117, R118). -/
def Obligations.AbortJobEffect : Prop :=
  ∀ s : State, takesWrite 0x18 s →
    (s.cmd.outcome.state ≠ .working → s.seq.state = .idle →
      exec .abortJob s = .next (recordOutcome 0x02 (.done 0) (pointerPast 0x18 s))) ∧
    ∀ j, s.seq.state ≠ .idle → s.seq.job = some j →
      let c := s.channels[j.channel.val]
      ∃ t, exec .abortJob s = .next t ∧ hostView t = hostView (pointerPast 0x18 s) ∧
        t.channels[j.channel.val].lastStatus = .aborted ∧
        (∀ ch : ChannelId, s.deferred = none → t.channels[ch.val].rangeStep = s.channels[ch.val].rangeStep ∧
          t.channels[ch.val].zone = s.channels[ch.val].zone) ∧
        (s.deferred = none → t.refs = s.refs) ∧ flagSet .fault t = flagSet .fault s ∧
        (s.queue.jobs = [] → jobOver j s t ∧ t.fifo =
          recordedIn (j.tag.isDirect || c.desc.policy == .always || c.desc.policy == .onFault)
            (failedRecord .aborted c.zone j s) s.fifo) ∧
        (s.queue.jobs = [] → s.deferred = none → countedOut j s t) ∧
        (s.cmd.outcome.state ≠ .working → t.cmd.outcome =
          { command := 0x02, state := .done, reason := none, result := 1, collision := false }) ∧
        (s.cmd.outcome.state = .working → t.cmd.outcome.command = s.cmd.outcome.command ∧
          t.cmd.outcome.collision = s.cmd.outcome.collision)

/-- R93, R98, R100, R101, R118: FLUSH_QUEUE removes the classes its mask names and counts them; the pass job count falls
with each SCAN job removed, which may end the pass; a waiting offer takes the room; and a removal that empties the queue
clears the stalled mark.
That the waiting offer is retaken before the stalled mark is decided is log 8, and its order with MEASURE_NOW log 18. -/
def Obligations.FlushQueueEffect : Prop :=
  ∀ s : State, decodesCommand s →
    (s.cmd.arg0 ≠ 0x01 → s.cmd.arg0 ≠ 0x02 → s.cmd.arg0 ≠ 0x03 →
      exec .flushQueue s = .next (recordOutcome 0x03 (.refused .badArg 0) (pointerPast 0x18 s))) ∧
    (s.cmd.arg0 = 0x01 ∨ s.cmd.arg0 = 0x02 ∨ s.cmd.arg0 = 0x03 →
      let named := fun j : QueuedJob => if j.tag.isDirect then s.cmd.arg0.getLsbD 0 else s.cmd.arg0.getLsbD 1
      ∃ t, exec .flushQueue s = .next t ∧ hostView t = hostView (pointerPast 0x18 s) ∧
        t.cmd.outcome = { command := 0x03, state := .done, reason := none,
                          result := BitVec.ofNat 8 (s.queue.jobs.filter named).length, collision := false } ∧
        jobsRemoved named s t ∧ t.seq = s.seq ∧ t.channels = s.channels ∧ t.fifo = s.fifo)

/-! ### Scans -/

/-- R111, R112, R115, R116, R118: SCAN_START and SCAN_ONCE, which in WAITING leaves the pass timer undisturbed. -/
def Obligations.ScanStartAndScanOnce : Prop :=
  (∀ s : State, decodesCommand s →
     let refused := fun r => exec .scanStart s = .next (recordOutcome 0x10 (.refused r 0) (pointerPast 0x18 s))
     (s.cmd.arg0 ≠ 0x01 → s.cmd.arg0 ≠ 0x02 → refused .badArg) ∧
     (s.cmd.arg0 = 0x01 ∨ s.cmd.arg0 = 0x02 →
       (s.timebase.power = .asleep → refused .asleep) ∧
       (s.timebase.power = .awake → s.scan.state ≠ .stopped → refused .notStopped) ∧
       (s.timebase.power = .awake → s.scan.state = .stopped →
         ∃ t, exec .scanStart s = .next t ∧ hostView t = hostView (pointerPast 0x18 s) ∧
           t.cmd.outcome = { command := 0x10, state := .done, reason := none, result := 0, collision := false } ∧
           t.scan.mode = (if s.cmd.arg0 = 0x01 then .periodic else .triggered) ∧ t.scan.timer = 0 ∧
           t.scan.latched = (if s.cmd.arg0 = 0x01 then passPeriod s.scan else s.scan.latched) ∧
           passStarted 0 t.scan.mode s t))) ∧
  (∀ s : State, decodesCommand s →
     let refused := fun r => exec .scanOnce s = .next (recordOutcome 0x12 (.refused r 0) (pointerPast 0x18 s))
     (s.timebase.power = .asleep → refused .asleep) ∧
     (s.timebase.power = .awake →
       (s.scan.state = .running → refused .passActive) ∧
       (s.scan.state = .stopped ∨ s.scan.state = .waiting →
         ∃ t, exec .scanOnce s = .next t ∧ hostView t = hostView (pointerPast 0x18 s) ∧
           t.cmd.outcome = { command := 0x12, state := .done, reason := none, result := 0, collision := false } ∧
           t.scan.mode = (if s.scan.state = .stopped then .single else s.scan.mode) ∧
           (s.scan.state = .waiting → s.scan.mode ≠ .single →
             t.scan.timer = s.scan.timer ∧ t.scan.latched = s.scan.latched) ∧
           passStarted (if s.scan.state = .stopped then 0 else s.scan.passNumber) t.scan.mode s t)))

/-- R98, R100, R113, R114: SCAN_STOP: nothing in STOPPED; else the queued SCAN jobs leave, and the stop waits for a SCAN
job in flight. The end of that job, by its last sample, by a failure of its phase or by an abort, completes the stop:
STOPPED, a pending swap applied, the outcome DONE with its result byte, COMMAND set.
That the rows which end the job stand for their moments, whatever the model's counts show, is log 1. -/
def Obligations.ScanStopEffect : Prop :=
  (∀ s : State, decodesCommand s →
     let gone := s.queue.jobs.filter (fun j => j.tag.isScan)
     let left := s.queue.jobs.filter (fun j => !j.tag.isScan)
     let flight := scanInFlight s
     (s.scan.state = .stopped → exec .scanStop s = .next (recordOutcome 0x11 (.done 0) (pointerPast 0x18 s))) ∧
     (s.scan.state ≠ .stopped →
       ∃ t, exec .scanStop s = .next t ∧ hostView t = hostView (pointerPast 0x18 s) ∧
         t.queue = (if gone = [] then s.queue
           else { s.queue with jobs := left, stalled := s.queue.stalled && !left.isEmpty }) ∧
         t.scan = { s.scan with
           state := if flight then .stopping else .stopped, cursor := .cleared, timer := 0,
           passCount := s.scan.passCount - gone.length, swapPending := flight && s.scan.swapPending,
           active := if !flight && s.scan.swapPending then s.scan.active.other else s.scan.active } ∧
         t.cmd.outcome = { command := 0x11, state := if flight then .working else .done, reason := none,
                           result := BitVec.ofNat 8 gone.length, collision := false } ∧
         t.seq = s.seq ∧ t.channels = s.channels ∧ t.fifo = s.fifo)) ∧
  (∀ (c : Instr) (j : InFlight) (s : State), passLaw s → workingLaw s → s.scan.state = .stopping → endsJob c j s →
     ∃ t, exec c s = .next t ∧
       t.scan = { s.scan with
         state := .stopped, passCount := 0, swapPending := false,
         active := if s.scan.swapPending then s.scan.active.other else s.scan.active } ∧
       t.cmd.outcome = { s.cmd.outcome with state := .done, reason := none } ∧ flagSet .command t = true ∧
       (s.queue.jobs = [] → jobOver j s t))

/-- R108: SWAP_BANKS. -/
def Obligations.SwapBanksEffect : Prop :=
  ∀ s : State, decodesCommand s →
    (s.scan.swapPending = true →
      exec .swapBanks s = .next (recordOutcome 0x13 (.refused .swapPending 0) (pointerPast 0x18 s))) ∧
    (s.scan.swapPending = false → s.scan.state = .stopped ∨ s.scan.state = .waiting →
      exec .swapBanks s = .next (recordOutcome 0x13 (.done s.scan.active.other.code.toNat)
        ((pointerPast 0x18 s).withScan { s.scan with active := s.scan.active.other }))) ∧
    (s.scan.swapPending = false → s.scan.state = .running →
      exec .swapBanks s = .next (recordOutcome 0x13 (.done s.scan.active.other.code.toNat)
        ((pointerPast 0x18 s).withScan { s.scan with swapPending := true })))

/-! ### Channels -/

/-- R28, R29, R30, R36: a commit is refused for its argument, deferred for an engaged channel, or refused by a check. -/
def Obligations.CommitRefusedOrDeferred : Prop :=
  ∀ s : State, decodesCommand s →
    (16 ≤ s.cmd.arg0.toNat →
      exec .commitChannel s = .next (recordOutcome 0x20 (.refused .badArg 0) (pointerPast 0x18 s))) ∧
    ∀ ch : ChannelId, s.cmd.arg0.toNat = ch.val →
      (s.channels[ch.val].engaged = true →
        exec .commitChannel s = .next (recordOutcome 0x20 (.working 0)
          ((pointerPast 0x18 s).withDeferred (some { channel := ch, image := Image.ofStaging s.staging })))) ∧
      (∀ reason result, s.channels[ch.val].engaged = false →
        validate ch (Image.ofStaging s.staging) s = some (reason, result) →
        exec .commitChannel s = .next (recordOutcome 0x20 (.refused reason result) (pointerPast 0x18 s)))

/-- R29, R30, Table 2-4: the checks of a commit, in order, each with its reason and result byte, and the images they
accept, by role. The order of check 1 before check 2 in the result byte is log 9's reading. -/
def Obligations.CommitChecks : Prop :=
  ∀ (ch : ChannelId) (im : Image) (s : State),
    let ratio := im.role = 2
    let named := namedDescriptor im.refChannel s
    let answer := validate ch im s
    let fields := im.role.toNat ≤ 3 ∧ im.pin.toNat ≤ 7 ∧ im.method.toNat ≤ 1 ∧ im.g.toNat ≤ 7 ∧ im.s.toNat ≤ 4 ∧
      im.e.toNat ≤ 7 ∧ im.policy.toNat ≤ 3
    let threshold := im.zoneMonitor = 0 ∨ im.lowT.toNat + 2 * im.hyst.toNat ≤ im.highT.toNat
    (4 ≤ im.role.toNat → answer = some (.badField, 0x00)) ∧
    (im.role.toNat ≤ 3 →
      (8 ≤ im.pin.toNat → answer = some (.badField, 0x02)) ∧
      (im.pin.toNat ≤ 7 →
        (2 ≤ im.method.toNat → answer = some (.badField, 0x03)) ∧
        (im.method.toNat ≤ 1 →
          (8 ≤ im.g.toNat → answer = some (.badField, 0x04)) ∧
          (im.g.toNat ≤ 7 →
            (5 ≤ im.s.toNat → answer = some (.badField, 0x05)) ∧
            (im.s.toNat ≤ 4 →
              (8 ≤ im.e.toNat → answer = some (.badField, 0x06)) ∧
              (im.e.toNat ≤ 7 → 4 ≤ im.policy.toNat → answer = some (.badField, 0x19))))))) ∧
    (fields → ratio → 16 ≤ im.refChannel.toNat → answer = some (.badField, 0x09)) ∧
    (fields → (ratio → im.refChannel.toNat ≤ 15) → ¬threshold → answer = some (.badField, 0x15)) ∧
    (fields → threshold → ratio → im.refChannel.toNat = ch.val → answer = some (.badField, im.refChannel)) ∧
    (fields → threshold → ratio → im.refChannel.toNat ≤ 15 → im.refChannel.toNat ≠ ch.val →
      (¬(named.role = .reference ∧ named.enabled = true) → answer = some (.refMissing, im.refChannel)) ∧
      (named.role = .reference → named.enabled = true →
        (named.method ≠ Method.ofCode im.method → answer = some (.refMismatch, im.refChannel)) ∧
        (named.method = Method.ofCode im.method →
          (slotOf ch s = none → answer = none) ∧
          (∀ sl, slotOf ch s = some sl →
            (sl.users = 0 → answer = none) ∧
            (0 < sl.users → answer = some (.refInUse, BitVec.ofNat 8 sl.users)))))) ∧
    (fields → threshold → im.role = 3 →
      (slotOf ch s = none →
        ((∀ i : Fin 4, s.refs[i.val].owner ≠ none) → answer = some (.noRefSlot, 0)) ∧
        (∀ i : Fin 4, s.refs[i.val].owner = none → answer = none)) ∧
      (∀ sl, slotOf ch s = some sl →
        (sl.users = 0 ∨ (Method.ofCode im.method = s.channels[ch.val].desc.method ∧ im.enabled ≠ 0) → answer = none) ∧
        (0 < sl.users → Method.ofCode im.method ≠ s.channels[ch.val].desc.method ∨ im.enabled = 0 →
          answer = some (.refInUse, BitVec.ofNat 8 sl.users)))) ∧
    (fields → threshold → im.role.toNat ≤ 1 →
      (slotOf ch s = none → answer = none) ∧
      (∀ sl, slotOf ch s = some sl →
        (sl.users = 0 → answer = none) ∧
        (0 < sl.users → answer = some (.refInUse, BitVec.ofNat 8 sl.users))))

/-- R30 to R35, R69 to R71, R98, R100: an accepted commit of a channel that is not engaged, as a single action: the
descriptor, the range step, the zone, the slots, the alert entry, and, where the channel is switched off, its offer
withdrawn and its queued jobs removed. R37, R39: a deferred commit is decided at the end of the job, however that ends,
against the table as it then stands, and COMMAND is set.
That a waiting offer is retaken before the stalled mark of an emptied queue is decided is log 8, and its order with
MEASURE_NOW log 18; that the rows which end a job stand for their moments, whatever the model's counts show, is log 1. -/
def Obligations.CommitApplies : Prop :=
  (∀ (ch : ChannelId) (s : State), decodesCommand s → s.cmd.arg0.toNat = ch.val → s.channels[ch.val].engaged = false →
     validate ch (Image.ofStaging s.staging) s = none →
     let old := s.channels[ch.val]
     let new := (Image.ofStaging s.staging).descriptor
     let sameRange := old.desc.method = new.method ∧ old.desc.g = new.g ∧ old.desc.autoRange = new.autoRange
     let sameZone := old.desc.role = new.role ∧ old.desc.zoneMonitor = new.zoneMonitor ∧ old.desc.lowT = new.lowT ∧
       old.desc.highT = new.highT ∧ old.desc.hyst = new.hyst
     let sameEntry := old.desc.pin = new.pin ∧ old.desc.method = new.method ∧ old.desc.g = new.g ∧ old.desc.s = new.s
     let off := new.role = .unused ∨ new.enabled = false
     let linked := fun (d : Descriptor) (r : ChannelId) => if d.role = .ratio ∧ d.refChannel = r then 1 else 0
     let withdrawn := match s.scan.cursor with
       | .waiting n c => if c = ch then s.withScan { s.scan with cursor := .settled n } else s
       | _ => s
     ∃ t, exec .commitChannel s = .next t ∧ hostView t = hostView (pointerPast 0x18 s) ∧ t.staging = s.staging ∧
       t.seq = s.seq ∧ t.fifo = s.fifo ∧ t.channels[ch.val].desc = new ∧
       (∀ c : ChannelId, c ≠ ch → t.channels[c.val] = s.channels[c.val]) ∧
       t.channels[ch.val].lastStatus = old.lastStatus ∧
       (sameRange → t.channels[ch.val].rangeStep = old.rangeStep) ∧ (¬sameRange → t.channels[ch.val].rangeStep = 0) ∧
       (sameZone → t.channels[ch.val].zone = old.zone ∧ t.alerts = s.alerts) ∧
       (¬sameZone → t.channels[ch.val].zone = .unknown ∧ t.alerts.latch = s.alerts.latch ∧
         t.alerts.entries = s.alerts.entries.filter (fun a => a.channel != ch)) ∧
       (∀ (i : Fin 4) (r : ChannelId), s.refs[i.val].owner = some r → r ≠ ch →
         t.refs[i.val] = { s.refs[i.val] with users := s.refs[i.val].users - linked old.desc r + linked new r }) ∧
       (∀ i : Fin 4, s.refs[i.val].owner = some ch → old.desc.role = .reference →
         (new.role ≠ .reference → t.refs[i.val] = .free) ∧
         (new.role = .reference → sameEntry → t.refs[i.val] = s.refs[i.val]) ∧
         (new.role = .reference → ¬sameEntry → t.refs[i.val] = (s.refs[i.val]).invalidate)) ∧
       (∀ i : Fin 4, s.refs[i.val].owner = none →
         (new.role = .reference → slotOf ch s = none → (∀ k : Fin 4, k < i → s.refs[k.val].owner ≠ none) →
           t.refs[i.val] = { RefSlot.free with owner := some ch }) ∧
         (new.role ≠ .reference ∨ slotOf ch s ≠ none ∨ (∃ k : Fin 4, k < i ∧ s.refs[k.val].owner = none) →
           t.refs[i.val] = s.refs[i.val])) ∧
       (off → jobsRemoved (fun j => j.channel == ch) withdrawn t) ∧
       (¬off → t.queue = s.queue ∧ t.scan = s.scan) ∧
       (off → t.cmd.outcome =
         { command := 0x20, state := .done, reason := none,
           result := BitVec.ofNat 8 (s.queue.jobs.countP (fun j => j.channel == ch)), collision := false }) ∧
       (¬off → t.cmd.outcome = { command := 0x20, state := .done, reason := none, result := 0, collision := false })) ∧
  (∀ (c : Instr) (j : InFlight) (dc : DeferredCommit) (s : State), endsJob c j s → s.cmd.outcome.state = .working →
     s.deferred = some dc → s.scan.state ≠ .stopping →
     let answer := validate dc.channel dc.image s
     let new := dc.image.descriptor
     let removed := if new.role = .unused ∨ new.enabled = false
       then s.queue.jobs.countP (fun j => j.channel == dc.channel) else 0
     ∃ t, exec c s = .next t ∧ t.deferred = none ∧ flagSet .command t = true ∧
       (∀ reason result, answer = some (reason, result) →
         t.cmd.outcome = { s.cmd.outcome with state := .refused, reason := some reason, result := result } ∧
         ∀ b : ChannelId, t.channels[b.val].desc = s.channels[b.val].desc) ∧
       (answer = none →
         t.cmd.outcome = { s.cmd.outcome with state := .done, reason := none, result := BitVec.ofNat 8 removed } ∧
         ∀ b : ChannelId, t.channels[b.val].desc = if b = dc.channel then new else s.channels[b.val].desc))

/-- R27, R193: FETCH_CHANNEL copies the descriptor, the runtime record and the channel number to staging, every byte in
its place, and nothing else. -/
def Obligations.FetchChannelEffect : Prop :=
  ∀ s : State, decodesCommand s →
    (16 ≤ s.cmd.arg0.toNat →
      exec .fetchChannel s = .next (recordOutcome 0x21 (.refused .badArg 0) (pointerPast 0x18 s))) ∧
    ∀ ch : ChannelId, s.cmd.arg0.toNat = ch.val →
      let c := s.channels[ch.val]
      let d := c.desc
      let flag := fun yes : Bool => if yes then (1 : Byte) else 0
      let written := fetchedBytes ch c
      exec .fetchChannel s = .next (recordOutcome 0x21 (.done (if c.engaged then 1 else 0))
        ((pointerPast 0x18 s).withStaging written)) ∧
      (∀ v : Vector Byte 32, v = written →
        v[0x00] = d.role.code ∧ v[0x01] = flag d.enabled ∧ v[0x02] = BitVec.ofNat 8 d.pin.val ∧
        v[0x03] = d.method.code ∧ v[0x04] = BitVec.ofNat 8 d.g.val ∧ v[0x05] = BitVec.ofNat 8 d.s.val ∧
        v[0x06] = BitVec.ofNat 8 d.e.val ∧ v[0x07] = d.settle ∧ v[0x08] = flag d.autoRange ∧
        v[0x09] = BitVec.ofNat 8 d.refChannel.val ∧ word16 v[0x0A] v[0x0B] = d.maxAge ∧
        v[0x0C] = flag d.zoneMonitor ∧ word32 v[0x0D] v[0x0E] v[0x0F] v[0x10] = d.lowT ∧
        word32 v[0x11] v[0x12] v[0x13] v[0x14] = d.highT ∧ word32 v[0x15] v[0x16] v[0x17] v[0x18] = d.hyst ∧
        v[0x19] = d.policy.code ∧ v[0x1A] = flag d.alert ∧ v[0x1B] = c.zone.code ∧
        v[0x1C] = BitVec.ofNat 8 c.rangeStep ∧ v[0x1D] = c.lastStatus.code ∧ v[0x1E] = flag c.engaged ∧
        v[0x1F] = s.cmd.arg0)

/-- R22, R27, R30: what a fetch writes, committed again, is the descriptor it was fetched from. A stored descriptor that is
not RATIO has reference channel 0 and maximum age 0 (R22). -/
def Obligations.FetchedDescriptorCommitsBack : Prop :=
  ∀ (ch : ChannelId) (c : Channel), (c.desc.role ≠ .ratio → c.desc.refChannel = 0 ∧ c.desc.maxAge = 0) →
    (Image.ofStaging (fetchedBytes ch c)).descriptor = c.desc ∧ (Image.ofStaging (fetchedBytes ch c)).badField = none

/-! ### References, zones, alerts, results -/

/-- R79, R80: INVALIDATE_REFERENCE. -/
def Obligations.InvalidateReferenceEffect : Prop :=
  ∀ s : State, decodesCommand s →
    let cleared := fun sl : RefSlot => { sl with valid := false, cRef := 0, gRef := 0, age := 0, fault := .none }
    (s.cmd.arg0 = 0xFF → ∃ t, exec .invalidateReference s = .next t ∧
      t = recordOutcome 0x30 (.done (s.refs.toList.countP (fun sl => sl.valid))) ((pointerPast 0x18 s).withRefs t.refs) ∧
      ∀ i : Fin 4, t.refs[i.val] = cleared s.refs[i.val]) ∧
    (16 ≤ s.cmd.arg0.toNat → s.cmd.arg0 ≠ 0xFF →
      exec .invalidateReference s = .next (recordOutcome 0x30 (.refused .badArg 0) (pointerPast 0x18 s))) ∧
    ∀ ch : ChannelId, s.cmd.arg0.toNat = ch.val →
      ((∀ i : Fin 4, s.refs[i.val].owner ≠ some ch) →
        exec .invalidateReference s = .next (recordOutcome 0x30 (.refused .refMissing 0) (pointerPast 0x18 s))) ∧
      (∀ i : Fin 4, s.refs[i.val].owner = some ch → (∀ k : Fin 4, s.refs[k.val].owner = some ch → k = i) →
        ∃ t, exec .invalidateReference s = .next t ∧
          t = recordOutcome 0x30 (.done (if s.refs[i.val].valid then 1 else 0)) ((pointerPast 0x18 s).withRefs t.refs) ∧
          t.refs[i.val] = cleared s.refs[i.val] ∧ ∀ k : Fin 4, k ≠ i → t.refs[k.val] = s.refs[k.val])

/-- R141, R142, R143: CLEAR_ZONE; CLEAR_ALERTS, also while another command is WORKING. R137: what a zone change of a channel
makes of the list: with no entry of the channel, as after a clear, a new one at the tail; else the channel's entry is
updated in place, with its from-zone kept. -/
def Obligations.ClearZoneAndClearAlerts : Prop :=
  (∀ s : State, decodesCommand s →
     (s.cmd.arg0 = 0xFF → ∃ t, exec .clearZone s = .next t ∧
       t = recordOutcome 0x38 (.done s.alerts.entries.length)
         (((pointerPast 0x18 s).withChannels t.channels).withAlerts { s.alerts with entries := [] }) ∧
       ∀ ch : ChannelId, t.channels[ch.val] = { s.channels[ch.val] with zone := .unknown }) ∧
     (16 ≤ s.cmd.arg0.toNat → s.cmd.arg0 ≠ 0xFF →
       exec .clearZone s = .next (recordOutcome 0x38 (.refused .badArg 0) (pointerPast 0x18 s))) ∧
     ∀ ch : ChannelId, s.cmd.arg0.toNat = ch.val → ∃ t, exec .clearZone s = .next t ∧
       t = recordOutcome 0x38 (.done (s.alerts.entries.countP (fun a => a.channel == ch)))
         (((pointerPast 0x18 s).withChannels t.channels).withAlerts
           { s.alerts with entries := s.alerts.entries.filter (fun a => a.channel != ch) }) ∧
       t.channels[ch.val] = { s.channels[ch.val] with zone := .unknown } ∧
       ∀ c : ChannelId, c ≠ ch → t.channels[c.val] = s.channels[c.val]) ∧
  (∀ s : State, takesWrite 0x18 s →
     (s.cmd.outcome.state ≠ .working → exec .clearAlerts s = .next (recordOutcome 0x39 (.done s.alerts.entries.length)
       ((pointerPast 0x18 s).withAlerts { s.alerts with entries := [] }))) ∧
     (s.cmd.outcome.state = .working → exec .clearAlerts s = .next (collide (pointerPast 0x18 s))) ∧
     (alertLaw s → s.alerts.entries.length ≤ 16)) ∧
  (∀ (ch : ChannelId) (old new : Zone) (stamp : BitVec 32) (others : List AlertEntry),
     (∀ a ∈ others, a.channel ≠ ch) →
     alertEntries ch old new stamp others =
       others ++ [{ channel := ch, fromZone := old, toZone := new, count := 1, stamp := stamp }] ∧
     ∀ (before after : List AlertEntry) (a : AlertEntry), others = before ++ after → a.channel = ch →
       alertEntries ch old new stamp (before ++ a :: after) =
         before ++ { a with toZone := new, stamp := stamp, count := if a.count < 255 then a.count + 1 else 255 } :: after)

/-- R98, R159: CLEAR_RESULTS empties the FIFO and keeps the rest of it; a stalled Arbiter is granted. -/
def Obligations.ClearResultsEffect : Prop :=
  ∀ s : State, decodesCommand s →
    (s.queue.stalled = false → exec .clearResults s = .next (recordOutcome 0x3A (.done s.fifo.records.length)
      ((pointerPast 0x18 s).withFifo { s.fifo with records := [] }))) ∧
    (s.queue.stalled = true → arbiterReady s = true → s.queue.jobs ≠ [] → s.fifo.reserved = 0 →
      ∃ t, exec .clearResults s = .next t ∧ t.fifo = { s.fifo with records := [], reserved := 1 } ∧
        t.queue.stalled = false ∧ t.seq.state = .discharge ∧
        t.cmd.outcome = { command := 0x3A, state := .done, reason := none, collision := false,
                          result := BitVec.ofNat 8 s.fifo.records.length })

/-! ### The timebase -/

/-- R12, R13: SET_TIMEBASE, with its checks in order; an accepted one replaces p, restarts the dividers and invalidates every
reference entry. R15, R16, R18: SLEEP, with its checks in order, and WAKE. -/
def Obligations.SetTimebaseSleepWake : Prop :=
  (∀ s : State, decodesCommand s →
     let refused := fun r => exec .setTimebase s = .next (recordOutcome 0x40 (.refused r 0) (pointerPast 0x18 s))
     (8 ≤ s.cmd.arg0.toNat → refused .badArg) ∧
     ∀ p : Fin 8, s.cmd.arg0.toNat = p.val →
       (s.timebase.power = .asleep → refused .asleep) ∧
       (s.timebase.power = .awake → s.seq.state ≠ .idle → refused .notIdle) ∧
       (s.timebase.power = .awake → s.seq.state = .idle → s.scan.state ≠ .stopped → refused .notStopped) ∧
       (s.timebase.power = .awake → s.seq.state = .idle → s.scan.state = .stopped →
         ∃ t, exec .setTimebase s = .next t ∧
           t = recordOutcome 0x40 (.done s.timebase.p.val) (((pointerPast 0x18 s).withTimebase
             { s.timebase with p := p, prescaleDivider := 0, slowDivider := 0 }).withRefs t.refs) ∧
           ∀ i : Fin 4, t.refs[i.val] =
             { s.refs[i.val] with valid := false, cRef := 0, gRef := 0, age := 0, fault := .none })) ∧
  (∀ s : State, decodesCommand s →
     let refused := fun r => exec .sleep s = .next (recordOutcome 0x41 (.refused r 0) (pointerPast 0x18 s))
     (s.timebase.power = .asleep → exec .sleep s = .next (recordOutcome 0x41 (.done 0) (pointerPast 0x18 s))) ∧
     (s.timebase.power = .awake →
       (s.seq.state ≠ .idle → refused .notIdle) ∧
       (s.seq.state = .idle → s.scan.state ≠ .stopped → refused .notStopped) ∧
       (s.seq.state = .idle → s.scan.state = .stopped → s.queue.jobs ≠ [] → refused .queueNotEmpty) ∧
       (s.seq.state = .idle → s.scan.state = .stopped → s.queue.jobs = [] →
         ∃ t, exec .sleep s = .next t ∧
           t = recordOutcome 0x41 (.done 0) ((((pointerPast 0x18 s).withTimebase
             { s.timebase with power := .asleep, prescaleDivider := 0, slowDivider := 0 }).withFrontEnd .held).withRefs
               t.refs) ∧
           ∀ i : Fin 4, t.refs[i.val] =
             { s.refs[i.val] with valid := false, cRef := 0, gRef := 0, age := 0, fault := .none })) ∧
     (s.timebase.power = .awake → exec .wake s = .next (recordOutcome 0x42 (.done 0) (pointerPast 0x18 s))) ∧
     (s.timebase.power = .asleep → exec .wake s = .next (recordOutcome 0x42 (.done 0)
       (((pointerPast 0x18 s).withTimebase
         { s.timebase with power := .awake, prescaleDivider := 0, slowDivider := 0 }).withFrontEnd .clamped))))

/-! ### Register writes -/

/-- R184: a write of 10h clears the flags whose bits are 1, sets none, touches nothing else, and IRQ follows. Beside it
the two resets alone clear a flag (R189): every other command leaves every set flag set, the end of a stall by whatever
event among them; and a pop, a CLEAR_RESULTS or a CLEAR_ALERTS leaves every flag as it stands. -/
def Obligations.EventFlagsWriteClears : Prop :=
  (∀ (value : Byte) (s : State), takesWrite 0x10 s → ∃ t, exec (.eventFlagsWrite value) s = .next t ∧
     t = (pointerPast 0x10 s).withEvents { s.events with flags := s.events.flags &&& ~~~value } ∧
     (∀ f : Flag, flagSet f t = (flagSet f s && (value &&& f.mask == 0))) ∧
     irqLow t = (s.events.flags &&& ~~~value &&& s.events.enables != 0)) ∧
  (∀ (c : Instr) (s t : State), c ≠ .powerOnReset →
     (∀ value, (∃ address, c.busWrite = some (address, value)) ∨ c = .registerPointerLoad value →
       ¬takesWrite 0x10 s ∧ ¬(takesWrite 0x18 s ∧ value = 0x50)) →
     exec c s = .next t → ∀ f : Flag, flagSet f s = true → flagSet f t = true) ∧
  (∀ (c : Instr) (s t : State), jobLaw s →
     c = .resultWindowPop ∨ c = .alertWindowPop ∨ (c = .clearResults ∨ c = .clearAlerts) ∧ takesWrite 0x18 s →
     exec c s = .next t → t.events.flags = s.events.flags)

/-- R186: a write of 11h stores every bit, reads back, and reaches IRQ in the same action; the flags are kept. -/
def Obligations.EventEnablesWriteStores : Prop :=
  ∀ (value : Byte) (s : State), takesWrite 0x11 s → ∃ t, exec (.eventEnablesWrite value) s = .next t ∧
    t = (pointerPast 0x11 s).withEvents { s.events with enables := value } ∧ readByte t 0x11 = value ∧
    readByte t 0x10 = s.events.flags ∧ irqLow t = (s.events.flags &&& value != 0)

/-- R98, R149, R150: a write of the policy byte stores HOLD or OVERWRITE; while the Arbiter is stalled it is a retry, which
HOLD refuses again over a full FIFO and OVERWRITE grants with a discard. -/
def Obligations.FullPolicyWriteStores : Prop :=
  ∀ (value : Byte) (s : State), takesWrite 0x24 s →
    let stored := (pointerPast 0x24 s).withFifo { s.fifo with policy := if value = 0 then .hold else .overwrite }
    (s.queue.stalled = false → exec (.fullPolicyWrite value) s = .next stored) ∧
    (s.queue.stalled = true → s.fifo.records.length = 16 → value = 0 →
      exec (.fullPolicyWrite value) s = .next stored) ∧
    (s.queue.stalled = true → arbiterReady s = true → s.queue.jobs ≠ [] → s.fifo.records.length = 16 → value ≠ 0 →
      ∃ t, exec (.fullPolicyWrite value) s = .next t ∧ t.queue.stalled = false ∧ t.seq.state = .discharge ∧
        t.fifo = { s.fifo with policy := .overwrite, records := s.fifo.records.drop 1, gapPending := true,
                               reserved := 1 } ∧
        flagSet .drop t = true)

/-- R107, Table 11-5: a write to a bank entry byte or a bank length, taken or ignored by the bank it concerns. -/
def Obligations.ScanBankWriteStores : Prop :=
  ∀ (value : Byte) (s : State),
    let takenA := s.scan.active = .b ∨ s.scan.state = .stopped
    let takenB := s.scan.active = .a ∨ s.scan.state = .stopped
    let length := if value.toNat ≤ 24 then value else 24
    let wrote := fun (a : Byte) (t : State) => takesWrite a s → exec (.scanBankWrite a value) s = .next t
    (takenA → wrote 0x26 ((pointerPast 0x26 s).withScan { s.scan with lengthA := length })) ∧
    (takenB → wrote 0x27 ((pointerPast 0x27 s).withScan { s.scan with lengthB := length })) ∧
    (∀ i : Fin 48, takenA → wrote (BitVec.ofNat 8 (0x90 + i.val))
      ((pointerPast (BitVec.ofNat 8 (0x90 + i.val)) s).withScan { s.scan with bankA := s.scan.bankA.set i.val value })) ∧
    (∀ i : Fin 48, takenB → wrote (BitVec.ofNat 8 (0xC0 + i.val))
      ((pointerPast (BitVec.ofNat 8 (0xC0 + i.val)) s).withScan { s.scan with bankB := s.scan.bankB.set i.val value })) ∧
    (¬takenA → ∀ a : Byte, a = 0x26 ∨ (0x90 ≤ a.toNat ∧ a.toNat ≤ 0xBF) → wrote a (pointerPast a s)) ∧
    (¬takenB → ∀ a : Byte, a = 0x27 ∨ (0xC0 ≤ a.toNat ∧ a.toNat ≤ 0xEF) → wrote a (pointerPast a s))

/-- R11, R26, R120, R122, R168, R192: the register writes that have no row of their own: the arguments, the pass period,
the TRIG setting, the discharge setting, staging, every address that ignores writes; and the overrun counter at 0Bh,
cleared by a write of 00h alone. -/
def Obligations.PlainRegisterWrites : Prop :=
  (∀ (value : Byte) (s : State),
     let wrote := fun (a : Byte) (t : State) => takesWrite a s → exec (.registerWrite a value) s = .next t
     wrote 0x19 ((pointerPast 0x19 s).withCmd { s.cmd with arg0 := value }) ∧
     wrote 0x1A ((pointerPast 0x1A s).withCmd { s.cmd with arg1 := value }) ∧
     wrote 0x1B ((pointerPast 0x1B s).withCmd { s.cmd with arg2 := value }) ∧
     wrote 0x1C ((pointerPast 0x1C s).withCmd { s.cmd with arg3 := value }) ∧
     (¬(value = 0 ∧ s.scan.periodHigh = 0) → wrote 0x20 ((pointerPast 0x20 s).withScan { s.scan with periodLow := value })) ∧
     (value = 0 → s.scan.periodHigh = 0 → wrote 0x20 ((pointerPast 0x20 s).withScan { s.scan with periodLow := 1 })) ∧
     (¬(value = 0 ∧ s.scan.periodLow = 0) → wrote 0x21 ((pointerPast 0x21 s).withScan { s.scan with periodHigh := value })) ∧
     (value = 0 → s.scan.periodLow = 0 →
       wrote 0x21 ((pointerPast 0x21 s).withScan { s.scan with periodHigh := 0, periodLow := 1 })) ∧
     wrote 0x22 ((pointerPast 0x22 s).withScan { s.scan with trigSetting := value &&& 0x13 }) ∧
     wrote 0x23 ((pointerPast 0x23 s).withTimebase { s.timebase with discharge := if value = 0 then 1 else value }) ∧
     (∀ i : Fin 32, wrote (BitVec.ofNat 8 (0x40 + i.val))
       ((pointerPast (BitVec.ofNat 8 (0x40 + i.val)) s).withStaging (s.staging.set i.val value))) ∧
     ∀ a : Byte, (a.toNat ≤ 0x0A ∨ (0x0C ≤ a.toNat ∧ a.toNat ≤ 0x0F) ∨ (0x12 ≤ a.toNat ∧ a.toNat ≤ 0x17) ∨
       (0x1D ≤ a.toNat ∧ a.toNat ≤ 0x1F) ∨ (0x28 ≤ a.toNat ∧ a.toNat ≤ 0x3F) ∨ (0x60 ≤ a.toNat ∧ a.toNat ≤ 0x8F) ∨
       0xF0 ≤ a.toNat) → wrote a (pointerPast a s)) ∧
  (∀ (value : Byte) (s : State), takesWrite 0x0B s →
     (value = 0 → exec (.overrunCounterWrite value) s =
       .next ((pointerPast 0x0B s).withScan { s.scan with overrun := 0 })) ∧
     (value ≠ 0 → exec (.overrunCounterWrite value) s = .next (pointerPast 0x0B s)))

/-- R153: the watermark byte: what a write stores and reads back, that it does nothing else, what the resets leave, and
that RESULTS follows the watermark in force when a record is written. -/
def Obligations.WatermarkByte : Prop :=
  (∀ (value : Byte) (s : State), takesWrite 0x25 s → ∃ t, exec (.registerWrite 0x25 value) s = .next t ∧
    t = (pointerPast 0x25 s).withFifo { s.fifo with watermark := t.fifo.watermark } ∧
    t.fifo.watermark = (if value = 0 then 1 else if value.toNat ≤ 16 then value else 16) ∧
    readByte t 0x25 = t.fifo.watermark) ∧
  (∀ s : State, ∃ t, exec .powerOnReset s = .next t ∧ t.fifo.watermark = 1) ∧
  (∀ s : State, takesWrite 0x18 s → ∃ t, exec .engineReset s = .next t ∧ t.fifo.watermark = s.fifo.watermark) ∧
  (∀ (a : Completion) (zone : Zone) (changed : Bool) (policy : ReportPolicy) (s : State),
    writesRecord a changed policy = true → flagSet .results s = false →
    flagSet .results (fifoShare a zone changed policy s) =
      decide (s.fifo.watermark.toNat ≤ s.fifo.records.length + 1))

/-- R163, R164, R165, R166, R170: the bytes of the bus. The port's own address opens a write or a read transaction, a read
one with the snapshot copied, and a start that addresses another target leaves the port out of the bus. The first data
byte of a write transaction, in whatever row it comes, loads the pointer and writes nothing; every later one is written
at the pointer, whatever address its row names; outside a write transaction no byte is taken, and outside a read
transaction none is sent. That a row of another address, or of the pointer load, is the write of the byte at the pointer
is logs 12 and 14; that the starts of another target have no row is log 20. -/
def Obligations.TransactionBytes : Prop :=
  ∀ s : State, s.inReset = false →
    exec .writeTransactionStart s = .next (s.withPort { s.port with bus := .awaitPointer }) ∧
    (∀ value, s.port.bus = .awaitPointer →
      exec (.registerPointerLoad value) s = .next (s.withPort { s.port with pointer := value, bus := .writing })) ∧
    (∀ c address value, s.port.bus = .awaitPointer → c.busWrite = some (address, value) →
      exec c s = .next (s.withPort { s.port with pointer := value, bus := .writing })) ∧
    (∀ c address value, s.port.bus = .writing → c.wellFormed = true → c.busWrite = some (address, value) →
      exec c s = exec (Instr.ofRegisterWrite s.port.pointer value) s) ∧
    (∀ value, s.port.bus = .writing →
      exec (.registerPointerLoad value) s = exec (Instr.ofRegisterWrite s.port.pointer value) s) ∧
    (s.port.bus = .idle ∨ s.port.bus = .reading →
      (∀ c address value, c.busWrite = some (address, value) → exec c s = .next s) ∧
      (∀ value, exec (.registerPointerLoad value) s = .next s)) ∧
    (s.port.bus ≠ .reading → exec .resultWindowPop s = .next s ∧ exec .alertWindowPop s = .next s) ∧
    (∀ (target : BitVec 7) (read : Bool),
      let addressByte := target ++ BitVec.ofBool read
      (target = s.port.address → acknowledges addressByte s = true ∧
        (read = false → exec .writeTransactionStart s = .next (busStart addressByte s)) ∧
        (read = true → exec .statusSnapshotCopy s = .next (busStart addressByte s))) ∧
      (target ≠ s.port.address → acknowledges addressByte s = false ∧
        busStart addressByte s = s.withPort { s.port with bus := .idle })) ∧
    exec .statusSnapshotCopy s = .next (s.withPort { s.port with
      bus := .reading,
      snapshot := { seqState := s.seq.state, scanState := s.scan.state, scanMode := s.scan.mode, active := s.scan.active,
                    swapPending := s.scan.swapPending, power := s.timebase.power, filtered := s.scan.filtered,
                    queueDepth := s.queue.jobs.length, occupancy := s.fifo.records.length,
                    reserved := s.fifo.reserved, alertCount := s.alerts.entries.length,
                    passNumber := s.scan.passNumber, overrun := s.scan.overrun, stamp := s.timebase.stamp } })

/-- R98, R139, R157, R165, R169: the bytes a read transaction sends: a pop at 60h, which is a retry of a stalled Arbiter,
a pop at 80h, and at every other address the byte alone, with the pointer past it. That either row sends the byte at the
pointer, whatever its address, is log 7. -/
def Obligations.WindowPops : Prop :=
  ∀ s : State,
    let readAt := fun (a sent : Byte) (t : State) => t.withPort { s.port with pointer := a + 1, sent := sent }
    (sendsFrom 0x60 s →
      (s.queue.stalled = false ∨ s.seq.state ≠ .idle →
        (s.fifo.records = [] →
          exec .resultWindowPop s = .next (readAt 0x60 0xFF (s.withFifo { s.fifo with latch := none }))) ∧
        (∀ r rest, s.fifo.records = r :: rest → exec .resultWindowPop s =
          .next (readAt 0x60 (BitVec.ofNat 8 r.sequence.toNat)
            (s.withFifo { s.fifo with records := rest, latch := some r })))) ∧
      (∀ r rest, s.queue.stalled = true → arbiterReady s = true → s.queue.jobs ≠ [] → s.fifo.records = r :: rest →
        rest.length = 15 → s.fifo.reserved = 0 →
        ∃ t, exec .resultWindowPop s = .next t ∧
          t.fifo = { s.fifo with records := rest, latch := some r, reserved := 1 } ∧
          t.queue.stalled = false ∧ t.seq.state = .discharge) ∧
      exec .alertWindowPop s = exec .resultWindowPop s) ∧
    (sendsFrom 0x80 s →
      (s.alerts.entries = [] →
        exec .alertWindowPop s = .next (readAt 0x80 0xFF (s.withAlerts { s.alerts with latch := none }))) ∧
      (∀ a rest, s.alerts.entries = a :: rest → exec .alertWindowPop s =
        .next (readAt 0x80 (BitVec.ofNat 8 a.channel.val) (s.withAlerts { entries := rest, latch := some a }))) ∧
      exec .resultWindowPop s = exec .alertWindowPop s) ∧
    (∀ p : Byte, sendsFrom p s → p ≠ 0x60 → p ≠ 0x80 →
      exec .resultWindowPop s = .next (readAt p (readByte s p) s) ∧
      exec .alertWindowPop s = .next (readAt p (readByte s p) s))

/-! ### The register window -/

/-- R168, Tables 11-2, 11-3, 11-6 to 11-9 (R156, R183, R191 to R195): what reads of the window return, byte by byte: the
identification, the snapshot, the flags and enables, COMMAND, the arguments, the outcome record, the configuration,
staging, the two latches, the banks, the slots, and the unassigned addresses. -/
def Obligations.WindowBytes : Prop :=
  ∀ s : State,
    let n := s.port.snapshot
    let o := s.cmd.outcome
    let at' := fun a : Nat => readByte s (BitVec.ofNat 8 a)
    let bits := fun (a low width : Nat) => (at' a).toNat / 2 ^ low % 2 ^ width
    let three := fun a : Nat => (at' a).toNat + 256 * (at' (a + 1)).toNat + 65536 * (at' (a + 2)).toNat
    (at' 0x00 = 0x16 ∧ at' 0x01 = 0x01 ∧ at' 0x10 = s.events.flags ∧ at' 0x11 = s.events.enables ∧ at' 0x18 = 0) ∧
    (at' 0x02 = n.seqState.code ∧
      bits 0x03 0 2 = n.scanState.code.toNat ∧ bits 0x03 4 2 = n.scanMode.code.toNat ∧ bits 0x03 2 2 = 0 ∧
      bits 0x03 6 2 = 0 ∧
      bits 0x04 0 1 = n.active.code.toNat ∧ bits 0x04 1 1 = n.swapPending.toNat ∧ bits 0x04 2 1 = n.power.code.toNat ∧
      bits 0x04 3 1 = n.filtered.toNat ∧ bits 0x04 4 4 = 0 ∧
      at' 0x05 = BitVec.ofNat 8 n.queueDepth ∧ at' 0x06 = BitVec.ofNat 8 n.occupancy ∧
      at' 0x07 = BitVec.ofNat 8 n.reserved ∧ at' 0x08 = BitVec.ofNat 8 n.alertCount ∧
      word16 (at' 0x09) (at' 0x0A) = n.passNumber ∧ at' 0x0B = n.overrun ∧
      word32 (at' 0x0C) (at' 0x0D) (at' 0x0E) (at' 0x0F) = n.stamp) ∧
    (at' 0x19 = s.cmd.arg0 ∧ at' 0x1A = s.cmd.arg1 ∧ at' 0x1B = s.cmd.arg2 ∧ at' 0x1C = s.cmd.arg3) ∧
    (at' 0x1D = o.command ∧ bits 0x1E 0 3 = o.state.code.toNat ∧ bits 0x1E 3 1 = o.collision.toNat ∧
      (o.reason = none → bits 0x1E 4 4 = 0) ∧ (∀ r, o.reason = some r → bits 0x1E 4 4 = r.code.toNat) ∧
      at' 0x1F = o.result) ∧
    (word16 (at' 0x20) (at' 0x21) = word16 s.scan.periodLow s.scan.periodHigh ∧ at' 0x22 = s.scan.trigSetting ∧
      at' 0x23 = s.timebase.discharge ∧ at' 0x24 = s.fifo.policy.code ∧ at' 0x25 = s.fifo.watermark ∧
      at' 0x26 = s.scan.lengthA ∧ at' 0x27 = s.scan.lengthB) ∧
    (∀ i : Fin 32, at' (0x40 + i.val) = s.staging[i.val]) ∧
    (∀ i : Fin 48, at' (0x90 + i.val) = s.scan.bankA[i.val] ∧ at' (0xC0 + i.val) = s.scan.bankB[i.val]) ∧
    (s.fifo.latch = none → at' 0x60 = 0xFF ∧ at' 0x61 = 0xFF ∧ ∀ i : Fin 22, at' (0x62 + i.val) = 0) ∧
    (∀ r, s.fifo.latch = some r →
      word16 (at' 0x60) (at' 0x61) = r.sequence ∧ at' 0x62 = BitVec.ofNat 8 r.channel.val ∧
      bits 0x63 0 3 = r.status.code.toNat ∧ bits 0x63 3 1 = r.tag.isScan.toNat ∧ bits 0x63 4 4 = r.zone.code.toNat ∧
      word16 (at' 0x64) (at' 0x65) = r.tag.number ∧
      bits 0x66 0 3 = r.samplesExp.val ∧ bits 0x66 3 2 = r.step % 4 ∧ bits 0x66 7 1 = 0 ∧
      bits 0x67 0 1 = r.value.isSome.toNat ∧ bits 0x67 1 1 = r.refPart.isSome.toNat ∧
      bits 0x67 2 1 = r.saturated.toNat ∧ bits 0x67 3 1 = r.lowRes.toNat ∧ bits 0x67 4 1 = r.refreshed.toNat ∧
      bits 0x67 5 1 = r.rangeChanged.toNat ∧ bits 0x67 6 1 = r.gap.toNat ∧ bits 0x67 7 1 = 0 ∧
      three 0x68 = r.cTotal % 16777216 ∧
      (r.value = none → ∀ i : Fin 4, at' (0x6B + i.val) = 0) ∧
      (∀ v, r.value = some v → word32 (at' 0x6B) (at' 0x6C) (at' 0x6D) (at' 0x6E) = BitVec.ofNat 32 v) ∧
      (r.refPart = none → bits 0x66 5 2 = 0 ∧ ∀ i : Fin 5, at' (0x6F + i.val) = 0) ∧
      (∀ p, r.refPart = some p → bits 0x66 5 2 = p.step % 4 ∧ three 0x6F = p.cRef % 16777216 ∧
        word16 (at' 0x72) (at' 0x73) = BitVec.ofNat 16 p.age) ∧
      word32 (at' 0x74) (at' 0x75) (at' 0x76) (at' 0x77) = r.timestamp) ∧
    (s.alerts.latch = none → at' 0x80 = 0xFF ∧ ∀ i : Fin 7, at' (0x81 + i.val) = 0) ∧
    (∀ a, s.alerts.latch = some a → at' 0x80 = BitVec.ofNat 8 a.channel.val ∧ at' 0x81 = a.fromZone.code ∧
      at' 0x82 = a.toZone.code ∧ at' 0x83 = BitVec.ofNat 8 a.count ∧
      word32 (at' 0x84) (at' 0x85) (at' 0x86) (at' 0x87) = a.stamp) ∧
    (∀ i : Fin 4,
      let sl := s.refs[i.val]
      (sl.owner = none → at' (0xF0 + 4 * i.val) = 0xFF) ∧
      (∀ ch : ChannelId, sl.owner = some ch → at' (0xF0 + 4 * i.val) = BitVec.ofNat 8 ch.val) ∧
      bits (0xF1 + 4 * i.val) 0 4 = sl.users % 16 ∧ bits (0xF1 + 4 * i.val) 4 1 = sl.valid.toNat ∧
      bits (0xF1 + 4 * i.val) 5 3 = sl.fault.code.toNat ∧
      word16 (at' (0xF2 + 4 * i.val)) (at' (0xF3 + 4 * i.val)) = BitVec.ofNat 16 sl.age) ∧
    (∀ a : Nat, (0x12 ≤ a ∧ a ≤ 0x17) ∨ (0x28 ≤ a ∧ a ≤ 0x3F) ∨ (0x78 ≤ a ∧ a ≤ 0x7F) ∨ (0x88 ≤ a ∧ a ≤ 0x8F) →
      at' a = 0)

/-- R164, R168, R195: a well-formed row that is a register write is the row its address and byte name. -/
def Obligations.WriteRowsRoundTrip : Prop :=
  ∀ (i : Instr) (address value : Byte), i.wellFormed = true → i.busWrite = some (address, value) →
    Instr.ofRegisterWrite address value = i

/-! ### Ticks and edges -/

/-- R7, R8, R9, R10: a TB tick advances the slow-tick divider, every 1,024th is a slow tick that advances the stamp, and
nothing the host wrote changes; while the part is not clocked no tick arrives. R45 to R52, Table 3-1: what the Sequencer
counts at a TB tick. Where no count is complete, the tick goes on to the cursor (R116), and a tick that is a slow tick, with
the cursor at rest, to the blocks that count those (R8). A count that is complete at a tick that is no slow tick, with
the cursor at rest, is the event of its own row (log 1). -/
def Obligations.TbTickEffect : Prop :=
  (∀ (level : Bool) (s : State),
     (clocked s = true → ∃ t, exec (.tbTick level) s = .next t ∧
       hostView t = { hostView s with pins := { s.pins with trig := level } } ∧ t.staging = s.staging ∧
       t.timebase = (if s.timebase.slowDivider + 1 < 1024
         then { s.timebase with prescaleDivider := 0, slowDivider := s.timebase.slowDivider + 1 }
         else { s.timebase with prescaleDivider := 0, slowDivider := 0, stamp := s.timebase.stamp + 1 })) ∧
     (clocked s = false → exec (.tbTick level) s = .next s ∧ exec (.slowTick level) s = .next s)) ∧
  (∀ (level : Bool) (v : Working) (s : State), clocked s = true →
     let w := s.seq.work
     (s.seq.state = .idle ∨ s.seq.state = .settle) ∧ v = w ∨
       s.seq.state = .discharge ∧ w.dischargeCount + 1 < w.dischargeLength ∧
         v = { w with dischargeCount := w.dischargeCount + 1 } ∨
       s.seq.state = .arm ∧ w.timeout + 1 < 1024 * 2 ^ w.e.val ∧ v = { w with timeout := w.timeout + 1 } ∨
       s.seq.state = .count ∧ w.method = .window ∧ w.gate + 1 < windowGate w ∧
         w.timeout + 1 < 1024 * 2 ^ w.e.val ∧ v = { w with gate := w.gate + 1, timeout := w.timeout + 1 } ∨
       s.seq.state = .count ∧ w.method = .period ∧ w.count + 1 < 1048576 ∧
         w.timeout + 1 < 1024 * 2 ^ w.e.val ∧ v = { w with count := w.count + 1, timeout := w.timeout + 1 } →
     let counted := s.withSeq { s.seq with work := v }
     (s.timebase.slowDivider + 1 < 1024 → exec (.tbTick level) s = exec .cursorAdvance ((counted.withTimebase
       { s.timebase with prescaleDivider := 0, slowDivider := s.timebase.slowDivider + 1 }).withPins
         { s.pins with trig := level })) ∧
     (1024 ≤ s.timebase.slowDivider + 1 → (∀ n, s.scan.cursor ≠ .settled n) →
       exec (.tbTick level) s =
         exec (.slowTick level) (counted.withTimebase { s.timebase with prescaleDivider := 0 }))) ∧
  (∀ (level : Bool) (s : State), clocked s = true → s.timebase.slowDivider + 1 < 1024 →
     (∀ n, s.scan.cursor ≠ .settled n) →
     let base := (s.withTimebase { s.timebase with
       prescaleDivider := 0, slowDivider := s.timebase.slowDivider + 1 }).withPins { s.pins with trig := level }
     let w := s.seq.work
     let counted := fun v : Working => base.withSeq { s.seq with work := v }
     let answer := exec (.tbTick level) s
     (s.seq.state = .discharge → w.dischargeLength ≤ w.dischargeCount + 1 →
       answer = exec .dischargeEnd (counted { w with dischargeCount := w.dischargeCount + 1 })) ∧
     (s.seq.state = .arm → 1024 * 2 ^ w.e.val ≤ w.timeout + 1 →
       answer = exec .edgeTimeout (counted { w with timeout := w.timeout + 1 })) ∧
     (s.seq.state = .count → w.method = .window →
       (windowGate w ≤ w.gate + 1 →
         answer = exec .windowGateClose (counted { w with gate := w.gate + 1, timeout := w.timeout + 1 })) ∧
       (w.gate + 1 < windowGate w → 1024 * 2 ^ w.e.val ≤ w.timeout + 1 →
         answer = exec .edgeTimeout (counted { w with gate := w.gate + 1, timeout := w.timeout + 1 }))) ∧
     (s.seq.state = .count → w.method = .period →
       (1048576 ≤ w.count + 1 → answer = exec .overflow base) ∧
       (w.count + 1 < 1048576 → 1024 * 2 ^ w.e.val ≤ w.timeout + 1 →
         answer = exec .edgeTimeout (counted { w with count := w.count + 1, timeout := w.timeout + 1 }))))

/-- R8, R9, R46, R72, R120 to R122, R124, R126: every slow tick advances the stamp, ages the valid entries, counts SETTLE,
counts the pass timer where it runs, and filters TRIG. A pass is due where the timer is at its latched length, or where,
in TRIGGERED, an edge of the chosen polarity qualifies: in WAITING it starts, in RUNNING an overrun is counted, and in
STOPPED and STOPPING nothing more happens. R192: what the TRIG setting says of the filter length and the polarity.
That each row stands for its moment is log 1. -/
def Obligations.SlowTickEffect : Prop :=
  (∀ (level : Bool) (s : State), clocked s = true →
     let sc := s.scan
     let w := s.seq.work
     let live := sc.state == .waiting || sc.state == .running
     let runs := sc.mode == .periodic && live
     let expires := runs && decide (sc.latched ≤ sc.timer + 1)
     let qualifies := level != sc.filtered && decide (filterLength sc.trigSetting < sc.stable + 1)
     let due := expires || (live && qualifies && sc.mode == .triggered && level == polarityLevel sc.trigSetting)
     let timer := if expires then 0 else if runs then sc.timer + 1 else sc.timer
     let latched := if expires then passPeriod sc else sc.latched
     let filtered := if qualifies then level else sc.filtered
     let stable := if level = sc.filtered ∨ qualifies then 0 else sc.stable + 1
     let counted := { w with settleCount := w.settleCount + 1 }
     let settled : Sequencer :=
       if s.seq.state ≠ .settle then s.seq
       else if w.settle.toNat ≤ w.settleCount + 1 then { s.seq with state := .arm, work := { counted with timeout := 0 } }
       else { s.seq with work := counted }
     let quiet := fun t : State =>
       t.seq = settled ∧ t.queue = s.queue ∧ t.fifo = s.fifo ∧ t.channels = s.channels ∧ t.alerts = s.alerts ∧
         t.cmd = s.cmd
     ∃ t, exec (.slowTick level) s = .next t ∧
       hostView t = { hostView s with pins := { s.pins with trig := level } } ∧ t.staging = s.staging ∧
       t.timebase = { s.timebase with slowDivider := 0, stamp := s.timebase.stamp + 1 } ∧
       (∀ i : Fin 4, t.refs[i.val] = { s.refs[i.val] with
         age := if s.refs[i.val].valid then min (s.refs[i.val].age + 1) 65535 else s.refs[i.val].age }) ∧
       (due = false → quiet t ∧ t.events = s.events ∧
         t.scan = { sc with timer := timer, filtered := filtered, stable := stable }) ∧
       (due = true → sc.state = .running → quiet t ∧ t.events = { s.events with flags := s.events.flags ||| 0x08 } ∧
         t.scan = { sc with
           timer := timer, latched := latched, filtered := filtered, stable := stable,
           overrun := if sc.overrun = 255 then 255 else sc.overrun + 1 }) ∧
       (due = true → sc.state = .waiting →
         t.scan.timer = timer ∧ t.scan.latched = latched ∧ t.scan.filtered = filtered ∧ t.scan.stable = stable ∧
           t.scan.overrun = sc.overrun ∧ t.alerts = s.alerts ∧
           passStarted sc.passNumber sc.mode (s.withSeq settled) t)) ∧
  ∀ setting : Byte,
    filterLength setting = (match setting.toNat % 4 with | 0 => 0 | 1 => 1 | 2 => 4 | _ => 16) ∧
    polarityLevel setting = decide (setting.toNat / 16 % 2 = 0)

/-- R3, R47, R48, R49: an oscillator edge in each state, with the comparator output high after it; the edge that completes
a count is the event of its row (log 1). R5: of two edges less than 250 ns apart the later one is taken or not (log 2).
R2, R3, R6: the selected pin drives the inverse of the comparator output, every other pin is high-impedance, and while the
node is clamped or held the output is low and no pin is driven. Between two edges the output falls, with no reference to
any tick: at a step with no command to take a high output falls or keeps its level (with one, StepTakesFront says so), and
an edge that finds it high is that fall with the rise (log 19). -/
def Obligations.OscillatorEdgeCounts : Prop :=
  (∀ s : State,
     let w := s.seq.work
     let edge := exec (.oscillatorEdge false) s
     ((∀ pin high, s.frontEnd ≠ .running pin high) → edge = .next s) ∧
     ∀ pin high, s.frontEnd = .running pin high →
       let risen := s.withFrontEnd (.running pin true)
       edge = exec (.oscillatorEdge false) (s.withFrontEnd (.running pin false)) ∧
       (s.seq.state ≠ .arm → s.seq.state ≠ .count → edge = .next risen) ∧
       (s.seq.state = .arm → edge = .next (risen.withSeq { s.seq with
         state := .count, work := { w with count := 0, gate := 0, timeout := 0 } })) ∧
       (s.seq.state = .count → w.method = .window →
         (w.count + 1 < 1048576 →
           edge = .next (risen.withSeq { s.seq with work := { w with count := w.count + 1, timeout := 0 } })) ∧
         (1048576 ≤ w.count + 1 → edge = exec .overflow risen)) ∧
       (s.seq.state = .count → w.method = .period →
         (w.gate + 1 < 2 ^ (w.g.val - w.k) →
           edge = .next (risen.withSeq { s.seq with work := { w with gate := w.gate + 1, timeout := 0 } })) ∧
         (2 ^ (w.g.val - w.k) ≤ w.gate + 1 →
           edge = exec .periodGateClose
             (risen.withSeq { s.seq with work := { w with gate := w.gate + 1, timeout := 0 } })))) ∧
  (∀ (s : State) (pin : PinId) (high : Bool), s.frontEnd = .running pin high →
     let risen := s.withFrontEnd (.running pin true)
     exec (.oscillatorEdge true) s = .next (risen.withFreeIndex (s.freeIndex + 1)) ∨
       exec (.oscillatorEdge true) s = exec (.oscillatorEdge false) (s.withFreeIndex (s.freeIndex + 1))) ∧
  (∀ s : State,
     ((∀ pin high, s.frontEnd ≠ .running pin high) →
       s.frontEnd.comparator = false ∧ (∀ n, pinLevel n s = none) ∧ clampClosed s = true ∧
       (s.pending = [] → step s = .next s)) ∧
     ∀ pin high, s.frontEnd = .running pin high →
       s.frontEnd.comparator = high ∧ pinLevel pin s = some (!high) ∧ (∀ n, n ≠ pin → pinLevel n s = none) ∧
       clampClosed s = false ∧ (s.pending = [] → high = false → step s = .next s) ∧
       (s.pending = [] → high = true → step s = .next (s.withFreeIndex (s.freeIndex + 1)) ∨
         step s = .next ((s.withFrontEnd (.running pin false)).withFreeIndex (s.freeIndex + 1))))

/-! ### The Sequencer -/

/-- R1, R2, R4, R45, R46, R47: the ends of DISCHARGE and of SETTLE. A run request opens the clamp on a comparator output
that is low, and on the pin that already runs it has no effect. That each row stands for the moment its count is
complete, and changes nothing in another state, is log 1. -/
def Obligations.DischargeAndSettleEnd : Prop :=
  ∀ s : State,
    let w := s.seq.work
    let running := FrontEnd.running w.pin (s.frontEnd.selected == some w.pin && s.frontEnd.comparator)
    (s.seq.state = .discharge → w.settle ≠ 0 → exec .dischargeEnd s = .next ((s.withSeq { s.seq with
      state := .settle, work := { w with settleCount := 0 } }).withFrontEnd running)) ∧
    (s.seq.state = .discharge → w.settle = 0 → exec .dischargeEnd s = .next ((s.withSeq { s.seq with
      state := .arm, work := { w with settleCount := 0, timeout := 0 } }).withFrontEnd running)) ∧
    (s.seq.state = .settle → exec .settleEnd s = .next (s.withSeq { s.seq with
      state := .arm, work := { w with timeout := 0 } })) ∧
    (s.seq.state ≠ .discharge → exec .dischargeEnd s = .next s) ∧
    (s.seq.state ≠ .settle → exec .settleEnd s = .next s) ∧
    (s.frontEnd = .clamped → running = .running w.pin false) ∧
    (∀ high, s.frontEnd = .running w.pin high → running = s.frontEnd)

/-- R21, R48, R49, R50: a gate that closes on a count above 0 adds the sample; with samples left the phase goes back to
ARM.
That each row stands for its moment is log 1. -/
def Obligations.GateCloseAddsSample : Prop :=
  ∀ s : State, s.seq.state = .count → 0 < s.seq.work.count → s.seq.work.samples + 1 < 2 ^ s.seq.work.s.val →
    let w := s.seq.work
    let next := fun gate => Host.Outcome.next (φ := Fault) (ρ := Refusal) (s.withSeq { s.seq with
      state := .arm, work := { w with cTotal := w.cTotal + w.count, gTotal := w.gTotal + gate,
                                      largest := max w.largest w.count, samples := w.samples + 1, timeout := 0 } })
    (w.method = .window → exec .windowGateClose s = next (256 * 2 ^ w.g.val / 2 ^ w.k) ∧
      exec .periodGateClose s = .next s) ∧
    (w.method = .period → exec .periodGateClose s = next (2 ^ (w.g.val - w.k)) ∧ exec .windowGateClose s = .next s)

/-- R50, R51, R52, R53, R54, R56, R60 to R63, R76, R77: the phases that fail: the edge timeout, a count of 0 at a gate, an
overflow at the limit of the step. In the primary phase the job ends with the status of the failure, in a refresh phase
with REF_FAULT; the reference's entry records the reason; OVER with auto-range on commits the working step (R53); the
zone monitor enters FAULT (R132), with its alert entry (R137). With nothing queued the job leaves the Sequencer, its
record is written by its class and its channel's report policy (R151, R152, R154), and a SCAN job is counted out of its
pass (R114, R117, R118).
That each row stands for its moment is log 1. -/
def Obligations.FailedPhaseEndsTheJob : Prop :=
  ∀ (c : Instr) (status : JobStatus) (reason : FaultReason) (j : InFlight) (s : State),
    let w := s.seq.work
    let d := s.channels[j.channel.val].desc
    let old := s.channels[j.channel.val].zone
    let zone := if d.zoneMonitor then .fault else old
    let ended := if j.phase = .primary then status else .refFault
    let written := j.tag.isDirect || d.policy == .always || d.policy == .onFault ||
      (d.policy == .onZoneChange && zone != old)
    let faulted := fun sl : RefSlot => { sl with valid := false, cRef := 0, gRef := 0, age := 0, fault := reason }
    (c = .edgeTimeout ∧ (s.seq.state = .arm ∨ s.seq.state = .count) ∧ status = .openArm ∧ reason = .openArm) ∨
      (c = .windowGateClose ∧ s.seq.state = .count ∧ w.method = .window ∧ w.count = 0 ∧ status = .under ∧
        reason = .under) ∨
      (c = .periodGateClose ∧ s.seq.state = .count ∧ w.method = .period ∧ w.count = 0 ∧ status = .under ∧
        reason = .under) ∨
      (c = .overflow ∧ s.seq.state = .count ∧ (w.autoRange = false ∨ stepLimit w ≤ w.k) ∧ status = .over ∧
        reason = .over) →
    s.seq.job = some j →
    ∃ t, exec c s = .next t ∧ quietView t = quietView s ∧ flagSet .fault t = true ∧
      t.channels[j.channel.val].lastStatus = ended ∧
      (s.queue.jobs = [] → jobOver j s t ∧ t.fifo = recordedIn written (failedRecord ended zone j s) s.fifo ∧
        flagSet .results t = (flagSet .results s ||
          (written && decide (s.fifo.watermark.toNat ≤ s.fifo.records.length + 1)))) ∧
      (s.queue.jobs = [] → s.deferred = none → countedOut j s t) ∧
      (s.deferred = none →
        t.channels[j.measured.val].rangeStep =
          (if status = .over ∧ w.autoRange = true then w.k else s.channels[j.measured.val].rangeStep) ∧
        t.channels[j.channel.val].zone = zone ∧
        t.alerts = alertedIn j.channel d.alert old zone s.timebase.stamp s.alerts ∧
        flagSet .alert t = (flagSet .alert s || (zone != old && d.alert)) ∧
        (j.phase = .primary → ∀ i : Fin 4, t.refs[i.val] =
          (if d.role = .reference ∧ s.refs[i.val].owner = some j.channel then faulted s.refs[i.val]
            else s.refs[i.val])) ∧
        (∀ r, j.phase = .refresh → j.refresh = some r → ∀ i : Fin 4, t.refs[i.val] =
          (if s.refs[i.val].owner = some r then faulted s.refs[i.val] else s.refs[i.val])))

/-- R1, R52, R53: an overflow below the limit of the step restarts the phase one step up, at ARM; on the pin that runs,
the oscillator keeps running without interruption.
That each row stands for its moment is log 1. -/
def Obligations.OverflowStepsUp : Prop :=
  ∀ (j : InFlight) (s : State), s.seq.state = .count → s.seq.job = some j → s.seq.work.autoRange = true →
    s.seq.work.k < stepLimit s.seq.work →
    exec .overflow s = .next ((s.withSeq
      { state := .arm, job := some { j with rangeChanged := true },
        work := { s.seq.work with
          k := s.seq.work.k + 1, cTotal := 0, gTotal := 0, samples := 0, largest := 0, count := 0, steppedUp := true,
          timeout := 0 } }).withFrontEnd (.running s.seq.work.pin
            (s.frontEnd.selected == some s.seq.work.pin && s.frontEnd.comparator)))

/-- R21, R45, R53, R55, R75: the last sample of a refresh phase writes the reference's entry, its committed range step and
the copy, and the primary phase starts in DISCHARGE with a new working copy of the channel's own settings.
That each row stands for its moment is log 1. -/
def Obligations.RefreshPhaseContinues : Prop :=
  ∀ (c : Instr) (r : ChannelId) (j : InFlight) (s : State),
    let w := s.seq.work
    (c = .windowGateClose ∧ w.method = .window) ∨ (c = .periodGateClose ∧ w.method = .period) →
    s.seq.state = .count → s.seq.job = some j → j.phase = .refresh → j.refresh = some r →
    0 < w.count → 2 ^ w.s.val ≤ w.samples + 1 →
    ∃ t, exec c s = .next t ∧ quietView t = quietView s ∧
      t.seq = {
        state := .discharge, work := { phaseCopy j.channel s with k := t.channels[j.channel.val].rangeStep },
        job := some { j with
          phase := .primary, refreshed := true,
          refCopy := some { cRef := w.cTotal + w.count, gRef := w.gTotal + gateLength w, step := w.k, age := 0 } } } ∧
      (∀ i : Fin 4, t.refs[i.val] = (if s.refs[i.val].owner = some r
        then { s.refs[i.val] with valid := true, cRef := w.cTotal + w.count, gRef := w.gTotal + gateLength w,
                                  method := w.method, age := 0, fault := .none }
        else s.refs[i.val])) ∧
      t.channels[r.val].rangeStep = (if w.autoRange = true
        then if w.steppedUp = false ∧ 0 < w.k ∧ max w.largest w.count < 262144 then w.k - 1 else w.k
        else s.channels[r.val].rangeStep) ∧
      t.channels[r.val] = { s.channels[r.val] with rangeStep := t.channels[r.val].rangeStep } ∧
      (∀ ch : ChannelId, ch ≠ r → t.channels[ch.val] = s.channels[ch.val]) ∧
      t.queue = s.queue ∧ t.fifo = s.fifo ∧ t.scan = s.scan

/-- R53, R54, R57 to R59, R61 to R63, R76, R114, R117, R118, R133, R137, R146, R151, R152, R154, R155: the last sample of a
primary phase, with nothing else waiting, for a job of any class on an ABSOLUTE or a REFERENCE channel, or on a RATIO
channel with its reference copy. The job ends OK: its value by role and method, its record by class and report policy at
the tail of the FIFO, its zone and alert entry, its range step, its slot, its count out of the pass; the Sequencer is
IDLE and the node is clamped.
That each row stands for its moment is log 1. -/
def Obligations.PrimaryPhaseEndsOk : Prop :=
  ∀ (c : Instr) (raw : Nat) (part : Option RefPart) (j : InFlight) (s : State),
    let w := s.seq.work
    let chan := s.channels[j.channel.val]
    let d := chan.desc
    let total := w.cTotal + w.count
    let gates := w.gTotal + gateLength w
    let largest := max w.largest w.count
    let announced : Completion :=
      { channel := j.channel, tag := j.tag, status := .ok, samplesExp := d.s, step := w.k, cTotal := total,
        gTotal := gates, method := w.method, value := some (min raw 4294967295),
        saturated := decide (4294967295 < raw), lowRes := decide (largest < 1024), refPart := part,
        refreshed := j.refreshed, rangeChanged := j.rangeChanged, timestamp := s.timebase.stamp }
    let zone := zoneAfter announced chan
    let written := j.tag.isDirect || d.policy == .always || (d.policy == .onZoneChange && zone != chan.zone)
    (c = .windowGateClose ∧ w.method = .window) ∨ (c = .periodGateClose ∧ w.method = .period) →
    ((d.role = .absolute ∨ d.role = .reference) ∧ raw = 65536 * total / gates ∧ part = none) ∨
      (∃ r, d.role = .ratio ∧ j.refCopy = some r ∧
        raw = (if w.method = .window then 65536 * r.cRef * gates / (r.gRef * total)
          else 65536 * total * r.gRef / (gates * r.cRef)) ∧
        part = some { cRef := r.cRef, step := r.step, age := r.age }) →
    s.seq.state = .count → s.seq.job = some j → j.phase = .primary → 0 < w.count → 2 ^ w.s.val ≤ w.samples + 1 →
    s.queue.jobs = [] → s.deferred = none →
    ∃ t, exec c s = .next t ∧ quietView t = quietView s ∧ jobOver j s t ∧
      t.channels[j.channel.val].lastStatus = .ok ∧ t.channels[j.channel.val].zone = zone ∧
      t.channels[j.channel.val].rangeStep = (if w.autoRange = true
        then if w.steppedUp = false ∧ 0 < w.k ∧ largest < 262144 then w.k - 1 else w.k
        else chan.rangeStep) ∧
      (∀ i : Fin 4, t.refs[i.val] = (if d.role = .reference ∧ s.refs[i.val].owner = some j.channel
        then { s.refs[i.val] with valid := true, cRef := total, gRef := gates, method := w.method, age := 0,
                                  fault := .none }
        else s.refs[i.val])) ∧
      t.alerts = alertedIn j.channel d.alert chan.zone zone s.timebase.stamp s.alerts ∧
      t.fifo = recordedIn written
        { sequence := s.fifo.nextSequence, channel := j.channel, tag := j.tag, status := .ok, samplesExp := d.s,
          step := w.k, gap := s.fifo.gapPending, saturated := decide (4294967295 < raw),
          lowRes := decide (largest < 1024), refreshed := j.refreshed, rangeChanged := j.rangeChanged, zone := zone,
          cTotal := total, value := some (min raw 4294967295), refPart := part, timestamp := s.timebase.stamp } s.fifo ∧
      flagSet .fault t = flagSet .fault s ∧
      flagSet .alert t = (flagSet .alert s || (zone != chan.zone && d.alert)) ∧
      flagSet .results t = (flagSet .results s ||
        (written && decide (s.fifo.watermark.toNat ≤ s.fifo.records.length + 1))) ∧
      countedOut j s t

/-- R133, Table 7-2: the zone that a result of status OK leaves on a channel whose zone monitor is on, for the thresholds a
commit accepts (R130): the rows in the order given, the hysteresis of BELOW and ABOVE, and a band of INSIDE that has a
value in it. -/
def Obligations.ZoneTransitions : Prop :=
  ∀ (a : Completion) (value : Nat) (c : Channel), a.status = .ok → a.value = some value → c.desc.zoneMonitor = true →
    c.desc.lowT.toNat + 2 * c.desc.hyst.toNat ≤ c.desc.highT.toNat →
    let low := c.desc.lowT.toNat
    let high := c.desc.highT.toNat
    let hyst := c.desc.hyst.toNat
    (c.zone = .unknown ∨ c.zone = .fault →
      (value < low → zoneAfter a c = .below) ∧ (low ≤ value → high < value → zoneAfter a c = .above) ∧
      (low ≤ value → value ≤ high → zoneAfter a c = .inside)) ∧
    (c.zone = .below →
      (high < value → zoneAfter a c = .above) ∧ (value ≤ high → low + hyst ≤ value → zoneAfter a c = .inside) ∧
      (value < low + hyst → zoneAfter a c = .below)) ∧
    (c.zone = .inside →
      (value < low → zoneAfter a c = .below) ∧ (low ≤ value → high < value → zoneAfter a c = .above) ∧
      (low ≤ value → value ≤ high → zoneAfter a c = .inside)) ∧
    (c.zone = .above →
      (value < low → zoneAfter a c = .below) ∧ (low ≤ value → value + hyst ≤ high → zoneAfter a c = .inside) ∧
      (low ≤ value → high < value + hyst → zoneAfter a c = .above)) ∧
    low + hyst ≤ high - hyst

/-! ### The Arbiter, the cursor, the scan's causes -/

/-- R94 to R97, R21, R43, R45, R92, R93, R147 to R149: a selection: the oldest DIRECT job, else the oldest SCAN job. It
starts with a reservation, discards under OVERWRITE, or stalls under HOLD; the job record and the working copy are those of
a job start, and an offer that waits is decided against the room (its order with MEASURE_NOW: log 18). R63, R94: the end of
a job, by whatever event (log 1), offers the Sequencer, and the selected job starts in the same event. -/
def Obligations.ArbiterSelects : Prop :=
  let selected := fun (before after : List QueuedJob) (q : QueuedJob) =>
    (q.tag.isDirect = true ∧ ∀ b ∈ before, b.tag.isDirect = false) ∨
      (before = [] ∧ ∀ b ∈ q :: after, b.tag.isDirect = false)
  (∀ s : State,
     (arbiterReady s = false ∨ s.queue.stalled = true ∨ s.queue.jobs = [] → exec .arbiterSelection s = .next s) ∧
     (arbiterReady s = true → s.queue.stalled = false → ∀ (before after : List QueuedJob) (q : QueuedJob),
       s.queue.jobs = before ++ q :: after → selected before after q →
       let left := before ++ after
       let d := s.channels[q.channel.val].desc
       let room := s.fifo.records.length + s.fifo.reserved < 16
       (room ∨ s.fifo.policy = .overwrite →
         ∃ t j, exec .arbiterSelection s = .next t ∧ quietView t = quietView s ∧
           t.seq = { state := .discharge, job := some j, work := phaseCopy j.measured s } ∧ t.seq = (jobStart q s).seq ∧
           j.channel = q.channel ∧ j.tag = q.tag ∧
           (d.role ≠ .ratio → j = {
             channel := q.channel, tag := q.tag, refresh := none, phase := .primary, refCopy := none,
             refreshed := false, rangeChanged := false, stepAtStart := s.channels[q.channel.val].rangeStep }) ∧
           t.channels[q.channel.val].engaged = true ∧ (s.frontEnd = .clamped → t.frontEnd = .clamped) ∧
           t.fifo = (if room then { s.fifo with reserved := 1 }
             else { s.fifo with records := s.fifo.records.drop 1, gapPending := true, reserved := 1 }) ∧
           flagSet .drop t = (flagSet .drop s || !decide room) ∧
           t.queue = { s.queue with jobs := t.queue.jobs, available := false } ∧
           t.scan = { s.scan with cursor := t.scan.cursor, passCount := t.scan.passCount } ∧
           ((∀ n ch, s.scan.cursor ≠ .waiting n ch) ∨ (∃ rest, s.pending = .measureNow :: .offerRetake :: rest) →
             t.queue.jobs = left ∧ t.scan = s.scan) ∧
           ∀ n ch, s.scan.cursor = .waiting n ch → (∀ rest, s.pending ≠ .measureNow :: .offerRetake :: rest) →
             offerDecided s.scan.passNumber n ch left s t) ∧
       (¬room → s.fifo.policy = .hold →
         exec .arbiterSelection s = .next ((s.withQueue { s.queue with stalled := true }).withEvents
           { s.events with flags := s.events.flags ||| 0x80 })))) ∧
  (∀ (c : Instr) (j : InFlight) (before after : List QueuedJob) (q : QueuedJob) (s : State), endsJob c j s →
     clocked s = true → s.deferred = none → s.queue.stalled = false → s.queue.jobs = before ++ q :: after →
     selected before after q →
     (s.fifo.records.length < 15 ∨ s.fifo.policy = .overwrite →
       ∃ t k, exec c s = .next t ∧ t.seq.state = .discharge ∧ t.seq.job = some k ∧ k.channel = q.channel ∧
         k.tag = q.tag ∧ t.channels[q.channel.val].engaged = true ∧ t.fifo.reserved = 1 ∧ t.queue.available = false ∧
         ((∀ n ch, s.scan.cursor ≠ .waiting n ch) → t.queue.jobs = before ++ after)) ∧
     (s.fifo.records.length = 15 → s.fifo.policy = .hold → j.tag.isDirect = true →
       ∃ t, exec c s = .next t ∧ t.seq = { state := .idle, job := none, work := .cleared } ∧
         t.queue = { s.queue with available := true, stalled := true } ∧ flagSet .stall t = true))

/-- R43, R73, R74: a RATIO job finds its reference fresh, or plans a refresh phase. R57, R58: the value of a phase that
ended OK, by role and method. -/
def Obligations.RatioJobsAndValues : Prop :=
  (∀ (q : QueuedJob) (sl : RefSlot) (s : State),
     let d := s.channels[q.channel.val].desc
     d.role = .ratio → slotOf d.refChannel s = some sl →
     (sl.valid = true ∧ d.maxAge ≠ 0 ∧ sl.age ≤ d.maxAge.toNat ∧ sl.method = d.method →
       (jobStart q s).seq.job = some {
         channel := q.channel, tag := q.tag, refresh := none, phase := .primary, refreshed := false,
         rangeChanged := false, stepAtStart := s.channels[q.channel.val].rangeStep,
         refCopy := some { cRef := sl.cRef, gRef := sl.gRef, step := s.channels[d.refChannel.val].rangeStep,
                           age := sl.age } } ∧
       (jobStart q s).seq.work.pin = d.pin) ∧
     (¬(sl.valid = true ∧ d.maxAge ≠ 0 ∧ sl.age ≤ d.maxAge.toNat ∧ sl.method = d.method) →
       (jobStart q s).seq.job = some {
         channel := q.channel, tag := q.tag, refresh := some d.refChannel, phase := .refresh, refreshed := false,
         rangeChanged := false, stepAtStart := s.channels[q.channel.val].rangeStep, refCopy := none } ∧
       (jobStart q s).seq.work.pin = s.channels[d.refChannel.val].desc.pin ∧
       (jobStart q s).channels[d.refChannel.val].engaged = true)) ∧
  (∀ (w : Working) (r : RefCopy),
     jobValue .absolute w none = some (65536 * w.cTotal / w.gTotal) ∧
     jobValue .reference w none = some (65536 * w.cTotal / w.gTotal) ∧
     (w.method = .window → jobValue .ratio w (some r) = some (65536 * r.cRef * w.gTotal / (r.gRef * w.cTotal))) ∧
     (w.method = .period → jobValue .ratio w (some r) = some (65536 * w.cTotal * r.gRef / (w.gTotal * r.cRef))))

/-- R106: an entry makes an offer in a pass exactly where its bank bytes name a channel that is not UNUSED and is enabled,
the entry is enabled, and the pass number is a multiple of its divisor; the walk goes to the first such entry below its
end. R92, R93, R94, R116: the cursor's move at a TB tick, and the retake of a waiting offer, with the Sequencer busy; and
an offer admitted into an empty queue with the Sequencer available, which starts its job at once.
That each row stands for its moment is log 1. -/
def Obligations.CursorAndRetake : Prop :=
  (∀ (n : Fin 24) (ch : ChannelId) (name fields : Byte) (s : State),
     let d := s.channels[ch.val].desc
     let m := fields.toNat % 8
     (s.scan.active = .a ∧ name = s.scan.bankA[2 * n.val] ∧ fields = s.scan.bankA[2 * n.val + 1]) ∨
       (s.scan.active = .b ∧ name = s.scan.bankB[2 * n.val] ∧ fields = s.scan.bankB[2 * n.val + 1]) →
     (entryOffer s n.val = some ch ↔ name.toNat = ch.val ∧ 128 ≤ fields.toNat ∧ m ≤ 4 ∧ d.role ≠ .unused ∧
       d.enabled = true ∧ s.scan.passNumber.toNat % 2 ^ m = 0)) ∧
  (∀ (fuel n : Nat) (s : State),
     (nextOffer s fuel n = none ↔ ∀ m, n ≤ m → m < n + fuel → entryOffer s m = none) ∧
     ∀ entry ch, nextOffer s fuel n = some (entry, ch) ↔
       n ≤ entry ∧ entry < n + fuel ∧ entryOffer s entry = some ch ∧ ∀ m, n ≤ m → m < entry → entryOffer s m = none) ∧
  (∀ (n : Nat) (ch : ChannelId) (s : State), arbiterReady s = false →
     (clocked s = true → s.scan.cursor = .settled n →
       (nextOffer s (s.scan.extent - (n + 1)) (n + 1) = none → s.scan.state = .running → 0 < s.scan.passCount →
         exec .cursorAdvance s = .next (s.withScan { s.scan with cursor := .done })) ∧
       (∀ entry, nextOffer s (s.scan.extent - (n + 1)) (n + 1) = some (entry, ch) → s.queue.jobs.length < 8 →
         (∀ j ∈ s.queue.jobs, j.channel = ch → j.tag.isScan = false) →
         exec .cursorAdvance s = .next ((s.withQueue { s.queue with
           jobs := s.queue.jobs ++ [{ channel := ch, tag := .scan s.scan.passNumber }] }).withScan
             { s.scan with cursor := .settled entry, passCount := s.scan.passCount + 1 })) ∧
       (∀ entry, nextOffer s (s.scan.extent - (n + 1)) (n + 1) = some (entry, ch) →
         (∃ j ∈ s.queue.jobs, j.channel = ch ∧ j.tag.isScan = true) →
         exec .cursorAdvance s = .next (s.withScan { s.scan with cursor := .settled entry })) ∧
       (∀ entry, nextOffer s (s.scan.extent - (n + 1)) (n + 1) = some (entry, ch) → 8 ≤ s.queue.jobs.length →
         (∀ j ∈ s.queue.jobs, j.channel = ch → j.tag.isScan = false) →
         exec .cursorAdvance s = .next (s.withScan { s.scan with cursor := .waiting entry ch }))) ∧
     (s.scan.cursor = .waiting n ch →
       exec .cursorAdvance s = .next s ∧
       (clocked s = true → s.queue.jobs.length < 8 → (∀ j ∈ s.queue.jobs, j.channel = ch → j.tag.isScan = false) →
         exec .offerRetake s = .next ((s.withQueue { s.queue with
           jobs := s.queue.jobs ++ [{ channel := ch, tag := .scan s.scan.passNumber }] }).withScan
             { s.scan with cursor := .settled n, passCount := s.scan.passCount + 1 })))) ∧
  (∀ s : State, clocked s = false → exec .cursorAdvance s = .next s ∧ exec .offerRetake s = .next s) ∧
  (∀ (n entry : Nat) (ch : ChannelId) (s : State), arbiterReady s = true → s.queue.stalled = false → s.queue.jobs = [] →
     (s.scan.cursor = .settled n → nextOffer s (s.scan.extent - (n + 1)) (n + 1) = some (entry, ch) →
       ∃ t, exec .cursorAdvance s = .next t ∧ quietView t = quietView s ∧ offerStarted s.scan.passNumber entry ch s t) ∧
     (s.scan.cursor = .waiting entry ch →
       ∃ t, exec .offerRetake s = .next t ∧ quietView t = quietView s ∧ offerStarted s.scan.passNumber entry ch s t))

/-- R118: a pass of no more offers and no job left ends: PASS is set, the pass number rises, a pending swap is applied.
That each row stands for its moment is log 1. -/
def Obligations.PassEnds : Prop :=
  ∀ (n : Nat) (s : State), clocked s = true → s.scan.state = .running → s.scan.cursor = .settled n →
    s.scan.passCount = 0 → nextOffer s (s.scan.extent - (n + 1)) (n + 1) = none →
    ∃ t, exec .cursorAdvance s = .next t ∧ quietView t = quietView s ∧ flagSet .pass t = true ∧
      t.scan.state = (if s.scan.mode = .single then .stopped else .waiting) ∧
      t.scan.passNumber = s.scan.passNumber + 1 ∧ t.scan.cursor = .cleared ∧ t.scan.swapPending = false ∧
      t.scan.active = (if s.scan.swapPending then s.scan.active.other else s.scan.active) ∧
      t.queue = s.queue ∧ t.seq = s.seq ∧ t.fifo = s.fifo ∧ t.channels = s.channels

/-- R120, R121, R122, R124, R126: a pass timer expiry and a qualified TRIG edge: a pass starts in WAITING, an overrun is
counted in RUNNING; in STOPPED and STOPPING, and for an edge of the other polarity or under another mode, the filtered
level moves and nothing else. While the part is not clocked neither arises. That the rows stand for the moment of expiry
and of qualification is log 1. -/
def Obligations.ExpiryAndEdge : Prop :=
  ∀ s : State,
    (clocked s = false → exec .passTimerExpiry s = .next s ∧ exec .trigEdgeQualified s = .next s) ∧
    (clocked s = true →
      let more : Byte := if s.scan.overrun = 255 then 255 else s.scan.overrun + 1
      (s.scan.mode = .periodic → s.scan.state = .running →
        exec .passTimerExpiry s = .next ((s.withScan { s.scan with
          timer := 0, latched := passPeriod s.scan, overrun := more }).withEvents
            { s.events with flags := s.events.flags ||| 0x08 })) ∧
      (s.scan.mode = .periodic → s.scan.state = .waiting →
        ∃ t, exec .passTimerExpiry s = .next t ∧ t.scan.timer = 0 ∧ t.scan.latched = passPeriod s.scan ∧
          passStarted s.scan.passNumber .periodic s t) ∧
      (s.scan.mode ≠ .periodic ∨ s.scan.state = .stopped ∨ s.scan.state = .stopping →
        exec .passTimerExpiry s = .next s) ∧
      (s.scan.mode = .triggered → (!s.scan.filtered) = polarityLevel s.scan.trigSetting → s.scan.state = .running →
        exec .trigEdgeQualified s = .next (((s.withPins { s.pins with trig := !s.scan.filtered }).withScan
          { s.scan with filtered := !s.scan.filtered, stable := 0, overrun := more }).withEvents
            { s.events with flags := s.events.flags ||| 0x08 })) ∧
      (s.scan.mode = .triggered → (!s.scan.filtered) = polarityLevel s.scan.trigSetting → s.scan.state = .waiting →
        ∃ t, exec .trigEdgeQualified s = .next t ∧ t.scan.filtered = !s.scan.filtered ∧ t.scan.stable = 0 ∧
          passStarted s.scan.passNumber .triggered s t) ∧
      (s.scan.mode ≠ .triggered ∨ s.scan.filtered = polarityLevel s.scan.trigSetting ∨ s.scan.state = .stopped ∨
          s.scan.state = .stopping →
        exec .trigEdgeQualified s = .next ((s.withPins { s.pins with trig := !s.scan.filtered }).withScan
          { s.scan with filtered := !s.scan.filtered, stable := 0 })))

/-! ### Frames -/

/-- No event of the Sequencer, the Arbiter or the cursor changes what the host writes, staging, the timebase, the latches,
the ticket counter, the scan's mode, interval and filter, or whose outcome the record is. No command written to COMMAND
changes what only the host writes, beyond the pointer. -/
def Obligations.Frames : Prop :=
  (∀ (c : Instr) (s t : State),
     (∃ close, c = .oscillatorEdge close) ∨ c = .dischargeEnd ∨ c = .settleEnd ∨ c = .edgeTimeout ∨
       c = .windowGateClose ∨ c = .periodGateClose ∨ c = .overflow ∨ c = .arbiterSelection ∨ c = .cursorAdvance ∨
       c = .offerRetake →
     exec c s = .next t → quietView t = quietView s) ∧
  (∀ (c : Instr) (code : Byte) (s t : State), takesWrite 0x18 s → c.busWrite = some (0x18#8, code) → c.wellFormed = true →
     exec c s = .next t → hostView t = hostView (pointerPast 0x18 s))

/-! ### The laws -/

/-- The laws hold at reset. -/
def Obligations.LawsHoldAtReset : Prop :=
  configLaw State.reset ∧ queueLaw State.reset ∧ alertLaw State.reset ∧ sequenceLaw State.reset ∧
    jobLaw State.reset ∧ stallLaw State.reset ∧ nodeLaw State.reset ∧ engagedLaw State.reset ∧
    rangeLaw State.reset ∧ passLaw State.reset ∧ slotLaw State.reset ∧ workingLaw State.reset

/-- R11, R107, R120, R153, R192: every step keeps the bounds of the configuration bytes. -/
def Obligations.ConfigLawKept : Prop :=
  ∀ s t : State, configLaw s → step s = .next t → configLaw t

/-- R88, R136, R146: every step keeps the laws of the queue, of the alert list and of the sequence of the records. -/
def Obligations.CollectionLawsKept : Prop :=
  (∀ s t : State, queueLaw s → alertLaw s → step s = .next t → queueLaw t ∧ alertLaw t) ∧
  (∀ s t : State, sequenceLaw s → step s = .next t → sequenceLaw t)

/-- R41, R63, R147: every step keeps the law of the job in flight, and of its reservation. R94, R97, R103: every step keeps
the law of the stall, by which a job that can be selected is selected in the event that allows it. -/
def Obligations.JobLawKept : Prop :=
  (∀ s t : State, jobLaw s → step s = .next t → jobLaw t) ∧
  (∀ s t : State, nodeLaw s → stallLaw s → step s = .next t → stallLaw t)

/-- R1, R2, R4, R6: every step keeps the law of the node. -/
def Obligations.NodeLawKept : Prop :=
  ∀ s t : State, nodeLaw s → step s = .next t → nodeLaw t

/-- R25: every step keeps the engaged marks those of the job in flight. -/
def Obligations.EngagedLawKept : Prop :=
  ∀ s t : State, engagedLaw s → step s = .next t → engagedLaw t

/-- R53: every step keeps every range step within its limit. -/
def Obligations.RangeLawKept : Prop :=
  ∀ s t : State, engagedLaw s → rangeLaw s → step s = .next t → rangeLaw t

/-- R109, R117: every step keeps the pass job count and the scan states consistent. -/
def Obligations.PassLawKept : Prop :=
  ∀ s t : State, passLaw s → step s = .next t → passLaw t

/-- R68, R71: every step keeps the slots and the reference links consistent. -/
def Obligations.SlotLawKept : Prop :=
  ∀ s t : State, slotLaw s → step s = .next t → slotLaw t

/-- R36, R113, R174: every step keeps WORKING for exactly as long as a commit or a stop waits. -/
def Obligations.WorkingLawKept : Prop :=
  ∀ s t : State, engagedLaw s → passLaw s → workingLaw s → step s = .next t → workingLaw t
end

