-- ==== Sys2Proof/Laws/State.lean ====
section
/-! SUPPORT. What each one-block update of State leaves in each field. -/

namespace Sys2Proof.Machine.State

@[simp] theorem withPending_pending (s : State) (x : List Instr) : (s.withPending x).pending = x := rfl
@[simp] theorem withPending_inReset (s : State) (x : List Instr) : (s.withPending x).inReset = s.inReset := rfl
@[simp] theorem withPending_frontEnd (s : State) (x : List Instr) : (s.withPending x).frontEnd = s.frontEnd := rfl
@[simp] theorem withPending_timebase (s : State) (x : List Instr) : (s.withPending x).timebase = s.timebase := rfl
@[simp] theorem withPending_channels (s : State) (x : List Instr) : (s.withPending x).channels = s.channels := rfl
@[simp] theorem withPending_staging (s : State) (x : List Instr) : (s.withPending x).staging = s.staging := rfl
@[simp] theorem withPending_deferred (s : State) (x : List Instr) : (s.withPending x).deferred = s.deferred := rfl
@[simp] theorem withPending_seq (s : State) (x : List Instr) : (s.withPending x).seq = s.seq := rfl
@[simp] theorem withPending_refs (s : State) (x : List Instr) : (s.withPending x).refs = s.refs := rfl
@[simp] theorem withPending_queue (s : State) (x : List Instr) : (s.withPending x).queue = s.queue := rfl
@[simp] theorem withPending_scan (s : State) (x : List Instr) : (s.withPending x).scan = s.scan := rfl
@[simp] theorem withPending_alerts (s : State) (x : List Instr) : (s.withPending x).alerts = s.alerts := rfl
@[simp] theorem withPending_fifo (s : State) (x : List Instr) : (s.withPending x).fifo = s.fifo := rfl
@[simp] theorem withPending_port (s : State) (x : List Instr) : (s.withPending x).port = s.port := rfl
@[simp] theorem withPending_cmd (s : State) (x : List Instr) : (s.withPending x).cmd = s.cmd := rfl
@[simp] theorem withPending_events (s : State) (x : List Instr) : (s.withPending x).events = s.events := rfl
@[simp] theorem withPending_pins (s : State) (x : List Instr) : (s.withPending x).pins = s.pins := rfl
@[simp] theorem withPending_freeIndex (s : State) (x : List Instr) : (s.withPending x).freeIndex = s.freeIndex := rfl
@[simp] theorem withInReset_pending (s : State) (x : Bool) : (s.withInReset x).pending = s.pending := rfl
@[simp] theorem withInReset_inReset (s : State) (x : Bool) : (s.withInReset x).inReset = x := rfl
@[simp] theorem withInReset_frontEnd (s : State) (x : Bool) : (s.withInReset x).frontEnd = s.frontEnd := rfl
@[simp] theorem withInReset_timebase (s : State) (x : Bool) : (s.withInReset x).timebase = s.timebase := rfl
@[simp] theorem withInReset_channels (s : State) (x : Bool) : (s.withInReset x).channels = s.channels := rfl
@[simp] theorem withInReset_staging (s : State) (x : Bool) : (s.withInReset x).staging = s.staging := rfl
@[simp] theorem withInReset_deferred (s : State) (x : Bool) : (s.withInReset x).deferred = s.deferred := rfl
@[simp] theorem withInReset_seq (s : State) (x : Bool) : (s.withInReset x).seq = s.seq := rfl
@[simp] theorem withInReset_refs (s : State) (x : Bool) : (s.withInReset x).refs = s.refs := rfl
@[simp] theorem withInReset_queue (s : State) (x : Bool) : (s.withInReset x).queue = s.queue := rfl
@[simp] theorem withInReset_scan (s : State) (x : Bool) : (s.withInReset x).scan = s.scan := rfl
@[simp] theorem withInReset_alerts (s : State) (x : Bool) : (s.withInReset x).alerts = s.alerts := rfl
@[simp] theorem withInReset_fifo (s : State) (x : Bool) : (s.withInReset x).fifo = s.fifo := rfl
@[simp] theorem withInReset_port (s : State) (x : Bool) : (s.withInReset x).port = s.port := rfl
@[simp] theorem withInReset_cmd (s : State) (x : Bool) : (s.withInReset x).cmd = s.cmd := rfl
@[simp] theorem withInReset_events (s : State) (x : Bool) : (s.withInReset x).events = s.events := rfl
@[simp] theorem withInReset_pins (s : State) (x : Bool) : (s.withInReset x).pins = s.pins := rfl
@[simp] theorem withInReset_freeIndex (s : State) (x : Bool) : (s.withInReset x).freeIndex = s.freeIndex := rfl
@[simp] theorem withFrontEnd_pending (s : State) (x : FrontEnd) : (s.withFrontEnd x).pending = s.pending := rfl
@[simp] theorem withFrontEnd_inReset (s : State) (x : FrontEnd) : (s.withFrontEnd x).inReset = s.inReset := rfl
@[simp] theorem withFrontEnd_frontEnd (s : State) (x : FrontEnd) : (s.withFrontEnd x).frontEnd = x := rfl
@[simp] theorem withFrontEnd_timebase (s : State) (x : FrontEnd) : (s.withFrontEnd x).timebase = s.timebase := rfl
@[simp] theorem withFrontEnd_channels (s : State) (x : FrontEnd) : (s.withFrontEnd x).channels = s.channels := rfl
@[simp] theorem withFrontEnd_staging (s : State) (x : FrontEnd) : (s.withFrontEnd x).staging = s.staging := rfl
@[simp] theorem withFrontEnd_deferred (s : State) (x : FrontEnd) : (s.withFrontEnd x).deferred = s.deferred := rfl
@[simp] theorem withFrontEnd_seq (s : State) (x : FrontEnd) : (s.withFrontEnd x).seq = s.seq := rfl
@[simp] theorem withFrontEnd_refs (s : State) (x : FrontEnd) : (s.withFrontEnd x).refs = s.refs := rfl
@[simp] theorem withFrontEnd_queue (s : State) (x : FrontEnd) : (s.withFrontEnd x).queue = s.queue := rfl
@[simp] theorem withFrontEnd_scan (s : State) (x : FrontEnd) : (s.withFrontEnd x).scan = s.scan := rfl
@[simp] theorem withFrontEnd_alerts (s : State) (x : FrontEnd) : (s.withFrontEnd x).alerts = s.alerts := rfl
@[simp] theorem withFrontEnd_fifo (s : State) (x : FrontEnd) : (s.withFrontEnd x).fifo = s.fifo := rfl
@[simp] theorem withFrontEnd_port (s : State) (x : FrontEnd) : (s.withFrontEnd x).port = s.port := rfl
@[simp] theorem withFrontEnd_cmd (s : State) (x : FrontEnd) : (s.withFrontEnd x).cmd = s.cmd := rfl
@[simp] theorem withFrontEnd_events (s : State) (x : FrontEnd) : (s.withFrontEnd x).events = s.events := rfl
@[simp] theorem withFrontEnd_pins (s : State) (x : FrontEnd) : (s.withFrontEnd x).pins = s.pins := rfl
@[simp] theorem withFrontEnd_freeIndex (s : State) (x : FrontEnd) : (s.withFrontEnd x).freeIndex = s.freeIndex := rfl
@[simp] theorem withTimebase_pending (s : State) (x : Timebase) : (s.withTimebase x).pending = s.pending := rfl
@[simp] theorem withTimebase_inReset (s : State) (x : Timebase) : (s.withTimebase x).inReset = s.inReset := rfl
@[simp] theorem withTimebase_frontEnd (s : State) (x : Timebase) : (s.withTimebase x).frontEnd = s.frontEnd := rfl
@[simp] theorem withTimebase_timebase (s : State) (x : Timebase) : (s.withTimebase x).timebase = x := rfl
@[simp] theorem withTimebase_channels (s : State) (x : Timebase) : (s.withTimebase x).channels = s.channels := rfl
@[simp] theorem withTimebase_staging (s : State) (x : Timebase) : (s.withTimebase x).staging = s.staging := rfl
@[simp] theorem withTimebase_deferred (s : State) (x : Timebase) : (s.withTimebase x).deferred = s.deferred := rfl
@[simp] theorem withTimebase_seq (s : State) (x : Timebase) : (s.withTimebase x).seq = s.seq := rfl
@[simp] theorem withTimebase_refs (s : State) (x : Timebase) : (s.withTimebase x).refs = s.refs := rfl
@[simp] theorem withTimebase_queue (s : State) (x : Timebase) : (s.withTimebase x).queue = s.queue := rfl
@[simp] theorem withTimebase_scan (s : State) (x : Timebase) : (s.withTimebase x).scan = s.scan := rfl
@[simp] theorem withTimebase_alerts (s : State) (x : Timebase) : (s.withTimebase x).alerts = s.alerts := rfl
@[simp] theorem withTimebase_fifo (s : State) (x : Timebase) : (s.withTimebase x).fifo = s.fifo := rfl
@[simp] theorem withTimebase_port (s : State) (x : Timebase) : (s.withTimebase x).port = s.port := rfl
@[simp] theorem withTimebase_cmd (s : State) (x : Timebase) : (s.withTimebase x).cmd = s.cmd := rfl
@[simp] theorem withTimebase_events (s : State) (x : Timebase) : (s.withTimebase x).events = s.events := rfl
@[simp] theorem withTimebase_pins (s : State) (x : Timebase) : (s.withTimebase x).pins = s.pins := rfl
@[simp] theorem withTimebase_freeIndex (s : State) (x : Timebase) : (s.withTimebase x).freeIndex = s.freeIndex := rfl
@[simp] theorem withChannels_pending (s : State) (x : Vector Channel 16) : (s.withChannels x).pending = s.pending := rfl
@[simp] theorem withChannels_inReset (s : State) (x : Vector Channel 16) : (s.withChannels x).inReset = s.inReset := rfl
@[simp] theorem withChannels_frontEnd (s : State) (x : Vector Channel 16) : (s.withChannels x).frontEnd = s.frontEnd := rfl
@[simp] theorem withChannels_timebase (s : State) (x : Vector Channel 16) : (s.withChannels x).timebase = s.timebase := rfl
@[simp] theorem withChannels_channels (s : State) (x : Vector Channel 16) : (s.withChannels x).channels = x := rfl
@[simp] theorem withChannels_staging (s : State) (x : Vector Channel 16) : (s.withChannels x).staging = s.staging := rfl
@[simp] theorem withChannels_deferred (s : State) (x : Vector Channel 16) : (s.withChannels x).deferred = s.deferred := rfl
@[simp] theorem withChannels_seq (s : State) (x : Vector Channel 16) : (s.withChannels x).seq = s.seq := rfl
@[simp] theorem withChannels_refs (s : State) (x : Vector Channel 16) : (s.withChannels x).refs = s.refs := rfl
@[simp] theorem withChannels_queue (s : State) (x : Vector Channel 16) : (s.withChannels x).queue = s.queue := rfl
@[simp] theorem withChannels_scan (s : State) (x : Vector Channel 16) : (s.withChannels x).scan = s.scan := rfl
@[simp] theorem withChannels_alerts (s : State) (x : Vector Channel 16) : (s.withChannels x).alerts = s.alerts := rfl
@[simp] theorem withChannels_fifo (s : State) (x : Vector Channel 16) : (s.withChannels x).fifo = s.fifo := rfl
@[simp] theorem withChannels_port (s : State) (x : Vector Channel 16) : (s.withChannels x).port = s.port := rfl
@[simp] theorem withChannels_cmd (s : State) (x : Vector Channel 16) : (s.withChannels x).cmd = s.cmd := rfl
@[simp] theorem withChannels_events (s : State) (x : Vector Channel 16) : (s.withChannels x).events = s.events := rfl
@[simp] theorem withChannels_pins (s : State) (x : Vector Channel 16) : (s.withChannels x).pins = s.pins := rfl
@[simp] theorem withChannels_freeIndex (s : State) (x : Vector Channel 16) : (s.withChannels x).freeIndex = s.freeIndex := rfl
@[simp] theorem withStaging_pending (s : State) (x : Vector Byte 32) : (s.withStaging x).pending = s.pending := rfl
@[simp] theorem withStaging_inReset (s : State) (x : Vector Byte 32) : (s.withStaging x).inReset = s.inReset := rfl
@[simp] theorem withStaging_frontEnd (s : State) (x : Vector Byte 32) : (s.withStaging x).frontEnd = s.frontEnd := rfl
@[simp] theorem withStaging_timebase (s : State) (x : Vector Byte 32) : (s.withStaging x).timebase = s.timebase := rfl
@[simp] theorem withStaging_channels (s : State) (x : Vector Byte 32) : (s.withStaging x).channels = s.channels := rfl
@[simp] theorem withStaging_staging (s : State) (x : Vector Byte 32) : (s.withStaging x).staging = x := rfl
@[simp] theorem withStaging_deferred (s : State) (x : Vector Byte 32) : (s.withStaging x).deferred = s.deferred := rfl
@[simp] theorem withStaging_seq (s : State) (x : Vector Byte 32) : (s.withStaging x).seq = s.seq := rfl
@[simp] theorem withStaging_refs (s : State) (x : Vector Byte 32) : (s.withStaging x).refs = s.refs := rfl
@[simp] theorem withStaging_queue (s : State) (x : Vector Byte 32) : (s.withStaging x).queue = s.queue := rfl
@[simp] theorem withStaging_scan (s : State) (x : Vector Byte 32) : (s.withStaging x).scan = s.scan := rfl
@[simp] theorem withStaging_alerts (s : State) (x : Vector Byte 32) : (s.withStaging x).alerts = s.alerts := rfl
@[simp] theorem withStaging_fifo (s : State) (x : Vector Byte 32) : (s.withStaging x).fifo = s.fifo := rfl
@[simp] theorem withStaging_port (s : State) (x : Vector Byte 32) : (s.withStaging x).port = s.port := rfl
@[simp] theorem withStaging_cmd (s : State) (x : Vector Byte 32) : (s.withStaging x).cmd = s.cmd := rfl
@[simp] theorem withStaging_events (s : State) (x : Vector Byte 32) : (s.withStaging x).events = s.events := rfl
@[simp] theorem withStaging_pins (s : State) (x : Vector Byte 32) : (s.withStaging x).pins = s.pins := rfl
@[simp] theorem withStaging_freeIndex (s : State) (x : Vector Byte 32) : (s.withStaging x).freeIndex = s.freeIndex := rfl
@[simp] theorem withDeferred_pending (s : State) (x : Option DeferredCommit) : (s.withDeferred x).pending = s.pending := rfl
@[simp] theorem withDeferred_inReset (s : State) (x : Option DeferredCommit) : (s.withDeferred x).inReset = s.inReset := rfl
@[simp] theorem withDeferred_frontEnd (s : State) (x : Option DeferredCommit) : (s.withDeferred x).frontEnd = s.frontEnd := rfl
@[simp] theorem withDeferred_timebase (s : State) (x : Option DeferredCommit) : (s.withDeferred x).timebase = s.timebase := rfl
@[simp] theorem withDeferred_channels (s : State) (x : Option DeferredCommit) : (s.withDeferred x).channels = s.channels := rfl
@[simp] theorem withDeferred_staging (s : State) (x : Option DeferredCommit) : (s.withDeferred x).staging = s.staging := rfl
@[simp] theorem withDeferred_deferred (s : State) (x : Option DeferredCommit) : (s.withDeferred x).deferred = x := rfl
@[simp] theorem withDeferred_seq (s : State) (x : Option DeferredCommit) : (s.withDeferred x).seq = s.seq := rfl
@[simp] theorem withDeferred_refs (s : State) (x : Option DeferredCommit) : (s.withDeferred x).refs = s.refs := rfl
@[simp] theorem withDeferred_queue (s : State) (x : Option DeferredCommit) : (s.withDeferred x).queue = s.queue := rfl
@[simp] theorem withDeferred_scan (s : State) (x : Option DeferredCommit) : (s.withDeferred x).scan = s.scan := rfl
@[simp] theorem withDeferred_alerts (s : State) (x : Option DeferredCommit) : (s.withDeferred x).alerts = s.alerts := rfl
@[simp] theorem withDeferred_fifo (s : State) (x : Option DeferredCommit) : (s.withDeferred x).fifo = s.fifo := rfl
@[simp] theorem withDeferred_port (s : State) (x : Option DeferredCommit) : (s.withDeferred x).port = s.port := rfl
@[simp] theorem withDeferred_cmd (s : State) (x : Option DeferredCommit) : (s.withDeferred x).cmd = s.cmd := rfl
@[simp] theorem withDeferred_events (s : State) (x : Option DeferredCommit) : (s.withDeferred x).events = s.events := rfl
@[simp] theorem withDeferred_pins (s : State) (x : Option DeferredCommit) : (s.withDeferred x).pins = s.pins := rfl
@[simp] theorem withDeferred_freeIndex (s : State) (x : Option DeferredCommit) : (s.withDeferred x).freeIndex = s.freeIndex := rfl
@[simp] theorem withSeq_pending (s : State) (x : Sequencer) : (s.withSeq x).pending = s.pending := rfl
@[simp] theorem withSeq_inReset (s : State) (x : Sequencer) : (s.withSeq x).inReset = s.inReset := rfl
@[simp] theorem withSeq_frontEnd (s : State) (x : Sequencer) : (s.withSeq x).frontEnd = s.frontEnd := rfl
@[simp] theorem withSeq_timebase (s : State) (x : Sequencer) : (s.withSeq x).timebase = s.timebase := rfl
@[simp] theorem withSeq_channels (s : State) (x : Sequencer) : (s.withSeq x).channels = s.channels := rfl
@[simp] theorem withSeq_staging (s : State) (x : Sequencer) : (s.withSeq x).staging = s.staging := rfl
@[simp] theorem withSeq_deferred (s : State) (x : Sequencer) : (s.withSeq x).deferred = s.deferred := rfl
@[simp] theorem withSeq_seq (s : State) (x : Sequencer) : (s.withSeq x).seq = x := rfl
@[simp] theorem withSeq_refs (s : State) (x : Sequencer) : (s.withSeq x).refs = s.refs := rfl
@[simp] theorem withSeq_queue (s : State) (x : Sequencer) : (s.withSeq x).queue = s.queue := rfl
@[simp] theorem withSeq_scan (s : State) (x : Sequencer) : (s.withSeq x).scan = s.scan := rfl
@[simp] theorem withSeq_alerts (s : State) (x : Sequencer) : (s.withSeq x).alerts = s.alerts := rfl
@[simp] theorem withSeq_fifo (s : State) (x : Sequencer) : (s.withSeq x).fifo = s.fifo := rfl
@[simp] theorem withSeq_port (s : State) (x : Sequencer) : (s.withSeq x).port = s.port := rfl
@[simp] theorem withSeq_cmd (s : State) (x : Sequencer) : (s.withSeq x).cmd = s.cmd := rfl
@[simp] theorem withSeq_events (s : State) (x : Sequencer) : (s.withSeq x).events = s.events := rfl
@[simp] theorem withSeq_pins (s : State) (x : Sequencer) : (s.withSeq x).pins = s.pins := rfl
@[simp] theorem withSeq_freeIndex (s : State) (x : Sequencer) : (s.withSeq x).freeIndex = s.freeIndex := rfl
@[simp] theorem withRefs_pending (s : State) (x : Vector RefSlot 4) : (s.withRefs x).pending = s.pending := rfl
@[simp] theorem withRefs_inReset (s : State) (x : Vector RefSlot 4) : (s.withRefs x).inReset = s.inReset := rfl
@[simp] theorem withRefs_frontEnd (s : State) (x : Vector RefSlot 4) : (s.withRefs x).frontEnd = s.frontEnd := rfl
@[simp] theorem withRefs_timebase (s : State) (x : Vector RefSlot 4) : (s.withRefs x).timebase = s.timebase := rfl
@[simp] theorem withRefs_channels (s : State) (x : Vector RefSlot 4) : (s.withRefs x).channels = s.channels := rfl
@[simp] theorem withRefs_staging (s : State) (x : Vector RefSlot 4) : (s.withRefs x).staging = s.staging := rfl
@[simp] theorem withRefs_deferred (s : State) (x : Vector RefSlot 4) : (s.withRefs x).deferred = s.deferred := rfl
@[simp] theorem withRefs_seq (s : State) (x : Vector RefSlot 4) : (s.withRefs x).seq = s.seq := rfl
@[simp] theorem withRefs_refs (s : State) (x : Vector RefSlot 4) : (s.withRefs x).refs = x := rfl
@[simp] theorem withRefs_queue (s : State) (x : Vector RefSlot 4) : (s.withRefs x).queue = s.queue := rfl
@[simp] theorem withRefs_scan (s : State) (x : Vector RefSlot 4) : (s.withRefs x).scan = s.scan := rfl
@[simp] theorem withRefs_alerts (s : State) (x : Vector RefSlot 4) : (s.withRefs x).alerts = s.alerts := rfl
@[simp] theorem withRefs_fifo (s : State) (x : Vector RefSlot 4) : (s.withRefs x).fifo = s.fifo := rfl
@[simp] theorem withRefs_port (s : State) (x : Vector RefSlot 4) : (s.withRefs x).port = s.port := rfl
@[simp] theorem withRefs_cmd (s : State) (x : Vector RefSlot 4) : (s.withRefs x).cmd = s.cmd := rfl
@[simp] theorem withRefs_events (s : State) (x : Vector RefSlot 4) : (s.withRefs x).events = s.events := rfl
@[simp] theorem withRefs_pins (s : State) (x : Vector RefSlot 4) : (s.withRefs x).pins = s.pins := rfl
@[simp] theorem withRefs_freeIndex (s : State) (x : Vector RefSlot 4) : (s.withRefs x).freeIndex = s.freeIndex := rfl
@[simp] theorem withQueue_pending (s : State) (x : JobQueue) : (s.withQueue x).pending = s.pending := rfl
@[simp] theorem withQueue_inReset (s : State) (x : JobQueue) : (s.withQueue x).inReset = s.inReset := rfl
@[simp] theorem withQueue_frontEnd (s : State) (x : JobQueue) : (s.withQueue x).frontEnd = s.frontEnd := rfl
@[simp] theorem withQueue_timebase (s : State) (x : JobQueue) : (s.withQueue x).timebase = s.timebase := rfl
@[simp] theorem withQueue_channels (s : State) (x : JobQueue) : (s.withQueue x).channels = s.channels := rfl
@[simp] theorem withQueue_staging (s : State) (x : JobQueue) : (s.withQueue x).staging = s.staging := rfl
@[simp] theorem withQueue_deferred (s : State) (x : JobQueue) : (s.withQueue x).deferred = s.deferred := rfl
@[simp] theorem withQueue_seq (s : State) (x : JobQueue) : (s.withQueue x).seq = s.seq := rfl
@[simp] theorem withQueue_refs (s : State) (x : JobQueue) : (s.withQueue x).refs = s.refs := rfl
@[simp] theorem withQueue_queue (s : State) (x : JobQueue) : (s.withQueue x).queue = x := rfl
@[simp] theorem withQueue_scan (s : State) (x : JobQueue) : (s.withQueue x).scan = s.scan := rfl
@[simp] theorem withQueue_alerts (s : State) (x : JobQueue) : (s.withQueue x).alerts = s.alerts := rfl
@[simp] theorem withQueue_fifo (s : State) (x : JobQueue) : (s.withQueue x).fifo = s.fifo := rfl
@[simp] theorem withQueue_port (s : State) (x : JobQueue) : (s.withQueue x).port = s.port := rfl
@[simp] theorem withQueue_cmd (s : State) (x : JobQueue) : (s.withQueue x).cmd = s.cmd := rfl
@[simp] theorem withQueue_events (s : State) (x : JobQueue) : (s.withQueue x).events = s.events := rfl
@[simp] theorem withQueue_pins (s : State) (x : JobQueue) : (s.withQueue x).pins = s.pins := rfl
@[simp] theorem withQueue_freeIndex (s : State) (x : JobQueue) : (s.withQueue x).freeIndex = s.freeIndex := rfl
@[simp] theorem withScan_pending (s : State) (x : ScanController) : (s.withScan x).pending = s.pending := rfl
@[simp] theorem withScan_inReset (s : State) (x : ScanController) : (s.withScan x).inReset = s.inReset := rfl
@[simp] theorem withScan_frontEnd (s : State) (x : ScanController) : (s.withScan x).frontEnd = s.frontEnd := rfl
@[simp] theorem withScan_timebase (s : State) (x : ScanController) : (s.withScan x).timebase = s.timebase := rfl
@[simp] theorem withScan_channels (s : State) (x : ScanController) : (s.withScan x).channels = s.channels := rfl
@[simp] theorem withScan_staging (s : State) (x : ScanController) : (s.withScan x).staging = s.staging := rfl
@[simp] theorem withScan_deferred (s : State) (x : ScanController) : (s.withScan x).deferred = s.deferred := rfl
@[simp] theorem withScan_seq (s : State) (x : ScanController) : (s.withScan x).seq = s.seq := rfl
@[simp] theorem withScan_refs (s : State) (x : ScanController) : (s.withScan x).refs = s.refs := rfl
@[simp] theorem withScan_queue (s : State) (x : ScanController) : (s.withScan x).queue = s.queue := rfl
@[simp] theorem withScan_scan (s : State) (x : ScanController) : (s.withScan x).scan = x := rfl
@[simp] theorem withScan_alerts (s : State) (x : ScanController) : (s.withScan x).alerts = s.alerts := rfl
@[simp] theorem withScan_fifo (s : State) (x : ScanController) : (s.withScan x).fifo = s.fifo := rfl
@[simp] theorem withScan_port (s : State) (x : ScanController) : (s.withScan x).port = s.port := rfl
@[simp] theorem withScan_cmd (s : State) (x : ScanController) : (s.withScan x).cmd = s.cmd := rfl
@[simp] theorem withScan_events (s : State) (x : ScanController) : (s.withScan x).events = s.events := rfl
@[simp] theorem withScan_pins (s : State) (x : ScanController) : (s.withScan x).pins = s.pins := rfl
@[simp] theorem withScan_freeIndex (s : State) (x : ScanController) : (s.withScan x).freeIndex = s.freeIndex := rfl
@[simp] theorem withAlerts_pending (s : State) (x : AlertList) : (s.withAlerts x).pending = s.pending := rfl
@[simp] theorem withAlerts_inReset (s : State) (x : AlertList) : (s.withAlerts x).inReset = s.inReset := rfl
@[simp] theorem withAlerts_frontEnd (s : State) (x : AlertList) : (s.withAlerts x).frontEnd = s.frontEnd := rfl
@[simp] theorem withAlerts_timebase (s : State) (x : AlertList) : (s.withAlerts x).timebase = s.timebase := rfl
@[simp] theorem withAlerts_channels (s : State) (x : AlertList) : (s.withAlerts x).channels = s.channels := rfl
@[simp] theorem withAlerts_staging (s : State) (x : AlertList) : (s.withAlerts x).staging = s.staging := rfl
@[simp] theorem withAlerts_deferred (s : State) (x : AlertList) : (s.withAlerts x).deferred = s.deferred := rfl
@[simp] theorem withAlerts_seq (s : State) (x : AlertList) : (s.withAlerts x).seq = s.seq := rfl
@[simp] theorem withAlerts_refs (s : State) (x : AlertList) : (s.withAlerts x).refs = s.refs := rfl
@[simp] theorem withAlerts_queue (s : State) (x : AlertList) : (s.withAlerts x).queue = s.queue := rfl
@[simp] theorem withAlerts_scan (s : State) (x : AlertList) : (s.withAlerts x).scan = s.scan := rfl
@[simp] theorem withAlerts_alerts (s : State) (x : AlertList) : (s.withAlerts x).alerts = x := rfl
@[simp] theorem withAlerts_fifo (s : State) (x : AlertList) : (s.withAlerts x).fifo = s.fifo := rfl
@[simp] theorem withAlerts_port (s : State) (x : AlertList) : (s.withAlerts x).port = s.port := rfl
@[simp] theorem withAlerts_cmd (s : State) (x : AlertList) : (s.withAlerts x).cmd = s.cmd := rfl
@[simp] theorem withAlerts_events (s : State) (x : AlertList) : (s.withAlerts x).events = s.events := rfl
@[simp] theorem withAlerts_pins (s : State) (x : AlertList) : (s.withAlerts x).pins = s.pins := rfl
@[simp] theorem withAlerts_freeIndex (s : State) (x : AlertList) : (s.withAlerts x).freeIndex = s.freeIndex := rfl
@[simp] theorem withFifo_pending (s : State) (x : ResultFifo) : (s.withFifo x).pending = s.pending := rfl
@[simp] theorem withFifo_inReset (s : State) (x : ResultFifo) : (s.withFifo x).inReset = s.inReset := rfl
@[simp] theorem withFifo_frontEnd (s : State) (x : ResultFifo) : (s.withFifo x).frontEnd = s.frontEnd := rfl
@[simp] theorem withFifo_timebase (s : State) (x : ResultFifo) : (s.withFifo x).timebase = s.timebase := rfl
@[simp] theorem withFifo_channels (s : State) (x : ResultFifo) : (s.withFifo x).channels = s.channels := rfl
@[simp] theorem withFifo_staging (s : State) (x : ResultFifo) : (s.withFifo x).staging = s.staging := rfl
@[simp] theorem withFifo_deferred (s : State) (x : ResultFifo) : (s.withFifo x).deferred = s.deferred := rfl
@[simp] theorem withFifo_seq (s : State) (x : ResultFifo) : (s.withFifo x).seq = s.seq := rfl
@[simp] theorem withFifo_refs (s : State) (x : ResultFifo) : (s.withFifo x).refs = s.refs := rfl
@[simp] theorem withFifo_queue (s : State) (x : ResultFifo) : (s.withFifo x).queue = s.queue := rfl
@[simp] theorem withFifo_scan (s : State) (x : ResultFifo) : (s.withFifo x).scan = s.scan := rfl
@[simp] theorem withFifo_alerts (s : State) (x : ResultFifo) : (s.withFifo x).alerts = s.alerts := rfl
@[simp] theorem withFifo_fifo (s : State) (x : ResultFifo) : (s.withFifo x).fifo = x := rfl
@[simp] theorem withFifo_port (s : State) (x : ResultFifo) : (s.withFifo x).port = s.port := rfl
@[simp] theorem withFifo_cmd (s : State) (x : ResultFifo) : (s.withFifo x).cmd = s.cmd := rfl
@[simp] theorem withFifo_events (s : State) (x : ResultFifo) : (s.withFifo x).events = s.events := rfl
@[simp] theorem withFifo_pins (s : State) (x : ResultFifo) : (s.withFifo x).pins = s.pins := rfl
@[simp] theorem withFifo_freeIndex (s : State) (x : ResultFifo) : (s.withFifo x).freeIndex = s.freeIndex := rfl
@[simp] theorem withPort_pending (s : State) (x : SerialPort) : (s.withPort x).pending = s.pending := rfl
@[simp] theorem withPort_inReset (s : State) (x : SerialPort) : (s.withPort x).inReset = s.inReset := rfl
@[simp] theorem withPort_frontEnd (s : State) (x : SerialPort) : (s.withPort x).frontEnd = s.frontEnd := rfl
@[simp] theorem withPort_timebase (s : State) (x : SerialPort) : (s.withPort x).timebase = s.timebase := rfl
@[simp] theorem withPort_channels (s : State) (x : SerialPort) : (s.withPort x).channels = s.channels := rfl
@[simp] theorem withPort_staging (s : State) (x : SerialPort) : (s.withPort x).staging = s.staging := rfl
@[simp] theorem withPort_deferred (s : State) (x : SerialPort) : (s.withPort x).deferred = s.deferred := rfl
@[simp] theorem withPort_seq (s : State) (x : SerialPort) : (s.withPort x).seq = s.seq := rfl
@[simp] theorem withPort_refs (s : State) (x : SerialPort) : (s.withPort x).refs = s.refs := rfl
@[simp] theorem withPort_queue (s : State) (x : SerialPort) : (s.withPort x).queue = s.queue := rfl
@[simp] theorem withPort_scan (s : State) (x : SerialPort) : (s.withPort x).scan = s.scan := rfl
@[simp] theorem withPort_alerts (s : State) (x : SerialPort) : (s.withPort x).alerts = s.alerts := rfl
@[simp] theorem withPort_fifo (s : State) (x : SerialPort) : (s.withPort x).fifo = s.fifo := rfl
@[simp] theorem withPort_port (s : State) (x : SerialPort) : (s.withPort x).port = x := rfl
@[simp] theorem withPort_cmd (s : State) (x : SerialPort) : (s.withPort x).cmd = s.cmd := rfl
@[simp] theorem withPort_events (s : State) (x : SerialPort) : (s.withPort x).events = s.events := rfl
@[simp] theorem withPort_pins (s : State) (x : SerialPort) : (s.withPort x).pins = s.pins := rfl
@[simp] theorem withPort_freeIndex (s : State) (x : SerialPort) : (s.withPort x).freeIndex = s.freeIndex := rfl
@[simp] theorem withCmd_pending (s : State) (x : CommandPort) : (s.withCmd x).pending = s.pending := rfl
@[simp] theorem withCmd_inReset (s : State) (x : CommandPort) : (s.withCmd x).inReset = s.inReset := rfl
@[simp] theorem withCmd_frontEnd (s : State) (x : CommandPort) : (s.withCmd x).frontEnd = s.frontEnd := rfl
@[simp] theorem withCmd_timebase (s : State) (x : CommandPort) : (s.withCmd x).timebase = s.timebase := rfl
@[simp] theorem withCmd_channels (s : State) (x : CommandPort) : (s.withCmd x).channels = s.channels := rfl
@[simp] theorem withCmd_staging (s : State) (x : CommandPort) : (s.withCmd x).staging = s.staging := rfl
@[simp] theorem withCmd_deferred (s : State) (x : CommandPort) : (s.withCmd x).deferred = s.deferred := rfl
@[simp] theorem withCmd_seq (s : State) (x : CommandPort) : (s.withCmd x).seq = s.seq := rfl
@[simp] theorem withCmd_refs (s : State) (x : CommandPort) : (s.withCmd x).refs = s.refs := rfl
@[simp] theorem withCmd_queue (s : State) (x : CommandPort) : (s.withCmd x).queue = s.queue := rfl
@[simp] theorem withCmd_scan (s : State) (x : CommandPort) : (s.withCmd x).scan = s.scan := rfl
@[simp] theorem withCmd_alerts (s : State) (x : CommandPort) : (s.withCmd x).alerts = s.alerts := rfl
@[simp] theorem withCmd_fifo (s : State) (x : CommandPort) : (s.withCmd x).fifo = s.fifo := rfl
@[simp] theorem withCmd_port (s : State) (x : CommandPort) : (s.withCmd x).port = s.port := rfl
@[simp] theorem withCmd_cmd (s : State) (x : CommandPort) : (s.withCmd x).cmd = x := rfl
@[simp] theorem withCmd_events (s : State) (x : CommandPort) : (s.withCmd x).events = s.events := rfl
@[simp] theorem withCmd_pins (s : State) (x : CommandPort) : (s.withCmd x).pins = s.pins := rfl
@[simp] theorem withCmd_freeIndex (s : State) (x : CommandPort) : (s.withCmd x).freeIndex = s.freeIndex := rfl
@[simp] theorem withEvents_pending (s : State) (x : EventUnit) : (s.withEvents x).pending = s.pending := rfl
@[simp] theorem withEvents_inReset (s : State) (x : EventUnit) : (s.withEvents x).inReset = s.inReset := rfl
@[simp] theorem withEvents_frontEnd (s : State) (x : EventUnit) : (s.withEvents x).frontEnd = s.frontEnd := rfl
@[simp] theorem withEvents_timebase (s : State) (x : EventUnit) : (s.withEvents x).timebase = s.timebase := rfl
@[simp] theorem withEvents_channels (s : State) (x : EventUnit) : (s.withEvents x).channels = s.channels := rfl
@[simp] theorem withEvents_staging (s : State) (x : EventUnit) : (s.withEvents x).staging = s.staging := rfl
@[simp] theorem withEvents_deferred (s : State) (x : EventUnit) : (s.withEvents x).deferred = s.deferred := rfl
@[simp] theorem withEvents_seq (s : State) (x : EventUnit) : (s.withEvents x).seq = s.seq := rfl
@[simp] theorem withEvents_refs (s : State) (x : EventUnit) : (s.withEvents x).refs = s.refs := rfl
@[simp] theorem withEvents_queue (s : State) (x : EventUnit) : (s.withEvents x).queue = s.queue := rfl
@[simp] theorem withEvents_scan (s : State) (x : EventUnit) : (s.withEvents x).scan = s.scan := rfl
@[simp] theorem withEvents_alerts (s : State) (x : EventUnit) : (s.withEvents x).alerts = s.alerts := rfl
@[simp] theorem withEvents_fifo (s : State) (x : EventUnit) : (s.withEvents x).fifo = s.fifo := rfl
@[simp] theorem withEvents_port (s : State) (x : EventUnit) : (s.withEvents x).port = s.port := rfl
@[simp] theorem withEvents_cmd (s : State) (x : EventUnit) : (s.withEvents x).cmd = s.cmd := rfl
@[simp] theorem withEvents_events (s : State) (x : EventUnit) : (s.withEvents x).events = x := rfl
@[simp] theorem withEvents_pins (s : State) (x : EventUnit) : (s.withEvents x).pins = s.pins := rfl
@[simp] theorem withEvents_freeIndex (s : State) (x : EventUnit) : (s.withEvents x).freeIndex = s.freeIndex := rfl
@[simp] theorem withPins_pending (s : State) (x : InputPins) : (s.withPins x).pending = s.pending := rfl
@[simp] theorem withPins_inReset (s : State) (x : InputPins) : (s.withPins x).inReset = s.inReset := rfl
@[simp] theorem withPins_frontEnd (s : State) (x : InputPins) : (s.withPins x).frontEnd = s.frontEnd := rfl
@[simp] theorem withPins_timebase (s : State) (x : InputPins) : (s.withPins x).timebase = s.timebase := rfl
@[simp] theorem withPins_channels (s : State) (x : InputPins) : (s.withPins x).channels = s.channels := rfl
@[simp] theorem withPins_staging (s : State) (x : InputPins) : (s.withPins x).staging = s.staging := rfl
@[simp] theorem withPins_deferred (s : State) (x : InputPins) : (s.withPins x).deferred = s.deferred := rfl
@[simp] theorem withPins_seq (s : State) (x : InputPins) : (s.withPins x).seq = s.seq := rfl
@[simp] theorem withPins_refs (s : State) (x : InputPins) : (s.withPins x).refs = s.refs := rfl
@[simp] theorem withPins_queue (s : State) (x : InputPins) : (s.withPins x).queue = s.queue := rfl
@[simp] theorem withPins_scan (s : State) (x : InputPins) : (s.withPins x).scan = s.scan := rfl
@[simp] theorem withPins_alerts (s : State) (x : InputPins) : (s.withPins x).alerts = s.alerts := rfl
@[simp] theorem withPins_fifo (s : State) (x : InputPins) : (s.withPins x).fifo = s.fifo := rfl
@[simp] theorem withPins_port (s : State) (x : InputPins) : (s.withPins x).port = s.port := rfl
@[simp] theorem withPins_cmd (s : State) (x : InputPins) : (s.withPins x).cmd = s.cmd := rfl
@[simp] theorem withPins_events (s : State) (x : InputPins) : (s.withPins x).events = s.events := rfl
@[simp] theorem withPins_pins (s : State) (x : InputPins) : (s.withPins x).pins = x := rfl
@[simp] theorem withPins_freeIndex (s : State) (x : InputPins) : (s.withPins x).freeIndex = s.freeIndex := rfl
@[simp] theorem withFreeIndex_pending (s : State) (x : Nat) : (s.withFreeIndex x).pending = s.pending := rfl
@[simp] theorem withFreeIndex_inReset (s : State) (x : Nat) : (s.withFreeIndex x).inReset = s.inReset := rfl
@[simp] theorem withFreeIndex_frontEnd (s : State) (x : Nat) : (s.withFreeIndex x).frontEnd = s.frontEnd := rfl
@[simp] theorem withFreeIndex_timebase (s : State) (x : Nat) : (s.withFreeIndex x).timebase = s.timebase := rfl
@[simp] theorem withFreeIndex_channels (s : State) (x : Nat) : (s.withFreeIndex x).channels = s.channels := rfl
@[simp] theorem withFreeIndex_staging (s : State) (x : Nat) : (s.withFreeIndex x).staging = s.staging := rfl
@[simp] theorem withFreeIndex_deferred (s : State) (x : Nat) : (s.withFreeIndex x).deferred = s.deferred := rfl
@[simp] theorem withFreeIndex_seq (s : State) (x : Nat) : (s.withFreeIndex x).seq = s.seq := rfl
@[simp] theorem withFreeIndex_refs (s : State) (x : Nat) : (s.withFreeIndex x).refs = s.refs := rfl
@[simp] theorem withFreeIndex_queue (s : State) (x : Nat) : (s.withFreeIndex x).queue = s.queue := rfl
@[simp] theorem withFreeIndex_scan (s : State) (x : Nat) : (s.withFreeIndex x).scan = s.scan := rfl
@[simp] theorem withFreeIndex_alerts (s : State) (x : Nat) : (s.withFreeIndex x).alerts = s.alerts := rfl
@[simp] theorem withFreeIndex_fifo (s : State) (x : Nat) : (s.withFreeIndex x).fifo = s.fifo := rfl
@[simp] theorem withFreeIndex_port (s : State) (x : Nat) : (s.withFreeIndex x).port = s.port := rfl
@[simp] theorem withFreeIndex_cmd (s : State) (x : Nat) : (s.withFreeIndex x).cmd = s.cmd := rfl
@[simp] theorem withFreeIndex_events (s : State) (x : Nat) : (s.withFreeIndex x).events = s.events := rfl
@[simp] theorem withFreeIndex_pins (s : State) (x : Nat) : (s.withFreeIndex x).pins = s.pins := rfl
@[simp] theorem withFreeIndex_freeIndex (s : State) (x : Nat) : (s.withFreeIndex x).freeIndex = x := rfl

end Sys2Proof.Machine.State
end

