-- ==== Sys2Proof/Laws/Frames.lean ====
section
/-! SUPPORT. Which blocks each operation leaves alone: one lemma per operation, cited in place of unfolding it. -/

namespace Sys2Proof.Machine

variable (s : State)

/-- R148, R149: what a granted reservation is. -/
theorem reserve_spec {t : State} (h : reserve s = some t) :
    (0 < freeSlots s.fifo ∧ t = s.withFifo { s.fifo with reserved := 1 }) ∨
      (freeSlots s.fifo = 0 ∧ s.fifo.policy = .overwrite ∧
        t = raise .drop
          (s.withFifo { s.fifo with records := s.fifo.records.drop 1, gapPending := true, reserved := 1 })) := by
  unfold reserve at h
  split at h
  · injection h with h; exact .inl ⟨by assumption, h.symm⟩
  · split at h
    · cases h
    · injection h with h; exact .inr ⟨by omega, by assumption, h.symm⟩

@[simp] theorem raise_keeps (f : Flag) :
    (raise f s).pending = s.pending ∧ (raise f s).inReset = s.inReset ∧ (raise f s).frontEnd = s.frontEnd ∧
    (raise f s).timebase = s.timebase ∧ (raise f s).channels = s.channels ∧ (raise f s).staging = s.staging ∧
    (raise f s).deferred = s.deferred ∧ (raise f s).seq = s.seq ∧ (raise f s).refs = s.refs ∧
    (raise f s).queue = s.queue ∧ (raise f s).scan = s.scan ∧ (raise f s).alerts = s.alerts ∧
    (raise f s).fifo = s.fifo ∧ (raise f s).port = s.port ∧ (raise f s).cmd = s.cmd ∧ (raise f s).pins = s.pins ∧
    (raise f s).freeIndex = s.freeIndex := by
  simp [raise]

@[simp] theorem clampRequest_keeps :
    (clampRequest s).pending = s.pending ∧ (clampRequest s).inReset = s.inReset ∧
    (clampRequest s).timebase = s.timebase ∧ (clampRequest s).channels = s.channels ∧
    (clampRequest s).staging = s.staging ∧ (clampRequest s).deferred = s.deferred ∧ (clampRequest s).seq = s.seq ∧
    (clampRequest s).refs = s.refs ∧ (clampRequest s).queue = s.queue ∧ (clampRequest s).scan = s.scan ∧
    (clampRequest s).alerts = s.alerts ∧ (clampRequest s).fifo = s.fifo ∧ (clampRequest s).port = s.port ∧
    (clampRequest s).cmd = s.cmd ∧ (clampRequest s).events = s.events ∧ (clampRequest s).pins = s.pins ∧
    (clampRequest s).freeIndex = s.freeIndex := by
  unfold clampRequest
  try simp only []
  repeat' split
  all_goals simp

@[simp] theorem runRequest_keeps (p : PinId) :
    (runRequest p s).pending = s.pending ∧ (runRequest p s).inReset = s.inReset ∧
    (runRequest p s).timebase = s.timebase ∧ (runRequest p s).channels = s.channels ∧
    (runRequest p s).staging = s.staging ∧ (runRequest p s).deferred = s.deferred ∧ (runRequest p s).seq = s.seq ∧
    (runRequest p s).refs = s.refs ∧ (runRequest p s).queue = s.queue ∧ (runRequest p s).scan = s.scan ∧
    (runRequest p s).alerts = s.alerts ∧ (runRequest p s).fifo = s.fifo ∧ (runRequest p s).port = s.port ∧
    (runRequest p s).cmd = s.cmd ∧ (runRequest p s).events = s.events ∧ (runRequest p s).pins = s.pins ∧
    (runRequest p s).freeIndex = s.freeIndex := by
  simp [runRequest]

@[simp] theorem onChannel_keeps (ch : ChannelId) (f : Channel → Channel) :
    (onChannel ch f s).pending = s.pending ∧ (onChannel ch f s).inReset = s.inReset ∧
    (onChannel ch f s).frontEnd = s.frontEnd ∧ (onChannel ch f s).timebase = s.timebase ∧
    (onChannel ch f s).staging = s.staging ∧ (onChannel ch f s).deferred = s.deferred ∧
    (onChannel ch f s).seq = s.seq ∧ (onChannel ch f s).refs = s.refs ∧ (onChannel ch f s).queue = s.queue ∧
    (onChannel ch f s).scan = s.scan ∧ (onChannel ch f s).alerts = s.alerts ∧ (onChannel ch f s).fifo = s.fifo ∧
    (onChannel ch f s).port = s.port ∧ (onChannel ch f s).cmd = s.cmd ∧ (onChannel ch f s).events = s.events ∧
    (onChannel ch f s).pins = s.pins ∧ (onChannel ch f s).freeIndex = s.freeIndex := by
  simp [onChannel]

@[simp] theorem setEngaged_keeps (m : Bool) (ch : ChannelId) :
    (setEngaged m ch s).pending = s.pending ∧ (setEngaged m ch s).inReset = s.inReset ∧
    (setEngaged m ch s).frontEnd = s.frontEnd ∧ (setEngaged m ch s).timebase = s.timebase ∧
    (setEngaged m ch s).staging = s.staging ∧ (setEngaged m ch s).deferred = s.deferred ∧
    (setEngaged m ch s).seq = s.seq ∧ (setEngaged m ch s).refs = s.refs ∧ (setEngaged m ch s).queue = s.queue ∧
    (setEngaged m ch s).scan = s.scan ∧ (setEngaged m ch s).alerts = s.alerts ∧ (setEngaged m ch s).fifo = s.fifo ∧
    (setEngaged m ch s).port = s.port ∧ (setEngaged m ch s).cmd = s.cmd ∧ (setEngaged m ch s).events = s.events ∧
    (setEngaged m ch s).pins = s.pins ∧ (setEngaged m ch s).freeIndex = s.freeIndex := by
  simp [setEngaged]

@[simp] theorem markJob_keeps (m : Bool) (j : InFlight) :
    (markJob m j s).pending = s.pending ∧ (markJob m j s).inReset = s.inReset ∧
    (markJob m j s).frontEnd = s.frontEnd ∧ (markJob m j s).timebase = s.timebase ∧
    (markJob m j s).staging = s.staging ∧ (markJob m j s).deferred = s.deferred ∧ (markJob m j s).seq = s.seq ∧
    (markJob m j s).refs = s.refs ∧ (markJob m j s).queue = s.queue ∧ (markJob m j s).scan = s.scan ∧
    (markJob m j s).alerts = s.alerts ∧ (markJob m j s).fifo = s.fifo ∧ (markJob m j s).port = s.port ∧
    (markJob m j s).cmd = s.cmd ∧ (markJob m j s).events = s.events ∧ (markJob m j s).pins = s.pins ∧
    (markJob m j s).freeIndex = s.freeIndex := by
  unfold markJob
  try simp only []
  repeat' split
  all_goals simp

@[simp] theorem onSlot_keeps (ch : ChannelId) (f : RefSlot → RefSlot) :
    (onSlot ch f s).pending = s.pending ∧ (onSlot ch f s).inReset = s.inReset ∧
    (onSlot ch f s).frontEnd = s.frontEnd ∧ (onSlot ch f s).timebase = s.timebase ∧
    (onSlot ch f s).channels = s.channels ∧ (onSlot ch f s).staging = s.staging ∧
    (onSlot ch f s).deferred = s.deferred ∧ (onSlot ch f s).seq = s.seq ∧ (onSlot ch f s).queue = s.queue ∧
    (onSlot ch f s).scan = s.scan ∧ (onSlot ch f s).alerts = s.alerts ∧ (onSlot ch f s).fifo = s.fifo ∧
    (onSlot ch f s).port = s.port ∧ (onSlot ch f s).cmd = s.cmd ∧ (onSlot ch f s).events = s.events ∧
    (onSlot ch f s).pins = s.pins ∧ (onSlot ch f s).freeIndex = s.freeIndex := by
  simp [onSlot]

@[simp] theorem invalidateAll_keeps :
    (invalidateAll s).pending = s.pending ∧ (invalidateAll s).inReset = s.inReset ∧
    (invalidateAll s).frontEnd = s.frontEnd ∧ (invalidateAll s).timebase = s.timebase ∧
    (invalidateAll s).channels = s.channels ∧ (invalidateAll s).staging = s.staging ∧
    (invalidateAll s).deferred = s.deferred ∧ (invalidateAll s).seq = s.seq ∧ (invalidateAll s).queue = s.queue ∧
    (invalidateAll s).scan = s.scan ∧ (invalidateAll s).alerts = s.alerts ∧ (invalidateAll s).fifo = s.fifo ∧
    (invalidateAll s).port = s.port ∧ (invalidateAll s).cmd = s.cmd ∧ (invalidateAll s).events = s.events ∧
    (invalidateAll s).pins = s.pins ∧ (invalidateAll s).freeIndex = s.freeIndex := by
  simp [invalidateAll]

@[simp] theorem recordOutcome_keeps (c : Byte) (r : Reply) :
    (recordOutcome c r s).pending = s.pending ∧ (recordOutcome c r s).inReset = s.inReset ∧
    (recordOutcome c r s).frontEnd = s.frontEnd ∧ (recordOutcome c r s).timebase = s.timebase ∧
    (recordOutcome c r s).channels = s.channels ∧ (recordOutcome c r s).staging = s.staging ∧
    (recordOutcome c r s).deferred = s.deferred ∧ (recordOutcome c r s).seq = s.seq ∧
    (recordOutcome c r s).refs = s.refs ∧ (recordOutcome c r s).queue = s.queue ∧
    (recordOutcome c r s).scan = s.scan ∧ (recordOutcome c r s).alerts = s.alerts ∧
    (recordOutcome c r s).fifo = s.fifo ∧ (recordOutcome c r s).port = s.port ∧
    (recordOutcome c r s).events = s.events ∧ (recordOutcome c r s).pins = s.pins ∧
    (recordOutcome c r s).freeIndex = s.freeIndex := by
  simp [recordOutcome]

@[simp] theorem collide_keeps :
    (collide s).pending = s.pending ∧ (collide s).inReset = s.inReset ∧ (collide s).frontEnd = s.frontEnd ∧
    (collide s).timebase = s.timebase ∧ (collide s).channels = s.channels ∧ (collide s).staging = s.staging ∧
    (collide s).deferred = s.deferred ∧ (collide s).seq = s.seq ∧ (collide s).refs = s.refs ∧
    (collide s).queue = s.queue ∧ (collide s).scan = s.scan ∧ (collide s).alerts = s.alerts ∧
    (collide s).fifo = s.fifo ∧ (collide s).port = s.port ∧ (collide s).events = s.events ∧
    (collide s).pins = s.pins ∧ (collide s).freeIndex = s.freeIndex := by
  simp [collide]

@[simp] theorem finishWorking_keeps (r : Reply) :
    (finishWorking r s).pending = s.pending ∧ (finishWorking r s).inReset = s.inReset ∧
    (finishWorking r s).frontEnd = s.frontEnd ∧ (finishWorking r s).timebase = s.timebase ∧
    (finishWorking r s).channels = s.channels ∧ (finishWorking r s).staging = s.staging ∧
    (finishWorking r s).deferred = s.deferred ∧ (finishWorking r s).seq = s.seq ∧ (finishWorking r s).refs = s.refs ∧
    (finishWorking r s).queue = s.queue ∧ (finishWorking r s).scan = s.scan ∧ (finishWorking r s).alerts = s.alerts ∧
    (finishWorking r s).fifo = s.fifo ∧ (finishWorking r s).port = s.port ∧ (finishWorking r s).pins = s.pins ∧
    (finishWorking r s).freeIndex = s.freeIndex := by
  simp [finishWorking]

@[simp] theorem startPhase_keeps (ch : ChannelId) :
    (startPhase ch s).pending = s.pending ∧ (startPhase ch s).inReset = s.inReset ∧
    (startPhase ch s).timebase = s.timebase ∧ (startPhase ch s).channels = s.channels ∧
    (startPhase ch s).staging = s.staging ∧ (startPhase ch s).deferred = s.deferred ∧
    (startPhase ch s).refs = s.refs ∧ (startPhase ch s).queue = s.queue ∧ (startPhase ch s).scan = s.scan ∧
    (startPhase ch s).alerts = s.alerts ∧ (startPhase ch s).fifo = s.fifo ∧ (startPhase ch s).port = s.port ∧
    (startPhase ch s).cmd = s.cmd ∧ (startPhase ch s).events = s.events ∧ (startPhase ch s).pins = s.pins ∧
    (startPhase ch s).freeIndex = s.freeIndex := by
  simp [startPhase]

@[simp] theorem enterArm_keeps :
    (enterArm s).pending = s.pending ∧ (enterArm s).inReset = s.inReset ∧ (enterArm s).frontEnd = s.frontEnd ∧
    (enterArm s).timebase = s.timebase ∧ (enterArm s).channels = s.channels ∧ (enterArm s).staging = s.staging ∧
    (enterArm s).deferred = s.deferred ∧ (enterArm s).refs = s.refs ∧ (enterArm s).queue = s.queue ∧
    (enterArm s).scan = s.scan ∧ (enterArm s).alerts = s.alerts ∧ (enterArm s).fifo = s.fifo ∧
    (enterArm s).port = s.port ∧ (enterArm s).cmd = s.cmd ∧ (enterArm s).events = s.events ∧
    (enterArm s).pins = s.pins ∧ (enterArm s).freeIndex = s.freeIndex := by
  simp [enterArm]

@[simp] theorem enterSettle_keeps :
    (enterSettle s).pending = s.pending ∧ (enterSettle s).inReset = s.inReset ∧
    (enterSettle s).timebase = s.timebase ∧ (enterSettle s).channels = s.channels ∧
    (enterSettle s).staging = s.staging ∧ (enterSettle s).deferred = s.deferred ∧ (enterSettle s).refs = s.refs ∧
    (enterSettle s).queue = s.queue ∧ (enterSettle s).scan = s.scan ∧ (enterSettle s).alerts = s.alerts ∧
    (enterSettle s).fifo = s.fifo ∧ (enterSettle s).port = s.port ∧ (enterSettle s).cmd = s.cmd ∧
    (enterSettle s).events = s.events ∧ (enterSettle s).pins = s.pins ∧ (enterSettle s).freeIndex = s.freeIndex := by
  unfold enterSettle
  try simp only []
  repeat' split
  all_goals simp

@[simp] theorem startSample_keeps :
    (startSample s).pending = s.pending ∧ (startSample s).inReset = s.inReset ∧
    (startSample s).frontEnd = s.frontEnd ∧ (startSample s).timebase = s.timebase ∧
    (startSample s).channels = s.channels ∧ (startSample s).staging = s.staging ∧
    (startSample s).deferred = s.deferred ∧ (startSample s).refs = s.refs ∧ (startSample s).queue = s.queue ∧
    (startSample s).scan = s.scan ∧ (startSample s).alerts = s.alerts ∧ (startSample s).fifo = s.fifo ∧
    (startSample s).port = s.port ∧ (startSample s).cmd = s.cmd ∧ (startSample s).events = s.events ∧
    (startSample s).pins = s.pins ∧ (startSample s).freeIndex = s.freeIndex := by
  simp [startSample]

@[simp] theorem decideOffer_keeps (n : Nat) (ch : ChannelId) :
    (decideOffer n ch s).pending = s.pending ∧ (decideOffer n ch s).inReset = s.inReset ∧
    (decideOffer n ch s).frontEnd = s.frontEnd ∧ (decideOffer n ch s).timebase = s.timebase ∧
    (decideOffer n ch s).channels = s.channels ∧ (decideOffer n ch s).staging = s.staging ∧
    (decideOffer n ch s).deferred = s.deferred ∧ (decideOffer n ch s).seq = s.seq ∧
    (decideOffer n ch s).refs = s.refs ∧ (decideOffer n ch s).alerts = s.alerts ∧
    (decideOffer n ch s).fifo = s.fifo ∧ (decideOffer n ch s).port = s.port ∧ (decideOffer n ch s).cmd = s.cmd ∧
    (decideOffer n ch s).events = s.events ∧ (decideOffer n ch s).pins = s.pins ∧
    (decideOffer n ch s).freeIndex = s.freeIndex := by
  unfold decideOffer
  try simp only []
  repeat' split
  all_goals simp

@[simp] theorem retakeOffer_keeps :
    (retakeOffer s).pending = s.pending ∧ (retakeOffer s).inReset = s.inReset ∧
    (retakeOffer s).frontEnd = s.frontEnd ∧ (retakeOffer s).timebase = s.timebase ∧
    (retakeOffer s).channels = s.channels ∧ (retakeOffer s).staging = s.staging ∧
    (retakeOffer s).deferred = s.deferred ∧ (retakeOffer s).seq = s.seq ∧ (retakeOffer s).refs = s.refs ∧
    (retakeOffer s).alerts = s.alerts ∧ (retakeOffer s).fifo = s.fifo ∧ (retakeOffer s).port = s.port ∧
    (retakeOffer s).cmd = s.cmd ∧ (retakeOffer s).events = s.events ∧ (retakeOffer s).pins = s.pins ∧
    (retakeOffer s).freeIndex = s.freeIndex := by
  unfold retakeOffer
  try simp only []
  repeat' split
  all_goals simp

@[simp] theorem retake_keeps :
    (retake s).pending = s.pending ∧ (retake s).inReset = s.inReset ∧ (retake s).frontEnd = s.frontEnd ∧
    (retake s).timebase = s.timebase ∧ (retake s).channels = s.channels ∧ (retake s).staging = s.staging ∧
    (retake s).deferred = s.deferred ∧ (retake s).seq = s.seq ∧ (retake s).refs = s.refs ∧
    (retake s).alerts = s.alerts ∧ (retake s).fifo = s.fifo ∧ (retake s).port = s.port ∧ (retake s).cmd = s.cmd ∧
    (retake s).events = s.events ∧ (retake s).pins = s.pins ∧ (retake s).freeIndex = s.freeIndex := by
  unfold retake
  try simp only []
  repeat' split
  all_goals simp

@[simp] theorem jobStart_keeps (q : QueuedJob) :
    (jobStart q s).pending = s.pending ∧ (jobStart q s).inReset = s.inReset ∧ (jobStart q s).timebase = s.timebase ∧
    (jobStart q s).staging = s.staging ∧ (jobStart q s).deferred = s.deferred ∧ (jobStart q s).refs = s.refs ∧
    (jobStart q s).scan = s.scan ∧ (jobStart q s).alerts = s.alerts ∧ (jobStart q s).fifo = s.fifo ∧
    (jobStart q s).port = s.port ∧ (jobStart q s).cmd = s.cmd ∧ (jobStart q s).events = s.events ∧
    (jobStart q s).pins = s.pins ∧ (jobStart q s).freeIndex = s.freeIndex := by
  simp [jobStart]

@[simp] theorem arbitrate_keeps :
    (arbitrate s).pending = s.pending ∧ (arbitrate s).inReset = s.inReset ∧ (arbitrate s).timebase = s.timebase ∧
    (arbitrate s).staging = s.staging ∧ (arbitrate s).deferred = s.deferred ∧ (arbitrate s).refs = s.refs ∧
    (arbitrate s).alerts = s.alerts ∧ (arbitrate s).port = s.port ∧ (arbitrate s).cmd = s.cmd ∧
    (arbitrate s).pins = s.pins ∧ (arbitrate s).freeIndex = s.freeIndex := by
  unfold arbitrate
  split
  · simp
  · split
    · rename_i h
      rcases reserve_spec s h with ⟨_, rfl⟩ | ⟨_, _, rfl⟩ <;> simp
    · split <;> simp

@[simp] theorem select_keeps :
    (select s).pending = s.pending ∧ (select s).inReset = s.inReset ∧ (select s).timebase = s.timebase ∧
    (select s).staging = s.staging ∧ (select s).deferred = s.deferred ∧ (select s).refs = s.refs ∧
    (select s).alerts = s.alerts ∧ (select s).port = s.port ∧ (select s).cmd = s.cmd ∧ (select s).pins = s.pins ∧
    (select s).freeIndex = s.freeIndex := by
  unfold select
  try simp only []
  repeat' split
  all_goals simp

@[simp] theorem retry_keeps :
    (retry s).pending = s.pending ∧ (retry s).inReset = s.inReset ∧ (retry s).timebase = s.timebase ∧
    (retry s).staging = s.staging ∧ (retry s).deferred = s.deferred ∧ (retry s).refs = s.refs ∧
    (retry s).alerts = s.alerts ∧ (retry s).port = s.port ∧ (retry s).cmd = s.cmd ∧ (retry s).pins = s.pins ∧
    (retry s).freeIndex = s.freeIndex := by
  unfold retry
  try simp only []
  repeat' split
  all_goals simp

@[simp] theorem applySwap_keeps :
    (applySwap s).pending = s.pending ∧ (applySwap s).inReset = s.inReset ∧ (applySwap s).frontEnd = s.frontEnd ∧
    (applySwap s).timebase = s.timebase ∧ (applySwap s).channels = s.channels ∧ (applySwap s).staging = s.staging ∧
    (applySwap s).deferred = s.deferred ∧ (applySwap s).seq = s.seq ∧ (applySwap s).refs = s.refs ∧
    (applySwap s).queue = s.queue ∧ (applySwap s).alerts = s.alerts ∧ (applySwap s).fifo = s.fifo ∧
    (applySwap s).port = s.port ∧ (applySwap s).cmd = s.cmd ∧ (applySwap s).events = s.events ∧
    (applySwap s).pins = s.pins ∧ (applySwap s).freeIndex = s.freeIndex := by
  unfold applySwap
  try simp only []
  repeat' split
  all_goals simp

@[simp] theorem closePass_keeps :
    (closePass s).pending = s.pending ∧ (closePass s).inReset = s.inReset ∧ (closePass s).frontEnd = s.frontEnd ∧
    (closePass s).timebase = s.timebase ∧ (closePass s).channels = s.channels ∧ (closePass s).staging = s.staging ∧
    (closePass s).deferred = s.deferred ∧ (closePass s).seq = s.seq ∧ (closePass s).refs = s.refs ∧
    (closePass s).queue = s.queue ∧ (closePass s).alerts = s.alerts ∧ (closePass s).fifo = s.fifo ∧
    (closePass s).port = s.port ∧ (closePass s).cmd = s.cmd ∧ (closePass s).events = s.events ∧
    (closePass s).pins = s.pins ∧ (closePass s).freeIndex = s.freeIndex := by
  unfold closePass
  try simp only []
  repeat' split
  all_goals simp

@[simp] theorem passEnd_keeps :
    (passEnd s).pending = s.pending ∧ (passEnd s).inReset = s.inReset ∧ (passEnd s).frontEnd = s.frontEnd ∧
    (passEnd s).timebase = s.timebase ∧ (passEnd s).channels = s.channels ∧ (passEnd s).staging = s.staging ∧
    (passEnd s).deferred = s.deferred ∧ (passEnd s).seq = s.seq ∧ (passEnd s).refs = s.refs ∧
    (passEnd s).queue = s.queue ∧ (passEnd s).alerts = s.alerts ∧ (passEnd s).fifo = s.fifo ∧
    (passEnd s).port = s.port ∧ (passEnd s).cmd = s.cmd ∧ (passEnd s).pins = s.pins ∧
    (passEnd s).freeIndex = s.freeIndex := by
  simp [passEnd]

@[simp] theorem checkPassEnd_keeps :
    (checkPassEnd s).pending = s.pending ∧ (checkPassEnd s).inReset = s.inReset ∧
    (checkPassEnd s).frontEnd = s.frontEnd ∧ (checkPassEnd s).timebase = s.timebase ∧
    (checkPassEnd s).channels = s.channels ∧ (checkPassEnd s).staging = s.staging ∧
    (checkPassEnd s).deferred = s.deferred ∧ (checkPassEnd s).seq = s.seq ∧ (checkPassEnd s).refs = s.refs ∧
    (checkPassEnd s).queue = s.queue ∧ (checkPassEnd s).alerts = s.alerts ∧ (checkPassEnd s).fifo = s.fifo ∧
    (checkPassEnd s).port = s.port ∧ (checkPassEnd s).cmd = s.cmd ∧ (checkPassEnd s).pins = s.pins ∧
    (checkPassEnd s).freeIndex = s.freeIndex := by
  unfold checkPassEnd
  try simp only []
  repeat' split
  all_goals simp

@[simp] theorem offer_keeps (n : Nat) (ch : ChannelId) :
    (offer n ch s).pending = s.pending ∧ (offer n ch s).inReset = s.inReset ∧ (offer n ch s).timebase = s.timebase ∧
    (offer n ch s).staging = s.staging ∧ (offer n ch s).deferred = s.deferred ∧ (offer n ch s).refs = s.refs ∧
    (offer n ch s).alerts = s.alerts ∧ (offer n ch s).port = s.port ∧ (offer n ch s).cmd = s.cmd ∧
    (offer n ch s).pins = s.pins ∧ (offer n ch s).freeIndex = s.freeIndex := by
  simp [offer]

@[simp] theorem moveOnto_keeps (n : Nat) :
    (moveOnto n s).pending = s.pending ∧ (moveOnto n s).inReset = s.inReset ∧ (moveOnto n s).timebase = s.timebase ∧
    (moveOnto n s).staging = s.staging ∧ (moveOnto n s).deferred = s.deferred ∧ (moveOnto n s).refs = s.refs ∧
    (moveOnto n s).alerts = s.alerts ∧ (moveOnto n s).port = s.port ∧ (moveOnto n s).cmd = s.cmd ∧
    (moveOnto n s).pins = s.pins ∧ (moveOnto n s).freeIndex = s.freeIndex := by
  unfold moveOnto
  try simp only []
  repeat' split
  all_goals simp

@[simp] theorem cursorMove_keeps :
    (cursorMove s).pending = s.pending ∧ (cursorMove s).inReset = s.inReset ∧ (cursorMove s).timebase = s.timebase ∧
    (cursorMove s).staging = s.staging ∧ (cursorMove s).deferred = s.deferred ∧ (cursorMove s).refs = s.refs ∧
    (cursorMove s).alerts = s.alerts ∧ (cursorMove s).port = s.port ∧ (cursorMove s).cmd = s.cmd ∧
    (cursorMove s).pins = s.pins ∧ (cursorMove s).freeIndex = s.freeIndex := by
  unfold cursorMove
  try simp only []
  repeat' split
  all_goals simp

@[simp] theorem passStart_keeps :
    (passStart s).pending = s.pending ∧ (passStart s).inReset = s.inReset ∧ (passStart s).timebase = s.timebase ∧
    (passStart s).staging = s.staging ∧ (passStart s).deferred = s.deferred ∧ (passStart s).refs = s.refs ∧
    (passStart s).alerts = s.alerts ∧ (passStart s).port = s.port ∧ (passStart s).cmd = s.cmd ∧
    (passStart s).pins = s.pins ∧ (passStart s).freeIndex = s.freeIndex := by
  simp [passStart]

@[simp] theorem overrun_keeps :
    (overrun s).pending = s.pending ∧ (overrun s).inReset = s.inReset ∧ (overrun s).frontEnd = s.frontEnd ∧
    (overrun s).timebase = s.timebase ∧ (overrun s).channels = s.channels ∧ (overrun s).staging = s.staging ∧
    (overrun s).deferred = s.deferred ∧ (overrun s).seq = s.seq ∧ (overrun s).refs = s.refs ∧
    (overrun s).queue = s.queue ∧ (overrun s).alerts = s.alerts ∧ (overrun s).fifo = s.fifo ∧
    (overrun s).port = s.port ∧ (overrun s).cmd = s.cmd ∧ (overrun s).pins = s.pins ∧
    (overrun s).freeIndex = s.freeIndex := by
  simp [overrun]

@[simp] theorem passDue_keeps :
    (passDue s).pending = s.pending ∧ (passDue s).inReset = s.inReset ∧ (passDue s).timebase = s.timebase ∧
    (passDue s).staging = s.staging ∧ (passDue s).deferred = s.deferred ∧ (passDue s).refs = s.refs ∧
    (passDue s).alerts = s.alerts ∧ (passDue s).port = s.port ∧ (passDue s).cmd = s.cmd ∧ (passDue s).pins = s.pins ∧
    (passDue s).freeIndex = s.freeIndex := by
  unfold passDue
  try simp only []
  repeat' split
  all_goals simp

@[simp] theorem expiry_keeps :
    (expiry s).pending = s.pending ∧ (expiry s).inReset = s.inReset ∧ (expiry s).timebase = s.timebase ∧
    (expiry s).staging = s.staging ∧ (expiry s).deferred = s.deferred ∧ (expiry s).refs = s.refs ∧
    (expiry s).alerts = s.alerts ∧ (expiry s).port = s.port ∧ (expiry s).cmd = s.cmd ∧ (expiry s).pins = s.pins ∧
    (expiry s).freeIndex = s.freeIndex := by
  simp [expiry]

@[simp] theorem timerTick_keeps :
    (timerTick s).pending = s.pending ∧ (timerTick s).inReset = s.inReset ∧ (timerTick s).timebase = s.timebase ∧
    (timerTick s).staging = s.staging ∧ (timerTick s).deferred = s.deferred ∧ (timerTick s).refs = s.refs ∧
    (timerTick s).alerts = s.alerts ∧ (timerTick s).port = s.port ∧ (timerTick s).cmd = s.cmd ∧
    (timerTick s).pins = s.pins ∧ (timerTick s).freeIndex = s.freeIndex := by
  unfold timerTick
  try simp only []
  repeat' split
  all_goals simp

@[simp] theorem qualifiedEdge_keeps (l : Bool) :
    (qualifiedEdge l s).pending = s.pending ∧ (qualifiedEdge l s).inReset = s.inReset ∧
    (qualifiedEdge l s).timebase = s.timebase ∧ (qualifiedEdge l s).staging = s.staging ∧
    (qualifiedEdge l s).deferred = s.deferred ∧ (qualifiedEdge l s).refs = s.refs ∧
    (qualifiedEdge l s).alerts = s.alerts ∧ (qualifiedEdge l s).port = s.port ∧ (qualifiedEdge l s).cmd = s.cmd ∧
    (qualifiedEdge l s).pins = s.pins ∧ (qualifiedEdge l s).freeIndex = s.freeIndex := by
  unfold qualifiedEdge
  try simp only []
  repeat' split
  all_goals simp

@[simp] theorem trigSample_keeps :
    (trigSample s).pending = s.pending ∧ (trigSample s).inReset = s.inReset ∧ (trigSample s).timebase = s.timebase ∧
    (trigSample s).staging = s.staging ∧ (trigSample s).deferred = s.deferred ∧ (trigSample s).refs = s.refs ∧
    (trigSample s).alerts = s.alerts ∧ (trigSample s).port = s.port ∧ (trigSample s).cmd = s.cmd ∧
    (trigSample s).pins = s.pins ∧ (trigSample s).freeIndex = s.freeIndex := by
  unfold trigSample
  try simp only []
  repeat' split
  all_goals simp

@[simp] theorem dropJobs_keeps (p : QueuedJob → Bool) :
    (dropJobs p s).pending = s.pending ∧ (dropJobs p s).inReset = s.inReset ∧ (dropJobs p s).frontEnd = s.frontEnd ∧
    (dropJobs p s).timebase = s.timebase ∧ (dropJobs p s).channels = s.channels ∧
    (dropJobs p s).staging = s.staging ∧ (dropJobs p s).deferred = s.deferred ∧ (dropJobs p s).seq = s.seq ∧
    (dropJobs p s).refs = s.refs ∧ (dropJobs p s).alerts = s.alerts ∧ (dropJobs p s).fifo = s.fifo ∧
    (dropJobs p s).port = s.port ∧ (dropJobs p s).cmd = s.cmd ∧ (dropJobs p s).events = s.events ∧
    (dropJobs p s).pins = s.pins ∧ (dropJobs p s).freeIndex = s.freeIndex := by
  simp [dropJobs]

@[simp] theorem clearStallIfEmpty_keeps :
    (clearStallIfEmpty s).pending = s.pending ∧ (clearStallIfEmpty s).inReset = s.inReset ∧
    (clearStallIfEmpty s).frontEnd = s.frontEnd ∧ (clearStallIfEmpty s).timebase = s.timebase ∧
    (clearStallIfEmpty s).channels = s.channels ∧ (clearStallIfEmpty s).staging = s.staging ∧
    (clearStallIfEmpty s).deferred = s.deferred ∧ (clearStallIfEmpty s).seq = s.seq ∧
    (clearStallIfEmpty s).refs = s.refs ∧ (clearStallIfEmpty s).scan = s.scan ∧
    (clearStallIfEmpty s).alerts = s.alerts ∧ (clearStallIfEmpty s).fifo = s.fifo ∧
    (clearStallIfEmpty s).port = s.port ∧ (clearStallIfEmpty s).cmd = s.cmd ∧
    (clearStallIfEmpty s).events = s.events ∧ (clearStallIfEmpty s).pins = s.pins ∧
    (clearStallIfEmpty s).freeIndex = s.freeIndex := by
  unfold clearStallIfEmpty
  try simp only []
  repeat' split
  all_goals simp

@[simp] theorem removeJobs_keeps (p : QueuedJob → Bool) :
    (removeJobs p s).1.pending = s.pending ∧ (removeJobs p s).1.inReset = s.inReset ∧
    (removeJobs p s).1.frontEnd = s.frontEnd ∧ (removeJobs p s).1.timebase = s.timebase ∧
    (removeJobs p s).1.channels = s.channels ∧ (removeJobs p s).1.staging = s.staging ∧
    (removeJobs p s).1.deferred = s.deferred ∧ (removeJobs p s).1.seq = s.seq ∧ (removeJobs p s).1.refs = s.refs ∧
    (removeJobs p s).1.alerts = s.alerts ∧ (removeJobs p s).1.fifo = s.fifo ∧ (removeJobs p s).1.port = s.port ∧
    (removeJobs p s).1.cmd = s.cmd ∧ (removeJobs p s).1.pins = s.pins ∧
    (removeJobs p s).1.freeIndex = s.freeIndex := by
  unfold removeJobs
  try simp only []
  repeat' split
  all_goals simp

@[simp] theorem completeStop_keeps :
    (completeStop s).pending = s.pending ∧ (completeStop s).inReset = s.inReset ∧
    (completeStop s).frontEnd = s.frontEnd ∧ (completeStop s).timebase = s.timebase ∧
    (completeStop s).channels = s.channels ∧ (completeStop s).staging = s.staging ∧
    (completeStop s).deferred = s.deferred ∧ (completeStop s).seq = s.seq ∧ (completeStop s).refs = s.refs ∧
    (completeStop s).queue = s.queue ∧ (completeStop s).alerts = s.alerts ∧ (completeStop s).fifo = s.fifo ∧
    (completeStop s).port = s.port ∧ (completeStop s).pins = s.pins ∧ (completeStop s).freeIndex = s.freeIndex := by
  simp [completeStop]

@[simp] theorem countOut_keeps :
    (countOut s).pending = s.pending ∧ (countOut s).inReset = s.inReset ∧ (countOut s).frontEnd = s.frontEnd ∧
    (countOut s).timebase = s.timebase ∧ (countOut s).channels = s.channels ∧ (countOut s).staging = s.staging ∧
    (countOut s).deferred = s.deferred ∧ (countOut s).seq = s.seq ∧ (countOut s).refs = s.refs ∧
    (countOut s).queue = s.queue ∧ (countOut s).alerts = s.alerts ∧ (countOut s).fifo = s.fifo ∧
    (countOut s).port = s.port ∧ (countOut s).pins = s.pins ∧ (countOut s).freeIndex = s.freeIndex := by
  unfold countOut
  try simp only []
  repeat' split
  all_goals simp

@[simp] theorem relink_keeps (ch : ChannelId) (a b : Descriptor) :
    (relink ch a b s).pending = s.pending ∧ (relink ch a b s).inReset = s.inReset ∧
    (relink ch a b s).frontEnd = s.frontEnd ∧ (relink ch a b s).timebase = s.timebase ∧
    (relink ch a b s).channels = s.channels ∧ (relink ch a b s).staging = s.staging ∧
    (relink ch a b s).deferred = s.deferred ∧ (relink ch a b s).seq = s.seq ∧ (relink ch a b s).queue = s.queue ∧
    (relink ch a b s).scan = s.scan ∧ (relink ch a b s).alerts = s.alerts ∧ (relink ch a b s).fifo = s.fifo ∧
    (relink ch a b s).port = s.port ∧ (relink ch a b s).cmd = s.cmd ∧ (relink ch a b s).events = s.events ∧
    (relink ch a b s).pins = s.pins ∧ (relink ch a b s).freeIndex = s.freeIndex := by
  unfold relink
  try simp only []
  repeat' split
  all_goals simp

@[simp] theorem removeAlert_keeps (ch : ChannelId) :
    (removeAlert ch s).pending = s.pending ∧ (removeAlert ch s).inReset = s.inReset ∧
    (removeAlert ch s).frontEnd = s.frontEnd ∧ (removeAlert ch s).timebase = s.timebase ∧
    (removeAlert ch s).channels = s.channels ∧ (removeAlert ch s).staging = s.staging ∧
    (removeAlert ch s).deferred = s.deferred ∧ (removeAlert ch s).seq = s.seq ∧ (removeAlert ch s).refs = s.refs ∧
    (removeAlert ch s).queue = s.queue ∧ (removeAlert ch s).scan = s.scan ∧ (removeAlert ch s).fifo = s.fifo ∧
    (removeAlert ch s).port = s.port ∧ (removeAlert ch s).cmd = s.cmd ∧ (removeAlert ch s).events = s.events ∧
    (removeAlert ch s).pins = s.pins ∧ (removeAlert ch s).freeIndex = s.freeIndex := by
  simp [removeAlert]

@[simp] theorem withdrawOffer_keeps (ch : ChannelId) :
    (withdrawOffer ch s).pending = s.pending ∧ (withdrawOffer ch s).inReset = s.inReset ∧
    (withdrawOffer ch s).frontEnd = s.frontEnd ∧ (withdrawOffer ch s).timebase = s.timebase ∧
    (withdrawOffer ch s).channels = s.channels ∧ (withdrawOffer ch s).staging = s.staging ∧
    (withdrawOffer ch s).deferred = s.deferred ∧ (withdrawOffer ch s).seq = s.seq ∧
    (withdrawOffer ch s).refs = s.refs ∧ (withdrawOffer ch s).queue = s.queue ∧
    (withdrawOffer ch s).alerts = s.alerts ∧ (withdrawOffer ch s).fifo = s.fifo ∧
    (withdrawOffer ch s).port = s.port ∧ (withdrawOffer ch s).cmd = s.cmd ∧ (withdrawOffer ch s).events = s.events ∧
    (withdrawOffer ch s).pins = s.pins ∧ (withdrawOffer ch s).freeIndex = s.freeIndex := by
  unfold withdrawOffer
  try simp only []
  repeat' split
  all_goals simp

@[simp] theorem applyCommit_keeps (ch : ChannelId) (im : Image) :
    (applyCommit ch im s).1.pending = s.pending ∧ (applyCommit ch im s).1.inReset = s.inReset ∧
    (applyCommit ch im s).1.frontEnd = s.frontEnd ∧ (applyCommit ch im s).1.timebase = s.timebase ∧
    (applyCommit ch im s).1.staging = s.staging ∧ (applyCommit ch im s).1.deferred = s.deferred ∧
    (applyCommit ch im s).1.seq = s.seq ∧ (applyCommit ch im s).1.fifo = s.fifo ∧
    (applyCommit ch im s).1.port = s.port ∧ (applyCommit ch im s).1.cmd = s.cmd ∧
    (applyCommit ch im s).1.pins = s.pins ∧ (applyCommit ch im s).1.freeIndex = s.freeIndex := by
  unfold applyCommit
  try simp only []
  repeat' split
  all_goals simp

@[simp] theorem decideCommit_keeps (ch : ChannelId) (im : Image) :
    (decideCommit ch im s).1.pending = s.pending ∧ (decideCommit ch im s).1.inReset = s.inReset ∧
    (decideCommit ch im s).1.frontEnd = s.frontEnd ∧ (decideCommit ch im s).1.timebase = s.timebase ∧
    (decideCommit ch im s).1.staging = s.staging ∧ (decideCommit ch im s).1.deferred = s.deferred ∧
    (decideCommit ch im s).1.seq = s.seq ∧ (decideCommit ch im s).1.fifo = s.fifo ∧
    (decideCommit ch im s).1.port = s.port ∧ (decideCommit ch im s).1.cmd = s.cmd ∧
    (decideCommit ch im s).1.pins = s.pins ∧ (decideCommit ch im s).1.freeIndex = s.freeIndex := by
  unfold decideCommit
  try simp only []
  repeat' split
  all_goals simp

@[simp] theorem decideDeferred_keeps :
    (decideDeferred s).pending = s.pending ∧ (decideDeferred s).inReset = s.inReset ∧
    (decideDeferred s).frontEnd = s.frontEnd ∧ (decideDeferred s).timebase = s.timebase ∧
    (decideDeferred s).staging = s.staging ∧ (decideDeferred s).seq = s.seq ∧ (decideDeferred s).fifo = s.fifo ∧
    (decideDeferred s).port = s.port ∧ (decideDeferred s).pins = s.pins ∧
    (decideDeferred s).freeIndex = s.freeIndex := by
  unfold decideDeferred
  try simp only []
  repeat' split
  all_goals simp

@[simp] theorem referenceShare_keeps (a : Completion) :
    (referenceShare a s).pending = s.pending ∧ (referenceShare a s).inReset = s.inReset ∧
    (referenceShare a s).frontEnd = s.frontEnd ∧ (referenceShare a s).timebase = s.timebase ∧
    (referenceShare a s).channels = s.channels ∧ (referenceShare a s).staging = s.staging ∧
    (referenceShare a s).deferred = s.deferred ∧ (referenceShare a s).seq = s.seq ∧
    (referenceShare a s).queue = s.queue ∧ (referenceShare a s).scan = s.scan ∧
    (referenceShare a s).alerts = s.alerts ∧ (referenceShare a s).fifo = s.fifo ∧
    (referenceShare a s).port = s.port ∧ (referenceShare a s).cmd = s.cmd ∧ (referenceShare a s).events = s.events ∧
    (referenceShare a s).pins = s.pins ∧ (referenceShare a s).freeIndex = s.freeIndex := by
  unfold referenceShare
  try simp only []
  repeat' split
  all_goals simp

@[simp] theorem zoneShare_keeps (a : Completion) :
    (zoneShare a s).pending = s.pending ∧ (zoneShare a s).inReset = s.inReset ∧
    (zoneShare a s).frontEnd = s.frontEnd ∧ (zoneShare a s).timebase = s.timebase ∧
    (zoneShare a s).staging = s.staging ∧ (zoneShare a s).deferred = s.deferred ∧ (zoneShare a s).seq = s.seq ∧
    (zoneShare a s).refs = s.refs ∧ (zoneShare a s).queue = s.queue ∧ (zoneShare a s).scan = s.scan ∧
    (zoneShare a s).fifo = s.fifo ∧ (zoneShare a s).port = s.port ∧ (zoneShare a s).cmd = s.cmd ∧
    (zoneShare a s).pins = s.pins ∧ (zoneShare a s).freeIndex = s.freeIndex := by
  unfold zoneShare
  try simp only []
  repeat' split
  all_goals simp

@[simp] theorem fifoShare_keeps (a : Completion) (z : Zone) (c : Bool) (p : ReportPolicy) :
    (fifoShare a z c p s).pending = s.pending ∧ (fifoShare a z c p s).inReset = s.inReset ∧
    (fifoShare a z c p s).frontEnd = s.frontEnd ∧ (fifoShare a z c p s).timebase = s.timebase ∧
    (fifoShare a z c p s).channels = s.channels ∧ (fifoShare a z c p s).staging = s.staging ∧
    (fifoShare a z c p s).deferred = s.deferred ∧ (fifoShare a z c p s).seq = s.seq ∧
    (fifoShare a z c p s).refs = s.refs ∧ (fifoShare a z c p s).queue = s.queue ∧
    (fifoShare a z c p s).scan = s.scan ∧ (fifoShare a z c p s).alerts = s.alerts ∧
    (fifoShare a z c p s).port = s.port ∧ (fifoShare a z c p s).cmd = s.cmd ∧ (fifoShare a z c p s).pins = s.pins ∧
    (fifoShare a z c p s).freeIndex = s.freeIndex := by
  unfold fifoShare
  try simp only []
  repeat' split
  all_goals simp

@[simp] theorem lastStatusShare_keeps (a : Completion) :
    (lastStatusShare a s).pending = s.pending ∧ (lastStatusShare a s).inReset = s.inReset ∧
    (lastStatusShare a s).frontEnd = s.frontEnd ∧ (lastStatusShare a s).timebase = s.timebase ∧
    (lastStatusShare a s).staging = s.staging ∧ (lastStatusShare a s).deferred = s.deferred ∧
    (lastStatusShare a s).seq = s.seq ∧ (lastStatusShare a s).refs = s.refs ∧ (lastStatusShare a s).queue = s.queue ∧
    (lastStatusShare a s).scan = s.scan ∧ (lastStatusShare a s).alerts = s.alerts ∧
    (lastStatusShare a s).fifo = s.fifo ∧ (lastStatusShare a s).port = s.port ∧ (lastStatusShare a s).cmd = s.cmd ∧
    (lastStatusShare a s).events = s.events ∧ (lastStatusShare a s).pins = s.pins ∧
    (lastStatusShare a s).freeIndex = s.freeIndex := by
  simp [lastStatusShare]

@[simp] theorem quietSequencer_keeps (j : InFlight) (st : JobStatus) :
    (quietSequencer j st s).pending = s.pending ∧ (quietSequencer j st s).inReset = s.inReset ∧
    (quietSequencer j st s).timebase = s.timebase ∧ (quietSequencer j st s).staging = s.staging ∧
    (quietSequencer j st s).deferred = s.deferred ∧ (quietSequencer j st s).refs = s.refs ∧
    (quietSequencer j st s).queue = s.queue ∧ (quietSequencer j st s).scan = s.scan ∧
    (quietSequencer j st s).alerts = s.alerts ∧ (quietSequencer j st s).fifo = s.fifo ∧
    (quietSequencer j st s).port = s.port ∧ (quietSequencer j st s).cmd = s.cmd ∧
    (quietSequencer j st s).pins = s.pins ∧ (quietSequencer j st s).freeIndex = s.freeIndex := by
  unfold quietSequencer
  try simp only []
  repeat' split
  all_goals simp

@[simp] theorem announceTo_keeps (a : Completion) :
    (announceTo a s).pending = s.pending ∧ (announceTo a s).inReset = s.inReset ∧
    (announceTo a s).frontEnd = s.frontEnd ∧ (announceTo a s).timebase = s.timebase ∧
    (announceTo a s).staging = s.staging ∧ (announceTo a s).seq = s.seq ∧ (announceTo a s).port = s.port ∧
    (announceTo a s).pins = s.pins ∧ (announceTo a s).freeIndex = s.freeIndex := by
  unfold announceTo
  try simp only []
  repeat' split
  all_goals simp

@[simp] theorem offerSequencer_keeps :
    (offerSequencer s).pending = s.pending ∧ (offerSequencer s).inReset = s.inReset ∧
    (offerSequencer s).timebase = s.timebase ∧ (offerSequencer s).staging = s.staging ∧
    (offerSequencer s).deferred = s.deferred ∧ (offerSequencer s).refs = s.refs ∧
    (offerSequencer s).alerts = s.alerts ∧ (offerSequencer s).port = s.port ∧ (offerSequencer s).cmd = s.cmd ∧
    (offerSequencer s).pins = s.pins ∧ (offerSequencer s).freeIndex = s.freeIndex := by
  simp [offerSequencer]

@[simp] theorem jobEnd_keeps (st : JobStatus) :
    (jobEnd st s).pending = s.pending ∧ (jobEnd st s).inReset = s.inReset ∧ (jobEnd st s).timebase = s.timebase ∧
    (jobEnd st s).staging = s.staging ∧ (jobEnd st s).port = s.port ∧ (jobEnd st s).pins = s.pins ∧
    (jobEnd st s).freeIndex = s.freeIndex := by
  unfold jobEnd
  try simp only []
  repeat' split
  all_goals simp

@[simp] theorem abortJob_keeps :
    (abortJob s).1.pending = s.pending ∧ (abortJob s).1.inReset = s.inReset ∧ (abortJob s).1.timebase = s.timebase ∧
    (abortJob s).1.staging = s.staging ∧ (abortJob s).1.port = s.port ∧ (abortJob s).1.pins = s.pins ∧
    (abortJob s).1.freeIndex = s.freeIndex := by
  unfold abortJob
  try simp only []
  repeat' split
  all_goals simp

@[simp] theorem phaseEnd_keeps (pe : PhaseEnd) :
    (phaseEnd pe s).pending = s.pending ∧ (phaseEnd pe s).inReset = s.inReset ∧
    (phaseEnd pe s).timebase = s.timebase ∧ (phaseEnd pe s).staging = s.staging ∧ (phaseEnd pe s).port = s.port ∧
    (phaseEnd pe s).pins = s.pins ∧ (phaseEnd pe s).freeIndex = s.freeIndex := by
  unfold phaseEnd
  try simp only []
  repeat' split
  all_goals simp

@[simp] theorem sampleComplete_keeps :
    (sampleComplete s).pending = s.pending ∧ (sampleComplete s).inReset = s.inReset ∧
    (sampleComplete s).timebase = s.timebase ∧ (sampleComplete s).staging = s.staging ∧
    (sampleComplete s).port = s.port ∧ (sampleComplete s).pins = s.pins ∧
    (sampleComplete s).freeIndex = s.freeIndex := by
  unfold sampleComplete
  try simp only []
  repeat' split
  all_goals simp

@[simp] theorem overflowed_keeps :
    (overflowed s).pending = s.pending ∧ (overflowed s).inReset = s.inReset ∧ (overflowed s).timebase = s.timebase ∧
    (overflowed s).staging = s.staging ∧ (overflowed s).port = s.port ∧ (overflowed s).pins = s.pins ∧
    (overflowed s).freeIndex = s.freeIndex := by
  unfold overflowed
  try simp only []
  repeat' split
  all_goals simp

@[simp] theorem sequencerTb_keeps :
    (sequencerTb s).pending = s.pending ∧ (sequencerTb s).inReset = s.inReset ∧
    (sequencerTb s).timebase = s.timebase ∧ (sequencerTb s).staging = s.staging ∧ (sequencerTb s).port = s.port ∧
    (sequencerTb s).pins = s.pins ∧ (sequencerTb s).freeIndex = s.freeIndex := by
  unfold sequencerTb
  try simp only []
  repeat' split
  all_goals simp

@[simp] theorem sequencerSlow_keeps :
    (sequencerSlow s).pending = s.pending ∧ (sequencerSlow s).inReset = s.inReset ∧
    (sequencerSlow s).frontEnd = s.frontEnd ∧ (sequencerSlow s).timebase = s.timebase ∧
    (sequencerSlow s).channels = s.channels ∧ (sequencerSlow s).staging = s.staging ∧
    (sequencerSlow s).deferred = s.deferred ∧ (sequencerSlow s).refs = s.refs ∧ (sequencerSlow s).queue = s.queue ∧
    (sequencerSlow s).scan = s.scan ∧ (sequencerSlow s).alerts = s.alerts ∧ (sequencerSlow s).fifo = s.fifo ∧
    (sequencerSlow s).port = s.port ∧ (sequencerSlow s).cmd = s.cmd ∧ (sequencerSlow s).events = s.events ∧
    (sequencerSlow s).pins = s.pins ∧ (sequencerSlow s).freeIndex = s.freeIndex := by
  unfold sequencerSlow
  try simp only []
  repeat' split
  all_goals simp

@[simp] theorem sequencerEdge_keeps :
    (sequencerEdge s).pending = s.pending ∧ (sequencerEdge s).inReset = s.inReset ∧
    (sequencerEdge s).timebase = s.timebase ∧ (sequencerEdge s).staging = s.staging ∧
    (sequencerEdge s).port = s.port ∧ (sequencerEdge s).pins = s.pins ∧
    (sequencerEdge s).freeIndex = s.freeIndex := by
  unfold sequencerEdge
  try simp only []
  repeat' split
  all_goals simp

@[simp] theorem deliverEdge_keeps (c : Bool) :
    (deliverEdge c s).pending = s.pending ∧ (deliverEdge c s).inReset = s.inReset ∧
    (deliverEdge c s).timebase = s.timebase ∧ (deliverEdge c s).staging = s.staging ∧
    (deliverEdge c s).port = s.port ∧ (deliverEdge c s).pins = s.pins := by
  unfold deliverEdge
  try simp only []
  repeat' split
  all_goals simp

/-- R3: a threshold crossed moves the comparator output alone. -/
@[simp] theorem comparatorTo_keeps (high : Bool) :
    (comparatorTo high s).pending = s.pending ∧ (comparatorTo high s).inReset = s.inReset ∧
    (comparatorTo high s).timebase = s.timebase ∧ (comparatorTo high s).channels = s.channels ∧
    (comparatorTo high s).staging = s.staging ∧ (comparatorTo high s).deferred = s.deferred ∧
    (comparatorTo high s).seq = s.seq ∧ (comparatorTo high s).refs = s.refs ∧ (comparatorTo high s).queue = s.queue ∧
    (comparatorTo high s).scan = s.scan ∧ (comparatorTo high s).alerts = s.alerts ∧
    (comparatorTo high s).fifo = s.fifo ∧ (comparatorTo high s).port = s.port ∧ (comparatorTo high s).cmd = s.cmd ∧
    (comparatorTo high s).events = s.events ∧ (comparatorTo high s).pins = s.pins := by
  unfold comparatorTo
  repeat' split
  all_goals simp

/-- R3: an edge leaves the output high, whatever it was. -/
theorem oscillatorEdge_spec (close : Bool) :
    oscillatorEdge close s =
      match s.frontEnd with
      | .clamped => s
      | .held => s
      | .running pin _ => deliverEdge close (s.withFrontEnd (.running pin true)) := by
  unfold oscillatorEdge comparatorTo
  cases hf : s.frontEnd with
  | clamped => rfl
  | held => rfl
  | running pin high =>
    simp only [State.withFrontEnd_frontEnd]
    rfl

/-- R3: with no command the comparator output alone may fall. -/
theorem nodeMoves_spec :
    nodeMoves s = s ∨ nodeMoves s = s.withFreeIndex (s.freeIndex + 1) ∨
      ∃ pin, s.frontEnd = .running pin true ∧
        nodeMoves s = (s.withFrontEnd (.running pin false)).withFreeIndex (s.freeIndex + 1) := by
  unfold nodeMoves
  cases hf : s.frontEnd with
  | clamped => exact .inl rfl
  | held => exact .inl rfl
  | running pin high =>
    cases high with
    | false => exact .inl rfl
    | true =>
      simp only [FrontEnd.comparator, ↓reduceIte, comparatorTo, State.withFreeIndex_frontEnd, hf]
      split
      · exact .inr (.inr ⟨pin, rfl, rfl⟩)
      · exact .inr (.inl rfl)

@[simp] theorem oscillatorEdge_keeps (c : Bool) :
    (oscillatorEdge c s).pending = s.pending ∧ (oscillatorEdge c s).inReset = s.inReset ∧
    (oscillatorEdge c s).timebase = s.timebase ∧ (oscillatorEdge c s).staging = s.staging ∧
    (oscillatorEdge c s).port = s.port ∧ (oscillatorEdge c s).pins = s.pins := by
  unfold oscillatorEdge
  try simp only []
  repeat' split
  all_goals simp

@[simp] theorem nodeMoves_keeps :
    (nodeMoves s).pending = s.pending ∧ (nodeMoves s).inReset = s.inReset ∧ (nodeMoves s).timebase = s.timebase ∧
    (nodeMoves s).channels = s.channels ∧ (nodeMoves s).staging = s.staging ∧ (nodeMoves s).deferred = s.deferred ∧
    (nodeMoves s).seq = s.seq ∧ (nodeMoves s).refs = s.refs ∧ (nodeMoves s).queue = s.queue ∧
    (nodeMoves s).scan = s.scan ∧ (nodeMoves s).alerts = s.alerts ∧ (nodeMoves s).fifo = s.fifo ∧
    (nodeMoves s).port = s.port ∧ (nodeMoves s).cmd = s.cmd ∧ (nodeMoves s).events = s.events ∧
    (nodeMoves s).pins = s.pins := by
  unfold nodeMoves
  simp only []
  repeat' split
  all_goals simp

end Sys2Proof.Machine
end

