-- ==== Sys2Proof/Laws/Views.lean ====
section
/-! SUPPORT. What no event of the engine changes (quietView, hostView), and results picked among open orders. -/

namespace Sys2Proof.Machine

section Orders

/-- A result picked among open orders has every property that all of them have and that the free counter does not reach. -/
theorem oneOf_ind {P : State → Prop} (hf : ∀ s n, P s → P (s.withFreeIndex n)) {x : State} {rest : List State}
    (hx : P x) (h : ∀ y ∈ rest, P y) : P (oneOf x rest) := by
  unfold oneOf
  split
  · exact hx
  · apply hf
    have key : ∀ (l : List State) (n : Nat), (∀ y ∈ l, P y) → P (l.getD n x) := by
      intro l
      induction l with
      | nil => intro n _; simpa using hx
      | cons y ys ih =>
        intro n hl
        cases n with
        | zero => simpa using hl y (by simp)
        | succ n => simpa using ih n (fun z hz => hl z (by simp [hz]))
    apply key
    intro y hy
    rcases List.mem_cons.mp hy with rfl | hy
    · exact hx
    · exact h y hy

theorem eitherOrder_ind {P : State → Prop} (hf : ∀ s n, P s → P (s.withFreeIndex n)) {a b : State → State} {s : State}
    (h1 : P (b (a s))) (h2 : P (a (b s))) : P (eitherOrder a b s) :=
  oneOf_ind hf h1 (by simpa using h2)

theorem anyOrder_ind {P : State → Prop} (hf : ∀ s n, P s → P (s.withFreeIndex n)) {a b c : State → State} {s : State}
    (ha : ∀ s, P s → P (a s)) (hb : ∀ s, P s → P (b s)) (hc : ∀ s, P s → P (c s)) (h : P s) :
    P (anyOrder a b c s) := by
  refine oneOf_ind hf (hc _ (hb _ (ha _ h))) ?_
  intro y hy
  simp only [List.mem_cons, List.not_mem_nil, or_false] at hy
  rcases hy with rfl | rfl | rfl | rfl | rfl
  · exact hb _ (hc _ (ha _ h))
  · exact hc _ (ha _ (hb _ h))
  · exact ha _ (hc _ (hb _ h))
  · exact hb _ (ha _ (hc _ h))
  · exact ha _ (hb _ (hc _ h))

theorem eitherOrder_view {α : Type} (f : State → α) (hf : ∀ s n, f (s.withFreeIndex n) = f s)
    {a b : State → State} (ha : ∀ s, f (a s) = f s) (hb : ∀ s, f (b s) = f s) (s : State) :
    f (eitherOrder a b s) = f s :=
  eitherOrder_ind (P := fun t => f t = f s) (fun t n h => (hf t n).trans h) (by rw [hb, ha]) (by rw [ha, hb])

theorem anyOrder_view {α : Type} (f : State → α) (hf : ∀ s n, f (s.withFreeIndex n) = f s)
    {a b c : State → State} (ha : ∀ s, f (a s) = f s) (hb : ∀ s, f (b s) = f s) (hc : ∀ s, f (c s) = f s) (s : State) :
    f (anyOrder a b c s) = f s :=
  anyOrder_ind (P := fun t => f t = f s) (fun t n h => (hf t n).trans h) (fun t h => (ha t).trans h)
    (fun t h => (hb t).trans h) (fun t h => (hc t).trans h) rfl

end Orders

set_option linter.unusedTactic false
set_option linter.unreachableTactic false

variable (s : State)

@[simp] theorem quietView_withFrontEnd (x : FrontEnd) : quietView (s.withFrontEnd x) = quietView s := rfl
@[simp] theorem quietView_withChannels (x : Vector Channel 16) : quietView (s.withChannels x) = quietView s := rfl
@[simp] theorem quietView_withDeferred (x : Option DeferredCommit) : quietView (s.withDeferred x) = quietView s := rfl
@[simp] theorem quietView_withSeq (x : Sequencer) : quietView (s.withSeq x) = quietView s := rfl
@[simp] theorem quietView_withRefs (x : Vector RefSlot 4) : quietView (s.withRefs x) = quietView s := rfl
@[simp] theorem quietView_withFreeIndex (x : Nat) : quietView (s.withFreeIndex x) = quietView s := rfl

@[simp] theorem quietView_raise (f : Flag) : quietView (raise f s) = quietView s := rfl
@[simp] theorem quietView_clampRequest : quietView (clampRequest s) = quietView s := by
  unfold clampRequest
  try simp only []
  repeat' split
  all_goals first | rfl | (simp; done) | (simp; rfl)
@[simp] theorem quietView_runRequest (p : PinId) : quietView (runRequest p s) = quietView s := rfl
@[simp] theorem quietView_onChannel (ch : ChannelId) (f : Channel → Channel) :
    quietView (onChannel ch f s) = quietView s := rfl
@[simp] theorem quietView_markJob (m : Bool) (j : InFlight) : quietView (markJob m j s) = quietView s := by
  unfold markJob
  try simp only []
  repeat' split
  all_goals first | rfl | (simp; done) | (simp; rfl)
@[simp] theorem quietView_onSlot (ch : ChannelId) (f : RefSlot → RefSlot) :
    quietView (onSlot ch f s) = quietView s := rfl
@[simp] theorem quietView_invalidateAll : quietView (invalidateAll s) = quietView s := rfl
@[simp] theorem quietView_finishWorking (r : Reply) : quietView (finishWorking r s) = quietView s := rfl
@[simp] theorem quietView_startPhase (ch : ChannelId) : quietView (startPhase ch s) = quietView s := by
  simp [startPhase] <;> rfl
@[simp] theorem quietView_enterArm : quietView (enterArm s) = quietView s := rfl
@[simp] theorem quietView_enterSettle : quietView (enterSettle s) = quietView s := by
  unfold enterSettle
  try simp only []
  repeat' split
  all_goals first | rfl | (simp; done) | (simp; rfl)
@[simp] theorem quietView_startSample : quietView (startSample s) = quietView s := rfl
@[simp] theorem quietView_decideOffer (n : Nat) (ch : ChannelId) :
    quietView (decideOffer n ch s) = quietView s := by
  unfold decideOffer
  try simp only []
  repeat' split
  all_goals first | rfl | (simp; done) | (simp; rfl)
@[simp] theorem quietView_retakeOffer : quietView (retakeOffer s) = quietView s := by
  unfold retakeOffer
  try simp only []
  repeat' split
  all_goals first | rfl | (simp; done) | (simp; rfl)
@[simp] theorem quietView_retake : quietView (retake s) = quietView s := by
  unfold retake
  try simp only []
  repeat' split
  all_goals first | rfl | (simp; done) | (simp; rfl)
@[simp] theorem quietView_jobStart (q : QueuedJob) : quietView (jobStart q s) = quietView s := by
  simp [jobStart] <;> rfl
@[simp] theorem quietView_arbitrate : quietView (arbitrate s) = quietView s := by
  unfold arbitrate
  split
  · rfl
  · split
    · rename_i h
      rcases reserve_spec s h with ⟨_, rfl⟩ | ⟨_, _, rfl⟩ <;> simp <;> rfl
    · split <;> simp <;> rfl
@[simp] theorem quietView_select : quietView (select s) = quietView s := by
  unfold select
  try simp only []
  repeat' split
  all_goals first | rfl | (simp; done) | (simp; rfl)
@[simp] theorem quietView_retry : quietView (retry s) = quietView s := by
  unfold retry
  try simp only []
  repeat' split
  all_goals first | rfl | (simp; done) | (simp; rfl)
@[simp] theorem quietView_applySwap : quietView (applySwap s) = quietView s := by
  unfold applySwap
  try simp only []
  repeat' split
  all_goals first | rfl | (simp; done) | (simp; rfl)
@[simp] theorem quietView_closePass : quietView (closePass s) = quietView s := by
  unfold closePass
  try simp only []
  repeat' split
  all_goals first | rfl | (simp; done) | (simp; rfl)
@[simp] theorem quietView_passEnd : quietView (passEnd s) = quietView s := by
  simp [passEnd] <;> rfl
@[simp] theorem quietView_checkPassEnd : quietView (checkPassEnd s) = quietView s := by
  unfold checkPassEnd
  try simp only []
  repeat' split
  all_goals first | rfl | (simp; done) | (simp; rfl)
@[simp] theorem quietView_offer (n : Nat) (ch : ChannelId) : quietView (offer n ch s) = quietView s := by
  simp [offer] <;> rfl
@[simp] theorem quietView_moveOnto (n : Nat) : quietView (moveOnto n s) = quietView s := by
  unfold moveOnto
  try simp only []
  repeat' split
  all_goals first | rfl | (simp; done) | (simp; rfl)
@[simp] theorem quietView_cursorMove : quietView (cursorMove s) = quietView s := by
  unfold cursorMove
  try simp only []
  repeat' split
  all_goals first | rfl | (simp; done) | (simp; rfl)
@[simp] theorem quietView_passStart : quietView (passStart s) = quietView s := by
  simp [passStart] <;> rfl
@[simp] theorem quietView_dropJobs (p : QueuedJob → Bool) : quietView (dropJobs p s) = quietView s := rfl
@[simp] theorem quietView_clearStallIfEmpty : quietView (clearStallIfEmpty s) = quietView s := by
  unfold clearStallIfEmpty
  try simp only []
  repeat' split
  all_goals first | rfl | (simp; done) | (simp; rfl)
@[simp] theorem quietView_removeJobs (p : QueuedJob → Bool) : quietView ((removeJobs p s).1) = quietView s := by
  unfold removeJobs
  try simp only []
  repeat' split
  all_goals first | rfl | (simp; done) | (simp; rfl)
@[simp] theorem quietView_completeStop : quietView (completeStop s) = quietView s := by
  simp [completeStop] <;> rfl
@[simp] theorem quietView_countOut : quietView (countOut s) = quietView s := by
  unfold countOut
  try simp only []
  repeat' split
  all_goals first | rfl | (simp; done) | (simp; rfl)
@[simp] theorem quietView_relink (ch : ChannelId) (a b : Descriptor) :
    quietView (relink ch a b s) = quietView s := by
  unfold relink
  try simp only []
  repeat' split
  all_goals first | rfl | (simp; done) | (simp; rfl)
@[simp] theorem quietView_removeAlert (ch : ChannelId) : quietView (removeAlert ch s) = quietView s := rfl
@[simp] theorem quietView_withdrawOffer (ch : ChannelId) : quietView (withdrawOffer ch s) = quietView s := by
  unfold withdrawOffer
  try simp only []
  repeat' split
  all_goals first | rfl | (simp; done) | (simp; rfl)
@[simp] theorem quietView_applyCommit (ch : ChannelId) (im : Image) :
    quietView ((applyCommit ch im s).1) = quietView s := by
  unfold applyCommit
  try simp only []
  repeat' split
  all_goals first | rfl | (simp; done) | (simp; rfl)
@[simp] theorem quietView_decideCommit (ch : ChannelId) (im : Image) :
    quietView ((decideCommit ch im s).1) = quietView s := by
  unfold decideCommit
  try simp only []
  repeat' split
  all_goals first | rfl | (simp; done) | (simp; rfl)
@[simp] theorem quietView_decideDeferred : quietView (decideDeferred s) = quietView s := by
  unfold decideDeferred
  try simp only []
  repeat' split
  all_goals first | rfl | (simp; done) | (simp; rfl)
@[simp] theorem quietView_referenceShare (a : Completion) : quietView (referenceShare a s) = quietView s := by
  unfold referenceShare
  try simp only []
  repeat' split
  all_goals first | rfl | (simp; done) | (simp; rfl)
@[simp] theorem quietView_zoneShare (a : Completion) : quietView (zoneShare a s) = quietView s := by
  unfold zoneShare
  try simp only []
  repeat' split
  all_goals first | rfl | (simp; done) | (simp; rfl)
@[simp] theorem quietView_fifoShare (a : Completion) (z : Zone) (c : Bool) (p : ReportPolicy) :
    quietView (fifoShare a z c p s) = quietView s := by
  unfold fifoShare
  try simp only []
  repeat' split
  all_goals first | rfl | (simp; done) | (simp; rfl)
@[simp] theorem quietView_lastStatusShare (a : Completion) : quietView (lastStatusShare a s) = quietView s := rfl
@[simp] theorem quietView_quietSequencer (j : InFlight) (st : JobStatus) :
    quietView (quietSequencer j st s) = quietView s := by
  unfold quietSequencer
  try simp only []
  repeat' split
  all_goals first | rfl | (simp; done) | (simp; rfl)
@[simp] theorem quietView_announceTo (a : Completion) : quietView (announceTo a s) = quietView s := by
  unfold announceTo
  try simp only []
  repeat' split
  all_goals first | rfl | (simp; done) | (simp; rfl)
@[simp] theorem quietView_offerSequencer : quietView (offerSequencer s) = quietView s := by
  simp [offerSequencer] <;> rfl
@[simp] theorem quietView_jobEnd (st : JobStatus) : quietView (jobEnd st s) = quietView s := by
  unfold jobEnd
  try simp only []
  repeat' split
  all_goals first | rfl | (simp; done) | (simp; rfl)
@[simp] theorem quietView_abortJob : quietView ((abortJob s).1) = quietView s := by
  unfold abortJob
  try simp only []
  repeat' split
  all_goals first | rfl | (simp; done) | (simp; rfl)
@[simp] theorem quietView_phaseEnd (pe : PhaseEnd) : quietView (phaseEnd pe s) = quietView s := by
  unfold phaseEnd
  try simp only []
  repeat' split
  all_goals first | rfl | (simp; done) | (simp; rfl)
@[simp] theorem quietView_sampleComplete : quietView (sampleComplete s) = quietView s := by
  unfold sampleComplete
  try simp only []
  repeat' split
  all_goals first | rfl | (simp; done) | (simp; rfl)
@[simp] theorem quietView_overflowed : quietView (overflowed s) = quietView s := by
  unfold overflowed
  try simp only []
  repeat' split
  all_goals first | rfl | (simp; done) | (simp; rfl)
@[simp] theorem quietView_sequencerTb : quietView (sequencerTb s) = quietView s := by
  unfold sequencerTb
  try simp only []
  repeat' split
  all_goals first | rfl | (simp; done) | (simp; rfl)
@[simp] theorem quietView_sequencerSlow : quietView (sequencerSlow s) = quietView s := by
  unfold sequencerSlow
  try simp only []
  repeat' split
  all_goals first | rfl | (simp; done) | (simp; rfl)
@[simp] theorem quietView_sequencerEdge : quietView (sequencerEdge s) = quietView s := by
  unfold sequencerEdge
  try simp only []
  repeat' split
  all_goals first | rfl | (simp; done) | (simp; rfl)
@[simp] theorem quietView_deliverEdge (c : Bool) : quietView (deliverEdge c s) = quietView s := by
  unfold deliverEdge
  try simp only []
  repeat' split
  all_goals first | rfl | (simp; done) | (simp; rfl)
@[simp] theorem quietView_oscillatorEdge (c : Bool) : quietView (oscillatorEdge c s) = quietView s := by
  rw [oscillatorEdge_spec]
  try simp only []
  repeat' split
  all_goals first | rfl | (simp; done) | (simp; rfl)
@[simp] theorem quietView_nodeMoves : quietView (nodeMoves s) = quietView s := by
  rcases nodeMoves_spec s with h | h | ⟨pin, _, h⟩ <;> rw [h] <;> rfl
@[simp] theorem quietView_sequencerShare (b : SeqState) (slow : Bool) :
    quietView (sequencerShare b slow s) = quietView s := by
  unfold sequencerShare
  try simp only []
  repeat' split
  all_goals first | rfl | (simp; done) | (simp; rfl)
@[simp] theorem quietView_cursorShare (b : Cursor) : quietView (cursorShare b s) = quietView s := by
  unfold cursorShare
  try simp only []
  repeat' split
  all_goals first | rfl | (simp; done) | (simp; rfl)

/-! The operations of a slow tick that do move the scan's timer and the TRIG filter. -/

@[simp] theorem hostView_quiet {t : State} (h : quietView t = quietView s) : hostView t = hostView s :=
  congrArg QuietView.host h

@[simp] theorem hostView_passStart : hostView (passStart s) = hostView s := hostView_quiet s (by simp)
@[simp] theorem hostView_overrun : hostView (overrun s) = hostView s := rfl
@[simp] theorem hostView_passDue : hostView (passDue s) = hostView s := by unfold passDue; split <;> simp
@[simp] theorem hostView_expiry : hostView (expiry s) = hostView s := by unfold expiry; rw [hostView_passDue]; rfl
@[simp] theorem hostView_timerTick : hostView (timerTick s) = hostView s := by
  unfold timerTick
  split
  · split
    · simp
    · rfl
  · rfl
@[simp] theorem hostView_qualifiedEdge (l : Bool) : hostView (qualifiedEdge l s) = hostView s := by
  unfold qualifiedEdge
  simp only []
  split
  · rw [hostView_passDue]; rfl
  · rfl
@[simp] theorem hostView_trigSample : hostView (trigSample s) = hostView s := by
  unfold trigSample
  split
  · rfl
  · split
    · simp
    · rfl
@[simp] theorem hostView_slowShare : hostView (slowShare s) = hostView s := by
  unfold slowShare
  exact (eitherOrder_view hostView (a := ageTick) (b := scanSlow) (fun _ _ => rfl) (fun _ => rfl)
    (by simp [scanSlow]) _).trans rfl

/-- A TB tick changes nothing of the host's but the sampled level of TRIG. -/
theorem hostView_tbTick (trigHigh : Bool) :
    hostView (tbTick trigHigh s) = if clocked s then { hostView s with pins := { s.pins with trig := trigHigh } }
      else hostView s := by
  unfold tbTick
  split
  · simp only []
    rw [anyOrder_view hostView (fun _ _ => rfl) (fun t => hostView_quiet t (by simp))
      (fun t => hostView_quiet t (by simp)) (by intro u; split <;> simp)]
    rfl
  · rfl

/-- A slow tick changes nothing of the host's but the sampled level of TRIG. -/
theorem hostView_slowTick (trigHigh : Bool) :
    hostView (slowTick trigHigh s) = if clocked s then { hostView s with pins := { s.pins with trig := trigHigh } }
      else hostView s := by
  unfold slowTick
  split
  · rw [hostView_slowShare, hostView_quiet _ (quietView_sequencerSlow _)]; rfl
  · rfl

end Sys2Proof.Machine
end

