-- ==== Sys2Proof/Laws/AlertLaw.lean ====
section
/-! SUPPORT. What keeps the law of the alert list (R136). -/

namespace Sys2Proof.Machine

set_option linter.unusedTactic false
set_option linter.unreachableTactic false

variable {s : State}

/-- R136: the law of a list of entries. -/
def entriesLaw (l : List AlertEntry) : Prop := (l.map AlertEntry.channel).Nodup

theorem entriesLaw_sublist {a b : List AlertEntry} (hab : a.Sublist b) (h : entriesLaw b) : entriesLaw a :=
  List.Nodup.sublist (hab.map _) h

/-- R136: with one entry per channel the list never holds more than 16. -/
theorem entriesLaw_length {l : List AlertEntry} (h : entriesLaw l) : l.length ≤ 16 := by
  have := List.Nodup.length_le_card h
  simpa using this

/-- R137: an update in place and an append both keep one entry per channel. -/
theorem entriesLaw_alertEntries {ch : ChannelId} {old new : Zone} {stamp : BitVec 32} {l : List AlertEntry}
    (h : entriesLaw l) : entriesLaw (alertEntries ch old new stamp l) := by
  unfold alertEntries
  split
  · unfold entriesLaw
    rw [List.map_map]
    have : AlertEntry.channel ∘ (fun a : AlertEntry => if a.channel = ch then
        { a with toZone := new, count := min (a.count + 1) 255, stamp := stamp } else a) = AlertEntry.channel := by
      funext a; simp only [Function.comp]; split <;> rfl
    rw [this]; exact h
  · rename_i hany
    unfold entriesLaw
    rw [List.map_append, List.nodup_append]
    refine ⟨h, by simp, ?_⟩
    intro a ha b hb hab
    simp only [List.map_cons, List.map_nil, List.mem_singleton] at hb
    obtain ⟨x, hx, rfl⟩ := List.mem_map.mp ha
    subst hb
    exact hany (List.any_eq_true.mpr ⟨x, hx, by simpa using hab⟩)

theorem alertLaw_of_entries {t : State} (he : t.alerts.entries = s.alerts.entries) (h : alertLaw s) : alertLaw t := by
  unfold alertLaw; rw [he]; exact h

theorem alertLaw_withPending (x : List Instr) (h : alertLaw s) : alertLaw (s.withPending x) := h
theorem alertLaw_withInReset (x : Bool) (h : alertLaw s) : alertLaw (s.withInReset x) := h
theorem alertLaw_withFrontEnd (x : FrontEnd) (h : alertLaw s) : alertLaw (s.withFrontEnd x) := h
theorem alertLaw_withTimebase (x : Timebase) (h : alertLaw s) : alertLaw (s.withTimebase x) := h
theorem alertLaw_withChannels (x : Vector Channel 16) (h : alertLaw s) : alertLaw (s.withChannels x) := h
theorem alertLaw_withStaging (x : Vector Byte 32) (h : alertLaw s) : alertLaw (s.withStaging x) := h
theorem alertLaw_withDeferred (x : Option DeferredCommit) (h : alertLaw s) : alertLaw (s.withDeferred x) := h
theorem alertLaw_withSeq (x : Sequencer) (h : alertLaw s) : alertLaw (s.withSeq x) := h
theorem alertLaw_withRefs (x : Vector RefSlot 4) (h : alertLaw s) : alertLaw (s.withRefs x) := h
theorem alertLaw_withQueue (x : JobQueue) (h : alertLaw s) : alertLaw (s.withQueue x) := h
theorem alertLaw_withScan (x : ScanController) (h : alertLaw s) : alertLaw (s.withScan x) := h
theorem alertLaw_withFifo (x : ResultFifo) (h : alertLaw s) : alertLaw (s.withFifo x) := h
theorem alertLaw_withPort (x : SerialPort) (h : alertLaw s) : alertLaw (s.withPort x) := h
theorem alertLaw_withCmd (x : CommandPort) (h : alertLaw s) : alertLaw (s.withCmd x) := h
theorem alertLaw_withEvents (x : EventUnit) (h : alertLaw s) : alertLaw (s.withEvents x) := h
theorem alertLaw_withPins (x : InputPins) (h : alertLaw s) : alertLaw (s.withPins x) := h
theorem alertLaw_withFreeIndex (x : Nat) (h : alertLaw s) : alertLaw (s.withFreeIndex x) := h

theorem alertLaw_raise (f : Flag) (h : alertLaw s) : alertLaw (raise f s) := by
  simpa [alertLaw] using h
theorem alertLaw_clampRequest (h : alertLaw s) : alertLaw (clampRequest s) := by
  simpa [alertLaw] using h
theorem alertLaw_runRequest (p : PinId) (h : alertLaw s) : alertLaw (runRequest p s) := by
  simpa [alertLaw] using h
theorem alertLaw_onChannel (ch : ChannelId) (f : Channel → Channel) (h : alertLaw s) :
    alertLaw (onChannel ch f s) := by
  simpa [alertLaw] using h
theorem alertLaw_setEngaged (m : Bool) (ch : ChannelId) (h : alertLaw s) : alertLaw (setEngaged m ch s) := by
  simpa [alertLaw] using h
theorem alertLaw_markJob (m : Bool) (j : InFlight) (h : alertLaw s) : alertLaw (markJob m j s) := by
  simpa [alertLaw] using h
theorem alertLaw_onSlot (ch : ChannelId) (f : RefSlot → RefSlot) (h : alertLaw s) : alertLaw (onSlot ch f s) := by
  simpa [alertLaw] using h
theorem alertLaw_invalidateAll (h : alertLaw s) : alertLaw (invalidateAll s) := by
  simpa [alertLaw] using h
theorem alertLaw_recordOutcome (c : Byte) (r : Reply) (h : alertLaw s) : alertLaw (recordOutcome c r s) := by
  simpa [alertLaw] using h
theorem alertLaw_collide (h : alertLaw s) : alertLaw (collide s) := by
  simpa [alertLaw] using h
theorem alertLaw_finishWorking (r : Reply) (h : alertLaw s) : alertLaw (finishWorking r s) := by
  simpa [alertLaw] using h
theorem alertLaw_startPhase (ch : ChannelId) (h : alertLaw s) : alertLaw (startPhase ch s) := by
  simpa [alertLaw] using h
theorem alertLaw_enterArm (h : alertLaw s) : alertLaw (enterArm s) := by
  simpa [alertLaw] using h
theorem alertLaw_enterSettle (h : alertLaw s) : alertLaw (enterSettle s) := by
  simpa [alertLaw] using h
theorem alertLaw_startSample (h : alertLaw s) : alertLaw (startSample s) := by
  simpa [alertLaw] using h
theorem alertLaw_decideOffer (n : Nat) (ch : ChannelId) (h : alertLaw s) : alertLaw (decideOffer n ch s) := by
  simpa [alertLaw] using h
theorem alertLaw_retakeOffer (h : alertLaw s) : alertLaw (retakeOffer s) := by
  simpa [alertLaw] using h
theorem alertLaw_retake (h : alertLaw s) : alertLaw (retake s) := by
  simpa [alertLaw] using h
theorem alertLaw_jobStart (q : QueuedJob) (h : alertLaw s) : alertLaw (jobStart q s) := by
  simpa [alertLaw] using h
theorem alertLaw_arbitrate (h : alertLaw s) : alertLaw (arbitrate s) := by
  simpa [alertLaw] using h
theorem alertLaw_select (h : alertLaw s) : alertLaw (select s) := by
  simpa [alertLaw] using h
theorem alertLaw_retry (h : alertLaw s) : alertLaw (retry s) := by
  simpa [alertLaw] using h
theorem alertLaw_applySwap (h : alertLaw s) : alertLaw (applySwap s) := by
  simpa [alertLaw] using h
theorem alertLaw_closePass (h : alertLaw s) : alertLaw (closePass s) := by
  simpa [alertLaw] using h
theorem alertLaw_passEnd (h : alertLaw s) : alertLaw (passEnd s) := by
  simpa [alertLaw] using h
theorem alertLaw_checkPassEnd (h : alertLaw s) : alertLaw (checkPassEnd s) := by
  simpa [alertLaw] using h
theorem alertLaw_offer (n : Nat) (ch : ChannelId) (h : alertLaw s) : alertLaw (offer n ch s) := by
  simpa [alertLaw] using h
theorem alertLaw_moveOnto (n : Nat) (h : alertLaw s) : alertLaw (moveOnto n s) := by
  simpa [alertLaw] using h
theorem alertLaw_cursorMove (h : alertLaw s) : alertLaw (cursorMove s) := by
  simpa [alertLaw] using h
theorem alertLaw_passStart (h : alertLaw s) : alertLaw (passStart s) := by
  simpa [alertLaw] using h
theorem alertLaw_overrun (h : alertLaw s) : alertLaw (overrun s) := by
  simpa [alertLaw] using h
theorem alertLaw_passDue (h : alertLaw s) : alertLaw (passDue s) := by
  simpa [alertLaw] using h
theorem alertLaw_expiry (h : alertLaw s) : alertLaw (expiry s) := by
  simpa [alertLaw] using h
theorem alertLaw_timerTick (h : alertLaw s) : alertLaw (timerTick s) := by
  simpa [alertLaw] using h
theorem alertLaw_qualifiedEdge (l : Bool) (h : alertLaw s) : alertLaw (qualifiedEdge l s) := by
  simpa [alertLaw] using h
theorem alertLaw_trigSample (h : alertLaw s) : alertLaw (trigSample s) := by
  simpa [alertLaw] using h
theorem alertLaw_dropJobs (p : QueuedJob → Bool) (h : alertLaw s) : alertLaw (dropJobs p s) := by
  simpa [alertLaw] using h
theorem alertLaw_clearStallIfEmpty (h : alertLaw s) : alertLaw (clearStallIfEmpty s) := by
  simpa [alertLaw] using h
theorem alertLaw_removeJobs (p : QueuedJob → Bool) (h : alertLaw s) : alertLaw (removeJobs p s).1 := by
  simpa [alertLaw] using h
theorem alertLaw_completeStop (h : alertLaw s) : alertLaw (completeStop s) := by
  simpa [alertLaw] using h
theorem alertLaw_countOut (h : alertLaw s) : alertLaw (countOut s) := by
  simpa [alertLaw] using h
theorem alertLaw_relink (ch : ChannelId) (a b : Descriptor) (h : alertLaw s) : alertLaw (relink ch a b s) := by
  simpa [alertLaw] using h
theorem alertLaw_removeAlert (ch : ChannelId) (h : alertLaw s) : alertLaw (removeAlert ch s) := entriesLaw_sublist List.filter_sublist h
theorem alertLaw_withdrawOffer (ch : ChannelId) (h : alertLaw s) : alertLaw (withdrawOffer ch s) := by
  simpa [alertLaw] using h
theorem alertLaw_applyCommit (ch : ChannelId) (im : Image) (h : alertLaw s) : alertLaw (applyCommit ch im s).1 := by
  unfold applyCommit
  try simp only []
  repeat' split
  all_goals with_reducible repeat (first | exact h | apply alertLaw_onChannel | apply alertLaw_removeJobs | apply alertLaw_relink | apply alertLaw_removeAlert | apply alertLaw_withdrawOffer)
theorem alertLaw_decideCommit (ch : ChannelId) (im : Image) (h : alertLaw s) : alertLaw (decideCommit ch im s).1 := by
  unfold decideCommit
  try simp only []
  repeat' split
  all_goals with_reducible repeat (first | exact h | apply alertLaw_applyCommit)
theorem alertLaw_decideDeferred (h : alertLaw s) : alertLaw (decideDeferred s) := by
  unfold decideDeferred
  try simp only []
  repeat' split
  all_goals with_reducible repeat (first | exact h | apply alertLaw_withDeferred | apply alertLaw_finishWorking | apply alertLaw_decideCommit)
theorem alertLaw_referenceShare (a : Completion) (h : alertLaw s) : alertLaw (referenceShare a s) := by
  simpa [alertLaw] using h
theorem alertLaw_zoneShare (a : Completion) (h : alertLaw s) : alertLaw (zoneShare a s) := by
  unfold zoneShare
  simp only []
  split
  · exact entriesLaw_alertEntries h
  · exact h
theorem alertLaw_fifoShare (a : Completion) (z : Zone) (c : Bool) (p : ReportPolicy) (h : alertLaw s) :
    alertLaw (fifoShare a z c p s) := by
  simpa [alertLaw] using h
theorem alertLaw_lastStatusShare (a : Completion) (h : alertLaw s) : alertLaw (lastStatusShare a s) := by
  simpa [alertLaw] using h
theorem alertLaw_quietSequencer (j : InFlight) (st : JobStatus) (h : alertLaw s) :
    alertLaw (quietSequencer j st s) := by
  simpa [alertLaw] using h
theorem alertLaw_announceTo (a : Completion) (h : alertLaw s) : alertLaw (announceTo a s) := by
  unfold announceTo
  try simp only []
  repeat' split
  all_goals with_reducible repeat (first | exact h | apply alertLaw_countOut | apply alertLaw_decideDeferred | apply alertLaw_referenceShare | apply alertLaw_zoneShare | apply alertLaw_fifoShare | apply alertLaw_lastStatusShare)
theorem alertLaw_offerSequencer (h : alertLaw s) : alertLaw (offerSequencer s) := by
  simpa [alertLaw] using h
theorem alertLaw_jobEnd (st : JobStatus) (h : alertLaw s) : alertLaw (jobEnd st s) := by
  unfold jobEnd
  try simp only []
  repeat' split
  all_goals with_reducible repeat (first | exact h | apply alertLaw_quietSequencer | apply alertLaw_announceTo | apply alertLaw_offerSequencer)
theorem alertLaw_abortJob (h : alertLaw s) : alertLaw (abortJob s).1 := by
  unfold abortJob
  try simp only []
  repeat' split
  all_goals with_reducible repeat (first | exact h | apply alertLaw_jobEnd)
theorem alertLaw_phaseEnd (pe : PhaseEnd) (h : alertLaw s) : alertLaw (phaseEnd pe s) := by
  unfold phaseEnd
  try simp only []
  repeat' split
  all_goals with_reducible repeat (first | exact h | apply alertLaw_withSeq | apply alertLaw_onChannel | apply alertLaw_onSlot | apply alertLaw_startPhase | apply alertLaw_jobEnd)
theorem alertLaw_sampleComplete (h : alertLaw s) : alertLaw (sampleComplete s) := by
  unfold sampleComplete
  try simp only []
  repeat' split
  all_goals with_reducible repeat (first | exact h | apply alertLaw_withSeq | apply alertLaw_enterArm | apply alertLaw_phaseEnd)
theorem alertLaw_overflowed (h : alertLaw s) : alertLaw (overflowed s) := by
  unfold overflowed
  try simp only []
  repeat' split
  all_goals with_reducible repeat (first | exact h | apply alertLaw_withSeq | apply alertLaw_runRequest | apply alertLaw_enterArm | apply alertLaw_phaseEnd)
theorem alertLaw_sequencerTb (h : alertLaw s) : alertLaw (sequencerTb s) := by
  unfold sequencerTb
  try simp only []
  repeat' split
  all_goals with_reducible repeat (first | exact h | apply alertLaw_withSeq | apply alertLaw_enterSettle | apply alertLaw_phaseEnd | apply alertLaw_sampleComplete | apply alertLaw_overflowed)
theorem alertLaw_sequencerSlow (h : alertLaw s) : alertLaw (sequencerSlow s) := by
  simpa [alertLaw] using h
theorem alertLaw_sequencerEdge (h : alertLaw s) : alertLaw (sequencerEdge s) := by
  unfold sequencerEdge
  try simp only []
  repeat' split
  all_goals with_reducible repeat (first | exact h | apply alertLaw_withSeq | apply alertLaw_startSample | apply alertLaw_sampleComplete | apply alertLaw_overflowed)
theorem alertLaw_deliverEdge (c : Bool) (h : alertLaw s) : alertLaw (deliverEdge c s) := by
  unfold deliverEdge
  try simp only []
  repeat' split
  all_goals with_reducible repeat (first | exact h | apply alertLaw_withFreeIndex | apply alertLaw_sequencerEdge)
theorem alertLaw_oscillatorEdge (c : Bool) (h : alertLaw s) : alertLaw (oscillatorEdge c s) := by
  rw [oscillatorEdge_spec]
  try simp only []
  repeat' split
  all_goals with_reducible repeat (first | exact h | apply alertLaw_withFrontEnd | apply alertLaw_deliverEdge)
theorem alertLaw_nodeMoves (h : alertLaw s) : alertLaw (nodeMoves s) := by
  simpa [alertLaw] using h
theorem alertLaw_stampTick (h : alertLaw s) : alertLaw (stampTick s) := by
  unfold stampTick
  try simp only []
  repeat' split
  all_goals with_reducible repeat (first | exact h | apply alertLaw_withTimebase)
theorem alertLaw_ageTick (h : alertLaw s) : alertLaw (ageTick s) := by
  unfold ageTick
  try simp only []
  repeat' split
  all_goals with_reducible repeat (first | exact h | apply alertLaw_withRefs)
theorem alertLaw_scanSlow (h : alertLaw s) : alertLaw (scanSlow s) := by
  unfold scanSlow
  try simp only []
  repeat' split
  all_goals with_reducible repeat (first | exact h | apply alertLaw_timerTick | apply alertLaw_trigSample)
theorem alertLaw_slowShare (h : alertLaw s) : alertLaw (slowShare s) := 
  eitherOrder_ind (fun _ n h => alertLaw_withFreeIndex n h) (alertLaw_scanSlow (alertLaw_ageTick (alertLaw_stampTick h)))
    (alertLaw_ageTick (alertLaw_scanSlow (alertLaw_stampTick h)))
theorem alertLaw_sequencerShare (b : SeqState) (w : Bool) (h : alertLaw s) : alertLaw (sequencerShare b w s) := by
  unfold sequencerShare
  try simp only []
  repeat' split
  all_goals with_reducible repeat (first | exact h | apply alertLaw_sequencerTb | apply alertLaw_sequencerSlow)
theorem alertLaw_cursorShare (b : Cursor) (h : alertLaw s) : alertLaw (cursorShare b s) := by
  unfold cursorShare
  try simp only []
  repeat' split
  all_goals with_reducible repeat (first | exact h | apply alertLaw_cursorMove)
theorem alertLaw_tbTick (l : Bool) (h : alertLaw s) : alertLaw (tbTick l s) := by
  unfold tbTick
  split
  · exact anyOrder_ind (fun _ n h => alertLaw_withFreeIndex n h) (fun _ h => alertLaw_sequencerShare _ _ h)
      (fun _ h => alertLaw_cursorShare _ h) (fun _ h => by split; exacts [alertLaw_slowShare h, h])
      (alertLaw_withPins _ (alertLaw_withTimebase _ h))
  · exact h
theorem alertLaw_slowTick (l : Bool) (h : alertLaw s) : alertLaw (slowTick l s) := by
  unfold slowTick
  try simp only []
  repeat' split
  all_goals with_reducible repeat (first | exact h | apply alertLaw_withTimebase | apply alertLaw_withPins | apply alertLaw_sequencerSlow | apply alertLaw_slowShare)
theorem alertLaw_refuse (r : Reason) (h : alertLaw s) : alertLaw (refuse r s).1 := h
theorem alertLaw_admitDirect (ch : ChannelId) (h : alertLaw s) : alertLaw (admitDirect ch s).1 := by
  unfold admitDirect
  try simp only []
  repeat' split
  all_goals with_reducible repeat (first | exact h | apply alertLaw_withQueue | apply alertLaw_select | apply alertLaw_refuse)
theorem alertLaw_measureNow (h : alertLaw s) : alertLaw (measureNow s).1 := by
  unfold measureNow
  try simp only []
  repeat' split
  all_goals with_reducible repeat (first | exact h | apply alertLaw_refuse | apply alertLaw_admitDirect)
theorem alertLaw_flushQueue (h : alertLaw s) : alertLaw (flushQueue s).1 := by
  unfold flushQueue
  try simp only []
  repeat' split
  all_goals with_reducible repeat (first | exact h | apply alertLaw_removeJobs | apply alertLaw_refuse)
theorem alertLaw_scanStart (h : alertLaw s) : alertLaw (scanStart s).1 := by
  unfold scanStart
  try simp only []
  repeat' split
  all_goals with_reducible repeat (first | exact h | apply alertLaw_withScan | apply alertLaw_passStart | apply alertLaw_refuse)
theorem alertLaw_scanOnce (h : alertLaw s) : alertLaw (scanOnce s).1 := by
  unfold scanOnce
  try simp only []
  repeat' split
  all_goals with_reducible repeat (first | exact h | apply alertLaw_withScan | apply alertLaw_passStart | apply alertLaw_refuse)
theorem alertLaw_scanStop (h : alertLaw s) : alertLaw (scanStop s).1 := by
  unfold scanStop
  try simp only []
  repeat' split
  all_goals with_reducible repeat (first | exact h | apply alertLaw_withScan | apply alertLaw_applySwap | apply alertLaw_removeJobs)
theorem alertLaw_swapBanks (h : alertLaw s) : alertLaw (swapBanks s).1 := by
  unfold swapBanks
  try simp only []
  repeat' split
  all_goals with_reducible repeat (first | exact h | apply alertLaw_withScan | apply alertLaw_refuse)
theorem alertLaw_commitChannel (h : alertLaw s) : alertLaw (commitChannel s).1 := by
  unfold commitChannel
  try simp only []
  repeat' split
  all_goals with_reducible repeat (first | exact h | apply alertLaw_withDeferred | apply alertLaw_decideCommit | apply alertLaw_refuse)
theorem alertLaw_fetchChannel (h : alertLaw s) : alertLaw (fetchChannel s).1 := by
  unfold fetchChannel
  try simp only []
  repeat' split
  all_goals with_reducible repeat (first | exact h | apply alertLaw_withStaging | apply alertLaw_refuse)
theorem alertLaw_invalidateReference (h : alertLaw s) : alertLaw (invalidateReference s).1 := by
  unfold invalidateReference
  try simp only []
  repeat' split
  all_goals with_reducible repeat (first | exact h | apply alertLaw_onSlot | apply alertLaw_invalidateAll | apply alertLaw_refuse)
theorem alertLaw_clearZone (h : alertLaw s) : alertLaw (clearZone s).1 := by
  unfold clearZone
  split
  · exact List.nodup_nil
  · split
    · exact h
    · exact alertLaw_removeAlert _ (alertLaw_onChannel _ _ h)
theorem alertLaw_clearAlerts (h : alertLaw s) : alertLaw (clearAlerts s).1 := List.nodup_nil
theorem alertLaw_clearResults (h : alertLaw s) : alertLaw (clearResults s).1 := by
  unfold clearResults
  try simp only []
  repeat' split
  all_goals with_reducible repeat (first | exact h | apply alertLaw_withFifo | apply alertLaw_retry)
theorem alertLaw_setTimebase (h : alertLaw s) : alertLaw (setTimebase s).1 := by
  unfold setTimebase
  try simp only []
  repeat' split
  all_goals with_reducible repeat (first | exact h | apply alertLaw_withTimebase | apply alertLaw_invalidateAll | apply alertLaw_refuse)
theorem alertLaw_sleep (h : alertLaw s) : alertLaw (sleep s).1 := by
  unfold sleep
  try simp only []
  repeat' split
  all_goals with_reducible repeat (first | exact h | apply alertLaw_withFrontEnd | apply alertLaw_withTimebase | apply alertLaw_invalidateAll | apply alertLaw_refuse)
theorem alertLaw_wake (h : alertLaw s) : alertLaw (wake s).1 := by
  unfold wake
  try simp only []
  repeat' split
  all_goals with_reducible repeat (first | exact h | apply alertLaw_withFrontEnd | apply alertLaw_withTimebase)
theorem alertLaw_unknownCommand (h : alertLaw s) : alertLaw (unknownCommand s).1 := by
  unfold unknownCommand
  try simp only []
  repeat' split
  all_goals with_reducible repeat (first | exact h | apply alertLaw_refuse)
theorem alertLaw_quietEngine (h : alertLaw s) : alertLaw (quietEngine s) := alertLaw_of_entries (s := .reset) (by simp [quietEngine]; rfl) List.nodup_nil
theorem alertLaw_engineReset (h : alertLaw s) : alertLaw (engineReset s) := by
  unfold engineReset
  try simp only []
  repeat' split
  all_goals with_reducible repeat (first | exact h | apply alertLaw_raise | apply alertLaw_recordOutcome | apply alertLaw_quietEngine)
theorem alertLaw_powerOn (h : alertLaw s) : alertLaw (powerOn s) := List.nodup_nil
theorem alertLaw_endReset (l : Bool) (h : alertLaw s) : alertLaw (endReset l s) := by
  unfold endReset
  try simp only []
  repeat' split
  all_goals with_reducible repeat (first | exact h | apply alertLaw_withInReset | apply alertLaw_withFrontEnd | apply alertLaw_withPort | apply alertLaw_withPins)
theorem alertLaw_takeResult (h : alertLaw s) : alertLaw (takeResult s) := by
  unfold takeResult
  try simp only []
  repeat' split
  all_goals with_reducible repeat (first | exact h | apply alertLaw_withFifo)
theorem alertLaw_popResult (h : alertLaw s) : alertLaw (popResult s) := by
  unfold popResult
  try simp only []
  repeat' split
  all_goals with_reducible repeat (first | exact h | apply alertLaw_retry | apply alertLaw_takeResult)
theorem alertLaw_popAlert (h : alertLaw s) : alertLaw (popAlert s) := by
  unfold popAlert
  split
  · exact h
  · rename_i a rest hr
    exact entriesLaw_sublist (hr ▸ List.sublist_cons_self a rest) h
theorem alertLaw_readAction (a : Byte) (h : alertLaw s) : alertLaw (readAction a s) := by
  unfold readAction
  try simp only []
  repeat' split
  all_goals with_reducible repeat (first | exact h | apply alertLaw_popResult | apply alertLaw_popAlert)
theorem alertLaw_advancePointer (h : alertLaw s) : alertLaw (advancePointer s) := by
  unfold advancePointer
  try simp only []
  repeat' split
  all_goals with_reducible repeat (first | exact h | apply alertLaw_withPort)
theorem alertLaw_busStart (a : Byte) (h : alertLaw s) : alertLaw (busStart a s) := by
  unfold busStart
  try simp only []
  repeat' split
  all_goals with_reducible repeat (first | exact h | apply alertLaw_withPort)
theorem alertLaw_openWrite (h : alertLaw s) : alertLaw (openWrite s) := by
  unfold openWrite
  try simp only []
  repeat' split
  all_goals with_reducible repeat (first | exact h | apply alertLaw_busStart)
theorem alertLaw_copySnapshot (h : alertLaw s) : alertLaw (copySnapshot s) := by
  unfold copySnapshot
  try simp only []
  repeat' split
  all_goals with_reducible repeat (first | exact h | apply alertLaw_busStart)
theorem alertLaw_sendByte (a : State → State) (h : alertLaw s) (ha : alertLaw (a s)) : alertLaw (sendByte a s) := alertLaw_advancePointer (alertLaw_withPort _ ha)
theorem alertLaw_windowRead (a : Byte) (e : State → State) (h : alertLaw s) (he : ∀ t, alertLaw t → alertLaw (e t)) :
    alertLaw (windowRead a e s) := by
  unfold windowRead
  split
  · exact h
  · split
    · refine alertLaw_sendByte _ h ?_
      split
      · exact he _ h
      · exact alertLaw_readAction _ h
    all_goals exact h
theorem alertLaw_issue (c : Byte) (f : State → State × Reply) (h : alertLaw s) (hf : alertLaw (f s).1) :
    alertLaw (issue c f s) := by
  unfold issue
  split
  · exact alertLaw_collide h
  · exact alertLaw_recordOutcome _ _ hf
theorem alertLaw_issueAbort (h : alertLaw s) : alertLaw (issueAbort s) := by
  unfold issueAbort
  try simp only []
  repeat' split
  all_goals with_reducible repeat (first | exact h | apply alertLaw_recordOutcome | apply alertLaw_abortJob)
theorem alertLaw_issueCode (c : Byte) (h : alertLaw s) : alertLaw (issueCode c s) := by
  unfold issueCode
  refine iteInduction (fun _ => ?_) (fun _ => ?_)
  · exact alertLaw_issue _ _ h (alertLaw_measureNow h)
  refine iteInduction (fun _ => ?_) (fun _ => ?_)
  · exact alertLaw_issueAbort h
  refine iteInduction (fun _ => ?_) (fun _ => ?_)
  · exact alertLaw_issue _ _ h (alertLaw_flushQueue h)
  refine iteInduction (fun _ => ?_) (fun _ => ?_)
  · exact alertLaw_issue _ _ h (alertLaw_scanStart h)
  refine iteInduction (fun _ => ?_) (fun _ => ?_)
  · exact alertLaw_issue _ _ h (alertLaw_scanStop h)
  refine iteInduction (fun _ => ?_) (fun _ => ?_)
  · exact alertLaw_issue _ _ h (alertLaw_scanOnce h)
  refine iteInduction (fun _ => ?_) (fun _ => ?_)
  · exact alertLaw_issue _ _ h (alertLaw_swapBanks h)
  refine iteInduction (fun _ => ?_) (fun _ => ?_)
  · exact alertLaw_issue _ _ h (alertLaw_commitChannel h)
  refine iteInduction (fun _ => ?_) (fun _ => ?_)
  · exact alertLaw_issue _ _ h (alertLaw_fetchChannel h)
  refine iteInduction (fun _ => ?_) (fun _ => ?_)
  · exact alertLaw_issue _ _ h (alertLaw_invalidateReference h)
  refine iteInduction (fun _ => ?_) (fun _ => ?_)
  · exact alertLaw_issue _ _ h (alertLaw_clearZone h)
  refine iteInduction (fun _ => ?_) (fun _ => ?_)
  · exact alertLaw_issue _ _ h (alertLaw_clearAlerts h)
  refine iteInduction (fun _ => ?_) (fun _ => ?_)
  · exact alertLaw_issue _ _ h (alertLaw_clearResults h)
  refine iteInduction (fun _ => ?_) (fun _ => ?_)
  · exact alertLaw_issue _ _ h (alertLaw_setTimebase h)
  refine iteInduction (fun _ => ?_) (fun _ => ?_)
  · exact alertLaw_issue _ _ h (alertLaw_sleep h)
  refine iteInduction (fun _ => ?_) (fun _ => ?_)
  · exact alertLaw_issue _ _ h (alertLaw_wake h)
  refine iteInduction (fun _ => ?_) (fun _ => ?_)
  · exact alertLaw_engineReset h
  exact alertLaw_issue _ _ h (alertLaw_unknownCommand h)
theorem alertLaw_clearFlags (v : Byte) (h : alertLaw s) : alertLaw (clearFlags v s) := by
  unfold clearFlags
  try simp only []
  repeat' split
  all_goals with_reducible repeat (first | exact h | apply alertLaw_withEvents)
theorem alertLaw_writeEnables (v : Byte) (h : alertLaw s) : alertLaw (writeEnables v s) := by
  unfold writeEnables
  try simp only []
  repeat' split
  all_goals with_reducible repeat (first | exact h | apply alertLaw_withEvents)
theorem alertLaw_writeBank (a v : Byte) (h : alertLaw s) : alertLaw (writeBank a v s) := by
  unfold writeBank
  try simp only []
  repeat' split
  all_goals with_reducible repeat (first | exact h | apply alertLaw_withScan)
theorem alertLaw_writeOverrun (v : Byte) (h : alertLaw s) : alertLaw (writeOverrun v s) := by
  unfold writeOverrun
  try simp only []
  repeat' split
  all_goals with_reducible repeat (first | exact h | apply alertLaw_withScan | apply alertLaw_overrun)
theorem alertLaw_writePolicy (v : Byte) (h : alertLaw s) : alertLaw (writePolicy v s) := by
  unfold writePolicy
  try simp only []
  repeat' split
  all_goals with_reducible repeat (first | exact h | apply alertLaw_withFifo | apply alertLaw_retry)
theorem alertLaw_writePeriodLow (v : Byte) (h : alertLaw s) : alertLaw (writePeriodLow v s) := by
  unfold writePeriodLow
  try simp only []
  repeat' split
  all_goals with_reducible repeat (first | exact h | apply alertLaw_withScan)
theorem alertLaw_writePeriodHigh (v : Byte) (h : alertLaw s) : alertLaw (writePeriodHigh v s) := by
  unfold writePeriodHigh
  try simp only []
  repeat' split
  all_goals with_reducible repeat (first | exact h | apply alertLaw_withScan)
theorem alertLaw_writePlain (a v : Byte) (h : alertLaw s) : alertLaw (writePlain a v s) := by
  unfold writePlain
  try simp only []
  repeat' split
  all_goals with_reducible repeat (first | exact h | apply alertLaw_withTimebase | apply alertLaw_withStaging | apply alertLaw_withScan | apply alertLaw_withFifo | apply alertLaw_withCmd | apply alertLaw_writePeriodLow | apply alertLaw_writePeriodHigh)
theorem alertLaw_registerWrite (a v : Byte) (h : alertLaw s) : alertLaw (registerWrite a v s) := by
  unfold registerWrite
  try simp only []
  repeat' split
  all_goals with_reducible repeat (first | exact h | apply alertLaw_issueCode | apply alertLaw_clearFlags | apply alertLaw_writeEnables | apply alertLaw_writeBank | apply alertLaw_writeOverrun | apply alertLaw_writePolicy | apply alertLaw_writePlain)
theorem alertLaw_takeByte (v : Byte) (e : State → State) (h : alertLaw s) (he : ∀ t, alertLaw t → alertLaw (e t)) :
    alertLaw (takeByte v e s) := by
  unfold takeByte
  split
  · exact h
  · split
    · exact alertLaw_withPort _ h
    · exact he _ (alertLaw_advancePointer h)
    all_goals exact h
theorem alertLaw_dataByte (a v : Byte) (e : State → State) (h : alertLaw s) (he : ∀ t, alertLaw t → alertLaw (e t)) :
    alertLaw (dataByte a v e s) := 
  alertLaw_takeByte _ _ h (fun t ht => by split; exacts [he t ht, alertLaw_registerWrite _ _ ht])
theorem alertLaw_loadPointer (v : Byte) (h : alertLaw s) : alertLaw (loadPointer v s) := alertLaw_takeByte _ _ h (fun _ ht => alertLaw_registerWrite _ _ ht)

end Sys2Proof.Machine
end

