-- ==== Sys2Proof/Laws/Specs.lean ====
section
/-! SUPPORT. What the shared operations of the Arbiter, the Sequencer and the Result FIFO leave in the blocks they change. -/

namespace Sys2Proof.Machine

/-- `mapTable` is the library's map; its body is one that the kernel evaluates. -/
theorem mapTable_eq {α β : Type} {n : Nat} (f : α → β) (v : Vector α n) : mapTable f v = v.map f := by
  cases v
  simp only [mapTable, Vector.map_mk, Vector.mk.injEq]
  apply Array.ext'
  simp

@[simp] theorem mapTable_get {α β : Type} {n : Nat} (f : α → β) (v : Vector α n) (i : Nat) (h : i < n) :
    (mapTable f v)[i] = f v[i] := by
  simp [mapTable_eq]

variable (s : State)

/-! ### Phases and the job start -/

@[simp] theorem startPhase_state (ch : ChannelId) : (startPhase ch s).seq.state = .discharge := by simp [startPhase]
@[simp] theorem startPhase_job (ch : ChannelId) : (startPhase ch s).seq.job = s.seq.job := by simp [startPhase]

@[simp] theorem jobStart_state (q : QueuedJob) : (jobStart q s).seq.state = .discharge := by simp [jobStart]
@[simp] theorem jobStart_job (q : QueuedJob) : (jobStart q s).seq.job = some (jobRecord q s) := by simp [jobStart]
@[simp] theorem jobStart_queue (q : QueuedJob) : (jobStart q s).queue = { s.queue with available := false } := by
  simp [jobStart]

/-- R43: a job record names the queued job's channel and class. -/
theorem jobRecord_spec (q : QueuedJob) : (jobRecord q s).channel = q.channel ∧ (jobRecord q s).tag = q.tag := by
  unfold jobRecord
  simp only []
  repeat' split
  all_goals simp

/-! ### The Arbiter -/

/-- R94: what a selection needs. -/
theorem arbiterReady_spec (h : arbiterReady s = true) :
    s.seq.state = .idle ∧ s.queue.available = true ∧ clocked s = true := by
  simp [arbiterReady] at h
  exact ⟨h.1.1, h.1.2, h.2⟩

theorem perm_eraseP {α : Type} {p : α → Bool} {l : List α} {x : α} (h : l.find? p = some x) : l.Perm (x :: l.eraseP p) := by
  induction l with
  | nil => cases h
  | cons a l ih =>
    cases hp : p a with
    | true => simp [hp] at h; subst h; simp [hp]
    | false =>
      simp [hp] at h
      simp only [hp, List.eraseP_cons_of_neg (by simp [hp] : ¬p a = true)]
      exact ((ih h).cons a).trans (List.Perm.swap _ _ _)

/-- R94, R96: the selected job leaves the queue and every other job stays. -/
theorem selectJob_perm {jobs rest : List QueuedJob} {q : QueuedJob} (h : selectJob jobs = some (q, rest)) :
    jobs.Perm (q :: rest) := by
  unfold selectJob at h
  split at h
  · rename_i hf
    injection h with h; injection h with h1 h2; subst h1; subst h2
    exact perm_eraseP hf
  · split at h
    · cases h
    · injection h with h; injection h with h1 h2; subst h1; subst h2; exact List.Perm.refl _

/-- R94 to R97: a selection finds no job, or starts the selected one with a reservation, or stalls. -/
theorem arbitrate_spec :
    (selectJob s.queue.jobs = none ∧ arbitrate s = s) ∨
      (∃ q rest t, selectJob s.queue.jobs = some (q, rest) ∧ reserve s = some t ∧
        arbitrate s = retake (jobStart q (t.withQueue { s.queue with jobs := rest, stalled := false }))) ∨
      (∃ q rest, selectJob s.queue.jobs = some (q, rest) ∧ reserve s = none ∧
        arbitrate s = if s.queue.stalled then s else raise .stall (s.withQueue { s.queue with stalled := true })) := by
  unfold arbitrate
  split
  · exact .inl ⟨by assumption, rfl⟩
  · rename_i q rest hq
    split
    · rename_i t ht
      have hqueue : t.queue = s.queue := by
        rcases reserve_spec s ht with ⟨_, rfl⟩ | ⟨_, _, rfl⟩ <;> simp
      exact .inr (.inl ⟨q, rest, t, hq, ht, by rw [hqueue]⟩)
    · exact .inr (.inr ⟨q, rest, hq, by assumption, rfl⟩)

/-- A retake leaves everything of the queue but its jobs. -/
@[simp] theorem decideOffer_available (n : Nat) (ch : ChannelId) :
    (decideOffer n ch s).queue.available = s.queue.available ∧ (decideOffer n ch s).queue.stalled = s.queue.stalled := by
  unfold decideOffer
  repeat' split
  all_goals simp

@[simp] theorem retakeOffer_available :
    (retakeOffer s).queue.available = s.queue.available ∧ (retakeOffer s).queue.stalled = s.queue.stalled := by
  unfold retakeOffer
  split <;> simp

@[simp] theorem retake_available :
    (retake s).queue.available = s.queue.available ∧ (retake s).queue.stalled = s.queue.stalled := by
  unfold retake
  split <;> simp

/-! ### The job end -/

@[simp] theorem quietSequencer_seq (j : InFlight) (st : JobStatus) : (quietSequencer j st s).seq = .quiet := by
  unfold quietSequencer
  simp only []
  split <;> simp

/-- R152: the reservation ends in every case. -/
@[simp] theorem fifoShare_reserved (a : Completion) (z : Zone) (c : Bool) (p : ReportPolicy) :
    (fifoShare a z c p s).fifo.reserved = 0 := by
  unfold fifoShare
  simp only []
  repeat' split
  all_goals simp

/-- R152: at most one record is written. -/
theorem fifoShare_length (a : Completion) (z : Zone) (c : Bool) (p : ReportPolicy) :
    (fifoShare a z c p s).fifo.records.length ≤ s.fifo.records.length + 1 := by
  unfold fifoShare
  simp only []
  repeat' split
  all_goals simp

/-- R62: what a completion leaves in the Result FIFO is what the FIFO's own share leaves. -/
theorem announceTo_fifo (a : Completion) :
    ∃ z c p t, t.fifo = s.fifo ∧ (announceTo a s).fifo = (fifoShare a z c p t).fifo := by
  unfold announceTo
  simp only []
  split <;> exact ⟨_, _, _, zoneShare a (referenceShare a s), by simp, by simp; rfl⟩

end Sys2Proof.Machine
end

