-- ==== Sys2Proof/Laws/Effects.lean ====
section
/-! SUPPORT. How a byte of the bus reaches its row's effect, and what starting and ending jobs leave in the blocks. -/

namespace Sys2Proof.Machine

variable {s : State}

/-! ### Data bytes and commands -/

/-- R164: a whole byte past the first is written, behind the pointer's advance. -/
theorem takeByte_written {a v : Byte} {w : State → State} (h : takesWrite a s) : takeByte v w s = w (pointerPast a s) := by
  unfold takeByte
  simp only [h.1, h.2.1, Bool.false_eq_true, ↓reduceIte]
  rw [advancePointer, pointerPast, h.2.2]

/-- R164: a data byte at its row's own address has the row's effect. -/
theorem dataByte_taken {a v : Byte} {e : State → State} (h : takesWrite a s) : dataByte a v e s = e (pointerPast a s) := by
  rw [dataByte, takeByte_written h, if_pos h.2.2]

/-- R164: a data byte at another address is that address's write. -/
theorem dataByte_elsewhere {a p v : Byte} {e : State → State} (h : takesWrite p s) (hp : p ≠ a) :
    dataByte a v e s = registerWrite p v (pointerPast p s) := by
  rw [dataByte, takeByte_written h, if_neg (by rw [h.2.2]; exact hp), h.2.2]

/-- R164: the first data byte of a write transaction loads the pointer, in whatever row it comes. -/
theorem takeByte_first {v : Byte} {w : State → State} (h : s.inReset = false) (hb : s.port.bus = .awaitPointer) :
    takeByte v w s = s.withPort { s.port with pointer := v, bus := .writing } := by
  simp [takeByte, h, hb]

/-- R163, R170: outside a write transaction no byte is taken. -/
theorem takeByte_none {v : Byte} {w : State → State}
    (h : s.inReset = true ∨ s.port.bus = .idle ∨ s.port.bus = .reading) : takeByte v w s = s := by
  rcases h with h | h | h <;> simp [takeByte, h]

/-- R163: a held reset takes no byte. -/
theorem dataByte_inReset {a v : Byte} {e : State → State} (h : s.inReset = true) : dataByte a v e s = s :=
  takeByte_none (.inl h)

/-- R165: a byte sent from its row's own address is behind the row's pop. -/
theorem windowRead_sent {a : Byte} {pop : State → State} (h : sendsFrom a s) : windowRead a pop s = sendByte pop s := by
  simp [windowRead, h.1, h.2.1, h.2.2]

/-- R165, R169: a byte sent from another address is that address's read. -/
theorem windowRead_elsewhere {a p : Byte} {pop : State → State} (h : sendsFrom p s) (hp : p ≠ a) :
    windowRead a pop s = sendByte (readAction p) s := by
  simp [windowRead, h.1, h.2.1, h.2.2, hp]

theorem addressByte_target (a : BitVec 7) (read : Bool) : (a ++ BitVec.ofBool read) >>> 1 = a.setWidth 8 := by
  revert a
  cases read <;> decide

/-- R163: the port's own address, with either direction bit, is acknowledged outside a reset. -/
theorem acknowledges_own (read : Bool) (h : s.inReset = false) : acknowledges (ownAddress read s) s = true := by
  simp [acknowledges, ownAddress, h, addressByte_target]

theorem ownAddress_direction (read : Bool) : (ownAddress read s).getLsbD 0 = read := by
  unfold ownAddress
  generalize s.port.address = a
  revert a
  cases read <;> decide

/-- R164: a write transaction opens. -/
theorem openWrite_opens (h : s.inReset = false) : openWrite s = s.withPort { s.port with bus := .awaitPointer } := by
  unfold openWrite busStart
  rw [if_pos (acknowledges_own false h), ownAddress_direction]
  rfl

/-- R166: a read transaction opens, with the snapshot copied. -/
theorem copySnapshot_opens (h : s.inReset = false) :
    copySnapshot s = s.withPort { s.port with snapshot := liveSnapshot s, bus := .reading } := by
  unfold copySnapshot busStart
  rw [if_pos (acknowledges_own true h), ownAddress_direction]
  rfl

/-- R163: a held reset acknowledges nothing. -/
theorem busStart_inReset (a : Byte) (h : s.inReset = true) : busStart a s = s := by simp [busStart, acknowledges, h]

/-- R173: a command that is decoded is recorded with its own reply. -/
theorem issue_decoded {c v : Byte} {f : State → State × Reply} (h : decodesCommand s) :
    dataByte 0x18 v (issue c f) s = recordOutcome c (f (pointerPast 0x18 s)).2 (f (pointerPast 0x18 s)).1 := by
  rw [dataByte_taken h.1, issue, if_neg (by exact h.2)]

@[simp] theorem pointerPast_keeps (a : Byte) (s : State) :
    (pointerPast a s).cmd = s.cmd ∧ (pointerPast a s).timebase = s.timebase ∧ (pointerPast a s).channels = s.channels ∧
      (pointerPast a s).queue = s.queue ∧ (pointerPast a s).seq = s.seq ∧ (pointerPast a s).scan = s.scan ∧
      (pointerPast a s).fifo = s.fifo ∧ (pointerPast a s).refs = s.refs ∧ (pointerPast a s).alerts = s.alerts ∧
      (pointerPast a s).events = s.events ∧ (pointerPast a s).staging = s.staging ∧
      (pointerPast a s).deferred = s.deferred ∧ (pointerPast a s).frontEnd = s.frontEnd ∧
      (pointerPast a s).inReset = s.inReset ∧ (pointerPast a s).freeIndex = s.freeIndex ∧
      (pointerPast a s).pins = s.pins ∧ (pointerPast a s).pending = s.pending := by
  simp [pointerPast]

@[simp] theorem hostView_recordOutcome (c : Byte) (r : Reply) (s : State) :
    hostView (recordOutcome c r s) = hostView s := rfl

/-- R171, R173: the row of a code written to COMMAND issues that code. -/
theorem exec_ofCode {v : Byte} (h : takesWrite 0x18 s) :
    exec (Instr.ofCode v) s = .next (issueCode v (pointerPast 0x18 s)) := by
  by_cases hc : assignedCode v = true
  · have taken : ∀ (c : Byte) (e : State → State),
        Host.Outcome.next (φ := Fault) (ρ := Refusal) (dataByte 0x18 c e s) = .next (e (pointerPast 0x18 s)) :=
      fun c e => by rw [dataByte_taken h]
    simp [assignedCode] at hc
    rcases hc with rfl | rfl | rfl | rfl | rfl | rfl | rfl | rfl | rfl | rfl | rfl | rfl | rfl | rfl | rfl | rfl | rfl
    all_goals exact taken _ _
  · have hu : Instr.ofCode v = .unknownCommand v := by
      simp [assignedCode] at hc
      simp [Instr.ofCode, hc]
    rw [hu]
    exact congrArg Host.Outcome.next (dataByte_taken h)

/-- R164, R168: the row of a register write at the pointer is that write. -/
theorem exec_ofRegisterWrite {p v : Byte} (h : takesWrite p s) :
    exec (Instr.ofRegisterWrite p v) s = .next (registerWrite p v (pointerPast p s)) := by
  unfold Instr.ofRegisterWrite
  by_cases hc : p = 0x18#8
  · subst hc
    rw [if_pos rfl, exec_ofCode h]
    simp [registerWrite]
  · rw [if_neg hc]
    repeat' split
    all_goals (try subst p)
    all_goals refine congrArg Host.Outcome.next ((dataByte_taken h).trans ?_)
    all_goals simp [registerWrite, *]

/-- A byte above 15 names no channel. -/
theorem channelOf_none {b : Byte} (h : 16 ≤ b.toNat) : channelOf b = none := by simp [channelOf, h]

theorem channelOf_some {b : Byte} {ch : ChannelId} (h : b.toNat = ch.val) : channelOf b = some ch := by
  have := ch.isLt
  simp [channelOf, h]

/-! ### Selections that are not made -/

/-- R94: no selection while the Sequencer is busy or not available, or while the Arbiter is stalled. -/
theorem select_none (h : arbiterReady s = false ∨ s.queue.stalled = true) : select s = s := by
  unfold select
  rw [if_neg]
  rcases h with h | h <;> simp [h]

theorem retry_none (h : arbiterReady s = false ∨ s.queue.stalled = false) : retry s = s := by
  unfold retry
  rw [if_neg]
  rcases h with h | h <;> simp [h]

/-- An empty queue selects nothing. -/
theorem arbitrate_empty (h : s.queue.jobs = []) : arbitrate s = s := by simp [arbitrate, selectJob, h]

theorem select_empty (h : s.queue.jobs = []) : select s = s := by
  unfold select
  split
  · exact arbitrate_empty h
  · rfl

/-! ### Selections that are granted or refused -/

/-- R96, R148: with a free slot the selected job starts, with the slot reserved. -/
theorem arbitrate_granted {q : QueuedJob} {rest : List QueuedJob} (hq : selectJob s.queue.jobs = some (q, rest))
    (hf : s.fifo.records.length + s.fifo.reserved < 16) :
    arbitrate s = retake (jobStart q ((s.withFifo { s.fifo with reserved := 1 }).withQueue
      { s.queue with jobs := rest, stalled := false })) := by
  have hr : reserve s = some (s.withFifo { s.fifo with reserved := 1 }) := by
    unfold reserve freeSlots Config.fifoCapacity
    rw [if_pos (by omega)]
  unfold arbitrate
  rw [hq]
  simp only [hr]
  rfl

/-- R149: over a full FIFO, OVERWRITE discards the oldest record. -/
theorem arbitrate_discards {q : QueuedJob} {rest : List QueuedJob} (hq : selectJob s.queue.jobs = some (q, rest))
    (hf : 16 ≤ s.fifo.records.length + s.fifo.reserved) (hp : s.fifo.policy = .overwrite) :
    arbitrate s = retake (jobStart q ((raise .drop (s.withFifo { s.fifo with
      records := s.fifo.records.drop 1, gapPending := true, reserved := 1 })).withQueue
        { s.queue with jobs := rest, stalled := false })) := by
  have hr : reserve s = some (raise .drop (s.withFifo { s.fifo with
      records := s.fifo.records.drop 1, gapPending := true, reserved := 1 })) := by
    unfold reserve freeSlots Config.fifoCapacity
    rw [if_neg (by omega), hp]
  unfold arbitrate
  rw [hq]
  simp only [hr]
  rfl

/-- R97: over a full FIFO, HOLD refuses: the Arbiter stalls, or stays stalled. -/
theorem arbitrate_refused {q : QueuedJob} {rest : List QueuedJob} (hq : selectJob s.queue.jobs = some (q, rest))
    (hf : 16 ≤ s.fifo.records.length + s.fifo.reserved) (hp : s.fifo.policy = .hold) :
    arbitrate s = if s.queue.stalled then s else raise .stall (s.withQueue { s.queue with stalled := true }) := by
  have hr : reserve s = none := by
    unfold reserve freeSlots Config.fifoCapacity
    rw [if_neg (by omega), hp]
  unfold arbitrate
  rw [hq]
  simp only [hr]

theorem select_made (ha : arbiterReady s = true) (hs : s.queue.stalled = false) : select s = arbitrate s := by
  rw [select, if_pos (by simp [ha, hs])]

theorem retry_made (ha : arbiterReady s = true) (hs : s.queue.stalled = true) : retry s = arbitrate s := by
  rw [retry, if_pos (by simp [ha, hs])]

/-- R94: a queue that is not empty has a job to select. -/
theorem selectJob_some {jobs : List QueuedJob} (h : jobs ≠ []) : ∃ q rest, selectJob jobs = some (q, rest) := by
  unfold selectJob
  split
  · exact ⟨_, _, rfl⟩
  · cases jobs with
    | nil => exact absurd rfl h
    | cons j rest => exact ⟨j, rest, rfl⟩

/-! ### Channels -/

theorem setChannel_get (v : Vector Channel 16) (a b : ChannelId) (x : Channel) :
    (v.set a.val x)[b.val] = if a = b then x else v[b.val] := by
  rw [Vector.getElem_set]
  simp [Fin.ext_iff]

theorem onChannel_channel (a b : ChannelId) (f : Channel → Channel) (s : State) :
    (onChannel a f s).channels[b.val] = if a = b then f s.channels[b.val] else s.channels[b.val] := by
  simp only [onChannel, State.withChannels_channels, setChannel_get]
  split
  · rename_i h; subst h; rfl
  · rfl

/-- A change of one channel leaves an item of every channel that the change leaves. -/
theorem onChannel_item {α : Type} (item : Channel → α) {a : ChannelId} {f : Channel → Channel}
    (hf : ∀ c, item (f c) = item c) (b : ChannelId) (s : State) :
    item (onChannel a f s).channels[b.val] = item s.channels[b.val] := by
  rw [onChannel_channel]
  split
  · exact hf _
  · rfl

/-- R25: marking a job leaves every item of the channels but the mark. -/
theorem markJob_item {α : Type} (item : Channel → α) (hf : ∀ (m : Bool) (c : Channel), item { c with engaged := m } = item c)
    (m : Bool) (j : InFlight) (b : ChannelId) (s : State) : item (markJob m j s).channels[b.val] = item s.channels[b.val] := by
  unfold markJob setEngaged
  split
  · exact onChannel_item item (fun c => hf m c) b s
  · exact (onChannel_item item (fun c => hf m c) b _).trans (onChannel_item item (fun c => hf m c) b s)

theorem markJob_engaged (j : InFlight) (s : State) : (markJob true j s).channels[j.channel.val].engaged = true := by
  unfold markJob setEngaged
  split
  · simp [onChannel_channel]
  · rw [onChannel_channel]
    split <;> simp [onChannel_channel]

theorem markJob_refresh_engaged {r : ChannelId} (j : InFlight) (s : State) (h : j.refresh = some r) :
    (markJob true j s).channels[r.val].engaged = true := by
  unfold markJob setEngaged
  simp [h, onChannel_channel]

/-- R43: the channel of a job that starts is engaged. -/
theorem jobStart_engaged (q : QueuedJob) (s : State) : (jobStart q s).channels[q.channel.val].engaged = true := by
  unfold jobStart
  simp only [startPhase_keeps]
  simpa only [(jobRecord_spec s q).1] using markJob_engaged (jobRecord q s) _

/-- R43: a selection leaves every item of the channels but the marks. -/
theorem jobStart_item {α : Type} (item : Channel → α) (hf : ∀ (m : Bool) (c : Channel), item { c with engaged := m } = item c)
    (q : QueuedJob) (b : ChannelId) (s : State) : item (jobStart q s).channels[b.val] = item s.channels[b.val] := by
  unfold jobStart
  simp only [startPhase_keeps]
  exact (markJob_item item hf true _ b _).trans (by simp)

theorem arbitrate_item {α : Type} (item : Channel → α) (hf : ∀ (m : Bool) (c : Channel), item { c with engaged := m } = item c)
    (b : ChannelId) (s : State) : item (arbitrate s).channels[b.val] = item s.channels[b.val] := by
  rcases arbitrate_spec s with ⟨_, he⟩ | ⟨q, rest, t, _, ht, he⟩ | ⟨q, rest, _, _, he⟩ <;> rw [he]
  · simp only [retake_keeps]
    refine (jobStart_item item hf q b _).trans ?_
    rcases reserve_spec s ht with ⟨_, rfl⟩ | ⟨_, _, rfl⟩ <;> simp
  · split <;> simp

theorem select_item {α : Type} (item : Channel → α) (hf : ∀ (m : Bool) (c : Channel), item { c with engaged := m } = item c)
    (b : ChannelId) (s : State) : item (select s).channels[b.val] = item s.channels[b.val] := by
  unfold select
  split
  · exact arbitrate_item item hf b s
  · rfl

/-! ### Flags -/

theorem flagSet_raise (f g : Flag) (s : State) : flagSet f (raise g s) = (decide (f = g) || flagSet f s) := by
  simp only [flagSet, raise, State.withEvents_events]
  generalize s.events.flags = x
  cases f <;> cases g <;> simp only [Flag.mask] <;> (revert x; decide)

theorem flagSet_of_events {t : State} (h : t.events = s.events) (f : Flag) : flagSet f t = flagSet f s := by
  simp [flagSet, h]

/-- R97, R149: a selection sets no flag but DROP and STALL. -/
theorem arbitrate_flag {f : Flag} (h1 : f ≠ .drop) (h2 : f ≠ .stall) (s : State) : flagSet f (arbitrate s) = flagSet f s := by
  rcases arbitrate_spec s with ⟨_, he⟩ | ⟨q, rest, t, _, ht, he⟩ | ⟨q, rest, _, _, he⟩ <;> rw [he]
  · rw [flagSet_of_events (s := t) (by simp)]
    rcases reserve_spec s ht with ⟨_, rfl⟩ | ⟨_, _, rfl⟩
    · exact flagSet_of_events (by simp) f
    · rw [flagSet_raise]
      simp only [h1, decide_false, Bool.false_or]
      exact flagSet_of_events (by simp) f
  · split
    · rfl
    · rw [flagSet_raise]
      simp only [h2, decide_false, Bool.false_or]
      exact flagSet_of_events (by simp) f

theorem select_flag {f : Flag} (h1 : f ≠ .drop) (h2 : f ≠ .stall) (s : State) : flagSet f (select s) = flagSet f s := by
  unfold select
  split
  · exact arbitrate_flag h1 h2 s
  · rfl

/-! ### The job end -/

theorem removeJobs_flag {f : Flag} (h : f ≠ .pass) (p : QueuedJob → Bool) (s : State) :
    flagSet f (removeJobs p s).1 = flagSet f s := by
  have hc : ∀ u : State, flagSet f (checkPassEnd u) = flagSet f u := by
    intro u
    unfold checkPassEnd passEnd
    split
    · rw [flagSet_of_events (s := raise .pass u) (by simp), flagSet_raise]
      simp [h]
    · rfl
  unfold removeJobs
  split
  · rfl
  · rw [hc]
    exact flagSet_of_events (by simp) f

/-- R37: with no deferred commit the decision at a job end changes nothing. -/
theorem decideDeferred_none (h : s.deferred = none) : decideDeferred s = s := by simp [decideDeferred, h]

/-- R30, R32, R33: what an apply leaves in the channels. -/
theorem applyCommit_channels (ch : ChannelId) (im : Image) (s : State) :
    (applyCommit ch im s).1.channels = s.channels.set ch.val { s.channels[ch.val] with
      desc := im.descriptor,
      rangeStep := if rangeReset s.channels[ch.val].desc im.descriptor then 0 else s.channels[ch.val].rangeStep,
      zone := if zoneReset s.channels[ch.val].desc im.descriptor then .unknown else s.channels[ch.val].zone } := by
  unfold applyCommit
  simp only []
  split <;> simp only [removeJobs_keeps, withdrawOffer_keeps, apply_ite State.channels, removeAlert_keeps, ite_self] <;>
    simp only [onChannel, relink_keeps, State.withChannels_channels]

theorem applyCommit_lastStatus (ch b : ChannelId) (im : Image) (s : State) :
    (applyCommit ch im s).1.channels[b.val].lastStatus = s.channels[b.val].lastStatus := by
  simp only [applyCommit_channels, setChannel_get]
  split
  · rename_i h; subst h; rfl
  · rfl

theorem decideDeferred_lastStatus (b : ChannelId) (s : State) :
    (decideDeferred s).channels[b.val].lastStatus = s.channels[b.val].lastStatus := by
  unfold decideDeferred
  split
  · rfl
  · simp only [finishWorking_keeps]
    unfold decideCommit
    split
    · simp
    · rw [applyCommit_lastStatus]
      simp

theorem quietSequencer_item {α : Type} (item : Channel → α)
    (hf : ∀ (m : Bool) (c : Channel), item { c with engaged := m } = item c) (j : InFlight) (st : JobStatus)
    (b : ChannelId) (s : State) : item (quietSequencer j st s).channels[b.val] = item s.channels[b.val] := by
  unfold quietSequencer
  simp only []
  split <;> simp [markJob_item item hf]

/-- R24, R62: the job's channel keeps the job's status as its last status. -/
theorem jobEnd_lastStatus {j : InFlight} (st : JobStatus) (h : s.seq.job = some j) :
    (jobEnd st s).channels[j.channel.val].lastStatus = st := by
  unfold jobEnd offerSequencer announceTo
  simp only [h]
  rw [select_item Channel.lastStatus (fun _ _ => rfl)]
  simp only [State.withQueue_channels]
  rw [decideDeferred_lastStatus]
  split <;> simp [lastStatusShare, onChannel_channel, announce]

/-- R30: an apply reaches no flag but PASS. -/
theorem applyCommit_flag {f : Flag} (h : f ≠ .pass) (ch : ChannelId) (im : Image) (s : State) :
    flagSet f (applyCommit ch im s).1 = flagSet f s := by
  unfold applyCommit
  simp only []
  repeat' split
  all_goals (try rw [removeJobs_flag h]); exact flagSet_of_events (by simp) f

/-- R37: a decision reaches no flag but PASS and COMMAND. -/
theorem decideDeferred_flag {f : Flag} (hp : f ≠ .pass) (hc : f ≠ .command) (s : State) :
    flagSet f (decideDeferred s) = flagSet f s := by
  unfold decideDeferred
  split
  · rfl
  · rename_i dc _
    unfold finishWorking
    rw [flagSet_raise, flagSet_of_events (State.withCmd_events _ _)]
    simp only [decideCommit]
    split
    · simp [flagSet, hc]
    · rw [applyCommit_flag hp]
      simp [flagSet, hc]

theorem zoneAfter_congr (a : Completion) {c d : Channel} (hd : c.desc = d.desc) (hz : c.zone = d.zone) :
    zoneAfter a c = zoneAfter a d := by
  unfold zoneAfter
  rw [hd, hz]

/-- R131, R137: what the Zone Monitor's share leaves. -/
theorem zoneShare_spec (a : Completion) :
    let c := s.channels[a.channel.val]
    (zoneShare a s).channels[a.channel.val].zone = zoneAfter a c ∧
    (zoneShare a s).alerts = alertedIn a.channel c.desc.alert c.zone (zoneAfter a c) a.timestamp s.alerts ∧
    ∀ f, flagSet f (zoneShare a s) = (flagSet f s || (decide (f = .alert) && (zoneAfter a c != c.zone && c.desc.alert))) := by
  unfold zoneShare alertedIn
  simp only []
  split
  · rename_i h
    refine ⟨by simp [onChannel_channel], by simp, fun f => ?_⟩
    rw [flagSet_raise, flagSet_of_events (s := s) (by simp), Bool.or_comm, bne_iff_ne.mpr h.1, h.2]
    simp
  · rename_i h
    refine ⟨by simp [onChannel_channel], by simp, fun f => ?_⟩
    rw [flagSet_of_events (s := s) (by simp)]
    have : (zoneAfter a s.channels[a.channel.val] != s.channels[a.channel.val].zone
        && s.channels[a.channel.val].desc.alert) = false := by
      rw [Bool.eq_false_iff]; intro hx; apply h; simpa using hx
    simp [this]

/-- R153, R154: what the record write does to the flags. -/
theorem fifoShare_flag (a : Completion) (z : Zone) (c : Bool) (p : ReportPolicy) (f : Flag) :
    flagSet f (fifoShare a z c p s) = (flagSet f s || (decide (f = .results) &&
      (writesRecord a c p && decide (s.fifo.watermark.toNat ≤ s.fifo.records.length + 1)))) := by
  unfold fifoShare
  simp only []
  split
  · rename_i hw
    split
    · rename_i hl
      rw [flagSet_raise, flagSet_of_events (s := s) (by simp)]
      simp at hl
      simp [hw, hl, Bool.or_comm]
    · rename_i hl
      rw [flagSet_of_events (s := s) (by simp)]
      simp at hl
      simp [hl]
  · rename_i hw
    rw [flagSet_of_events (s := s) (by simp)]
    simp [hw]

theorem countOut_flag {f : Flag} (hp : f ≠ .pass) (hc : f ≠ .command) : flagSet f (countOut s) = flagSet f s := by
  have hpass : ∀ v : State, v.events = s.events → flagSet f (checkPassEnd v) = flagSet f s := by
    intro v hv
    unfold checkPassEnd passEnd
    split
    · rw [flagSet_of_events (s := raise .pass v) (by simp), flagSet_raise]
      simpa [hp] using flagSet_of_events hv f
    · exact flagSet_of_events hv _
  unfold countOut
  simp only []
  repeat' split
  · exact hpass _ (by simp)
  · unfold completeStop finishWorking
    rw [flagSet_raise]
    simp [flagSet, hc]
  all_goals exact flagSet_of_events (by simp) _

/-- R61: no block that acts on a completion sets or clears FAULT. -/
theorem announceTo_fault (a : Completion) (s : State) : flagSet .fault (announceTo a s) = flagSet .fault s := by
  have hlast : ∀ u : State, flagSet .fault (lastStatusShare a u) = flagSet .fault u := fun u =>
    flagSet_of_events (by simp) _
  have href : flagSet .fault (referenceShare a s) = flagSet .fault s := flagSet_of_events (by simp) _
  unfold announceTo
  simp only []
  rw [decideDeferred_flag (by simp) (by simp)]
  split
  · rw [countOut_flag (by simp) (by simp), hlast, fifoShare_flag, (zoneShare_spec a).2.2, href]; simp
  · rw [hlast, fifoShare_flag, (zoneShare_spec a).2.2, href]; simp

/-- R61: a job end sets FAULT for the statuses that name a fault, and leaves it otherwise. -/
theorem jobEnd_fault {j : InFlight} (st : JobStatus) (h : s.seq.job = some j) :
    flagSet .fault (jobEnd st s) = (st.isFault || flagSet .fault s) := by
  unfold jobEnd offerSequencer
  simp only [h]
  rw [select_flag (by simp) (by simp)]
  rw [flagSet_of_events (s := announceTo (announce st j s) (quietSequencer j st s)) (by simp), announceTo_fault]
  unfold quietSequencer
  simp only []
  split
  · rename_i hf
    rw [flagSet_raise, hf]
    simp
  · rename_i hf
    have : st.isFault = false := by simpa using hf
    rw [this]
    exact flagSet_of_events (by simp) _

/-- R64: an abort leaves an item of the channels that neither the mark nor the last status reaches; the zone is one. -/
theorem jobEnd_aborted_item {α : Type} (item : Channel → α) (hm : ∀ (m : Bool) (c : Channel), item { c with engaged := m } = item c)
    (hl : ∀ (st : JobStatus) (c : Channel), item { c with lastStatus := st } = item c) (hd : s.deferred = none)
    (b : ChannelId) : item (jobEnd .aborted s).channels[b.val] = item s.channels[b.val] := by
  unfold jobEnd offerSequencer announceTo
  split
  · rfl
  · rename_i j hj
    simp only []
    rw [select_item item hm]
    simp only [State.withQueue_channels]
    have hz : ∀ u : State, item (zoneShare (announce .aborted j s) u).channels[b.val] = item u.channels[b.val] := by
      intro u
      have hz0 : ∀ c : Channel, zoneAfter (announce .aborted j s) c = c.zone := by
        intro c
        unfold zoneAfter
        split <;> rfl
      have key : item (onChannel j.channel (fun c => { c with
          zone := zoneAfter (announce .aborted j s) u.channels[j.channel.val] }) u).channels[b.val] = item u.channels[b.val] := by
        rw [onChannel_channel, hz0]
        split
        · rename_i he; subst he; rfl
        · rfl
      unfold zoneShare
      simp only []
      split
      · exact key
      · exact key
    have hlast : ∀ u : State, item (lastStatusShare (announce .aborted j s) u).channels[b.val] = item u.channels[b.val] :=
      fun u => onChannel_item item (fun c => hl .aborted c) b u
    rw [decideDeferred_none]
    · split <;> simp only [countOut_keeps, hlast, fifoShare_keeps, hz, referenceShare_keeps, quietSequencer_item item hm]
    · split <;> simp [hd]

/-- R64, R77, R78: a job that ends ABORTED or REF_FAULT tells the Reference Table nothing of its own. -/
theorem jobEnd_refs {st : JobStatus} (hst : st = .aborted ∨ st = .refFault) (hd : s.deferred = none) :
    (jobEnd st s).refs = s.refs := by
  unfold jobEnd offerSequencer announceTo
  split
  · rfl
  · rename_i j hj
    simp only []
    have hr : ∀ u : State, referenceShare (announce st j s) u = u := by
      intro u
      unfold referenceShare
      have ha : (announce st j s).status = st := rfl
      rcases hst with rfl | rfl <;> rw [ha] <;> split <;> rfl
    simp only [select_keeps, State.withQueue_refs]
    rw [decideDeferred_none]
    · split <;> simp [hr]
    · split <;> simp [hd]

/-! ### A job that ends with nothing queued -/

/-- R100: with nothing queued there is nothing to remove. -/
theorem removeJobs_empty (p : QueuedJob → Bool) (h : s.queue.jobs = []) : removeJobs p s = (s, 0) := by
  simp [removeJobs, h]

/-- R35: an apply removes jobs alone. -/
theorem applyCommit_queue_empty (ch : ChannelId) (im : Image) (h : s.queue.jobs = []) :
    (applyCommit ch im s).1.queue = s.queue := by
  unfold applyCommit
  simp only []
  split
  · rw [removeJobs_empty] <;> (split <;> simp [h])
  · split <;> simp

/-- R131: the Zone Monitor's share reaches the zone alone of a channel. -/
theorem zoneShare_item {α : Type} (item : Channel → α) (hz : ∀ (z : Zone) (c : Channel), item { c with zone := z } = item c)
    (a : Completion) (b : ChannelId) : item (zoneShare a s).channels[b.val] = item s.channels[b.val] := by
  have key : ∀ z, item (onChannel a.channel (fun c => { c with zone := z }) s).channels[b.val] = item s.channels[b.val] :=
    fun z => onChannel_item item (hz z) b s
  unfold zoneShare
  simp only []
  split <;> exact key _

theorem lastStatusShare_item {α : Type} (item : Channel → α)
    (hl : ∀ (st : JobStatus) (c : Channel), item { c with lastStatus := st } = item c) (a : Completion) (b : ChannelId) :
    item (lastStatusShare a s).channels[b.val] = item s.channels[b.val] := onChannel_item item (hl a.status) b s

theorem announceTo_queue_empty (a : Completion) (h : s.queue.jobs = []) : (announceTo a s).queue = s.queue := by
  have hdec : ∀ u : State, u.queue = s.queue → (decideDeferred u).queue = s.queue := by
    intro u hu
    unfold decideDeferred
    split
    · exact hu
    · rename_i dc _
      have hw : (u.withDeferred none).queue = s.queue := hu
      have hc : (decideCommit dc.channel dc.image (u.withDeferred none)).1.queue = s.queue := by
        unfold decideCommit
        split
        · exact hw
        · exact (applyCommit_queue_empty _ _ (by rw [hw]; exact h)).trans hw
      simpa [finishWorking] using hc
  unfold announceTo
  simp only []
  apply hdec
  split <;> simp

/-- R25, R62: no block that acts on a completion changes an engaged mark. -/
theorem announceTo_engaged (a : Completion) (b : ChannelId) :
    (announceTo a s).channels[b.val].engaged = s.channels[b.val].engaged := by
  have hdec : ∀ u : State, (decideDeferred u).channels[b.val].engaged = u.channels[b.val].engaged := by
    intro u
    unfold decideDeferred
    split
    · rfl
    · simp only [finishWorking_keeps]
      unfold decideCommit
      split
      · simp
      · simp only [applyCommit_channels, setChannel_get]
        split
        · rename_i h; subst h; simp
        · simp
  have hz : ∀ u : State, (zoneShare a u).channels[b.val].engaged = u.channels[b.val].engaged :=
    fun _ => zoneShare_item Channel.engaged (fun _ _ => rfl) a b
  have hl : ∀ u : State, (lastStatusShare a u).channels[b.val].engaged = u.channels[b.val].engaged :=
    fun _ => lastStatusShare_item Channel.engaged (fun _ _ => rfl) a b
  unfold announceTo
  simp only []
  rw [hdec]
  split <;> simp only [countOut_keeps, hl, fifoShare_keeps, hz, referenceShare_keeps]

/-- R61: the marks of the job are cleared. -/
theorem quietSequencer_engaged (j : InFlight) (st : JobStatus) (b : ChannelId) (h : j.engages b = true) :
    (quietSequencer j st s).channels[b.val].engaged = false := by
  have hm : ∀ u : State, (markJob false j u).channels[b.val].engaged = false := by
    intro u
    unfold InFlight.engages at h
    unfold markJob setEngaged
    split
    · rename_i hr
      simp only [hr, Bool.or_eq_true, beq_iff_eq, reduceCtorEq, or_false] at h
      simp [onChannel_channel, h]
    · rename_i r hr
      simp only [hr, Bool.or_eq_true, beq_iff_eq, Option.some.injEq] at h
      simp only [onChannel_channel]
      split
      · rfl
      · rename_i hb
        split
        · rfl
        · rename_i hc
          rcases h with h | h
          · exact absurd h.symm (by simpa [eq_comm] using hc)
          · exact absurd h.symm (by simpa [eq_comm] using hb)
  unfold quietSequencer
  simp only []
  split <;> simp [hm]

/-- R63: with nothing queued the offered Sequencer is not taken. -/
theorem jobEnd_empty {j : InFlight} (st : JobStatus) (hj : s.seq.job = some j) (hq : s.queue.jobs = []) :
    jobEnd st s = (announceTo (announce st j s) (quietSequencer j st s)).withQueue { s.queue with available := true } := by
  have h : (announceTo (announce st j s) (quietSequencer j st s)).queue = s.queue := by
    rw [announceTo_queue_empty _ (by simpa using hq)]; simp
  unfold jobEnd offerSequencer
  simp only [hj]
  rw [select_empty (by simpa [h] using hq), h]

/-- R151, R152: the record of a completion, or the release of its reservation. -/
theorem fifoShare_fifo (a : Completion) (z : Zone) (c : Bool) (p : ReportPolicy) :
    (fifoShare a z c p s).fifo = recordedIn (writesRecord a c p) (recordOf a z s.fifo) s.fifo := by
  unfold fifoShare recordedIn
  simp only []
  repeat' split
  all_goals simp_all

/-- R62, R146, R151, R152: the Result FIFO after a completion. -/
theorem announceTo_recorded (a : Completion) :
    let c := s.channels[a.channel.val]
    (announceTo a s).fifo = recordedIn (writesRecord a (decide (zoneAfter a c ≠ c.zone)) c.desc.policy)
      (recordOf a (zoneAfter a c) s.fifo) s.fifo := by
  unfold announceTo
  simp only []
  split <;> simp [fifoShare_fifo]

/-- R61, R63, R152: a job that ends with nothing queued leaves the Sequencer. -/
theorem jobEnd_over {j : InFlight} (st : JobStatus) (hj : s.seq.job = some j) (hq : s.queue.jobs = []) :
    jobOver j s (jobEnd st s) := by
  rw [jobEnd_empty st hj hq]
  refine ⟨?_, rfl, ?_, ?_, ?_⟩
  · simp [Sequencer.quiet]
  · simp only [State.withQueue_frontEnd, announceTo_keeps]
    unfold quietSequencer clampRequest
    cases h : s.frontEnd <;> simp only [State.withSeq_frontEnd, h] <;> split <;> simp [h]
  · intro ch h
    simp [announceTo_engaged, quietSequencer_engaged j st ch h]
  · rw [State.withQueue_fifo, announceTo_recorded]
    simp only [recordedIn]
    split <;> rfl

/-- R151: when a job that did not end OK writes its record; the FAULT-only policy takes ABORTED too. -/
theorem writesRecord_failed {st : JobStatus} (j : InFlight) (h : st ≠ .ok) (hn : st ≠ .none) (changed : Bool)
    (p : ReportPolicy) : writesRecord (announce st j s) changed p =
      (j.tag.isDirect || p == .always || p == .onFault || (p == .onZoneChange && changed)) := by
  have ht : (announce st j s).tag = j.tag := rfl
  have hs : (announce st j s).status = st := rfl
  unfold writesRecord
  rw [ht, hs]
  cases j.tag <;> cases p <;> simp [JobTag.isDirect]
  cases st <;> simp [JobStatus.isFault] at h hn ⊢

/-- R54, R56, R59, R155: the record of a job that did not end OK. -/
theorem recordOf_failed {st : JobStatus} (j : InFlight) (h : st ≠ .ok) (z : Zone) :
    recordOf (announce st j s) z s.fifo = failedRecord st z j s := by
  simp [recordOf, announce, failedRecord, h]

/-- R62, R146, R151, R152: the record of a job that ends with nothing queued. -/
theorem jobEnd_recorded {j : InFlight} (st : JobStatus) (hj : s.seq.job = some j) (hq : s.queue.jobs = []) :
    let a := announce st j s
    let c := s.channels[j.channel.val]
    (jobEnd st s).fifo = recordedIn (writesRecord a (decide (zoneAfter a c ≠ c.zone)) c.desc.policy)
      (recordOf a (zoneAfter a c) s.fifo) s.fifo := by
  rw [jobEnd_empty st hj hq]
  have hd := quietSequencer_item Channel.desc (fun _ _ => rfl) j st j.channel s
  have hz := quietSequencer_item Channel.zone (fun _ _ => rfl) j st j.channel s
  have hza : zoneAfter (announce st j s) (quietSequencer j st s).channels[j.channel.val] =
      zoneAfter (announce st j s) s.channels[j.channel.val] := by
    unfold zoneAfter; rw [hd, hz]
  have h := announceTo_recorded (s := quietSequencer j st s) (announce st j s)
  have hf : (quietSequencer j st s).fifo = s.fifo := by simp
  simp only [show (announce st j s).channel = j.channel from rfl, hza, hd, hz, hf] at h
  exact h

/-! ### The shares of a completion, where no commit waits -/

/-- R62: the blocks' shares of a completion with no deferred commit, before the pass count. -/
theorem jobEnd_shares {j : InFlight} (st : JobStatus) (hj : s.seq.job = some j) (hd : s.deferred = none) :
    let a := announce st j s
    let q := quietSequencer j st s
    let z := zoneAfter a q.channels[j.channel.val]
    let u := lastStatusShare a (fifoShare a z (decide (z ≠ q.channels[j.channel.val].zone))
      q.channels[j.channel.val].desc.policy (zoneShare a (referenceShare a q)))
    jobEnd st s = offerSequencer (if j.tag.isScan then countOut u else u) := by
  unfold jobEnd announceTo
  simp only [hj]
  rw [decideDeferred_none]
  · rfl
  · split <;> simp [hd]

/-- R62, R131, R137: the zone and the alert list a job end leaves where no commit waits. -/
theorem jobEnd_zone {j : InFlight} (st : JobStatus) (hj : s.seq.job = some j) (hd : s.deferred = none) :
    let c := s.channels[j.channel.val]
    let z := zoneAfter (announce st j s) c
    (jobEnd st s).channels[j.channel.val].zone = z ∧
    (jobEnd st s).alerts = alertedIn j.channel c.desc.alert c.zone z s.timebase.stamp s.alerts ∧
    flagSet .alert (jobEnd st s) = (flagSet .alert s || (z != c.zone && c.desc.alert)) := by
  have hqd := quietSequencer_item Channel.desc (fun _ _ => rfl) j st j.channel s
  have hqz := quietSequencer_item Channel.zone (fun _ _ => rfl) j st j.channel s
  have hza := zoneAfter_congr (announce st j s) hqd hqz
  have hqf : flagSet .alert (quietSequencer j st s) = flagSet .alert s := by
    unfold quietSequencer; simp only []; split
    · rw [flagSet_raise]; simp [flagSet]
    · exact flagSet_of_events (by simp) _
  have hz := zoneShare_spec (s := referenceShare (announce st j s) (quietSequencer j st s)) (announce st j s)
  simp only [show (announce st j s).channel = j.channel from rfl, referenceShare_keeps, hqd, hqz, hza,
    show (announce st j s).timestamp = s.timebase.stamp from rfl] at hz
  rw [jobEnd_shares st hj hd]
  unfold offerSequencer
  refine ⟨?_, ?_, ?_⟩
  · rw [select_item Channel.zone (fun _ _ => rfl)]
    simp only [State.withQueue_channels]
    split <;> simp only [countOut_keeps, lastStatusShare_item Channel.zone (fun _ _ => rfl), fifoShare_keeps, hz.1]
  · simp only [select_keeps, State.withQueue_alerts]
    split <;> simp [hz.2.1]
  · rw [select_flag (by simp) (by simp), flagSet_of_events (State.withQueue_events _ _)]
    have hl : ∀ u : State, flagSet .alert (lastStatusShare (announce st j s) u) = flagSet .alert u := fun u =>
      flagSet_of_events (by simp) _
    have hr : flagSet .alert (referenceShare (announce st j s) (quietSequencer j st s)) =
        flagSet .alert (quietSequencer j st s) := flagSet_of_events (by simp) _
    split
    · rw [countOut_flag (by simp) (by simp), hl, fifoShare_flag, hz.2.2, hr, hqf]; simp
    · rw [hl, fifoShare_flag, hz.2.2, hr, hqf]; simp

/-- R152, R154: RESULTS after a job end with nothing queued. -/
theorem jobEnd_results {j : InFlight} (st : JobStatus) (hj : s.seq.job = some j) (hq : s.queue.jobs = []) :
    let a := announce st j s
    let c := s.channels[j.channel.val]
    flagSet .results (jobEnd st s) = (flagSet .results s || (writesRecord a (decide (zoneAfter a c ≠ c.zone)) c.desc.policy &&
      decide (s.fifo.watermark.toNat ≤ s.fifo.records.length + 1))) := by
  have hqd := quietSequencer_item Channel.desc (fun _ _ => rfl) j st j.channel s
  have hqz := quietSequencer_item Channel.zone (fun _ _ => rfl) j st j.channel s
  have hza := zoneAfter_congr (announce st j s) hqd hqz
  have hqf : flagSet .results (quietSequencer j st s) = flagSet .results s := by
    unfold quietSequencer; simp only []; split
    · rw [flagSet_raise]; simp [flagSet]
    · exact flagSet_of_events (by simp) _
  have hz := (zoneShare_spec (s := referenceShare (announce st j s) (quietSequencer j st s)) (announce st j s)).2.2 .results
  have hr : flagSet .results (referenceShare (announce st j s) (quietSequencer j st s)) =
      flagSet .results (quietSequencer j st s) := flagSet_of_events (by simp) _
  have hl : ∀ u : State, flagSet .results (lastStatusShare (announce st j s) u) = flagSet .results u := fun u =>
    flagSet_of_events (by simp) _
  simp only []
  rw [jobEnd_empty st hj hq, flagSet_of_events (State.withQueue_events _ _)]
  unfold announceTo
  simp only [show (announce st j s).channel = j.channel from rfl, hqd, hqz, hza]
  rw [decideDeferred_flag (by simp) (by simp)]
  split
  · rw [countOut_flag (by simp) (by simp), hl, fifoShare_flag, hz, hr, hqf]; simp
  · rw [hl, fifoShare_flag, hz, hr, hqf]; simp

/-- R76 to R78: the slots after a job end where no commit waits. -/
theorem jobEnd_slots {j : InFlight} (st : JobStatus) (hj : s.seq.job = some j) (hd : s.deferred = none) :
    (jobEnd st s).refs = (referenceShare (announce st j s) (quietSequencer j st s)).refs := by
  rw [jobEnd_shares st hj hd]
  unfold offerSequencer
  simp only [select_keeps, State.withQueue_refs]
  split <;> simp

/-- R53, R62: a job end leaves every range step where no commit waits. -/
theorem jobEnd_rangeStep {j : InFlight} (st : JobStatus) (hj : s.seq.job = some j) (hd : s.deferred = none)
    (b : ChannelId) : (jobEnd st s).channels[b.val].rangeStep = s.channels[b.val].rangeStep := by
  rw [jobEnd_shares st hj hd]
  unfold offerSequencer
  rw [select_item Channel.rangeStep (fun _ _ => rfl)]
  simp only [State.withQueue_channels]
  split <;> simp only [countOut_keeps, lastStatusShare_item Channel.rangeStep (fun _ _ => rfl), fifoShare_keeps,
    zoneShare_item Channel.rangeStep (fun _ _ => rfl), referenceShare_keeps,
    quietSequencer_item Channel.rangeStep (fun _ _ => rfl)]

end Sys2Proof.Machine
end

