-- ==== Sys2Proof/Laws/EngagedLaw.lean ====
section
/-! SUPPORT. What keeps the law of the engaged marks (R25). -/

namespace Sys2Proof.Machine

set_option linter.unusedTactic false
set_option linter.unreachableTactic false

variable {s : State}

/-- What a job engages; nothing when there is none. -/
def engagedBy (job : Option InFlight) (ch : ChannelId) : Bool :=
  match job with
  | none => false
  | some j => j.engages ch

theorem engagedLaw_of {t : State} (hi : t.seq.state = .idle → t.seq.job = none)
    (hj : ∀ ch, engagedBy t.seq.job ch = engagedBy s.seq.job ch)
    (hc : ∀ ch : ChannelId, t.channels[ch.val].engaged = s.channels[ch.val].engaged) (h : engagedLaw s) :
    engagedLaw t :=
  ⟨hi, fun ch => (hc ch).trans ((h.2 ch).trans (hj ch).symm)⟩

/-- A channel after `onChannel`. -/
theorem onChannel_get (ch ch' : ChannelId) (f : Channel → Channel) :
    (onChannel ch f s).channels[ch'.val] = if ch' = ch then f s.channels[ch.val] else s.channels[ch'.val] := by
  simp only [onChannel, State.withChannels_channels, Vector.getElem_set, Fin.ext_iff]
  by_cases hc : ch.val = ch'.val
  · simp [hc]
  · simp [hc, Ne.symm hc]

theorem markJob_get (m : Bool) (j : InFlight) (ch : ChannelId) :
    (markJob m j s).channels[ch.val].engaged = if j.engages ch then m else s.channels[ch.val].engaged := by
  unfold markJob InFlight.engages setEngaged
  cases hr : j.refresh with
  | none =>
    simp only [onChannel_get]
    by_cases hc : ch = j.channel <;> simp [hc]
  | some r =>
    simp only [onChannel_get]
    by_cases hc : ch = r
    · subst hc; simp
    · by_cases hc' : ch = j.channel
      · subst hc'; simp [hc]
      · simp [hc, hc', Ne.symm hc]

/-- The Sequencer's record changed, the job engaging what it engaged. -/
theorem engagedLaw_withSeq {x : Sequencer} (h : engagedLaw s) (hi : x.state = .idle → x.job = none)
    (hj : ∀ ch, engagedBy x.job ch = engagedBy s.seq.job ch) : engagedLaw (s.withSeq x) :=
  engagedLaw_of (s := s) hi hj (fun _ => rfl) h

theorem engagedLaw_withWork (w : Working) (h : engagedLaw s) : engagedLaw (s.withSeq { s.seq with work := w }) := h

/-- R25: once the marks of the job are cleared, none is left. -/
theorem engagedLaw_cleared {j : InFlight} (hj : s.seq.job = some j) (h : engagedLaw s) (ch : ChannelId) :
    (markJob false j s).channels[ch.val].engaged = false := by
  rw [markJob_get, h.2 ch, hj]
  simp only []
  cases j.engages ch <;> simp

theorem engagedLaw_withPending (x : List Instr) (h : engagedLaw s) : engagedLaw (s.withPending x) := h
theorem engagedLaw_withInReset (x : Bool) (h : engagedLaw s) : engagedLaw (s.withInReset x) := h
theorem engagedLaw_withFrontEnd (x : FrontEnd) (h : engagedLaw s) : engagedLaw (s.withFrontEnd x) := h
theorem engagedLaw_withTimebase (x : Timebase) (h : engagedLaw s) : engagedLaw (s.withTimebase x) := h
theorem engagedLaw_withStaging (x : Vector Byte 32) (h : engagedLaw s) : engagedLaw (s.withStaging x) := h
theorem engagedLaw_withDeferred (x : Option DeferredCommit) (h : engagedLaw s) : engagedLaw (s.withDeferred x) := h
theorem engagedLaw_withRefs (x : Vector RefSlot 4) (h : engagedLaw s) : engagedLaw (s.withRefs x) := h
theorem engagedLaw_withQueue (x : JobQueue) (h : engagedLaw s) : engagedLaw (s.withQueue x) := h
theorem engagedLaw_withScan (x : ScanController) (h : engagedLaw s) : engagedLaw (s.withScan x) := h
theorem engagedLaw_withAlerts (x : AlertList) (h : engagedLaw s) : engagedLaw (s.withAlerts x) := h
theorem engagedLaw_withFifo (x : ResultFifo) (h : engagedLaw s) : engagedLaw (s.withFifo x) := h
theorem engagedLaw_withPort (x : SerialPort) (h : engagedLaw s) : engagedLaw (s.withPort x) := h
theorem engagedLaw_withCmd (x : CommandPort) (h : engagedLaw s) : engagedLaw (s.withCmd x) := h
theorem engagedLaw_withEvents (x : EventUnit) (h : engagedLaw s) : engagedLaw (s.withEvents x) := h
theorem engagedLaw_withPins (x : InputPins) (h : engagedLaw s) : engagedLaw (s.withPins x) := h
theorem engagedLaw_withFreeIndex (x : Nat) (h : engagedLaw s) : engagedLaw (s.withFreeIndex x) := h

theorem engagedLaw_raise (f : Flag) (h : engagedLaw s) : engagedLaw (raise f s) := by
  simpa [engagedLaw] using h
theorem engagedLaw_clampRequest (h : engagedLaw s) : engagedLaw (clampRequest s) := by
  simpa [engagedLaw] using h
theorem engagedLaw_runRequest (p : PinId) (h : engagedLaw s) : engagedLaw (runRequest p s) := by
  simpa [engagedLaw] using h
theorem engagedLaw_onChannel (ch : ChannelId) (f : Channel → Channel) (h : engagedLaw s) (hf : ∀ c, (f c).engaged = c.engaged) :
    engagedLaw (onChannel ch f s) := by
  refine engagedLaw_of (s := s) h.1 (fun _ => rfl) (fun ch' => ?_) h
  rw [onChannel_get]
  split
  · rename_i he; rw [he, hf]
  · rfl
theorem engagedLaw_onSlot (ch : ChannelId) (f : RefSlot → RefSlot) (h : engagedLaw s) :
    engagedLaw (onSlot ch f s) := by
  simpa [engagedLaw] using h
theorem engagedLaw_invalidateAll (h : engagedLaw s) : engagedLaw (invalidateAll s) := by
  simpa [engagedLaw] using h
theorem engagedLaw_recordOutcome (c : Byte) (r : Reply) (h : engagedLaw s) : engagedLaw (recordOutcome c r s) := by
  simpa [engagedLaw] using h
theorem engagedLaw_collide (h : engagedLaw s) : engagedLaw (collide s) := by
  simpa [engagedLaw] using h
theorem engagedLaw_finishWorking (r : Reply) (h : engagedLaw s) : engagedLaw (finishWorking r s) := by
  simpa [engagedLaw] using h
theorem engagedLaw_startPhase (ch : ChannelId) (h : engagedLaw s) : engagedLaw (startPhase ch s) := by
  refine engagedLaw_of (s := s) (by simp) (by simp) (by simp) h
theorem engagedLaw_enterArm (h : engagedLaw s) : engagedLaw (enterArm s) := engagedLaw_withSeq h (by simp) (fun _ => rfl)
theorem engagedLaw_enterSettle (h : engagedLaw s) : engagedLaw (enterSettle s) := by
  unfold enterSettle
  have h1 : engagedLaw (runRequest s.seq.work.pin
      (s.withSeq { s.seq with state := .settle, work := { s.seq.work with settleCount := 0 } })) :=
    engagedLaw_runRequest _ (engagedLaw_withSeq h (by simp) (fun _ => rfl))
  simp only []
  split
  · exact engagedLaw_enterArm h1
  · exact h1
theorem engagedLaw_startSample (h : engagedLaw s) : engagedLaw (startSample s) := engagedLaw_withSeq h (by simp) (fun _ => rfl)
theorem engagedLaw_decideOffer (n : Nat) (ch : ChannelId) (h : engagedLaw s) : engagedLaw (decideOffer n ch s) := by
  simpa [engagedLaw] using h
theorem engagedLaw_retakeOffer (h : engagedLaw s) : engagedLaw (retakeOffer s) := by
  simpa [engagedLaw] using h
theorem engagedLaw_retake (h : engagedLaw s) : engagedLaw (retake s) := by
  simpa [engagedLaw] using h
theorem engagedLaw_jobStart (q : QueuedJob) (h : engagedLaw s) (hn : s.seq.job = none) :
    engagedLaw (jobStart q s) := by
  refine ⟨by simp, fun ch => ?_⟩
  have hc : (jobStart q s).channels[ch.val].engaged = if (jobRecord q s).engages ch then true else s.channels[ch.val].engaged := by
    unfold jobStart
    simp only [startPhase_keeps]
    rw [markJob_get]; rfl
  have h0 := h.2 ch
  simp only [hn] at h0
  rw [hc, h0, jobStart_job]
  cases hq : (jobRecord q s).engages ch <;> simp [hq]
theorem engagedLaw_arbitrate (h : engagedLaw s) (hr : arbiterReady s = true) : engagedLaw (arbitrate s) := by
  have hn : s.seq.job = none := h.1 (arbiterReady_spec s hr).1
  rcases arbitrate_spec s with ⟨_, he⟩ | ⟨q, rest, t, _, ht, he⟩ | ⟨q, rest, _, _, he⟩ <;> rw [he]
  · exact h
  · apply engagedLaw_retake
    rcases reserve_spec s ht with ⟨hf, rfl⟩ | ⟨hf, _, rfl⟩
    · exact engagedLaw_jobStart _ h hn
    · exact engagedLaw_jobStart _ h hn
  · split <;> exact h
theorem engagedLaw_select (h : engagedLaw s) : engagedLaw (select s) := by
  unfold select
  split
  · rename_i hc
    simp only [Bool.and_eq_true] at hc
    exact engagedLaw_arbitrate h hc.1
  · exact h
theorem engagedLaw_retry (h : engagedLaw s) : engagedLaw (retry s) := by
  unfold retry
  split
  · rename_i hc
    simp only [Bool.and_eq_true] at hc
    exact engagedLaw_arbitrate h hc.1
  · exact h
theorem engagedLaw_applySwap (h : engagedLaw s) : engagedLaw (applySwap s) := by
  simpa [engagedLaw] using h
theorem engagedLaw_closePass (h : engagedLaw s) : engagedLaw (closePass s) := by
  simpa [engagedLaw] using h
theorem engagedLaw_passEnd (h : engagedLaw s) : engagedLaw (passEnd s) := by
  simpa [engagedLaw] using h
theorem engagedLaw_checkPassEnd (h : engagedLaw s) : engagedLaw (checkPassEnd s) := by
  simpa [engagedLaw] using h
theorem engagedLaw_offer (n : Nat) (ch : ChannelId) (h : engagedLaw s) : engagedLaw (offer n ch s) := by
  unfold offer
  try simp only []
  repeat' split
  all_goals with_reducible repeat (first | exact h | apply engagedLaw_decideOffer | apply engagedLaw_select)
theorem engagedLaw_moveOnto (n : Nat) (h : engagedLaw s) : engagedLaw (moveOnto n s) := by
  unfold moveOnto
  try simp only []
  repeat' split
  all_goals with_reducible repeat (first | exact h | apply engagedLaw_withScan | apply engagedLaw_checkPassEnd | apply engagedLaw_offer)
theorem engagedLaw_cursorMove (h : engagedLaw s) : engagedLaw (cursorMove s) := by
  unfold cursorMove
  try simp only []
  repeat' split
  all_goals with_reducible repeat (first | exact h | apply engagedLaw_moveOnto)
theorem engagedLaw_passStart (h : engagedLaw s) : engagedLaw (passStart s) := by
  unfold passStart
  try simp only []
  repeat' split
  all_goals with_reducible repeat (first | exact h | apply engagedLaw_withScan | apply engagedLaw_moveOnto)
theorem engagedLaw_overrun (h : engagedLaw s) : engagedLaw (overrun s) := by
  simpa [engagedLaw] using h
theorem engagedLaw_passDue (h : engagedLaw s) : engagedLaw (passDue s) := by
  unfold passDue
  try simp only []
  repeat' split
  all_goals with_reducible repeat (first | exact h | apply engagedLaw_passStart | apply engagedLaw_overrun)
theorem engagedLaw_expiry (h : engagedLaw s) : engagedLaw (expiry s) := by
  unfold expiry
  try simp only []
  repeat' split
  all_goals with_reducible repeat (first | exact h | apply engagedLaw_withScan | apply engagedLaw_passDue)
theorem engagedLaw_timerTick (h : engagedLaw s) : engagedLaw (timerTick s) := by
  unfold timerTick
  try simp only []
  repeat' split
  all_goals with_reducible repeat (first | exact h | apply engagedLaw_withScan | apply engagedLaw_expiry)
theorem engagedLaw_qualifiedEdge (l : Bool) (h : engagedLaw s) : engagedLaw (qualifiedEdge l s) := by
  unfold qualifiedEdge
  try simp only []
  repeat' split
  all_goals with_reducible repeat (first | exact h | apply engagedLaw_withScan | apply engagedLaw_passDue)
theorem engagedLaw_trigSample (h : engagedLaw s) : engagedLaw (trigSample s) := by
  unfold trigSample
  try simp only []
  repeat' split
  all_goals with_reducible repeat (first | exact h | apply engagedLaw_withScan | apply engagedLaw_qualifiedEdge)
theorem engagedLaw_dropJobs (p : QueuedJob → Bool) (h : engagedLaw s) : engagedLaw (dropJobs p s) := by
  simpa [engagedLaw] using h
theorem engagedLaw_clearStallIfEmpty (h : engagedLaw s) : engagedLaw (clearStallIfEmpty s) := by
  simpa [engagedLaw] using h
theorem engagedLaw_removeJobs (p : QueuedJob → Bool) (h : engagedLaw s) : engagedLaw (removeJobs p s).1 := by
  simpa [engagedLaw] using h
theorem engagedLaw_completeStop (h : engagedLaw s) : engagedLaw (completeStop s) := by
  simpa [engagedLaw] using h
theorem engagedLaw_countOut (h : engagedLaw s) : engagedLaw (countOut s) := by
  simpa [engagedLaw] using h
theorem engagedLaw_relink (ch : ChannelId) (a b : Descriptor) (h : engagedLaw s) : engagedLaw (relink ch a b s) := by
  simpa [engagedLaw] using h
theorem engagedLaw_removeAlert (ch : ChannelId) (h : engagedLaw s) : engagedLaw (removeAlert ch s) := by
  simpa [engagedLaw] using h
theorem engagedLaw_withdrawOffer (ch : ChannelId) (h : engagedLaw s) : engagedLaw (withdrawOffer ch s) := by
  simpa [engagedLaw] using h
theorem engagedLaw_applyCommit (ch : ChannelId) (im : Image) (h : engagedLaw s) :
    engagedLaw (applyCommit ch im s).1 := by
  unfold applyCommit
  simp only []
  repeat' split
  all_goals with_reducible repeat (first | exact h | apply engagedLaw_removeJobs | apply engagedLaw_withdrawOffer | apply engagedLaw_removeAlert | apply engagedLaw_onChannel | apply engagedLaw_relink)
  all_goals (intro _; rfl)
theorem engagedLaw_decideCommit (ch : ChannelId) (im : Image) (h : engagedLaw s) :
    engagedLaw (decideCommit ch im s).1 := by
  unfold decideCommit
  try simp only []
  repeat' split
  all_goals with_reducible repeat (first | exact h | apply engagedLaw_applyCommit)
theorem engagedLaw_decideDeferred (h : engagedLaw s) : engagedLaw (decideDeferred s) := by
  unfold decideDeferred
  try simp only []
  repeat' split
  all_goals with_reducible repeat (first | exact h | apply engagedLaw_withDeferred | apply engagedLaw_finishWorking | apply engagedLaw_decideCommit)
theorem engagedLaw_referenceShare (a : Completion) (h : engagedLaw s) : engagedLaw (referenceShare a s) := by
  simpa [engagedLaw] using h
theorem engagedLaw_zoneShare (a : Completion) (h : engagedLaw s) : engagedLaw (zoneShare a s) := by
  unfold zoneShare
  simp only []
  split
  · exact engagedLaw_raise _ (engagedLaw_withAlerts _ (engagedLaw_onChannel _ _ h (fun _ => rfl)))
  · exact engagedLaw_onChannel _ _ h (fun _ => rfl)
theorem engagedLaw_fifoShare (a : Completion) (z : Zone) (c : Bool) (p : ReportPolicy) (h : engagedLaw s) :
    engagedLaw (fifoShare a z c p s) := by
  simpa [engagedLaw] using h
theorem engagedLaw_lastStatusShare (a : Completion) (h : engagedLaw s) : engagedLaw (lastStatusShare a s) := engagedLaw_onChannel _ _ h (fun _ => rfl)
theorem engagedLaw_quietSequencer (j : InFlight) (st : JobStatus) (h : engagedLaw s) (hj : s.seq.job = some j) :
    engagedLaw (quietSequencer j st s) := by
  have key : ∀ ch : ChannelId, (quietSequencer j st s).channels[ch.val].engaged = false := by
    intro ch
    have := engagedLaw_cleared hj h ch
    unfold quietSequencer
    simp only []
    split <;> simpa [markJob_get] using this
  exact ⟨by simp [Sequencer.quiet], fun ch => by rw [key ch]; simp [Sequencer.quiet]⟩
theorem engagedLaw_announceTo (a : Completion) (h : engagedLaw s) : engagedLaw (announceTo a s) := by
  unfold announceTo
  try simp only []
  repeat' split
  all_goals with_reducible repeat (first | exact h | apply engagedLaw_countOut | apply engagedLaw_decideDeferred | apply engagedLaw_referenceShare | apply engagedLaw_zoneShare | apply engagedLaw_fifoShare | apply engagedLaw_lastStatusShare)
theorem engagedLaw_offerSequencer (h : engagedLaw s) : engagedLaw (offerSequencer s) := engagedLaw_select h
theorem engagedLaw_jobEnd (st : JobStatus) (h : engagedLaw s) : engagedLaw (jobEnd st s) := by
  unfold jobEnd
  split
  · exact h
  · rename_i j hj
    exact engagedLaw_offerSequencer (engagedLaw_announceTo _ (engagedLaw_quietSequencer j st h hj))
theorem engagedLaw_abortJob (h : engagedLaw s) : engagedLaw (abortJob s).1 := by
  unfold abortJob
  try simp only []
  repeat' split
  all_goals with_reducible repeat (first | exact h | apply engagedLaw_jobEnd)
theorem engagedLaw_phaseEnd (pe : PhaseEnd) (h : engagedLaw s) : engagedLaw (phaseEnd pe s) := by
  unfold phaseEnd
  simp only []
  split
  · exact h
  · rename_i j hj
    have hi : s.seq.state ≠ .idle := fun h0 => by rw [h.1 h0] at hj; cases hj
    have h1 : ∀ f : Channel → Channel, (∀ c, (f c).engaged = c.engaged) → engagedLaw (onChannel j.measured f s) :=
      fun f hf => engagedLaw_onChannel _ _ h hf
    repeat' split
    · exact engagedLaw_jobEnd _ (h1 _ (fun _ => rfl))
    · refine engagedLaw_startPhase _ (engagedLaw_withSeq (engagedLaw_onSlot _ _ (h1 _ (fun _ => rfl))) ?_ ?_)
      · intro h0; exact absurd h0 hi
      · intro ch; simp [hj, engagedBy, InFlight.engages]
    all_goals exact engagedLaw_jobEnd _ (engagedLaw_onSlot _ _ (h1 _ (fun _ => rfl)))
theorem engagedLaw_sampleComplete (h : engagedLaw s) : engagedLaw (sampleComplete s) := by
  unfold sampleComplete
  simp only []
  repeat' split
  all_goals first
    | exact engagedLaw_phaseEnd _ h
    | exact engagedLaw_phaseEnd _ (engagedLaw_withWork _ h)
    | exact engagedLaw_enterArm (engagedLaw_withWork _ h)
theorem engagedLaw_overflowed (h : engagedLaw s) : engagedLaw (overflowed s) := by
  unfold overflowed
  simp only []
  split
  · refine engagedLaw_enterArm (engagedLaw_runRequest _ (engagedLaw_withSeq h ?_ ?_))
    · intro h0; simp only [h.1 h0, Option.map_none]
    · intro ch; cases hj : s.seq.job <;> simp [engagedBy, InFlight.engages]
  · exact engagedLaw_phaseEnd _ h
theorem engagedLaw_sequencerTb (h : engagedLaw s) : engagedLaw (sequencerTb s) := by
  unfold sequencerTb
  simp only []
  repeat' split
  all_goals first
    | exact h
    | exact engagedLaw_withWork _ h
    | exact engagedLaw_startSample h
    | exact engagedLaw_enterSettle (engagedLaw_withWork _ h)
    | exact engagedLaw_enterArm (engagedLaw_withWork _ h)
    | exact engagedLaw_phaseEnd _ (engagedLaw_withWork _ h)
    | exact engagedLaw_sampleComplete (engagedLaw_withWork _ h)
    | exact engagedLaw_overflowed h
theorem engagedLaw_sequencerSlow (h : engagedLaw s) : engagedLaw (sequencerSlow s) := by
  unfold sequencerSlow
  simp only []
  repeat' split
  all_goals first
    | exact h
    | exact engagedLaw_withWork _ h
    | exact engagedLaw_startSample h
    | exact engagedLaw_enterSettle (engagedLaw_withWork _ h)
    | exact engagedLaw_enterArm (engagedLaw_withWork _ h)
    | exact engagedLaw_phaseEnd _ (engagedLaw_withWork _ h)
    | exact engagedLaw_sampleComplete (engagedLaw_withWork _ h)
    | exact engagedLaw_overflowed h
theorem engagedLaw_sequencerEdge (h : engagedLaw s) : engagedLaw (sequencerEdge s) := by
  unfold sequencerEdge
  simp only []
  repeat' split
  all_goals first
    | exact h
    | exact engagedLaw_withWork _ h
    | exact engagedLaw_startSample h
    | exact engagedLaw_enterSettle (engagedLaw_withWork _ h)
    | exact engagedLaw_enterArm (engagedLaw_withWork _ h)
    | exact engagedLaw_phaseEnd _ (engagedLaw_withWork _ h)
    | exact engagedLaw_sampleComplete (engagedLaw_withWork _ h)
    | exact engagedLaw_overflowed h
theorem engagedLaw_deliverEdge (c : Bool) (h : engagedLaw s) : engagedLaw (deliverEdge c s) := by
  unfold deliverEdge
  try simp only []
  repeat' split
  all_goals with_reducible repeat (first | exact h | apply engagedLaw_withFreeIndex | apply engagedLaw_sequencerEdge)
theorem engagedLaw_oscillatorEdge (c : Bool) (h : engagedLaw s) : engagedLaw (oscillatorEdge c s) := by
  rw [oscillatorEdge_spec]
  try simp only []
  repeat' split
  all_goals with_reducible repeat (first | exact h | apply engagedLaw_withFrontEnd | apply engagedLaw_deliverEdge)
theorem engagedLaw_nodeMoves (h : engagedLaw s) : engagedLaw (nodeMoves s) := by
  simpa [engagedLaw] using h
theorem engagedLaw_stampTick (h : engagedLaw s) : engagedLaw (stampTick s) := by
  unfold stampTick
  try simp only []
  repeat' split
  all_goals with_reducible repeat (first | exact h | apply engagedLaw_withTimebase)
theorem engagedLaw_ageTick (h : engagedLaw s) : engagedLaw (ageTick s) := by
  unfold ageTick
  try simp only []
  repeat' split
  all_goals with_reducible repeat (first | exact h | apply engagedLaw_withRefs)
theorem engagedLaw_scanSlow (h : engagedLaw s) : engagedLaw (scanSlow s) := by
  unfold scanSlow
  try simp only []
  repeat' split
  all_goals with_reducible repeat (first | exact h | apply engagedLaw_timerTick | apply engagedLaw_trigSample)
theorem engagedLaw_slowShare (h : engagedLaw s) : engagedLaw (slowShare s) := 
  eitherOrder_ind (fun _ n h => engagedLaw_withFreeIndex n h) (engagedLaw_scanSlow (engagedLaw_ageTick (engagedLaw_stampTick h)))
    (engagedLaw_ageTick (engagedLaw_scanSlow (engagedLaw_stampTick h)))
theorem engagedLaw_sequencerShare (b : SeqState) (w : Bool) (h : engagedLaw s) :
    engagedLaw (sequencerShare b w s) := by
  unfold sequencerShare
  try simp only []
  repeat' split
  all_goals with_reducible repeat (first | exact h | apply engagedLaw_sequencerTb | apply engagedLaw_sequencerSlow)
theorem engagedLaw_cursorShare (b : Cursor) (h : engagedLaw s) : engagedLaw (cursorShare b s) := by
  unfold cursorShare
  try simp only []
  repeat' split
  all_goals with_reducible repeat (first | exact h | apply engagedLaw_cursorMove)
theorem engagedLaw_tbTick (l : Bool) (h : engagedLaw s) : engagedLaw (tbTick l s) := by
  unfold tbTick
  split
  · exact anyOrder_ind (fun _ n h => engagedLaw_withFreeIndex n h) (fun _ h => engagedLaw_sequencerShare _ _ h)
      (fun _ h => engagedLaw_cursorShare _ h) (fun _ h => by split; exacts [engagedLaw_slowShare h, h])
      (engagedLaw_withPins _ (engagedLaw_withTimebase _ h))
  · exact h
theorem engagedLaw_slowTick (l : Bool) (h : engagedLaw s) : engagedLaw (slowTick l s) := by
  unfold slowTick
  try simp only []
  repeat' split
  all_goals with_reducible repeat (first | exact h | apply engagedLaw_withTimebase | apply engagedLaw_withPins | apply engagedLaw_sequencerSlow | apply engagedLaw_slowShare)
theorem engagedLaw_refuse (r : Reason) (h : engagedLaw s) : engagedLaw (refuse r s).1 := h
theorem engagedLaw_admitDirect (ch : ChannelId) (h : engagedLaw s) : engagedLaw (admitDirect ch s).1 := by
  unfold admitDirect
  try simp only []
  repeat' split
  all_goals with_reducible repeat (first | exact h | apply engagedLaw_withQueue | apply engagedLaw_select | apply engagedLaw_refuse)
theorem engagedLaw_measureNow (h : engagedLaw s) : engagedLaw (measureNow s).1 := by
  unfold measureNow
  try simp only []
  repeat' split
  all_goals with_reducible repeat (first | exact h | apply engagedLaw_refuse | apply engagedLaw_admitDirect)
theorem engagedLaw_flushQueue (h : engagedLaw s) : engagedLaw (flushQueue s).1 := by
  unfold flushQueue
  try simp only []
  repeat' split
  all_goals with_reducible repeat (first | exact h | apply engagedLaw_removeJobs | apply engagedLaw_refuse)
theorem engagedLaw_scanStart (h : engagedLaw s) : engagedLaw (scanStart s).1 := by
  unfold scanStart
  try simp only []
  repeat' split
  all_goals with_reducible repeat (first | exact h | apply engagedLaw_withScan | apply engagedLaw_passStart | apply engagedLaw_refuse)
theorem engagedLaw_scanOnce (h : engagedLaw s) : engagedLaw (scanOnce s).1 := by
  unfold scanOnce
  try simp only []
  repeat' split
  all_goals with_reducible repeat (first | exact h | apply engagedLaw_withScan | apply engagedLaw_passStart | apply engagedLaw_refuse)
theorem engagedLaw_scanStop (h : engagedLaw s) : engagedLaw (scanStop s).1 := by
  unfold scanStop
  try simp only []
  repeat' split
  all_goals with_reducible repeat (first | exact h | apply engagedLaw_withScan | apply engagedLaw_applySwap | apply engagedLaw_removeJobs)
theorem engagedLaw_swapBanks (h : engagedLaw s) : engagedLaw (swapBanks s).1 := by
  unfold swapBanks
  try simp only []
  repeat' split
  all_goals with_reducible repeat (first | exact h | apply engagedLaw_withScan | apply engagedLaw_refuse)
theorem engagedLaw_commitChannel (h : engagedLaw s) : engagedLaw (commitChannel s).1 := by
  unfold commitChannel
  try simp only []
  repeat' split
  all_goals with_reducible repeat (first | exact h | apply engagedLaw_withDeferred | apply engagedLaw_decideCommit | apply engagedLaw_refuse)
theorem engagedLaw_fetchChannel (h : engagedLaw s) : engagedLaw (fetchChannel s).1 := by
  unfold fetchChannel
  try simp only []
  repeat' split
  all_goals with_reducible repeat (first | exact h | apply engagedLaw_withStaging | apply engagedLaw_refuse)
theorem engagedLaw_invalidateReference (h : engagedLaw s) : engagedLaw (invalidateReference s).1 := by
  unfold invalidateReference
  try simp only []
  repeat' split
  all_goals with_reducible repeat (first | exact h | apply engagedLaw_onSlot | apply engagedLaw_invalidateAll | apply engagedLaw_refuse)
theorem engagedLaw_clearZone (h : engagedLaw s) : engagedLaw (clearZone s).1 := by
  unfold clearZone
  split
  · refine engagedLaw_of (s := s) h.1 (fun _ => rfl) (fun ch => ?_) h
    simp [mapTable_get]
  · split
    · exact h
    · exact engagedLaw_removeAlert _ (engagedLaw_onChannel _ _ h (fun _ => rfl))
theorem engagedLaw_clearAlerts (h : engagedLaw s) : engagedLaw (clearAlerts s).1 := by
  unfold clearAlerts
  try simp only []
  repeat' split
  all_goals with_reducible repeat (first | exact h | apply engagedLaw_withAlerts)
theorem engagedLaw_clearResults (h : engagedLaw s) : engagedLaw (clearResults s).1 := by
  unfold clearResults
  try simp only []
  repeat' split
  all_goals with_reducible repeat (first | exact h | apply engagedLaw_withFifo | apply engagedLaw_retry)
theorem engagedLaw_setTimebase (h : engagedLaw s) : engagedLaw (setTimebase s).1 := by
  unfold setTimebase
  try simp only []
  repeat' split
  all_goals with_reducible repeat (first | exact h | apply engagedLaw_withTimebase | apply engagedLaw_invalidateAll | apply engagedLaw_refuse)
theorem engagedLaw_sleep (h : engagedLaw s) : engagedLaw (sleep s).1 := by
  unfold sleep
  try simp only []
  repeat' split
  all_goals with_reducible repeat (first | exact h | apply engagedLaw_withFrontEnd | apply engagedLaw_withTimebase | apply engagedLaw_invalidateAll | apply engagedLaw_refuse)
theorem engagedLaw_wake (h : engagedLaw s) : engagedLaw (wake s).1 := by
  unfold wake
  try simp only []
  repeat' split
  all_goals with_reducible repeat (first | exact h | apply engagedLaw_withFrontEnd | apply engagedLaw_withTimebase)
theorem engagedLaw_unknownCommand (h : engagedLaw s) : engagedLaw (unknownCommand s).1 := by
  unfold unknownCommand
  try simp only []
  repeat' split
  all_goals with_reducible repeat (first | exact h | apply engagedLaw_refuse)
theorem engagedLaw_quietEngine (h : engagedLaw s) : engagedLaw (quietEngine s) := by
  refine ⟨by simp [quietEngine, Sequencer.quiet], fun ch => ?_⟩
  simp [quietEngine, Sequencer.quiet, mapTable_get, Channel.quiet]
theorem engagedLaw_engineReset (h : engagedLaw s) : engagedLaw (engineReset s) := by
  unfold engineReset
  try simp only []
  repeat' split
  all_goals with_reducible repeat (first | exact h | apply engagedLaw_raise | apply engagedLaw_recordOutcome | apply engagedLaw_quietEngine)
theorem engagedLaw_powerOn (h : engagedLaw s) : engagedLaw (powerOn s) := ⟨fun _ => rfl, by simp [powerOn, State.reset, Sequencer.quiet, Channel.zero]⟩
theorem engagedLaw_endReset (l : Bool) (h : engagedLaw s) : engagedLaw (endReset l s) := by
  unfold endReset
  try simp only []
  repeat' split
  all_goals with_reducible repeat (first | exact h | apply engagedLaw_withInReset | apply engagedLaw_withFrontEnd | apply engagedLaw_withPort | apply engagedLaw_withPins)
theorem engagedLaw_takeResult (h : engagedLaw s) : engagedLaw (takeResult s) := by
  unfold takeResult
  try simp only []
  repeat' split
  all_goals with_reducible repeat (first | exact h | apply engagedLaw_withFifo)
theorem engagedLaw_popResult (h : engagedLaw s) : engagedLaw (popResult s) := by
  unfold popResult
  try simp only []
  repeat' split
  all_goals with_reducible repeat (first | exact h | apply engagedLaw_retry | apply engagedLaw_takeResult)
theorem engagedLaw_popAlert (h : engagedLaw s) : engagedLaw (popAlert s) := by
  unfold popAlert
  try simp only []
  repeat' split
  all_goals with_reducible repeat (first | exact h | apply engagedLaw_withAlerts)
theorem engagedLaw_readAction (a : Byte) (h : engagedLaw s) : engagedLaw (readAction a s) := by
  unfold readAction
  try simp only []
  repeat' split
  all_goals with_reducible repeat (first | exact h | apply engagedLaw_popResult | apply engagedLaw_popAlert)
theorem engagedLaw_advancePointer (h : engagedLaw s) : engagedLaw (advancePointer s) := by
  unfold advancePointer
  try simp only []
  repeat' split
  all_goals with_reducible repeat (first | exact h | apply engagedLaw_withPort)
theorem engagedLaw_busStart (a : Byte) (h : engagedLaw s) : engagedLaw (busStart a s) := by
  unfold busStart
  try simp only []
  repeat' split
  all_goals with_reducible repeat (first | exact h | apply engagedLaw_withPort)
theorem engagedLaw_openWrite (h : engagedLaw s) : engagedLaw (openWrite s) := by
  unfold openWrite
  try simp only []
  repeat' split
  all_goals with_reducible repeat (first | exact h | apply engagedLaw_busStart)
theorem engagedLaw_copySnapshot (h : engagedLaw s) : engagedLaw (copySnapshot s) := by
  unfold copySnapshot
  try simp only []
  repeat' split
  all_goals with_reducible repeat (first | exact h | apply engagedLaw_busStart)
theorem engagedLaw_sendByte (a : State → State) (h : engagedLaw s) (ha : engagedLaw (a s)) :
    engagedLaw (sendByte a s) := engagedLaw_advancePointer (engagedLaw_withPort _ ha)
theorem engagedLaw_windowRead (a : Byte) (e : State → State) (h : engagedLaw s) (he : ∀ t, engagedLaw t → engagedLaw (e t)) :
    engagedLaw (windowRead a e s) := by
  unfold windowRead
  split
  · exact h
  · split
    · refine engagedLaw_sendByte _ h ?_
      split
      · exact he _ h
      · exact engagedLaw_readAction _ h
    all_goals exact h
theorem engagedLaw_issue (c : Byte) (f : State → State × Reply) (h : engagedLaw s) (hf : engagedLaw (f s).1) :
    engagedLaw (issue c f s) := by
  unfold issue
  split
  · exact engagedLaw_collide h
  · exact engagedLaw_recordOutcome _ _ hf
theorem engagedLaw_issueAbort (h : engagedLaw s) : engagedLaw (issueAbort s) := by
  unfold issueAbort
  try simp only []
  repeat' split
  all_goals with_reducible repeat (first | exact h | apply engagedLaw_recordOutcome | apply engagedLaw_abortJob)
theorem engagedLaw_issueCode (c : Byte) (h : engagedLaw s) : engagedLaw (issueCode c s) := by
  unfold issueCode
  refine iteInduction (fun _ => ?_) (fun _ => ?_)
  · exact engagedLaw_issue _ _ h (engagedLaw_measureNow h)
  refine iteInduction (fun _ => ?_) (fun _ => ?_)
  · exact engagedLaw_issueAbort h
  refine iteInduction (fun _ => ?_) (fun _ => ?_)
  · exact engagedLaw_issue _ _ h (engagedLaw_flushQueue h)
  refine iteInduction (fun _ => ?_) (fun _ => ?_)
  · exact engagedLaw_issue _ _ h (engagedLaw_scanStart h)
  refine iteInduction (fun _ => ?_) (fun _ => ?_)
  · exact engagedLaw_issue _ _ h (engagedLaw_scanStop h)
  refine iteInduction (fun _ => ?_) (fun _ => ?_)
  · exact engagedLaw_issue _ _ h (engagedLaw_scanOnce h)
  refine iteInduction (fun _ => ?_) (fun _ => ?_)
  · exact engagedLaw_issue _ _ h (engagedLaw_swapBanks h)
  refine iteInduction (fun _ => ?_) (fun _ => ?_)
  · exact engagedLaw_issue _ _ h (engagedLaw_commitChannel h)
  refine iteInduction (fun _ => ?_) (fun _ => ?_)
  · exact engagedLaw_issue _ _ h (engagedLaw_fetchChannel h)
  refine iteInduction (fun _ => ?_) (fun _ => ?_)
  · exact engagedLaw_issue _ _ h (engagedLaw_invalidateReference h)
  refine iteInduction (fun _ => ?_) (fun _ => ?_)
  · exact engagedLaw_issue _ _ h (engagedLaw_clearZone h)
  refine iteInduction (fun _ => ?_) (fun _ => ?_)
  · exact engagedLaw_issue _ _ h (engagedLaw_clearAlerts h)
  refine iteInduction (fun _ => ?_) (fun _ => ?_)
  · exact engagedLaw_issue _ _ h (engagedLaw_clearResults h)
  refine iteInduction (fun _ => ?_) (fun _ => ?_)
  · exact engagedLaw_issue _ _ h (engagedLaw_setTimebase h)
  refine iteInduction (fun _ => ?_) (fun _ => ?_)
  · exact engagedLaw_issue _ _ h (engagedLaw_sleep h)
  refine iteInduction (fun _ => ?_) (fun _ => ?_)
  · exact engagedLaw_issue _ _ h (engagedLaw_wake h)
  refine iteInduction (fun _ => ?_) (fun _ => ?_)
  · exact engagedLaw_engineReset h
  exact engagedLaw_issue _ _ h (engagedLaw_unknownCommand h)
theorem engagedLaw_clearFlags (v : Byte) (h : engagedLaw s) : engagedLaw (clearFlags v s) := by
  unfold clearFlags
  try simp only []
  repeat' split
  all_goals with_reducible repeat (first | exact h | apply engagedLaw_withEvents)
theorem engagedLaw_writeEnables (v : Byte) (h : engagedLaw s) : engagedLaw (writeEnables v s) := by
  unfold writeEnables
  try simp only []
  repeat' split
  all_goals with_reducible repeat (first | exact h | apply engagedLaw_withEvents)
theorem engagedLaw_writeBank (a v : Byte) (h : engagedLaw s) : engagedLaw (writeBank a v s) := by
  unfold writeBank
  try simp only []
  repeat' split
  all_goals with_reducible repeat (first | exact h | apply engagedLaw_withScan)
theorem engagedLaw_writeOverrun (v : Byte) (h : engagedLaw s) : engagedLaw (writeOverrun v s) := by
  unfold writeOverrun
  try simp only []
  repeat' split
  all_goals with_reducible repeat (first | exact h | apply engagedLaw_withScan | apply engagedLaw_overrun)
theorem engagedLaw_writePolicy (v : Byte) (h : engagedLaw s) : engagedLaw (writePolicy v s) := by
  unfold writePolicy
  try simp only []
  repeat' split
  all_goals with_reducible repeat (first | exact h | apply engagedLaw_withFifo | apply engagedLaw_retry)
theorem engagedLaw_writePeriodLow (v : Byte) (h : engagedLaw s) : engagedLaw (writePeriodLow v s) := by
  unfold writePeriodLow
  try simp only []
  repeat' split
  all_goals with_reducible repeat (first | exact h | apply engagedLaw_withScan)
theorem engagedLaw_writePeriodHigh (v : Byte) (h : engagedLaw s) : engagedLaw (writePeriodHigh v s) := by
  unfold writePeriodHigh
  try simp only []
  repeat' split
  all_goals with_reducible repeat (first | exact h | apply engagedLaw_withScan)
theorem engagedLaw_writePlain (a v : Byte) (h : engagedLaw s) : engagedLaw (writePlain a v s) := by
  unfold writePlain
  try simp only []
  repeat' split
  all_goals with_reducible repeat (first | exact h | apply engagedLaw_withTimebase | apply engagedLaw_withStaging | apply engagedLaw_withScan | apply engagedLaw_withFifo | apply engagedLaw_withCmd | apply engagedLaw_writePeriodLow | apply engagedLaw_writePeriodHigh)
theorem engagedLaw_registerWrite (a v : Byte) (h : engagedLaw s) : engagedLaw (registerWrite a v s) := by
  unfold registerWrite
  try simp only []
  repeat' split
  all_goals with_reducible repeat (first | exact h | apply engagedLaw_issueCode | apply engagedLaw_clearFlags | apply engagedLaw_writeEnables | apply engagedLaw_writeBank | apply engagedLaw_writeOverrun | apply engagedLaw_writePolicy | apply engagedLaw_writePlain)
theorem engagedLaw_takeByte (v : Byte) (e : State → State) (h : engagedLaw s) (he : ∀ t, engagedLaw t → engagedLaw (e t)) :
    engagedLaw (takeByte v e s) := by
  unfold takeByte
  split
  · exact h
  · split
    · exact engagedLaw_withPort _ h
    · exact he _ (engagedLaw_advancePointer h)
    all_goals exact h
theorem engagedLaw_dataByte (a v : Byte) (e : State → State) (h : engagedLaw s) (he : ∀ t, engagedLaw t → engagedLaw (e t)) :
    engagedLaw (dataByte a v e s) := 
  engagedLaw_takeByte _ _ h (fun t ht => by split; exacts [he t ht, engagedLaw_registerWrite _ _ ht])
theorem engagedLaw_loadPointer (v : Byte) (h : engagedLaw s) : engagedLaw (loadPointer v s) := engagedLaw_takeByte _ _ h (fun _ ht => engagedLaw_registerWrite _ _ ht)

end Sys2Proof.Machine
end

