-- ==== Sys2Proof/Laws/Passes.lean ====
section
/-! SUPPORT. The walk over the active bank, what passes that start and end and jobs that are removed leave, and the shares of
a slow tick. -/

namespace Sys2Proof.Machine

variable {s : State}

/-! ### The walk over the active bank -/

/-- R116: every entry of the stretch is passed over. -/
theorem nextOffer_none (s : State) (fuel n : Nat) :
    nextOffer s fuel n = none ↔ ∀ m, n ≤ m → m < n + fuel → entryOffer s m = none := by
  induction fuel generalizing n with
  | zero => exact ⟨fun _ m h1 h2 => absurd h1 (by omega), fun _ => rfl⟩
  | succ fuel ih =>
    rw [nextOffer]
    cases he : entryOffer s n with
    | some ch => exact ⟨nofun, fun h => absurd (h n (by omega) (by omega)) (by rw [he]; exact nofun)⟩
    | none =>
      simp only []
      rw [ih]
      refine ⟨fun h m h1 h2 => ?_, fun h m h1 h2 => h m (by omega) (by omega)⟩
      by_cases hm : m = n
      · subst hm; exact he
      · exact h m (by omega) (by omega)

/-- R116: the first entry of the stretch that makes an offer. -/
theorem nextOffer_some (s : State) (fuel n entry : Nat) (ch : ChannelId) :
    nextOffer s fuel n = some (entry, ch) ↔ n ≤ entry ∧ entry < n + fuel ∧ entryOffer s entry = some ch ∧
      ∀ m, n ≤ m → m < entry → entryOffer s m = none := by
  induction fuel generalizing n with
  | zero => exact ⟨nofun, fun h => absurd h.1 (by omega)⟩
  | succ fuel ih =>
    rw [nextOffer]
    cases he : entryOffer s n with
    | some c =>
      simp only [Option.some.injEq, Prod.mk.injEq]
      refine ⟨fun ⟨h1, h2⟩ => ?_, fun ⟨h1, h2, h3, h4⟩ => ?_⟩
      · subst h1; subst h2
        exact ⟨Nat.le_refl _, by omega, he, fun m h1 h2 => absurd h1 (by omega)⟩
      · have hn : n = entry := by
          by_cases h : n < entry
          · have := h4 n (Nat.le_refl _) h
            rw [he] at this; cases this
          · omega
        subst hn
        rw [he] at h3
        exact ⟨rfl, Option.some.inj h3⟩
    | none =>
      simp only []
      rw [ih]
      refine ⟨fun ⟨h1, h2, h3, h4⟩ => ⟨by omega, by omega, h3, fun m h5 h6 => ?_⟩,
        fun ⟨h1, h2, h3, h4⟩ => ⟨?_, by omega, h3, fun m h5 h6 => h4 m (by omega) h6⟩⟩
      · by_cases hm : m = n
        · subst hm; exact he
        · exact h4 m (by omega) h6
      · by_cases hn : n = entry
        · subst hn; rw [he] at h3; cases h3
        · omega

/-! ### Passes -/

/-- R109, R118: what a pass end leaves in the Scan Controller, and PASS set. -/
theorem passEnd_spec (s : State) : (passEnd s).scan = passClosed s.scan ∧ flagSet .pass (passEnd s) = true := by
  refine ⟨?_, ?_⟩
  · unfold passEnd closePass applySwap passClosed
    by_cases hs : s.scan.swapPending = true
    · cases hm : s.scan.mode <;> simp [hs, hm]
    · cases hm : s.scan.mode <;> simp [hs, hm] <;> simpa using hs
  · unfold passEnd
    rw [flagSet_of_events (s := raise .pass s) (by simp), flagSet_raise]
    rfl

/-- R118: a pass ends, or nothing changes. -/
theorem checkPassEnd_ends (h : s.scan.state = .running ∧ s.scan.cursor = .done ∧ s.scan.passCount = 0) :
    checkPassEnd s = passEnd s := if_pos h

theorem checkPassEnd_none (h : ¬(s.scan.state = .running ∧ s.scan.cursor = .done ∧ s.scan.passCount = 0)) :
    checkPassEnd s = s := if_neg h

/-- R92: what an offer leaves of the scan: its cursor at the entry, settled or waiting. -/
theorem decideOffer_cursor (n : Nat) (ch : ChannelId) (s : State) :
    (decideOffer n ch s).scan.state = s.scan.state ∧ (decideOffer n ch s).scan.passNumber = s.scan.passNumber ∧
      (decideOffer n ch s).scan.extent = s.scan.extent ∧ (decideOffer n ch s).scan.timer = s.scan.timer ∧
      ((decideOffer n ch s).scan.cursor = .settled n ∨ (decideOffer n ch s).scan.cursor = .waiting n ch) := by
  unfold decideOffer
  repeat' split
  all_goals simp

theorem select_cursor {n : Nat} {ch : ChannelId} {s : State}
    (hc : s.scan.cursor = .settled n ∨ s.scan.cursor = .waiting n ch) :
    (select s).scan.state = s.scan.state ∧ (select s).scan.passNumber = s.scan.passNumber ∧
      (select s).scan.extent = s.scan.extent ∧ (select s).scan.timer = s.scan.timer ∧
      ((select s).scan.cursor = .settled n ∨ (select s).scan.cursor = .waiting n ch) := by
  have hret : ∀ u : State, u.scan = s.scan → (retake u).scan.state = s.scan.state ∧
      (retake u).scan.passNumber = s.scan.passNumber ∧ (retake u).scan.extent = s.scan.extent ∧
      (retake u).scan.timer = s.scan.timer ∧
      ((retake u).scan.cursor = .settled n ∨ (retake u).scan.cursor = .waiting n ch) := by
    intro u hu
    rw [← hu] at hc ⊢
    unfold retake
    split
    · exact ⟨rfl, rfl, rfl, rfl, hc⟩
    unfold retakeOffer
    rcases hc with hc | hc <;> rw [hc]
    · simp [hc]
    · exact decideOffer_cursor n ch u
  unfold select
  split
  · rcases arbitrate_spec s with ⟨_, he⟩ | ⟨q, rest, t, _, ht, he⟩ | ⟨q, rest, _, _, he⟩ <;> rw [he]
    · exact ⟨rfl, rfl, rfl, rfl, hc⟩
    · apply hret
      rcases reserve_spec s ht with ⟨_, rfl⟩ | ⟨_, _, rfl⟩ <;> simp
    · split <;> simpa using hc
  · exact ⟨rfl, rfl, rfl, rfl, hc⟩

/-- R92: what becomes of an offer, and that the rest of the queue and the Sequencer stay. -/
theorem decideOffer_decided (n : Nat) (ch : ChannelId) (s : State) :
    offerDecided s.scan.passNumber n ch s.queue.jobs s (decideOffer n ch s) ∧
      (decideOffer n ch s).queue = { s.queue with jobs := (decideOffer n ch s).queue.jobs } ∧
      (decideOffer n ch s).seq = s.seq ∧
      (decideOffer n ch s).scan = { s.scan with
        cursor := (decideOffer n ch s).scan.cursor, passCount := (decideOffer n ch s).scan.passCount } := by
  unfold decideOffer offerDecided Config.queueCapacity
  have hany : s.queue.jobs.any (QueuedJob.isScanFor ch) =
      s.queue.jobs.any (fun j => j.channel == ch && j.tag.isScan) := rfl
  rw [hany]
  cases hm : s.queue.jobs.any (fun j => j.channel == ch && j.tag.isScan) with
  | true => simp
  | false =>
    by_cases hl : 8 ≤ s.queue.jobs.length
    · have hn : ¬s.queue.jobs.length < 8 := by omega
      simp [hl, hn]
    · have hn : s.queue.jobs.length < 8 := by omega
      simp [hl, hn]

/-- R94 to R97: an offer into an empty queue with the Sequencer available starts its job, or stalls the Arbiter. -/
theorem offer_starts (n : Nat) (ch : ChannelId) (ha : arbiterReady s = true) (hs : s.queue.stalled = false)
    (hq : s.queue.jobs = []) : offerStarted s.scan.passNumber n ch s (offer n ch s) := by
  have hd : decideOffer n ch s = (s.withQueue { s.queue with
      jobs := [{ channel := ch, tag := .scan s.scan.passNumber }] }).withScan
        { s.scan with cursor := .settled n, passCount := s.scan.passCount + 1 } := by
    unfold decideOffer Config.queueCapacity
    simp [hq]
  unfold offer
  rw [hd]
  generalize hu : (s.withQueue { s.queue with
      jobs := [{ channel := ch, tag := .scan s.scan.passNumber }] }).withScan
        { s.scan with cursor := .settled n, passCount := s.scan.passCount + 1 } = u
  have hua : arbiterReady u = true := by subst hu; exact ha
  have hus : u.queue.stalled = false := by subst hu; exact hs
  have huq : selectJob u.queue.jobs = some ({ channel := ch, tag := .scan s.scan.passNumber }, []) := by subst hu; rfl
  have huf : u.fifo = s.fifo := by subst hu; rfl
  have huc : u.scan.cursor = .settled n ∧ u.scan.passCount = s.scan.passCount + 1 := by subst hu; exact ⟨rfl, rfl⟩
  have huqq : u.queue = { s.queue with jobs := [{ channel := ch, tag := .scan s.scan.passNumber }] } := by subst hu; rfl
  have huse : u.seq = s.seq := by subst hu; rfl
  have hret : ∀ x : State, x.scan = u.scan → retake x = x := by
    intro x hx
    unfold retake retakeOffer
    rw [hx, huc.1]
    split <;> rfl
  rw [select_made hua hus]
  by_cases hr : s.fifo.records.length + s.fifo.reserved < 16
  · rw [arbitrate_granted huq (by rw [huf]; exact hr), hret _ (by simp)]
    have hj := jobRecord_spec ((u.withFifo { u.fifo with reserved := 1 }).withQueue
      { u.queue with jobs := [], stalled := false }) { channel := ch, tag := .scan s.scan.passNumber }
    exact ⟨by simp [huc], by simp [huc], fun _ => ⟨by simp [huqq, hs], by simp, _, by simp, hj.1, hj.2⟩,
      fun h => absurd hr h⟩
  · cases hp : s.fifo.policy with
    | overwrite =>
      rw [arbitrate_discards huq (by rw [huf]; omega) (by rw [huf]; exact hp), hret _ (by simp)]
      have hj := jobRecord_spec ((raise .drop (u.withFifo { u.fifo with
        records := u.fifo.records.drop 1, gapPending := true, reserved := 1 })).withQueue
          { u.queue with jobs := [], stalled := false }) { channel := ch, tag := .scan s.scan.passNumber }
      exact ⟨by simp [huc], by simp [huc], fun _ => ⟨by simp [huqq, hs], by simp, _, by simp, hj.1, hj.2⟩,
        fun _ h => by rw [hp] at h; cases h⟩
    | hold =>
      rw [arbitrate_refused huq (by rw [huf]; omega) (by rw [huf]; exact hp), hus]
      refine ⟨by simp [huc], by simp [huc], fun h => ?_, fun _ _ => ⟨by simp [huqq], by simp [huse], ?_⟩⟩
      · rcases h with h | h
        · exact absurd h hr
        · rw [hp] at h; cases h
      · simp only [Bool.false_eq_true, ↓reduceIte, flagSet_raise, decide_true, Bool.true_or]

/-- R115, R116, R118: a pass that starts with every entry passed over ends at once; else it is RUNNING at the first entry
that makes an offer. -/
theorem passStart_spec (s : State) :
    let length := bankLength s.scan.active s.scan
    (s.scan.passCount = 0 → (∀ n, n < length → entryOffer s n = none) →
      passStart s = passEnd (s.withScan { s.scan with state := .running, cursor := .done, extent := length })) ∧
    ∀ n ch, n < length → (∀ m, m < n → entryOffer s m = none) → entryOffer s n = some ch →
      passStart s = offer n ch (s.withScan { s.scan with state := .running, cursor := .cleared, extent := length }) ∧
      (passStart s).scan.state = .running ∧ (passStart s).scan.passNumber = s.scan.passNumber ∧
        (passStart s).scan.extent = length ∧ (passStart s).scan.timer = s.scan.timer ∧
        ((passStart s).scan.cursor = .settled n ∨ (passStart s).scan.cursor = .waiting n ch) := by
  simp only []
  generalize hl : bankLength s.scan.active s.scan = length
  have hoffer : ∀ n, entryOffer (s.withScan { s.scan with state := .running, cursor := .cleared, extent := length }) n =
      entryOffer s n := fun _ => rfl
  unfold passStart moveOnto
  simp only [State.withScan_scan, hl, Nat.sub_zero]
  refine ⟨fun h0 hnone => ?_, fun n ch hn hm he => ?_⟩
  · rw [(nextOffer_none _ _ _).mpr (fun m _ h2 => (hoffer m).trans (hnone m (by omega)))]
    simp only []
    rw [checkPassEnd_ends (by simp [h0])]
    rfl
  · rw [(nextOffer_some _ _ _ n ch).mpr
      ⟨by omega, by omega, (hoffer n).trans he, fun m _ h2 => (hoffer m).trans (hm m h2)⟩]
    simp only []
    unfold offer
    obtain ⟨a1, a2, a3, a4, a5⟩ := decideOffer_cursor n ch (s.withScan { s.scan with
      state := .running, cursor := .cleared, extent := length })
    obtain ⟨b1, b2, b3, b4, b5⟩ := select_cursor a5
    exact ⟨trivial, b1.trans a1, b2.trans a2, b3.trans a3, b4.trans a4, b5⟩

/-- R115: a pass start from a state with the bank, the table, the queue and the Sequencer of `s`. -/
theorem passStart_started {u : State} {number : BitVec 16} {mode : ScanMode} (hn : u.scan.passNumber = number)
    (hm : u.scan.mode = mode)
    (hsc : u.scan.active = s.scan.active ∧ u.scan.lengthA = s.scan.lengthA ∧ u.scan.lengthB = s.scan.lengthB ∧
      u.scan.bankA = s.scan.bankA ∧ u.scan.bankB = s.scan.bankB ∧ u.scan.passCount = s.scan.passCount)
    (hch : u.channels = s.channels) (hq : u.queue = s.queue) (hs : u.seq = s.seq) (hf : u.fifo = s.fifo)
    (hc : clocked u = clocked s) : passStarted number mode s (passStart u) := by
  have hlen : bankLength u.scan.active u.scan = bankLength s.scan.active s.scan := by simp [bankLength, hsc]
  have ho : ∀ n, entryOffer u n = entryOffer (s.withScan { s.scan with passNumber := number }) n := by
    intro n; unfold entryOffer bankByte; simp [hsc, hn, hch]
  refine ⟨?_, ?_⟩
  · intro h0 h1
    rw [(passStart_spec u).1 (by simp [hsc, h0]) (by rw [hlen]; intro n hn; rw [ho]; exact h1 n hn)]
    obtain ⟨p1, p2⟩ := passEnd_spec (u.withScan
      { u.scan with state := .running, cursor := .done, extent := bankLength u.scan.active u.scan })
    subst hm hn
    exact ⟨by rw [p1]; rfl, by rw [p1]; rfl, by rw [p1]; rfl, by rw [p1]; exact hsc.2.2.2.2.2.trans h0, p2, by simp [hq],
      by simp [hs]⟩
  · intro n ch hl hm' he
    obtain ⟨b0, b1, b2, b3, b4, b5⟩ := (passStart_spec u).2 n ch (by rw [hlen]; exact hl)
      (fun m hmm => (ho m).trans (hm' m hmm)) ((ho n).trans he)
    refine ⟨b1, b2.trans hn, b3.trans hlen, b5, fun hr => ?_, fun hr hst hj => ?_⟩
    all_goals
      have hready : arbiterReady u = arbiterReady s := by simp only [arbiterReady, hs, hq, hc]
      rw [b0]
      generalize hv : u.withScan { u.scan with
        state := .running, cursor := .cleared, extent := bankLength u.scan.active u.scan } = v
      have v1 : arbiterReady v = arbiterReady s := by subst hv; exact hready
      have v2 : v.queue = s.queue := by subst hv; exact hq
      have v3 : v.scan.passNumber = number ∧ v.scan.passCount = s.scan.passCount := by
        subst hv; exact ⟨hn, hsc.2.2.2.2.2⟩
      have v4 : v.seq = s.seq ∧ v.fifo = s.fifo := by subst hv; exact ⟨hs, hf⟩
    · obtain ⟨d1, d2, d3, _⟩ := decideOffer_decided n ch v
      have hsel : offer n ch v = decideOffer n ch v := by
        unfold offer
        refine select_none ?_
        rcases hr with hr | hr
        · refine .inl ?_
          have : clocked (decideOffer n ch v) = clocked v := by simp [clocked]
          rw [← hr, ← v1, arbiterReady, arbiterReady, d3, this]
          simp
        · exact .inr (by simp [v2, hr])
      rw [hsel]
      rw [v2] at d2
      unfold offerDecided at d1 ⊢
      rw [v2, v3.1, v3.2] at d1
      exact ⟨d1, d2, d3.trans v4.1⟩
    · have := offer_starts (s := v) n ch (v1.trans hr) (by rw [v2]; exact hst) (by rw [v2]; exact hj)
      unfold offerStarted at this ⊢
      rw [v2, v3.1, v3.2, v4.1, v4.2] at this
      exact this

/-- R93: a selection leaves the pass timer. -/
theorem select_timer (s : State) : (select s).scan.timer = s.scan.timer := by
  have hret : ∀ u : State, u.scan = s.scan → (retake u).scan.timer = s.scan.timer := by
    intro u hu
    unfold retake retakeOffer
    repeat' split
    all_goals first | rw [hu] | (rw [(decideOffer_cursor _ _ _).2.2.2.1, hu])
  unfold select
  split
  · rcases arbitrate_spec s with ⟨_, he⟩ | ⟨q, rest, t, _, ht, he⟩ | ⟨q, rest, _, _, he⟩ <;> rw [he]
    · apply hret
      rcases reserve_spec s ht with ⟨_, rfl⟩ | ⟨_, _, rfl⟩ <;> simp
    · split <;> simp
  · rfl

/-- R112, R118: outside SINGLE a pass start leaves the pass timer. -/
theorem passStart_timer (hm : s.scan.mode ≠ .single) : (passStart s).scan.timer = s.scan.timer := by
  unfold passStart moveOnto
  split
  · unfold offer
    rw [select_timer, (decideOffer_cursor _ _ _).2.2.2.1]
    rfl
  · unfold checkPassEnd
    split
    · rw [(passEnd_spec _).1]
      simp [passClosed, hm]
    · rfl

/-! ### Removals -/

/-- Log 18: the sender has placed MEASURE_NOW and the retake, in this order, next. -/
theorem measureNowFirst_iff (s : State) :
    measureNowFirst s = true ↔ ∃ rest, s.pending = .measureNow :: .offerRetake :: rest := by
  unfold measureNowFirst
  split
  · rename_i rest h
    exact ⟨fun _ => ⟨rest, h⟩, fun _ => rfl⟩
  · rename_i h
    exact ⟨nofun, fun ⟨rest, hr⟩ => absurd hr (h rest)⟩

theorem clearStallIfEmpty_queue (s : State) : (clearStallIfEmpty s).queue =
    { s.queue with stalled := s.queue.stalled && !s.queue.jobs.isEmpty } := by
  unfold clearStallIfEmpty
  split
  · rename_i h; simp [h]
  · rename_i h
    have : s.queue.jobs.isEmpty = false := by simpa using h
    simp [this]

/-- R98, R100, R118: what a removal leaves. -/
theorem removeJobs_spec (p : QueuedJob → Bool) (s : State) : jobsRemoved p s (removeJobs p s).1 := by
  have removed : s.queue.jobs.filter p ≠ [] →
      (removeJobs p s).1 = checkPassEnd (clearStallIfEmpty (retake (dropJobs p s))) := by
    intro h
    unfold removeJobs
    rw [if_neg (by simpa using h)]
  refine ⟨fun h => ?_, fun h hw => ?_, fun n ch h hc hl hp => ?_⟩
  · unfold removeJobs
    rw [if_pos (by simp [h])]
    exact ⟨rfl, rfl⟩
  · have hret : retake (dropJobs p s) = dropJobs p s := by
      unfold retake
      split
      · rfl
      · rename_i hm
        rcases hw with hw | hw
        · unfold retakeOffer
          split
          · rename_i n ch hc; exact absurd hc (hw n ch)
          all_goals rfl
        · exact absurd ((measureNowFirst_iff (dropJobs p s)).mpr hw) hm
    have hscan : (clearStallIfEmpty (dropJobs p s)).scan = (dropJobs p s).scan := by simp
    rw [removed h, hret]
    refine ⟨?_, fun hend => ?_, fun hend => ?_⟩
    · simp [clearStallIfEmpty_queue, dropJobs]
    · rw [checkPassEnd_ends (by rw [hscan]; exact hend)]
      refine ⟨?_, (passEnd_spec _).2⟩
      rw [(passEnd_spec _).1, hscan]
      have : (dropJobs p s).scan = { s.scan with passCount := 0 } := by
        simp only [dropJobs, State.withScan_scan, hend.2.2]
      rw [this]
    · rw [checkPassEnd_none (by rw [hscan]; exact hend), hscan]
      rfl
  · have hm : measureNowFirst (dropJobs p s) = false := by
      rw [Bool.eq_false_iff]
      intro hm
      obtain ⟨rest, hr⟩ := (measureNowFirst_iff _).mp hm
      exact hp rest hr
    have hret : retake (dropJobs p s) = decideOffer n ch (dropJobs p s) := by
      unfold retake retakeOffer
      rw [hm, show (dropJobs p s).scan.cursor = .waiting n ch from hc]
      rfl
    have hq : (dropJobs p s).queue.jobs = s.queue.jobs.filter (fun j => !p j) := rfl
    rw [removed h, hret]
    by_cases hmerged : (s.queue.jobs.filter (fun j => !p j)).any (fun j => j.channel == ch && j.tag.isScan) = true
    · have hd : decideOffer n ch (dropJobs p s) =
          (dropJobs p s).withScan { (dropJobs p s).scan with cursor := .settled n } := by
        unfold decideOffer
        rw [if_pos (by rw [hq]; exact hmerged)]
      rw [hd, checkPassEnd_none (by simp)]
      simp only [hmerged, ↓reduceIte]
      exact ⟨by simp [clearStallIfEmpty_queue, dropJobs], by simp [dropJobs]⟩
    · have hd : decideOffer n ch (dropJobs p s) =
          ((dropJobs p s).withQueue { (dropJobs p s).queue with
            jobs := (dropJobs p s).queue.jobs ++ [{ channel := ch, tag := .scan (dropJobs p s).scan.passNumber }] }).withScan
              { (dropJobs p s).scan with cursor := .settled n, passCount := (dropJobs p s).scan.passCount + 1 } := by
        unfold decideOffer Config.queueCapacity
        rw [if_neg (by rw [hq]; exact hmerged), if_neg (by rw [hq]; omega)]
      rw [hd, checkPassEnd_none (by simp)]
      simp only [hmerged, Bool.false_eq_true, ↓reduceIte]
      exact ⟨by simp [clearStallIfEmpty_queue, dropJobs], by simp [dropJobs]⟩

/-- R35: a channel switched off: its offer withdrawn and its jobs removed. -/
theorem applyCommit_off {ch : ChannelId} {im : Image} (h : im.descriptor.role = .unused ∨ im.descriptor.enabled = false)
    (s : State) :
    let withdrawn := match s.scan.cursor with
      | .waiting n c => if c = ch then s.withScan { s.scan with cursor := .settled n } else s
      | _ => s
    jobsRemoved (fun j => j.channel == ch) withdrawn (applyCommit ch im s).1 := by
  intro withdrawn
  unfold applyCommit
  simp only []
  rw [if_pos h]
  generalize hx : (if zoneReset s.channels[ch.val].desc im.descriptor = true then _ else _ : State) = x
  have hxq : x.queue = s.queue ∧ x.scan = s.scan ∧ x.pending = s.pending := by
    rw [← hx]
    split <;> simp
  have hw : (withdrawOffer ch x).queue = withdrawn.queue ∧ (withdrawOffer ch x).scan = withdrawn.scan ∧
      (withdrawOffer ch x).pending = withdrawn.pending := by
    unfold withdrawOffer
    rw [hxq.2.1]
    simp only [withdrawn]
    cases hc : s.scan.cursor with
    | waiting n c => simp only []; split <;> simp [hxq]
    | _ => simp [hxq]
  have := removeJobs_spec (fun j => j.channel == ch) (withdrawOffer ch x)
  unfold jobsRemoved at this ⊢
  simp only [hw.1, hw.2.1, hw.2.2] at this
  exact this

/-! ### Selections -/

/-- R94: the oldest DIRECT job, else the oldest job, with the others left in their order. -/
theorem selectJob_first {before after : List QueuedJob} {q : QueuedJob}
    (h : (q.tag.isDirect = true ∧ ∀ b ∈ before, b.tag.isDirect = false) ∨
      (before = [] ∧ ∀ b ∈ q :: after, b.tag.isDirect = false)) :
    selectJob (before ++ q :: after) = some (q, before ++ after) := by
  unfold selectJob
  rcases h with ⟨h1, h2⟩ | ⟨rfl, h2⟩
  · have hf : (before ++ q :: after).find? (fun j => j.tag.isDirect) = some q := by
      rw [List.find?_append, List.find?_eq_none.mpr (by simpa using h2)]
      simp [h1]
    rw [hf]
    simp only []
    rw [List.eraseP_append_right _ (by simpa using h2)]
    simp [h1]
  · rw [List.nil_append, List.find?_eq_none.mpr (by intro x hx; simp [h2 x hx])]
    rfl

/-- R45: a phase starts in DISCHARGE with a new working copy. -/
theorem startPhase_seq (ch : ChannelId) (s : State) :
    (startPhase ch s).seq = { s.seq with state := .discharge, work := phaseCopy ch s } := by
  unfold startPhase phaseCopy Working.cleared dischargeTime
  simp

/-- R43: a job start reads the channels, the slots and the discharge time. -/
theorem jobStart_seq {x : State} (q : QueuedJob) (hc : x.channels = s.channels) (hr : x.refs = s.refs)
    (ht : x.timebase = s.timebase) :
    (jobStart q x).seq =
      { state := .discharge, job := some (jobRecord q s), work := phaseCopy (jobRecord q s).measured s } := by
  have hj : jobRecord q x = jobRecord q s := by unfold jobRecord freshCopy slotOf; simp [hc, hr]
  unfold jobStart
  simp only []
  rw [startPhase_seq, hj]
  have hd := fun b : ChannelId => markJob_item (s := (x.withSeq { x.seq with job := some (jobRecord q s) }).withQueue
    { x.queue with available := false }) (j := jobRecord q s) (m := true) Channel.desc (fun _ _ => rfl) b
  have hk := fun b : ChannelId => markJob_item (s := (x.withSeq { x.seq with job := some (jobRecord q s) }).withQueue
    { x.queue with available := false }) (j := jobRecord q s) (m := true) Channel.rangeStep (fun _ _ => rfl) b
  unfold phaseCopy
  simp [hd, hk, hc, ht]

/-- R93: a waiting offer is decided, or nothing changes (log 18). -/
theorem retake_spec (s : State) :
    ((∀ n ch, s.scan.cursor ≠ .waiting n ch) ∨ (∃ rest, s.pending = .measureNow :: .offerRetake :: rest) →
      retake s = s) ∧
    ∀ n ch, s.scan.cursor = .waiting n ch → (∀ rest, s.pending ≠ .measureNow :: .offerRetake :: rest) →
      retake s = decideOffer n ch s := by
  refine ⟨fun hw => ?_, fun n ch hc hp => ?_⟩
  · unfold retake
    split
    · rfl
    · rename_i hm
      rcases hw with hw | hw
      · unfold retakeOffer
        split
        · rename_i n ch hc
          exact absurd hc (hw n ch)
        all_goals rfl
      · exact absurd ((measureNowFirst_iff s).mpr hw) hm
  · unfold retake retakeOffer
    rw [if_neg, hc]
    intro hm
    obtain ⟨rest, hr⟩ := (measureNowFirst_iff _).mp hm
    exact hp rest hr

/-! ### Slow ticks -/

/-- R121: the timer's share of a slow tick. -/
theorem timerTick_spec (s : State) :
    let runs := s.scan.mode == .periodic && (s.scan.state == .waiting || s.scan.state == .running)
    let expires := runs && decide (s.scan.latched ≤ s.scan.timer + 1)
    (expires = true → timerTick s = passDue (s.withScan { s.scan with timer := 0, latched := passPeriod s.scan })) ∧
    (expires = false → timerTick s =
      s.withScan { s.scan with timer := if runs then s.scan.timer + 1 else s.scan.timer }) := by
  intro runs expires
  unfold timerTick expiry
  have hr : timerRuns s = runs := rfl
  rw [hr]
  refine ⟨fun h => ?_, fun h => ?_⟩
  · simp only [expires, Bool.and_eq_true, decide_eq_true_eq] at h
    rw [if_pos h.1, if_pos h.2]
  · cases hruns : runs with
    | false => rfl
    | true =>
      simp only [expires, hruns, Bool.true_and, decide_eq_false_iff_not] at h
      rw [if_pos rfl, if_neg h, if_pos rfl]

/-- R124, R126: the TRIG sample of a slow tick. -/
theorem trigSample_spec (s : State) :
    let level := s.pins.trig
    let qualifies := level != s.scan.filtered && decide (filterLength s.scan.trigSetting < s.scan.stable + 1)
    let moved := { s.scan with
      filtered := if qualifies then level else s.scan.filtered,
      stable := if level = s.scan.filtered ∨ qualifies then 0 else s.scan.stable + 1 }
    let edge := qualifies && s.scan.mode == .triggered && level == polarityLevel s.scan.trigSetting
    (edge = true → trigSample s = passDue (s.withScan moved)) ∧ (edge = false → trigSample s = s.withScan moved) := by
  intro level qualifies moved edge
  unfold trigSample
  by_cases hl : s.pins.trig = s.scan.filtered
  · have hq : qualifies = false := by simp [qualifies, level, hl]
    rw [if_pos hl]
    refine ⟨fun h => ?_, fun _ => ?_⟩
    · simp [edge, hq] at h
    · simp [moved, hq, level, hl]
  · rw [if_neg hl]
    by_cases hf : filterLength s.scan.trigSetting < s.scan.stable + 1
    · have hq : qualifies = true := by simp [qualifies, level, hl, hf]
      rw [if_pos hf]
      unfold qualifiedEdge
      have hm : { s.scan with filtered := s.pins.trig, stable := 0 } = moved := by simp [moved, hq, level]
      simp only [hm]
      have hx : (moved.mode = .triggered ∧ s.pins.trig = polarityLevel moved.trigSetting) ↔ edge = true := by
        simp [edge, hq, moved, level]
      simp only [State.withScan_scan]
      refine ⟨fun h => if_pos (hx.mpr h), fun h => if_neg (fun hc => ?_)⟩
      rw [hx.mp hc] at h; cases h
    · have hq : qualifies = false := by simp [qualifies, hf]
      rw [if_neg hf]
      refine ⟨fun h => ?_, fun _ => ?_⟩
      · simp [edge, hq] at h
      · simp [moved, hq, level, hl]

/-- R120 to R122, R124, R126: the scan's share of a slow tick: the timer and the TRIG filter move, and where a pass is due
it starts in WAITING and is an overrun in RUNNING. -/
theorem scanSlow_spec (s : State) :
    let sc := s.scan
    let level := s.pins.trig
    let live := sc.state == .waiting || sc.state == .running
    let runs := sc.mode == .periodic && live
    let expires := runs && decide (sc.latched ≤ sc.timer + 1)
    let qualifies := level != sc.filtered && decide (filterLength sc.trigSetting < sc.stable + 1)
    let due := expires || (live && qualifies && sc.mode == .triggered && level == polarityLevel sc.trigSetting)
    let timer := if expires then 0 else if runs then sc.timer + 1 else sc.timer
    let latched := if expires then passPeriod sc else sc.latched
    let filtered := if qualifies then level else sc.filtered
    let stable := if level = sc.filtered ∨ qualifies then 0 else sc.stable + 1
    (due = false → scanSlow s = s.withScan { sc with timer := timer, filtered := filtered, stable := stable }) ∧
    (due = true → sc.state = .running → scanSlow s = overrun (s.withScan { sc with
      timer := timer, latched := latched, filtered := filtered, stable := stable })) ∧
    (due = true → sc.state = .waiting → ∃ f n, scanSlow s =
      let u := passStart (s.withScan { sc with timer := timer, latched := latched, filtered := f, stable := n })
      u.withScan { u.scan with filtered := filtered, stable := stable }) := by
  intro sc level live runs expires qualifies due timer latched filtered stable
  obtain ⟨t1, t2⟩ := timerTick_spec s
  change (expires = true → _) at t1
  change (expires = false → _) at t2
  unfold scanSlow
  cases he : expires with
  | true =>
    have hdue : due = true := by simp [due, he]
    have hmode : s.scan.mode = .periodic := by
      have := he; simp [expires, runs, sc] at this; exact this.1.1
    rw [t1 he]
    refine ⟨fun h => by simp [hdue] at h, fun _ h => ?_, fun _ h => ?_⟩
    · have hp : passDue (s.withScan { s.scan with timer := 0, latched := passPeriod s.scan }) =
          overrun (s.withScan { s.scan with timer := 0, latched := passPeriod s.scan }) := by
        unfold passDue; rw [State.withScan_scan]; simp only [show s.scan.state = .running from h]
      rw [hp, (trigSample_spec _).2 (by simp [overrun, hmode])]
      simp only [timer, latched, he, if_true]
      rfl
    · have hp : passDue (s.withScan { s.scan with timer := 0, latched := passPeriod s.scan }) =
          passStart (s.withScan { s.scan with timer := 0, latched := passPeriod s.scan }) := by
        unfold passDue; rw [State.withScan_scan]; simp only [show s.scan.state = .waiting from h]
      have hv : quietView (passStart (s.withScan { s.scan with timer := 0, latched := passPeriod s.scan })) =
        quietView (s.withScan { s.scan with timer := 0, latched := passPeriod s.scan }) := by simp
      generalize hu : passStart (s.withScan { s.scan with timer := 0, latched := passPeriod s.scan }) = u at hp hv
      have v1 : u.scan.filtered = s.scan.filtered := congrArg QuietView.filtered hv
      have v2 : u.scan.stable = s.scan.stable := congrArg QuietView.stable hv
      have v3 : u.scan.mode = s.scan.mode := congrArg QuietView.mode hv
      have v4 : u.scan.trigSetting = s.scan.trigSetting := congrArg (fun v => v.host.trigSetting) hv
      have v5 : u.pins = s.pins := congrArg (fun v => v.host.pins) hv
      refine ⟨s.scan.filtered, s.scan.stable, ?_⟩
      rw [hp, (trigSample_spec _).2 (by simp [v3, hmode])]
      have hx : passStart (s.withScan { sc with
          timer := timer, latched := latched, filtered := s.scan.filtered, stable := s.scan.stable }) = u := by
        rw [← hu]; simp [timer, latched, he, sc]
      rw [hx, v1, v2, v4, v5]
  | false =>
    rw [t2 he]
    have ht : s.withScan { s.scan with timer := if runs then s.scan.timer + 1 else s.scan.timer } =
        s.withScan { sc with timer := timer } := by
      simp [timer, he, sc]
    generalize s.withScan { s.scan with timer := if runs then s.scan.timer + 1 else s.scan.timer } = u at ht
    subst ht
    obtain ⟨g1, g2⟩ := trigSample_spec (s.withScan { sc with timer := timer })
    simp only [State.withScan_scan, State.withScan_pins] at g1 g2
    have hd : due = (live && (qualifies && sc.mode == .triggered && level == polarityLevel sc.trigSetting)) := by
      simp [due, he, Bool.and_assoc]
    have hlat : latched = sc.latched := by simp [latched, he]
    refine ⟨fun h => ?_, fun h hs => ?_, fun h hs => ?_⟩
    · rw [hd, Bool.and_eq_false_iff] at h
      cases hed : (qualifies && sc.mode == .triggered && level == polarityLevel sc.trigSetting) with
      | false => exact g2 hed
      | true =>
        rw [g1 hed]
        rw [hed] at h
        have hl : live = false := h.resolve_right (by simp)
        unfold passDue
        simp only [State.withScan_scan]
        cases hst : s.scan.state <;> simp [live, sc, hst] at hl <;> simp only [sc, hst] <;> rfl
    · rw [hd] at h
      simp only [Bool.and_eq_true] at h
      rw [g1 (by
        change (qualifies && sc.mode == .triggered && level == polarityLevel sc.trigSetting) = true
        simp only [Bool.and_eq_true]
        exact h.2), hlat]
      unfold passDue
      simp only [State.withScan_scan, show sc.state = .running from hs]
      rfl
    · rw [hd] at h
      simp only [Bool.and_eq_true] at h
      refine ⟨filtered, stable, ?_⟩
      rw [g1 (by
        change (qualifies && sc.mode == .triggered && level == polarityLevel sc.trigSetting) = true
        simp only [Bool.and_eq_true]
        exact h.2), hlat]
      unfold passDue
      simp only [State.withScan_scan, show sc.state = .waiting from hs]
      set w := s.withScan { sc with timer := timer, filtered := filtered, stable := stable } with hw
      change passStart w = (passStart w).withScan { (passStart w).scan with filtered := filtered, stable := stable }
      have hv : quietView (passStart w) = quietView w := by simp
      have v1 : (passStart w).scan.filtered = filtered := congrArg QuietView.filtered hv
      have v2 : (passStart w).scan.stable = stable := congrArg QuietView.stable hv
      generalize passStart w = u at v1 v2
      rw [← v1, ← v2]
      rfl

/-- R46: the Sequencer's share of a slow tick. -/
theorem sequencerSlow_spec (s : State) :
    let w := s.seq.work
    let counted := { w with settleCount := w.settleCount + 1 }
    sequencerSlow s = s.withSeq (if s.seq.state ≠ .settle then s.seq
       else if w.settle.toNat ≤ w.settleCount + 1 then { s.seq with state := .arm, work := { counted with timeout := 0 } }
       else { s.seq with work := counted }) := by
  intro w counted
  unfold sequencerSlow enterArm
  cases hs : s.seq.state with
  | settle =>
    simp only [ne_eq, not_true_eq_false, if_false]
    split <;> rfl
  | _ => rfl

end Sys2Proof.Machine
end

