-- ==== Sys2Proof/Laws/JobEnds.lean ====
section
/-! SUPPORT. What the end of a job leaves: the pass count, a stop that completes, a deferred commit that is decided, the
next job; which events end a job; and what the end of a refresh phase leaves. -/

namespace Sys2Proof.Machine

variable {s : State}

/-! ### Job ends -/

/-- R114, R117, R118: a SCAN job's completion counted out of the pass. -/
theorem countOut_spec (s : State) :
    let sc := { s.scan with passCount := s.scan.passCount - 1 }
    (s.scan.state = .running → s.scan.cursor ≠ .done ∨ 2 ≤ s.scan.passCount → (countOut s).scan = sc) ∧
    (s.scan.state = .running → s.scan.cursor = .done → s.scan.passCount = 1 →
      (countOut s).scan = passClosed sc ∧ flagSet .pass (countOut s) = true) ∧
    (s.scan.state = .stopping → s.scan.passCount = 1 →
      (countOut s).scan = { sc with
        state := .stopped, active := if sc.swapPending then sc.active.other else sc.active, swapPending := false } ∧
      (countOut s).cmd.outcome = { s.cmd.outcome with state := .done, reason := none } ∧
      flagSet .command (countOut s) = true) := by
  simp only []
  unfold countOut
  refine ⟨fun h hc => ?_, fun h hc h1 => ?_, fun h h1 => ?_⟩ <;> rw [h] <;> simp only []
  · rw [checkPassEnd_none]
    · simp [h]
    · simp only [State.withScan_scan]
      rintro ⟨_, h2, h3⟩
      rcases hc with hc | hc
      · exact hc h2
      · omega
  · rw [checkPassEnd_ends (by simp [h, hc, h1])]
    exact ⟨(passEnd_spec _).1, (passEnd_spec _).2⟩
  · rw [if_pos (by simp [h1])]
    unfold completeStop finishWorking
    refine ⟨?_, ?_, ?_⟩
    · unfold applySwap
      cases hs : s.scan.swapPending <;> simp [hs]
    · simp
    · rw [flagSet_raise]; simp

theorem refs_toList (v : Vector RefSlot 4) : v.toList = [v[0], v[1], v[2], v[3]] := by
  apply List.ext_getElem
  · simp
  · intro i h1 h2
    simp only [List.length_cons, List.length_nil] at h2
    match i, h2 with
    | 0, _ => simp
    | 1, _ => simp
    | 2, _ => simp
    | 3, _ => simp

/-- R29: a check reads of the table the descriptors, the owners and the users. -/
theorem validate_congr {u : State} (hd : ∀ b : ChannelId, u.channels[b.val].desc = s.channels[b.val].desc)
    (hr : ∀ i : Fin 4, u.refs[i.val].owner = s.refs[i.val].owner ∧ u.refs[i.val].users = s.refs[i.val].users)
    (ch : ChannelId) (im : Image) : validate ch im u = validate ch im s := by
  have h0 := hr 0
  have h1 := hr 1
  have h2 := hr 2
  have h3 := hr 3
  simp only [Fin.val_zero, Fin.val_one, Fin.val_two, show (3 : Fin 4).val = 3 from rfl] at h0 h1 h2 h3
  have hnamed : namedDescriptor im.refChannel u = namedDescriptor im.refChannel s := by
    unfold namedDescriptor
    split
    · exact hd _
    · rfl
  have hfree : someSlotFree u = someSlotFree s := by
    unfold someSlotFree
    simp only [refs_toList, List.any_cons, List.any_nil, h0.1, h1.1, h2.1, h3.1]
  have hslot : (slotOf ch u = none ↔ slotOf ch s = none) ∧ usersOf ch u = usersOf ch s := by
    unfold usersOf slotOf
    simp only [refs_toList, List.find?_cons, List.find?_nil, h0.1, h1.1, h2.1, h3.1]
    cases s.refs[0].owner == some ch with
    | true => exact ⟨by simp, h0.2⟩
    | false =>
      cases s.refs[1].owner == some ch with
      | true => exact ⟨by simp, h1.2⟩
      | false =>
        cases s.refs[2].owner == some ch with
        | true => exact ⟨by simp, h2.2⟩
        | false =>
          cases s.refs[3].owner == some ch with
          | true => exact ⟨by simp, h3.2⟩
          | false => exact ⟨Iff.rfl, rfl⟩
  unfold validate
  simp only [hnamed, hfree, hslot.1, hslot.2, hd]

/-- A selection with no offer waiting leaves the scan. -/
theorem select_scan (h : ∀ n ch, s.scan.cursor ≠ .waiting n ch) : (select s).scan = s.scan := by
  have hret : ∀ u : State, u.scan = s.scan → (retake u).scan = s.scan := by
    intro u hu
    unfold retake
    split
    · exact hu
    · unfold retakeOffer
      split
      · rename_i n ch hc
        rw [hu] at hc
        exact absurd hc (h n ch)
      all_goals exact hu
  unfold select
  split
  · rcases arbitrate_spec s with ⟨_, he⟩ | ⟨q, rest, t, _, ht, he⟩ | ⟨q, rest, _, _, he⟩ <;> rw [he]
    · apply hret
      rcases reserve_spec s ht with ⟨_, rfl⟩ | ⟨_, _, rfl⟩ <;> simp
    · split <;> simp
  · rfl

/-- R62: where no commit waits, a job end is its count out of the pass, behind shares that leave the scan, the outcome
record and the queue. -/
theorem jobEnd_counted {j : InFlight} (st : JobStatus) (hj : s.seq.job = some j) (hd : s.deferred = none) :
    ∃ u, u.scan = s.scan ∧ u.cmd = s.cmd ∧ u.queue = s.queue ∧
      jobEnd st s = offerSequencer (if j.tag.isScan then countOut u else u) := 
  ⟨_, by simp, by simp, by simp, jobEnd_shares st hj hd⟩

/-- R114, R117, R118: the scan after a job that ends with nothing queued and no commit waiting. -/
theorem jobEnd_countedOut {j : InFlight} (st : JobStatus) (hj : s.seq.job = some j) (hd : s.deferred = none)
    (hq : s.queue.jobs = []) : countedOut j s (jobEnd st s) := by
  obtain ⟨u, h1, h2, h3, he⟩ := jobEnd_counted st hj hd
  have hoff : ∀ v : State, v.queue = s.queue → offerSequencer v = v.withQueue { s.queue with available := true } := by
    intro v hv
    unfold offerSequencer
    rw [select_empty (by simpa [hv] using hq), hv]
  have hscan : j.tag.isScan = true → jobEnd st s = (countOut u).withQueue { s.queue with available := true } := by
    intro h
    rw [he, if_pos h, hoff _ (by simp [h3])]
  obtain ⟨c1, c2, c3⟩ := countOut_spec u
  rw [h1] at c1 c2 c3
  rw [h2] at c3
  refine ⟨fun h => ?_, fun h hr => ⟨fun hc => ?_, fun hc h0 => ?_⟩, fun h hst h0 => ?_⟩
  · rw [he, if_neg (by cases ht : j.tag <;> simp [ht, JobTag.isDirect, JobTag.isScan] at h ⊢), hoff _ h3]
    exact h1
  all_goals rw [hscan h]
  · exact c1 hr hc
  · exact c2 hr hc h0
  · exact ⟨(c3 hst h0).1, (c3 hst h0).2.2, fun _ => (c3 hst h0).2.1⟩

/-- R114: in STOPPING the end of the SCAN job completes the stop, whatever job comes next. -/
theorem jobEnd_stops {j : InFlight} (st : JobStatus) (hj : s.seq.job = some j) (hd : s.deferred = none)
    (ht : j.tag.isScan = true) (hs : s.scan.state = .stopping) (hc : s.scan.cursor = .cleared)
    (h0 : s.scan.passCount = 1) :
    (jobEnd st s).scan = { s.scan with
      state := .stopped, passCount := 0, swapPending := false,
      active := if s.scan.swapPending then s.scan.active.other else s.scan.active } ∧
    (jobEnd st s).cmd.outcome = { s.cmd.outcome with state := .done, reason := none } ∧
    flagSet .command (jobEnd st s) = true := by
  obtain ⟨u, h1, h2, h3, he⟩ := jobEnd_counted st hj hd
  obtain ⟨_, _, c3⟩ := countOut_spec u
  rw [h1] at c3
  rw [h2] at c3
  obtain ⟨d1, d2, d3⟩ := c3 hs h0
  rw [he, if_pos ht]
  unfold offerSequencer
  refine ⟨?_, ?_, ?_⟩
  · rw [select_scan (by intro n ch; simp only [State.withQueue_scan, d1, hc]; exact nofun), State.withQueue_scan, d1, h0]
  · simp only [select_keeps, State.withQueue_cmd, d2]
  · rw [select_flag (by simp) (by simp), flagSet_of_events (State.withQueue_events _ _), d3]

/-- What an event that ends a job leaves to the job end: everything but counts, a range step, and an entry that a failed
refresh has marked. -/
def endingFrom (s u : State) : Prop :=
  u.seq.job = s.seq.job ∧ u.queue = s.queue ∧ u.scan = s.scan ∧ u.deferred = s.deferred ∧ u.cmd = s.cmd ∧
    u.fifo = s.fifo ∧ u.frontEnd = s.frontEnd ∧
    (∀ b : ChannelId, u.channels[b.val].desc = s.channels[b.val].desc) ∧
    ∀ i : Fin 4, u.refs[i.val].owner = s.refs[i.val].owner ∧ u.refs[i.val].users = s.refs[i.val].users

/-- R54, R56: a phase end that ends the job. -/
theorem phaseEnd_ends {pe : PhaseEnd} {j : InFlight} (hj : s.seq.job = some j) (h : pe = .ok → j.phase = .primary) :
    ∃ st u, phaseEnd pe s = jobEnd st u ∧ endingFrom s u := by
  have hc : ∀ (f : Nat → Nat) (b : ChannelId),
      (onChannel j.measured (fun c => { c with rangeStep := f c.rangeStep }) s).channels[b.val].desc =
        s.channels[b.val].desc := by
    intro f b
    apply onChannel_item Channel.desc
    exact fun _ => rfl
  have hf : ∀ (r : FaultReason) (t : State), t.refs = s.refs → ∀ i : Fin 4,
      (onSlot j.measured (RefSlot.faulted r) t).refs[i.val].owner = s.refs[i.val].owner ∧
      (onSlot j.measured (RefSlot.faulted r) t).refs[i.val].users = s.refs[i.val].users := by
    intro r t ht i
    simp only [onSlot, State.withRefs_refs, mapTable_get, ht]
    split <;> exact ⟨rfl, rfl⟩
  unfold phaseEnd
  simp only [hj]
  split
  · exact ⟨_, _, rfl, by simp, by simp, by simp, by simp, by simp, by simp, by simp, hc _, fun i => by simp⟩
  · rename_i hp
    split
    · rw [h rfl] at hp; cases hp
    all_goals exact ⟨_, _, rfl, by simp, by simp, by simp, by simp, by simp, by simp, by simp,
      fun b => by simpa using hc _ b, hf _ _ (by simp)⟩

/-- R64, R177: an event that ends the job while a command is WORKING is a job end. -/
theorem exec_endsJob {c : Instr} {j : InFlight} (h : endsJob c j s) (hw : s.cmd.outcome.state = .working) :
    ∃ st u, exec c s = .next (jobEnd st u) ∧ endingFrom s u := by
  obtain ⟨hj, h⟩ := h
  rcases h with ⟨rfl, ht, hi⟩ | ⟨rfl, hs⟩ | ⟨hg, hs, hc⟩ | ⟨rfl, hs, ho⟩
  · refine ⟨.aborted, pointerPast 0x18 s, ?_, ?_⟩
    · show Host.Outcome.next _ = _
      rw [dataByte_taken ht, issueAbort, if_pos (by simpa using hw), abortJob, if_neg (by simpa using hi)]
    · simp [endingFrom]
  · obtain ⟨st, u, he, hu⟩ := phaseEnd_ends (pe := .openArm) hj nofun
    exact ⟨st, u, by rw [← he]; show Host.Outcome.next _ = _; rw [if_pos hs], hu⟩
  · have hex : exec c s = .next (sampleComplete s) := by
      rcases hg with ⟨rfl, hm⟩ | ⟨rfl, hm⟩ <;> (show Host.Outcome.next _ = _; rw [if_pos ⟨hs, hm⟩])
    rw [hex]
    unfold sampleComplete
    simp only []
    split
    · obtain ⟨st, u, he, hu⟩ := phaseEnd_ends (pe := .under) hj nofun
      exact ⟨st, u, by rw [he], hu⟩
    · rename_i h0
      obtain ⟨hp, hn⟩ := hc.resolve_left h0
      rw [if_pos (by exact hn)]
      obtain ⟨st, u, he, hu⟩ := phaseEnd_ends (pe := .ok) (s := s.withSeq { s.seq with work := { s.seq.work with
        cTotal := s.seq.work.cTotal + s.seq.work.count, gTotal := s.seq.work.gTotal + gateLength s.seq.work,
        largest := max s.seq.work.largest s.seq.work.count, samples := s.seq.work.samples + 1 } }) hj (fun _ => hp)
      exact ⟨st, u, by rw [he], hu⟩
  · obtain ⟨st, u, he, hu⟩ := phaseEnd_ends (pe := .over) hj nofun
    refine ⟨st, u, ?_, hu⟩
    show Host.Outcome.next _ = _
    rw [if_pos hs, ← he]
    unfold overflowed
    simp only []
    rw [if_neg]
    rintro ⟨h1, h2⟩
    rcases ho with ho | ho
    · rw [h1] at ho; cases ho
    · omega

/-- R29: what a completion does before the deferred commit is decided leaves what the checks read. -/
theorem referenceShare_links (a : Completion) (i : Fin 4) :
    (referenceShare a s).refs[i.val].owner = s.refs[i.val].owner ∧
      (referenceShare a s).refs[i.val].users = s.refs[i.val].users := by
  have hm : ∀ f : RefSlot → RefSlot, (∀ sl, (f sl).owner = sl.owner ∧ (f sl).users = sl.users) →
      (onSlot a.channel f s).refs[i.val].owner = s.refs[i.val].owner ∧
        (onSlot a.channel f s).refs[i.val].users = s.refs[i.val].users := by
    intro f hf
    simp only [onSlot, State.withRefs_refs, mapTable_get]
    split
    · exact hf _
    · exact ⟨rfl, rfl⟩
  unfold referenceShare
  repeat' split
  all_goals first | exact ⟨rfl, rfl⟩ | exact hm _ (fun _ => ⟨rfl, rfl⟩)

/-- R117: outside STOPPING the count leaves the outcome record. -/
theorem countOut_cmd (h : s.scan.state ≠ .stopping) : (countOut s).cmd = s.cmd := by
  unfold countOut
  simp only []
  split
  · simp
  · rename_i hs; exact absurd hs h
  all_goals simp

/-- R35: the reply of an apply counts the jobs it removes. -/
theorem applyCommit_removed (ch : ChannelId) (im : Image) (s : State) :
    let new := im.descriptor
    (applyCommit ch im s).2 = .done (if new.role = .unused ∨ new.enabled = false
      then s.queue.jobs.countP (fun j => j.channel == ch) else 0) := by
  have hcount : ∀ u : State, u.queue = s.queue →
      (removeJobs (fun j => j.channel == ch) u).2 = s.queue.jobs.countP (fun j => j.channel == ch) := by
    intro u hu
    unfold removeJobs
    rw [List.countP_eq_length_filter, hu]
    split
    · rename_i h
      simp only [List.isEmpty_iff] at h
      rw [h]; rfl
    · rfl
  unfold applyCommit
  simp only []
  split
  · rename_i h
    refine congrArg Reply.done (hcount _ ?_)
    split <;> simp
  · rfl

/-- R37, R39: a deferred commit is decided at the job end, against the table as it then stands. -/
theorem jobEnd_decides {j : InFlight} {dc : DeferredCommit} (st : JobStatus) (hj : s.seq.job = some j)
    (hd : s.deferred = some dc) (hs : s.scan.state ≠ .stopping) :
    let answer := validate dc.channel dc.image s
    let new := dc.image.descriptor
    let removed := if new.role = .unused ∨ new.enabled = false
      then s.queue.jobs.countP (fun j => j.channel == dc.channel) else 0
    (jobEnd st s).deferred = none ∧ flagSet .command (jobEnd st s) = true ∧
    (∀ reason result, answer = some (reason, result) →
      (jobEnd st s).cmd.outcome = { s.cmd.outcome with state := .refused, reason := some reason, result := result } ∧
      ∀ b : ChannelId, (jobEnd st s).channels[b.val].desc = s.channels[b.val].desc) ∧
    (answer = none →
      (jobEnd st s).cmd.outcome =
        { s.cmd.outcome with state := .done, reason := none, result := BitVec.ofNat 8 removed } ∧
      ∀ b : ChannelId, (jobEnd st s).channels[b.val].desc = if b = dc.channel then new else s.channels[b.val].desc) := by
  simp only []
  obtain ⟨u, hu, hdesc, hlinks, hqueue, hcmd⟩ : ∃ u : State,
      jobEnd st s = offerSequencer (decideDeferred (u.withDeferred (some dc))) ∧
      (∀ b : ChannelId, u.channels[b.val].desc = s.channels[b.val].desc) ∧
      (∀ i : Fin 4, u.refs[i.val].owner = s.refs[i.val].owner ∧ u.refs[i.val].users = s.refs[i.val].users) ∧
      u.queue = s.queue ∧ u.cmd = s.cmd := by
    have hw : ∀ x : State, x.deferred = some dc → x = x.withDeferred (some dc) := fun x hx => by rw [← hx]; rfl
    unfold jobEnd announceTo
    simp only [hj]
    refine ⟨_, congrArg (fun x => offerSequencer (decideDeferred x)) (hw _ ?_), fun b => ?_, fun i => ?_, ?_, ?_⟩
    · split <;> simp [hd]
    · split <;> simp only [countOut_keeps, lastStatusShare_item Channel.desc (fun _ _ => rfl), fifoShare_keeps,
        zoneShare_item Channel.desc (fun _ _ => rfl), referenceShare_keeps,
        quietSequencer_item Channel.desc (fun _ _ => rfl)]
    · have := referenceShare_links (s := quietSequencer j st s) (announce st j s) i
      simp only [quietSequencer_keeps] at this
      split <;> simpa using this
    · split <;> simp
    · split
      · rw [countOut_cmd (by simpa using hs)]; simp
      · simp
  have hv : validate dc.channel dc.image (u.withDeferred none) = validate dc.channel dc.image s :=
    validate_congr hdesc hlinks _ _
  have hdec : decideDeferred (u.withDeferred (some dc)) =
      finishWorking (decideCommit dc.channel dc.image (u.withDeferred none)).2
        (decideCommit dc.channel dc.image (u.withDeferred none)).1 := rfl
  have hrefused : ∀ reason result, validate dc.channel dc.image s = some (reason, result) →
      decideCommit dc.channel dc.image (u.withDeferred none) = (u.withDeferred none, .refused reason result) := by
    intro reason result ha
    unfold decideCommit
    rw [hv, ha]
  have happlied : validate dc.channel dc.image s = none →
      decideCommit dc.channel dc.image (u.withDeferred none) = applyCommit dc.channel dc.image (u.withDeferred none) := by
    intro ha
    unfold decideCommit
    rw [hv, ha]
  rw [hu, hdec]
  unfold offerSequencer
  simp only [select_keeps, select_item Channel.desc (fun _ _ => rfl), select_flag (f := .command) (by simp) (by simp),
    State.withQueue_deferred, State.withQueue_cmd, State.withQueue_channels, flagSet_of_events (State.withQueue_events _ _)]
  refine ⟨by simp, ?_, fun reason result ha => ?_, fun ha => ?_⟩
  · unfold finishWorking; rw [flagSet_raise]; simp
  · rw [hrefused _ _ ha]
    exact ⟨by simp [finishWorking, Reply.refused, hcmd], fun b => by simpa using hdesc b⟩
  · rw [happlied ha]
    refine ⟨?_, fun b => ?_⟩
    · simp only [finishWorking, raise, State.withEvents_cmd, State.withCmd_cmd, applyCommit_removed]
      simp [hcmd, hqueue, Reply.done]
    · simp only [finishWorking_keeps, applyCommit_channels, setChannel_get, State.withDeferred_channels]
      by_cases hb : dc.channel = b
      · subst hb; simp
      · simp [hb, Ne.symm hb, hdesc]

/-! ### The end of a refresh phase -/

/-- R55, R75: a refresh phase that ended OK leaves its totals in the slot and in the copy, and starts the primary phase. -/
theorem phaseEnd_refreshed {j : InFlight} {r : ChannelId} (hj : s.seq.job = some j) (hp : j.phase = .refresh)
    (hr : j.measured = r) :
    let w := s.seq.work
    let stepped := onChannel r (fun c => { c with rangeStep := stepAfter .ok w c.rangeStep }) s
    let t := phaseEnd .ok s
    t.seq = {
      state := .discharge, work := { phaseCopy j.channel s with k := t.channels[j.channel.val].rangeStep },
      job := some { j with
        phase := .primary, refreshed := true,
        refCopy := some { cRef := w.cTotal, gRef := w.gTotal, step := w.k, age := 0 } } } ∧
    t.channels = stepped.channels ∧ t.refs = (onSlot r (RefSlot.measured w.cTotal w.gTotal w.method) s).refs ∧
    t.queue = s.queue ∧ t.fifo = s.fifo ∧ t.scan = s.scan := by
  intro w stepped t
  have ht : t = startPhase j.channel ((onSlot r (RefSlot.measured w.cTotal w.gTotal w.method) stepped).withSeq
      { s.seq with
        job := some { j with
          phase := .primary, refreshed := true,
          refCopy := some { cRef := w.cTotal, gRef := w.gTotal, step := w.k, age := 0 } } }) := by
    show phaseEnd .ok s = _
    unfold phaseEnd
    simp only [hj, hp, hr]
    simp [w, stepped]
  have hc : t.channels = stepped.channels := by
    rw [ht]
    simp
  refine ⟨?_, hc, ?_, ?_, ?_, ?_⟩
  · have hd : stepped.channels[j.channel.val].desc = s.channels[j.channel.val].desc :=
      onChannel_item Channel.desc (f := fun c => { c with rangeStep := stepAfter .ok w c.rangeStep }) (fun _ => rfl)
        j.channel s
    rw [hc, ht, startPhase_seq]
    unfold phaseCopy
    simp [hd, stepped]
  · rw [ht]
    simp
    rfl
  all_goals
    rw [ht]
    simp [stepped]

/-! ### The next job -/

/-- R117: counting a job out leaves no offer waiting that did not wait. -/
theorem countOut_cursor (h : ∀ n ch, s.scan.cursor ≠ .waiting n ch) (n : Nat) (ch : ChannelId) :
    (countOut s).scan.cursor ≠ .waiting n ch := by
  unfold countOut checkPassEnd
  simp only []
  repeat' split
  · rw [(passEnd_spec _).1]; exact nofun
  · exact h n ch
  · unfold completeStop applySwap
    split <;> simpa [finishWorking, raise] using h n ch
  all_goals exact h n ch

/-- R151: a DIRECT job writes its record. -/
theorem fifoShare_direct {a : Completion} (h : a.tag.isDirect = true) (z : Zone) (c : Bool) (p : ReportPolicy)
    (s : State) : (fifoShare a z c p s).fifo.records.length = s.fifo.records.length + 1 := by
  have hw : writesRecord a c p = true := by
    unfold writesRecord
    cases ht : a.tag <;> simp_all [JobTag.isDirect]
  unfold fifoShare
  simp only []
  rw [if_pos hw]
  split <;> simp

theorem fifoShare_policy (a : Completion) (z : Zone) (c : Bool) (p : ReportPolicy) (s : State) :
    (fifoShare a z c p s).fifo.policy = s.fifo.policy := by
  unfold fifoShare
  simp only []
  repeat' split
  all_goals simp

/-- R62: what a completion leaves to the selection that follows it, where no commit waits. -/
theorem announceTo_leaves (a : Completion) (hd : s.deferred = none) :
    let t := announceTo a s
    t.queue = s.queue ∧ t.seq = s.seq ∧ clocked t = clocked s ∧ t.fifo.reserved = 0 ∧ t.fifo.policy = s.fifo.policy ∧
      t.fifo.records.length ≤ s.fifo.records.length + 1 ∧
      (a.tag.isDirect = true → t.fifo.records.length = s.fifo.records.length + 1) ∧
      ((∀ n ch, s.scan.cursor ≠ .waiting n ch) → ∀ n ch, t.scan.cursor ≠ .waiting n ch) := by
  unfold announceTo
  simp only []
  have hlen := fun z c p => fifoShare_length (zoneShare a (referenceShare a s)) a z c p
  split
  · rw [decideDeferred_none (by simp [hd])]
    refine ⟨by simp, by simp, by simp [clocked], by simp, by simp [fifoShare_policy], by simpa using hlen _ _ _,
      fun h => ?_, fun h => countOut_cursor (by simpa using h)⟩
    simp only [countOut_keeps, lastStatusShare_keeps, fifoShare_direct h]
    simp
  · rw [decideDeferred_none (by simp [hd])]
    refine ⟨by simp, by simp, by simp [clocked], by simp, by simp [fifoShare_policy], by simpa using hlen _ _ _,
      fun h => ?_, fun h => by simpa using h⟩
    simp only [lastStatusShare_keeps, fifoShare_direct h]
    simp

/-- R63, R94: the end of a job offers the Sequencer: the next job starts, or the Arbiter stalls. -/
theorem jobEnd_next (st : JobStatus) {j : InFlight} {before after : List QueuedJob} {q : QueuedJob}
    (hj : s.seq.job = some j) (hc : clocked s = true) (hd : s.deferred = none) (hs : s.queue.stalled = false)
    (hq : s.queue.jobs = before ++ q :: after)
    (h : (q.tag.isDirect = true ∧ ∀ b ∈ before, b.tag.isDirect = false) ∨
      (before = [] ∧ ∀ b ∈ q :: after, b.tag.isDirect = false)) :
    let t := jobEnd st s
    (s.fifo.records.length < 15 ∨ s.fifo.policy = .overwrite →
      ∃ k, t.seq.state = .discharge ∧ t.seq.job = some k ∧ k.channel = q.channel ∧ k.tag = q.tag ∧
        t.channels[q.channel.val].engaged = true ∧ t.fifo.reserved = 1 ∧ t.queue.available = false ∧
        ((∀ n ch, s.scan.cursor ≠ .waiting n ch) → t.queue.jobs = before ++ after)) ∧
    (s.fifo.records.length = 15 → s.fifo.policy = .hold → j.tag.isDirect = true →
      t.seq = { state := .idle, job := none, work := .cleared } ∧
        t.queue = { s.queue with available := true, stalled := true } ∧ flagSet .stall t = true) := by
  intro t
  have ht : t = offerSequencer (announceTo (announce st j s) (quietSequencer j st s)) := by
    show jobEnd st s = _
    unfold jobEnd
    rw [hj]
  obtain ⟨a1, a2, a3, a4, a5, a6, a7, a8⟩ :=
    announceTo_leaves (s := quietSequencer j st s) (announce st j s) (by simp [hd])
  rw [ht]
  unfold offerSequencer
  generalize announceTo (announce st j s) (quietSequencer j st s) = v at *
  set w := v.withQueue { v.queue with available := true } with hw
  have wr : arbiterReady w = true := by
    have : clocked v = true := by rw [a3, ← hc]; simp [clocked]
    simp [hw, arbiterReady, a2, Sequencer.quiet, clocked]
    simpa [clocked] using this
  have wq : w.queue = { s.queue with available := true } := by simp [hw, a1]
  have wj : selectJob w.queue.jobs = some (q, before ++ after) := by
    rw [wq]
    show selectJob s.queue.jobs = _
    rw [hq]
    exact selectJob_first h
  have wf : w.fifo = v.fifo := rfl
  rw [select_made wr (by rw [wq]; exact hs)]
  refine ⟨fun hroom => ?_, fun h1 h2 h3 => ?_⟩
  · obtain ⟨x, hx, he⟩ : ∃ x : State, (x.fifo.reserved = 1 ∧ x.scan = v.scan) ∧
        arbitrate w = retake (jobStart q (x.withQueue { w.queue with jobs := before ++ after, stalled := false })) := by
      by_cases hf : w.fifo.records.length + w.fifo.reserved < 16
      · exact ⟨w.withFifo { w.fifo with reserved := 1 }, ⟨by simp, by simp [hw]⟩, arbitrate_granted wj hf⟩
      · refine ⟨raise .drop (w.withFifo { w.fifo with
          records := w.fifo.records.drop 1, gapPending := true, reserved := 1 }), ⟨by simp, by simp [hw]⟩,
          arbitrate_discards wj (by omega) ?_⟩
        rw [wf, a5]
        rcases hroom with hroom | hroom
        · exfalso
          rw [wf] at hf
          simp at a6
          omega
        · simpa using hroom
    rw [he]
    set y := x.withQueue { w.queue with jobs := before ++ after, stalled := false } with hy
    refine ⟨jobRecord q y, by simp, by simp, (jobRecord_spec y q).1, (jobRecord_spec y q).2, by simp [jobStart_engaged],
      by simp [hy, hx.1], by simp, fun hn => ?_⟩
    rw [(retake_spec _).1 (.inl ?_)]
    · simp [hy]
    · intro n ch
      simp only [jobStart_keeps, hy, State.withQueue_scan, hx.2]
      exact a8 (by simpa using hn) n ch
  · have hl := a7 (by simpa [announce] using h3)
    rw [arbitrate_refused wj (by rw [wf, hl, a4]; simp [h1]) (by rw [wf, a5]; simpa using h2),
      if_neg (by rw [wq]; simp [hs])]
    refine ⟨?_, by simp [wq], ?_⟩
    · simp [hw, a2]
      rfl
    · rw [flagSet_raise]
      simp

end Sys2Proof.Machine
end

