-- ==== Sys2Proof/Laws/FlagLaw.lean ====
section
/-! SUPPORT. That an event leaves a set flag set (R184). -/

namespace Sys2Proof.Machine

set_option linter.unusedTactic false
set_option linter.unreachableTactic false

variable {s : State} {k : Flag}

/-- R184: a flag that is set. -/
def flagLaw (k : Flag) (s : State) : Prop := flagSet k s = true

theorem flagLaw_of {t : State} (ht : t.events.flags = s.events.flags) (h : flagLaw k s) : flagLaw k t := by
  unfold flagLaw flagSet at h ⊢
  rw [ht]
  exact h

theorem flagLaw_withPending (x : List Instr) (h : flagLaw k s) : flagLaw k (s.withPending x) := h
theorem flagLaw_withInReset (x : Bool) (h : flagLaw k s) : flagLaw k (s.withInReset x) := h
theorem flagLaw_withFrontEnd (x : FrontEnd) (h : flagLaw k s) : flagLaw k (s.withFrontEnd x) := h
theorem flagLaw_withTimebase (x : Timebase) (h : flagLaw k s) : flagLaw k (s.withTimebase x) := h
theorem flagLaw_withChannels (x : Vector Channel 16) (h : flagLaw k s) : flagLaw k (s.withChannels x) := h
theorem flagLaw_withStaging (x : Vector Byte 32) (h : flagLaw k s) : flagLaw k (s.withStaging x) := h
theorem flagLaw_withDeferred (x : Option DeferredCommit) (h : flagLaw k s) : flagLaw k (s.withDeferred x) := h
theorem flagLaw_withSeq (x : Sequencer) (h : flagLaw k s) : flagLaw k (s.withSeq x) := h
theorem flagLaw_withRefs (x : Vector RefSlot 4) (h : flagLaw k s) : flagLaw k (s.withRefs x) := h
theorem flagLaw_withQueue (x : JobQueue) (h : flagLaw k s) : flagLaw k (s.withQueue x) := h
theorem flagLaw_withScan (x : ScanController) (h : flagLaw k s) : flagLaw k (s.withScan x) := h
theorem flagLaw_withAlerts (x : AlertList) (h : flagLaw k s) : flagLaw k (s.withAlerts x) := h
theorem flagLaw_withFifo (x : ResultFifo) (h : flagLaw k s) : flagLaw k (s.withFifo x) := h
theorem flagLaw_withPort (x : SerialPort) (h : flagLaw k s) : flagLaw k (s.withPort x) := h
theorem flagLaw_withCmd (x : CommandPort) (h : flagLaw k s) : flagLaw k (s.withCmd x) := h
theorem flagLaw_withPins (x : InputPins) (h : flagLaw k s) : flagLaw k (s.withPins x) := h
theorem flagLaw_withFreeIndex (x : Nat) (h : flagLaw k s) : flagLaw k (s.withFreeIndex x) := h

theorem flagLaw_raise (f : Flag) (h : flagLaw k s) : flagLaw k (raise f s) := by
  unfold flagLaw at h ⊢
  rw [flagSet_raise, h, Bool.or_true]
theorem flagLaw_clampRequest (h : flagLaw k s) : flagLaw k (clampRequest s) := flagLaw_of (by simp) h
theorem flagLaw_runRequest (p : PinId) (h : flagLaw k s) : flagLaw k (runRequest p s) := flagLaw_of (by simp) h
theorem flagLaw_onChannel (ch : ChannelId) (f : Channel → Channel) (h : flagLaw k s) : flagLaw k (onChannel ch f s) := flagLaw_of (by simp) h
theorem flagLaw_setEngaged (m : Bool) (ch : ChannelId) (h : flagLaw k s) : flagLaw k (setEngaged m ch s) := flagLaw_of (by simp) h
theorem flagLaw_markJob (m : Bool) (j : InFlight) (h : flagLaw k s) : flagLaw k (markJob m j s) := flagLaw_of (by simp) h
theorem flagLaw_onSlot (ch : ChannelId) (f : RefSlot → RefSlot) (h : flagLaw k s) : flagLaw k (onSlot ch f s) := flagLaw_of (by simp) h
theorem flagLaw_invalidateAll (h : flagLaw k s) : flagLaw k (invalidateAll s) := flagLaw_of (by simp) h
theorem flagLaw_recordOutcome (c : Byte) (r : Reply) (h : flagLaw k s) : flagLaw k (recordOutcome c r s) := flagLaw_of (by simp) h
theorem flagLaw_collide (h : flagLaw k s) : flagLaw k (collide s) := flagLaw_of (by simp) h
theorem flagLaw_finishWorking (r : Reply) (h : flagLaw k s) : flagLaw k (finishWorking r s) := by
  unfold finishWorking
  try simp only []
  repeat' split
  all_goals with_reducible repeat (first | exact h | apply flagLaw_withCmd | apply flagLaw_raise)
theorem flagLaw_startPhase (ch : ChannelId) (h : flagLaw k s) : flagLaw k (startPhase ch s) := flagLaw_of (by simp) h
theorem flagLaw_enterArm (h : flagLaw k s) : flagLaw k (enterArm s) := flagLaw_of (by simp) h
theorem flagLaw_enterSettle (h : flagLaw k s) : flagLaw k (enterSettle s) := flagLaw_of (by simp) h
theorem flagLaw_startSample (h : flagLaw k s) : flagLaw k (startSample s) := flagLaw_of (by simp) h
theorem flagLaw_decideOffer (n : Nat) (ch : ChannelId) (h : flagLaw k s) : flagLaw k (decideOffer n ch s) := flagLaw_of (by simp) h
theorem flagLaw_retakeOffer (h : flagLaw k s) : flagLaw k (retakeOffer s) := flagLaw_of (by simp) h
theorem flagLaw_retake (h : flagLaw k s) : flagLaw k (retake s) := flagLaw_of (by simp) h
theorem flagLaw_jobStart (q : QueuedJob) (h : flagLaw k s) : flagLaw k (jobStart q s) := flagLaw_of (by simp) h
theorem flagLaw_arbitrate (h : flagLaw k s) : flagLaw k (arbitrate s) := by
  unfold arbitrate
  split
  · exact h
  · split
    · rename_i hr
      rcases reserve_spec s hr with ⟨_, rfl⟩ | ⟨_, _, rfl⟩
      · exact flagLaw_retake (flagLaw_jobStart _ h)
      · exact flagLaw_retake (flagLaw_jobStart _ (flagLaw_raise _ h))
    · split
      · exact h
      · exact flagLaw_raise _ h
theorem flagLaw_select (h : flagLaw k s) : flagLaw k (select s) := by
  unfold select
  try simp only []
  repeat' split
  all_goals with_reducible repeat (first | exact h | apply flagLaw_arbitrate)
theorem flagLaw_retry (h : flagLaw k s) : flagLaw k (retry s) := by
  unfold retry
  try simp only []
  repeat' split
  all_goals with_reducible repeat (first | exact h | apply flagLaw_arbitrate)
theorem flagLaw_applySwap (h : flagLaw k s) : flagLaw k (applySwap s) := flagLaw_of (by simp) h
theorem flagLaw_closePass (h : flagLaw k s) : flagLaw k (closePass s) := flagLaw_of (by simp) h
theorem flagLaw_passEnd (h : flagLaw k s) : flagLaw k (passEnd s) := by
  unfold passEnd
  try simp only []
  repeat' split
  all_goals with_reducible repeat (first | exact h | apply flagLaw_raise | apply flagLaw_applySwap | apply flagLaw_closePass)
theorem flagLaw_checkPassEnd (h : flagLaw k s) : flagLaw k (checkPassEnd s) := by
  unfold checkPassEnd
  try simp only []
  repeat' split
  all_goals with_reducible repeat (first | exact h | apply flagLaw_passEnd)
theorem flagLaw_offer (n : Nat) (ch : ChannelId) (h : flagLaw k s) : flagLaw k (offer n ch s) := by
  unfold offer
  try simp only []
  repeat' split
  all_goals with_reducible repeat (first | exact h | apply flagLaw_decideOffer | apply flagLaw_select)
theorem flagLaw_moveOnto (n : Nat) (h : flagLaw k s) : flagLaw k (moveOnto n s) := by
  unfold moveOnto
  try simp only []
  repeat' split
  all_goals with_reducible repeat (first | exact h | apply flagLaw_withScan | apply flagLaw_checkPassEnd | apply flagLaw_offer)
theorem flagLaw_cursorMove (h : flagLaw k s) : flagLaw k (cursorMove s) := by
  unfold cursorMove
  try simp only []
  repeat' split
  all_goals with_reducible repeat (first | exact h | apply flagLaw_moveOnto)
theorem flagLaw_passStart (h : flagLaw k s) : flagLaw k (passStart s) := by
  unfold passStart
  try simp only []
  repeat' split
  all_goals with_reducible repeat (first | exact h | apply flagLaw_withScan | apply flagLaw_moveOnto)
theorem flagLaw_overrun (h : flagLaw k s) : flagLaw k (overrun s) := by
  unfold overrun
  try simp only []
  repeat' split
  all_goals with_reducible repeat (first | exact h | apply flagLaw_withScan | apply flagLaw_raise)
theorem flagLaw_passDue (h : flagLaw k s) : flagLaw k (passDue s) := by
  unfold passDue
  try simp only []
  repeat' split
  all_goals with_reducible repeat (first | exact h | apply flagLaw_passStart | apply flagLaw_overrun)
theorem flagLaw_expiry (h : flagLaw k s) : flagLaw k (expiry s) := by
  unfold expiry
  try simp only []
  repeat' split
  all_goals with_reducible repeat (first | exact h | apply flagLaw_withScan | apply flagLaw_passDue)
theorem flagLaw_timerTick (h : flagLaw k s) : flagLaw k (timerTick s) := by
  unfold timerTick
  try simp only []
  repeat' split
  all_goals with_reducible repeat (first | exact h | apply flagLaw_withScan | apply flagLaw_expiry)
theorem flagLaw_qualifiedEdge (l : Bool) (h : flagLaw k s) : flagLaw k (qualifiedEdge l s) := by
  unfold qualifiedEdge
  try simp only []
  repeat' split
  all_goals with_reducible repeat (first | exact h | apply flagLaw_withScan | apply flagLaw_passDue)
theorem flagLaw_trigSample (h : flagLaw k s) : flagLaw k (trigSample s) := by
  unfold trigSample
  try simp only []
  repeat' split
  all_goals with_reducible repeat (first | exact h | apply flagLaw_withScan | apply flagLaw_qualifiedEdge)
theorem flagLaw_dropJobs (p : QueuedJob → Bool) (h : flagLaw k s) : flagLaw k (dropJobs p s) := flagLaw_of (by simp) h
theorem flagLaw_clearStallIfEmpty (h : flagLaw k s) : flagLaw k (clearStallIfEmpty s) := flagLaw_of (by simp) h
theorem flagLaw_removeJobs (p : QueuedJob → Bool) (h : flagLaw k s) : flagLaw k (removeJobs p s).1 := by
  unfold removeJobs
  try simp only []
  repeat' split
  all_goals with_reducible repeat (first | exact h | apply flagLaw_retake | apply flagLaw_checkPassEnd | apply flagLaw_dropJobs | apply flagLaw_clearStallIfEmpty)
theorem flagLaw_completeStop (h : flagLaw k s) : flagLaw k (completeStop s) := by
  unfold completeStop
  try simp only []
  repeat' split
  all_goals with_reducible repeat (first | exact h | apply flagLaw_withScan | apply flagLaw_finishWorking | apply flagLaw_applySwap)
theorem flagLaw_countOut (h : flagLaw k s) : flagLaw k (countOut s) := by
  unfold countOut
  try simp only []
  repeat' split
  all_goals with_reducible repeat (first | exact h | apply flagLaw_withScan | apply flagLaw_checkPassEnd | apply flagLaw_completeStop)
theorem flagLaw_relink (ch : ChannelId) (a b : Descriptor) (h : flagLaw k s) : flagLaw k (relink ch a b s) := flagLaw_of (by simp) h
theorem flagLaw_removeAlert (ch : ChannelId) (h : flagLaw k s) : flagLaw k (removeAlert ch s) := flagLaw_of (by simp) h
theorem flagLaw_withdrawOffer (ch : ChannelId) (h : flagLaw k s) : flagLaw k (withdrawOffer ch s) := flagLaw_of (by simp) h
theorem flagLaw_applyCommit (ch : ChannelId) (im : Image) (h : flagLaw k s) : flagLaw k (applyCommit ch im s).1 := by
  unfold applyCommit
  try simp only []
  repeat' split
  all_goals with_reducible repeat (first | exact h | apply flagLaw_onChannel | apply flagLaw_removeJobs | apply flagLaw_relink | apply flagLaw_removeAlert | apply flagLaw_withdrawOffer)
theorem flagLaw_decideCommit (ch : ChannelId) (im : Image) (h : flagLaw k s) : flagLaw k (decideCommit ch im s).1 := by
  unfold decideCommit
  try simp only []
  repeat' split
  all_goals with_reducible repeat (first | exact h | apply flagLaw_applyCommit)
theorem flagLaw_decideDeferred (h : flagLaw k s) : flagLaw k (decideDeferred s) := by
  unfold decideDeferred
  try simp only []
  repeat' split
  all_goals with_reducible repeat (first | exact h | apply flagLaw_withDeferred | apply flagLaw_finishWorking | apply flagLaw_decideCommit)
theorem flagLaw_referenceShare (a : Completion) (h : flagLaw k s) : flagLaw k (referenceShare a s) := flagLaw_of (by simp) h
theorem flagLaw_zoneShare (a : Completion) (h : flagLaw k s) : flagLaw k (zoneShare a s) := by
  unfold zoneShare
  try simp only []
  repeat' split
  all_goals with_reducible repeat (first | exact h | apply flagLaw_withAlerts | apply flagLaw_raise | apply flagLaw_onChannel)
theorem flagLaw_fifoShare (a : Completion) (z : Zone) (c : Bool) (p : ReportPolicy) (h : flagLaw k s) :
    flagLaw k (fifoShare a z c p s) := by
  unfold fifoShare
  try simp only []
  repeat' split
  all_goals with_reducible repeat (first | exact h | apply flagLaw_withFifo | apply flagLaw_raise)
theorem flagLaw_lastStatusShare (a : Completion) (h : flagLaw k s) : flagLaw k (lastStatusShare a s) := flagLaw_of (by simp) h
theorem flagLaw_quietSequencer (j : InFlight) (st : JobStatus) (h : flagLaw k s) : flagLaw k (quietSequencer j st s) := by
  unfold quietSequencer
  try simp only []
  repeat' split
  all_goals with_reducible repeat (first | exact h | apply flagLaw_withSeq | apply flagLaw_raise | apply flagLaw_clampRequest | apply flagLaw_markJob)
theorem flagLaw_announceTo (a : Completion) (h : flagLaw k s) : flagLaw k (announceTo a s) := by
  unfold announceTo
  try simp only []
  repeat' split
  all_goals with_reducible repeat (first | exact h | apply flagLaw_countOut | apply flagLaw_decideDeferred | apply flagLaw_referenceShare | apply flagLaw_zoneShare | apply flagLaw_fifoShare | apply flagLaw_lastStatusShare)
theorem flagLaw_offerSequencer (h : flagLaw k s) : flagLaw k (offerSequencer s) := by
  unfold offerSequencer
  try simp only []
  repeat' split
  all_goals with_reducible repeat (first | exact h | apply flagLaw_withQueue | apply flagLaw_select)
theorem flagLaw_jobEnd (st : JobStatus) (h : flagLaw k s) : flagLaw k (jobEnd st s) := by
  unfold jobEnd
  try simp only []
  repeat' split
  all_goals with_reducible repeat (first | exact h | apply flagLaw_quietSequencer | apply flagLaw_announceTo | apply flagLaw_offerSequencer)
theorem flagLaw_abortJob (h : flagLaw k s) : flagLaw k (abortJob s).1 := by
  unfold abortJob
  try simp only []
  repeat' split
  all_goals with_reducible repeat (first | exact h | apply flagLaw_jobEnd)
theorem flagLaw_phaseEnd (pe : PhaseEnd) (h : flagLaw k s) : flagLaw k (phaseEnd pe s) := by
  unfold phaseEnd
  try simp only []
  repeat' split
  all_goals with_reducible repeat (first | exact h | apply flagLaw_withSeq | apply flagLaw_onChannel | apply flagLaw_onSlot | apply flagLaw_startPhase | apply flagLaw_jobEnd)
theorem flagLaw_sampleComplete (h : flagLaw k s) : flagLaw k (sampleComplete s) := by
  unfold sampleComplete
  try simp only []
  repeat' split
  all_goals with_reducible repeat (first | exact h | apply flagLaw_withSeq | apply flagLaw_enterArm | apply flagLaw_phaseEnd)
theorem flagLaw_overflowed (h : flagLaw k s) : flagLaw k (overflowed s) := by
  unfold overflowed
  try simp only []
  repeat' split
  all_goals with_reducible repeat (first | exact h | apply flagLaw_withSeq | apply flagLaw_runRequest | apply flagLaw_enterArm | apply flagLaw_phaseEnd)
theorem flagLaw_sequencerTb (h : flagLaw k s) : flagLaw k (sequencerTb s) := by
  unfold sequencerTb
  try simp only []
  repeat' split
  all_goals with_reducible repeat (first | exact h | apply flagLaw_withSeq | apply flagLaw_enterSettle | apply flagLaw_phaseEnd | apply flagLaw_sampleComplete | apply flagLaw_overflowed)
theorem flagLaw_sequencerSlow (h : flagLaw k s) : flagLaw k (sequencerSlow s) := flagLaw_of (by simp) h
theorem flagLaw_sequencerEdge (h : flagLaw k s) : flagLaw k (sequencerEdge s) := by
  unfold sequencerEdge
  try simp only []
  repeat' split
  all_goals with_reducible repeat (first | exact h | apply flagLaw_withSeq | apply flagLaw_startSample | apply flagLaw_sampleComplete | apply flagLaw_overflowed)
theorem flagLaw_deliverEdge (c : Bool) (h : flagLaw k s) : flagLaw k (deliverEdge c s) := by
  unfold deliverEdge
  try simp only []
  repeat' split
  all_goals with_reducible repeat (first | exact h | apply flagLaw_withFreeIndex | apply flagLaw_sequencerEdge)
theorem flagLaw_comparatorTo (b : Bool) (h : flagLaw k s) : flagLaw k (comparatorTo b s) := flagLaw_of (by simp) h
theorem flagLaw_oscillatorEdge (c : Bool) (h : flagLaw k s) : flagLaw k (oscillatorEdge c s) := by
  unfold oscillatorEdge
  try simp only []
  repeat' split
  all_goals with_reducible repeat (first | exact h | apply flagLaw_deliverEdge | apply flagLaw_comparatorTo)
theorem flagLaw_nodeMoves (h : flagLaw k s) : flagLaw k (nodeMoves s) := flagLaw_of (by simp) h
theorem flagLaw_stampTick (h : flagLaw k s) : flagLaw k (stampTick s) := by
  unfold stampTick
  try simp only []
  repeat' split
  all_goals with_reducible repeat (first | exact h | apply flagLaw_withTimebase)
theorem flagLaw_ageTick (h : flagLaw k s) : flagLaw k (ageTick s) := by
  unfold ageTick
  try simp only []
  repeat' split
  all_goals with_reducible repeat (first | exact h | apply flagLaw_withRefs)
theorem flagLaw_scanSlow (h : flagLaw k s) : flagLaw k (scanSlow s) := by
  unfold scanSlow
  try simp only []
  repeat' split
  all_goals with_reducible repeat (first | exact h | apply flagLaw_timerTick | apply flagLaw_trigSample)
theorem flagLaw_slowShare (h : flagLaw k s) : flagLaw k (slowShare s) := 
  eitherOrder_ind (fun _ n h => flagLaw_withFreeIndex n h) (flagLaw_scanSlow (flagLaw_ageTick (flagLaw_stampTick h)))
    (flagLaw_ageTick (flagLaw_scanSlow (flagLaw_stampTick h)))
theorem flagLaw_sequencerShare (b : SeqState) (w : Bool) (h : flagLaw k s) : flagLaw k (sequencerShare b w s) := by
  unfold sequencerShare
  try simp only []
  repeat' split
  all_goals with_reducible repeat (first | exact h | apply flagLaw_sequencerTb | apply flagLaw_sequencerSlow)
theorem flagLaw_cursorShare (b : Cursor) (h : flagLaw k s) : flagLaw k (cursorShare b s) := by
  unfold cursorShare
  try simp only []
  repeat' split
  all_goals with_reducible repeat (first | exact h | apply flagLaw_cursorMove)
theorem flagLaw_tbTick (l : Bool) (h : flagLaw k s) : flagLaw k (tbTick l s) := by
  unfold tbTick
  split
  · exact anyOrder_ind (fun _ n h => flagLaw_withFreeIndex n h) (fun _ h => flagLaw_sequencerShare _ _ h)
      (fun _ h => flagLaw_cursorShare _ h) (fun _ h => by split; exacts [flagLaw_slowShare h, h])
      (flagLaw_withPins _ (flagLaw_withTimebase _ h))
  · exact h
theorem flagLaw_slowTick (l : Bool) (h : flagLaw k s) : flagLaw k (slowTick l s) := by
  unfold slowTick
  try simp only []
  repeat' split
  all_goals with_reducible repeat (first | exact h | apply flagLaw_withTimebase | apply flagLaw_withPins | apply flagLaw_sequencerSlow | apply flagLaw_slowShare)
theorem flagLaw_refuse (r : Reason) (h : flagLaw k s) : flagLaw k (refuse r s).1 := h
theorem flagLaw_admitDirect (ch : ChannelId) (h : flagLaw k s) : flagLaw k (admitDirect ch s).1 := by
  unfold admitDirect
  try simp only []
  repeat' split
  all_goals with_reducible repeat (first | exact h | apply flagLaw_withQueue | apply flagLaw_select | apply flagLaw_refuse)
theorem flagLaw_measureNow (h : flagLaw k s) : flagLaw k (measureNow s).1 := by
  unfold measureNow
  try simp only []
  repeat' split
  all_goals with_reducible repeat (first | exact h | apply flagLaw_refuse | apply flagLaw_admitDirect)
theorem flagLaw_flushQueue (h : flagLaw k s) : flagLaw k (flushQueue s).1 := by
  unfold flushQueue
  try simp only []
  repeat' split
  all_goals with_reducible repeat (first | exact h | apply flagLaw_removeJobs | apply flagLaw_refuse)
theorem flagLaw_scanStart (h : flagLaw k s) : flagLaw k (scanStart s).1 := by
  unfold scanStart
  try simp only []
  repeat' split
  all_goals with_reducible repeat (first | exact h | apply flagLaw_withScan | apply flagLaw_passStart | apply flagLaw_refuse)
theorem flagLaw_scanOnce (h : flagLaw k s) : flagLaw k (scanOnce s).1 := by
  unfold scanOnce
  try simp only []
  repeat' split
  all_goals with_reducible repeat (first | exact h | apply flagLaw_withScan | apply flagLaw_passStart | apply flagLaw_refuse)
theorem flagLaw_scanStop (h : flagLaw k s) : flagLaw k (scanStop s).1 := by
  unfold scanStop
  try simp only []
  repeat' split
  all_goals with_reducible repeat (first | exact h | apply flagLaw_withScan | apply flagLaw_applySwap | apply flagLaw_removeJobs)
theorem flagLaw_swapBanks (h : flagLaw k s) : flagLaw k (swapBanks s).1 := by
  unfold swapBanks
  try simp only []
  repeat' split
  all_goals with_reducible repeat (first | exact h | apply flagLaw_withScan | apply flagLaw_refuse)
theorem flagLaw_commitChannel (h : flagLaw k s) : flagLaw k (commitChannel s).1 := by
  unfold commitChannel
  try simp only []
  repeat' split
  all_goals with_reducible repeat (first | exact h | apply flagLaw_withDeferred | apply flagLaw_decideCommit | apply flagLaw_refuse)
theorem flagLaw_fetchChannel (h : flagLaw k s) : flagLaw k (fetchChannel s).1 := by
  unfold fetchChannel
  try simp only []
  repeat' split
  all_goals with_reducible repeat (first | exact h | apply flagLaw_withStaging | apply flagLaw_refuse)
theorem flagLaw_invalidateReference (h : flagLaw k s) : flagLaw k (invalidateReference s).1 := by
  unfold invalidateReference
  try simp only []
  repeat' split
  all_goals with_reducible repeat (first | exact h | apply flagLaw_onSlot | apply flagLaw_invalidateAll | apply flagLaw_refuse)
theorem flagLaw_clearZone (h : flagLaw k s) : flagLaw k (clearZone s).1 := by
  unfold clearZone
  try simp only []
  repeat' split
  all_goals with_reducible repeat (first | exact h | apply flagLaw_withChannels | apply flagLaw_withAlerts | apply flagLaw_onChannel | apply flagLaw_removeAlert | apply flagLaw_refuse)
theorem flagLaw_clearAlerts (h : flagLaw k s) : flagLaw k (clearAlerts s).1 := by
  unfold clearAlerts
  try simp only []
  repeat' split
  all_goals with_reducible repeat (first | exact h | apply flagLaw_withAlerts)
theorem flagLaw_clearResults (h : flagLaw k s) : flagLaw k (clearResults s).1 := by
  unfold clearResults
  try simp only []
  repeat' split
  all_goals with_reducible repeat (first | exact h | apply flagLaw_withFifo | apply flagLaw_retry)
theorem flagLaw_setTimebase (h : flagLaw k s) : flagLaw k (setTimebase s).1 := by
  unfold setTimebase
  try simp only []
  repeat' split
  all_goals with_reducible repeat (first | exact h | apply flagLaw_withTimebase | apply flagLaw_invalidateAll | apply flagLaw_refuse)
theorem flagLaw_sleep (h : flagLaw k s) : flagLaw k (sleep s).1 := by
  unfold sleep
  try simp only []
  repeat' split
  all_goals with_reducible repeat (first | exact h | apply flagLaw_withFrontEnd | apply flagLaw_withTimebase | apply flagLaw_invalidateAll | apply flagLaw_refuse)
theorem flagLaw_wake (h : flagLaw k s) : flagLaw k (wake s).1 := by
  unfold wake
  try simp only []
  repeat' split
  all_goals with_reducible repeat (first | exact h | apply flagLaw_withFrontEnd | apply flagLaw_withTimebase)
theorem flagLaw_unknownCommand (h : flagLaw k s) : flagLaw k (unknownCommand s).1 := by
  unfold unknownCommand
  try simp only []
  repeat' split
  all_goals with_reducible repeat (first | exact h | apply flagLaw_refuse)
theorem flagLaw_endReset (l : Bool) (h : flagLaw k s) : flagLaw k (endReset l s) := by
  unfold endReset
  try simp only []
  repeat' split
  all_goals with_reducible repeat (first | exact h | apply flagLaw_withInReset | apply flagLaw_withFrontEnd | apply flagLaw_withPort | apply flagLaw_withPins)
theorem flagLaw_takeResult (h : flagLaw k s) : flagLaw k (takeResult s) := by
  unfold takeResult
  try simp only []
  repeat' split
  all_goals with_reducible repeat (first | exact h | apply flagLaw_withFifo)
theorem flagLaw_popResult (h : flagLaw k s) : flagLaw k (popResult s) := by
  unfold popResult
  try simp only []
  repeat' split
  all_goals with_reducible repeat (first | exact h | apply flagLaw_retry | apply flagLaw_takeResult)
theorem flagLaw_popAlert (h : flagLaw k s) : flagLaw k (popAlert s) := by
  unfold popAlert
  try simp only []
  repeat' split
  all_goals with_reducible repeat (first | exact h | apply flagLaw_withAlerts)
theorem flagLaw_readAction (a : Byte) (h : flagLaw k s) : flagLaw k (readAction a s) := by
  unfold readAction
  try simp only []
  repeat' split
  all_goals with_reducible repeat (first | exact h | apply flagLaw_popResult | apply flagLaw_popAlert)
theorem flagLaw_advancePointer (h : flagLaw k s) : flagLaw k (advancePointer s) := by
  unfold advancePointer
  try simp only []
  repeat' split
  all_goals with_reducible repeat (first | exact h | apply flagLaw_withPort)
theorem flagLaw_busStart (a : Byte) (h : flagLaw k s) : flagLaw k (busStart a s) := by
  unfold busStart
  try simp only []
  repeat' split
  all_goals with_reducible repeat (first | exact h | apply flagLaw_withPort)
theorem flagLaw_openWrite (h : flagLaw k s) : flagLaw k (openWrite s) := by
  unfold openWrite
  try simp only []
  repeat' split
  all_goals with_reducible repeat (first | exact h | apply flagLaw_busStart)
theorem flagLaw_copySnapshot (h : flagLaw k s) : flagLaw k (copySnapshot s) := by
  unfold copySnapshot
  try simp only []
  repeat' split
  all_goals with_reducible repeat (first | exact h | apply flagLaw_busStart)
theorem flagLaw_sendByte (a : State → State) (h : flagLaw k s) (ha : flagLaw k (a s)) : flagLaw k (sendByte a s) := flagLaw_advancePointer (flagLaw_withPort _ ha)
theorem flagLaw_windowRead (a : Byte) (e : State → State) (h : flagLaw k s) (he : ∀ t, flagLaw k t → flagLaw k (e t)) :
    flagLaw k (windowRead a e s) := by
  unfold windowRead
  split
  · exact h
  · split
    · refine flagLaw_sendByte _ h ?_
      split
      · exact he _ h
      · exact flagLaw_readAction _ h
    all_goals exact h
theorem flagLaw_issue (c : Byte) (f : State → State × Reply) (h : flagLaw k s) (hf : flagLaw k (f s).1) :
    flagLaw k (issue c f s) := by
  unfold issue
  split
  · exact flagLaw_collide h
  · exact flagLaw_recordOutcome _ _ hf
theorem flagLaw_issueAbort (h : flagLaw k s) : flagLaw k (issueAbort s) := by
  unfold issueAbort
  try simp only []
  repeat' split
  all_goals with_reducible repeat (first | exact h | apply flagLaw_recordOutcome | apply flagLaw_abortJob)
theorem flagLaw_writeEnables (v : Byte) (h : flagLaw k s) : flagLaw k (writeEnables v s) := flagLaw_of rfl h
theorem flagLaw_writeBank (a v : Byte) (h : flagLaw k s) : flagLaw k (writeBank a v s) := by
  unfold writeBank
  try simp only []
  repeat' split
  all_goals with_reducible repeat (first | exact h | apply flagLaw_withScan)
theorem flagLaw_writeOverrun (v : Byte) (h : flagLaw k s) : flagLaw k (writeOverrun v s) := by
  unfold writeOverrun
  try simp only []
  repeat' split
  all_goals with_reducible repeat (first | exact h | apply flagLaw_withScan | apply flagLaw_overrun)
theorem flagLaw_writePolicy (v : Byte) (h : flagLaw k s) : flagLaw k (writePolicy v s) := by
  unfold writePolicy
  try simp only []
  repeat' split
  all_goals with_reducible repeat (first | exact h | apply flagLaw_withFifo | apply flagLaw_retry)
theorem flagLaw_writePeriodLow (v : Byte) (h : flagLaw k s) : flagLaw k (writePeriodLow v s) := by
  unfold writePeriodLow
  try simp only []
  repeat' split
  all_goals with_reducible repeat (first | exact h | apply flagLaw_withScan)
theorem flagLaw_writePeriodHigh (v : Byte) (h : flagLaw k s) : flagLaw k (writePeriodHigh v s) := by
  unfold writePeriodHigh
  try simp only []
  repeat' split
  all_goals with_reducible repeat (first | exact h | apply flagLaw_withScan)
theorem flagLaw_writePlain (a v : Byte) (h : flagLaw k s) : flagLaw k (writePlain a v s) := by
  unfold writePlain
  try simp only []
  repeat' split
  all_goals with_reducible repeat (first | exact h | apply flagLaw_withTimebase | apply flagLaw_withStaging | apply flagLaw_withScan | apply flagLaw_withFifo | apply flagLaw_withCmd | apply flagLaw_writePeriodLow | apply flagLaw_writePeriodHigh)
theorem flagLaw_takeByte (v : Byte) (e : State → State) (h : flagLaw k s) (he : ∀ t, flagLaw k t → flagLaw k (e t)) :
    flagLaw k (takeByte v e s) := by
  unfold takeByte
  split
  · exact h
  · split
    · exact flagLaw_withPort _ h
    · exact he _ (flagLaw_advancePointer h)
    all_goals exact h
/-- R188: of the commands, ENGINE_RESET alone clears a flag. -/
theorem flagLaw_issueCode {c : Byte} (hc : c ≠ 0x50) (h : flagLaw k s) : flagLaw k (issueCode c s) := by
  unfold issueCode
  refine iteInduction (fun _ => ?_) (fun _ => ?_)
  · exact flagLaw_issue _ _ h (flagLaw_measureNow h)
  refine iteInduction (fun _ => ?_) (fun _ => ?_)
  · exact flagLaw_issueAbort h
  refine iteInduction (fun _ => ?_) (fun _ => ?_)
  · exact flagLaw_issue _ _ h (flagLaw_flushQueue h)
  refine iteInduction (fun _ => ?_) (fun _ => ?_)
  · exact flagLaw_issue _ _ h (flagLaw_scanStart h)
  refine iteInduction (fun _ => ?_) (fun _ => ?_)
  · exact flagLaw_issue _ _ h (flagLaw_scanStop h)
  refine iteInduction (fun _ => ?_) (fun _ => ?_)
  · exact flagLaw_issue _ _ h (flagLaw_scanOnce h)
  refine iteInduction (fun _ => ?_) (fun _ => ?_)
  · exact flagLaw_issue _ _ h (flagLaw_swapBanks h)
  refine iteInduction (fun _ => ?_) (fun _ => ?_)
  · exact flagLaw_issue _ _ h (flagLaw_commitChannel h)
  refine iteInduction (fun _ => ?_) (fun _ => ?_)
  · exact flagLaw_issue _ _ h (flagLaw_fetchChannel h)
  refine iteInduction (fun _ => ?_) (fun _ => ?_)
  · exact flagLaw_issue _ _ h (flagLaw_invalidateReference h)
  refine iteInduction (fun _ => ?_) (fun _ => ?_)
  · exact flagLaw_issue _ _ h (flagLaw_clearZone h)
  refine iteInduction (fun _ => ?_) (fun _ => ?_)
  · exact flagLaw_issue _ _ h (flagLaw_clearAlerts h)
  refine iteInduction (fun _ => ?_) (fun _ => ?_)
  · exact flagLaw_issue _ _ h (flagLaw_clearResults h)
  refine iteInduction (fun _ => ?_) (fun _ => ?_)
  · exact flagLaw_issue _ _ h (flagLaw_setTimebase h)
  refine iteInduction (fun _ => ?_) (fun _ => ?_)
  · exact flagLaw_issue _ _ h (flagLaw_sleep h)
  refine iteInduction (fun _ => ?_) (fun _ => ?_)
  · exact flagLaw_issue _ _ h (flagLaw_wake h)
  refine iteInduction (fun h50 => absurd h50 hc) (fun _ => ?_)
  exact flagLaw_issue _ _ h (flagLaw_unknownCommand h)

/-- R184: of the register writes, that of 10h, and of 50h at 18h, clear a flag. -/
theorem flagLaw_registerWrite {a v : Byte} (h10 : a ≠ 0x10) (h50 : ¬(a = 0x18 ∧ v = 0x50)) (h : flagLaw k s) :
    flagLaw k (registerWrite a v s) := by
  unfold registerWrite
  refine iteInduction (fun ha => flagLaw_issueCode (fun hv => h50 ⟨ha, hv⟩) h) (fun _ => ?_)
  refine iteInduction (fun _ => flagLaw_writeOverrun _ h) (fun _ => ?_)
  refine iteInduction (fun ha => absurd ha h10) (fun _ => ?_)
  refine iteInduction (fun _ => flagLaw_writeEnables _ h) (fun _ => ?_)
  refine iteInduction (fun _ => flagLaw_writePolicy _ h) (fun _ => ?_)
  exact iteInduction (fun _ => flagLaw_writeBank _ _ h) (fun _ => flagLaw_writePlain _ _ h)

/-- R164, R184: a data byte that is no write of 10h and no ENGINE_RESET. -/
theorem flagLaw_dataByte {a v : Byte} {e : State → State} (hw : ¬takesWrite 0x10 s ∧ ¬(takesWrite 0x18 s ∧ v = 0x50))
    (h : flagLaw k s) (he : takesWrite a s → ∀ t, flagLaw k t → flagLaw k (e t)) : flagLaw k (dataByte a v e s) := by
  by_cases ht : takesWrite s.port.pointer s
  · by_cases hp : s.port.pointer = a
    · rw [hp] at ht
      rw [dataByte_taken ht]
      exact he ht _ (flagLaw_withPort _ h)
    · rw [dataByte_elsewhere ht hp]
      exact flagLaw_registerWrite (fun hx => hw.1 (hx ▸ ht)) (fun hx => hw.2 ⟨hx.1 ▸ ht, hx.2⟩) (flagLaw_withPort _ h)
  · unfold dataByte takeByte
    split
    · exact h
    · rename_i hr
      split
      · exact flagLaw_withPort _ h
      · rename_i hb
        exact absurd ⟨by simpa using hr, hb, rfl⟩ ht
      all_goals exact h

/-- R164, R184: the same of the row of the pointer load. -/
theorem flagLaw_loadPointer {v : Byte} (hw : ¬takesWrite 0x10 s ∧ ¬(takesWrite 0x18 s ∧ v = 0x50)) (h : flagLaw k s) :
    flagLaw k (loadPointer v s) := by
  unfold loadPointer takeByte
  split
  · exact h
  · rename_i hr
    split
    · exact flagLaw_withPort _ h
    · rename_i hb
      have ht : takesWrite s.port.pointer s := ⟨by simpa using hr, hb, rfl⟩
      exact flagLaw_registerWrite (fun hx => hw.1 (hx ▸ ht)) (fun hx => hw.2 ⟨hx.1 ▸ ht, hx.2⟩) (flagLaw_withPort _ h)
    all_goals exact h

end Sys2Proof.Machine
end

