-- ==== Sys2Proof/Laws/JobLaw.lean ====
section
/-! SUPPORT. What keeps the law of the job in flight and of the FIFO's room (R41, R63, R147). -/

namespace Sys2Proof.Machine

set_option linter.unusedTactic false
set_option linter.unreachableTactic false

variable {s : State}

theorem jobLaw_of {t : State} (hs : t.seq.state = .idle ↔ t.seq.job = none) (hj : t.seq.job.isSome = s.seq.job.isSome)
    (ha : t.queue.available = s.queue.available) (hr : t.fifo.reserved = s.fifo.reserved)
    (hl : t.fifo.records.length ≤ s.fifo.records.length) (h : jobLaw s) : jobLaw t := by
  obtain ⟨_, h2, h3, h4⟩ := h
  refine ⟨hs, ?_, ?_, by omega⟩
  · rw [ha, h2, ← Option.not_isSome, ← Option.not_isSome, hj]
  · rw [hr, h3, hj]

/-- R41. -/
theorem jobLaw_isSome (h : jobLaw s) (hs : s.seq.state ≠ .idle) : s.seq.job.isSome = true := by
  cases hj : s.seq.job with
  | none => exact absurd (h.1.mpr hj) hs
  | some j => rfl

/-- The Sequencer's record changed, a job in flight before and after. -/
theorem jobLaw_withSeq {x : Sequencer} (h : jobLaw s) (hj : s.seq.job.isSome = true) (hx : x.job.isSome = true)
    (hi : x.state ≠ .idle) : jobLaw (s.withSeq x) := by
  refine jobLaw_of (s := s) ⟨fun h0 => absurd h0 hi, fun h0 => ?_⟩ (by simp [hx, hj]) rfl rfl (le_refl _) h
  simp at h0; rw [h0] at hx; cases hx

/-- Counts of the working copy changed. -/
theorem jobLaw_withWork (w : Working) (h : jobLaw s) : jobLaw (s.withSeq { s.seq with work := w }) := h

/-- The FIFO changed with no record more. -/
theorem jobLaw_withFifo {f : ResultFifo} (h : jobLaw s) (hr : f.reserved = s.fifo.reserved)
    (hl : f.records.length ≤ s.fifo.records.length) : jobLaw (s.withFifo f) :=
  jobLaw_of (s := s) h.1 rfl rfl hr hl h

theorem jobLaw_withPending (x : List Instr) (h : jobLaw s) : jobLaw (s.withPending x) := h
theorem jobLaw_withInReset (x : Bool) (h : jobLaw s) : jobLaw (s.withInReset x) := h
theorem jobLaw_withFrontEnd (x : FrontEnd) (h : jobLaw s) : jobLaw (s.withFrontEnd x) := h
theorem jobLaw_withTimebase (x : Timebase) (h : jobLaw s) : jobLaw (s.withTimebase x) := h
theorem jobLaw_withChannels (x : Vector Channel 16) (h : jobLaw s) : jobLaw (s.withChannels x) := h
theorem jobLaw_withStaging (x : Vector Byte 32) (h : jobLaw s) : jobLaw (s.withStaging x) := h
theorem jobLaw_withDeferred (x : Option DeferredCommit) (h : jobLaw s) : jobLaw (s.withDeferred x) := h
theorem jobLaw_withRefs (x : Vector RefSlot 4) (h : jobLaw s) : jobLaw (s.withRefs x) := h
theorem jobLaw_withScan (x : ScanController) (h : jobLaw s) : jobLaw (s.withScan x) := h
theorem jobLaw_withAlerts (x : AlertList) (h : jobLaw s) : jobLaw (s.withAlerts x) := h
theorem jobLaw_withPort (x : SerialPort) (h : jobLaw s) : jobLaw (s.withPort x) := h
theorem jobLaw_withCmd (x : CommandPort) (h : jobLaw s) : jobLaw (s.withCmd x) := h
theorem jobLaw_withEvents (x : EventUnit) (h : jobLaw s) : jobLaw (s.withEvents x) := h
theorem jobLaw_withPins (x : InputPins) (h : jobLaw s) : jobLaw (s.withPins x) := h
theorem jobLaw_withFreeIndex (x : Nat) (h : jobLaw s) : jobLaw (s.withFreeIndex x) := h

theorem jobLaw_raise (f : Flag) (h : jobLaw s) : jobLaw (raise f s) := by
  simpa [jobLaw] using h
theorem jobLaw_clampRequest (h : jobLaw s) : jobLaw (clampRequest s) := by
  simpa [jobLaw] using h
theorem jobLaw_runRequest (p : PinId) (h : jobLaw s) : jobLaw (runRequest p s) := by
  simpa [jobLaw] using h
theorem jobLaw_onChannel (ch : ChannelId) (f : Channel → Channel) (h : jobLaw s) : jobLaw (onChannel ch f s) := by
  simpa [jobLaw] using h
theorem jobLaw_setEngaged (m : Bool) (ch : ChannelId) (h : jobLaw s) : jobLaw (setEngaged m ch s) := by
  simpa [jobLaw] using h
theorem jobLaw_markJob (m : Bool) (j : InFlight) (h : jobLaw s) : jobLaw (markJob m j s) := by
  simpa [jobLaw] using h
theorem jobLaw_onSlot (ch : ChannelId) (f : RefSlot → RefSlot) (h : jobLaw s) : jobLaw (onSlot ch f s) := by
  simpa [jobLaw] using h
theorem jobLaw_invalidateAll (h : jobLaw s) : jobLaw (invalidateAll s) := by
  simpa [jobLaw] using h
theorem jobLaw_recordOutcome (c : Byte) (r : Reply) (h : jobLaw s) : jobLaw (recordOutcome c r s) := by
  simpa [jobLaw] using h
theorem jobLaw_collide (h : jobLaw s) : jobLaw (collide s) := by
  simpa [jobLaw] using h
theorem jobLaw_finishWorking (r : Reply) (h : jobLaw s) : jobLaw (finishWorking r s) := by
  simpa [jobLaw] using h
theorem jobLaw_startPhase (ch : ChannelId) (h : jobLaw s) (hj : s.seq.job.isSome = true) :
    jobLaw (startPhase ch s) := by
  refine jobLaw_of (s := s) ?_ (by simp) (by simp) (by simp) (by simp) h
  simp; exact (Option.isSome_iff_ne_none.mp hj)
theorem jobLaw_enterArm (h : jobLaw s) (hj : s.seq.job.isSome = true) : jobLaw (enterArm s) := jobLaw_withSeq h hj hj (by simp)
theorem jobLaw_enterSettle (h : jobLaw s) (hj : s.seq.job.isSome = true) : jobLaw (enterSettle s) := by
  unfold enterSettle
  have h1 : jobLaw (runRequest s.seq.work.pin
      (s.withSeq { s.seq with state := .settle, work := { s.seq.work with settleCount := 0 } })) :=
    jobLaw_runRequest _ (jobLaw_withSeq h hj hj (by simp))
  simp only []
  split
  · exact jobLaw_enterArm h1 hj
  · exact h1
theorem jobLaw_startSample (h : jobLaw s) (hj : s.seq.job.isSome = true) : jobLaw (startSample s) := jobLaw_withSeq h hj hj (by simp)
theorem jobLaw_decideOffer (n : Nat) (ch : ChannelId) (h : jobLaw s) : jobLaw (decideOffer n ch s) := by
  unfold decideOffer; repeat' split
  all_goals exact h
theorem jobLaw_retakeOffer (h : jobLaw s) : jobLaw (retakeOffer s) := by
  unfold retakeOffer
  try simp only []
  repeat' split
  all_goals with_reducible repeat (first | exact h | apply jobLaw_decideOffer)
theorem jobLaw_retake (h : jobLaw s) : jobLaw (retake s) := by
  unfold retake
  try simp only []
  repeat' split
  all_goals with_reducible repeat (first | exact h | apply jobLaw_retakeOffer)
theorem jobLaw_arbitrate (h : jobLaw s) (hr : arbiterReady s = true) : jobLaw (arbitrate s) := by
  have hn : s.seq.job = none := h.1.mp (arbiterReady_spec s hr).1
  obtain ⟨h1, h2, h3, h4⟩ := h
  simp [hn] at h3
  rcases arbitrate_spec s with ⟨_, he⟩ | ⟨q, rest, t, _, ht, he⟩ | ⟨q, rest, _, _, he⟩ <;> rw [he]
  · exact ⟨h1, h2, by simp [hn, h3], h4⟩
  · apply jobLaw_retake
    rcases reserve_spec s ht with ⟨hf, rfl⟩ | ⟨hf, _, rfl⟩
    · refine ⟨by simp, by simp, by simp, ?_⟩
      simp [freeSlots, Config.fifoCapacity] at hf ⊢
      omega
    · refine ⟨by simp, by simp, by simp, ?_⟩
      simp
      omega
  · split
    · exact ⟨h1, h2, by simp [hn, h3], h4⟩
    · exact ⟨h1, h2, by simp [hn, h3], h4⟩
theorem jobLaw_select (h : jobLaw s) : jobLaw (select s) := by
  unfold select
  split
  · rename_i hc
    simp only [Bool.and_eq_true] at hc
    exact jobLaw_arbitrate h hc.1
  · exact h
theorem jobLaw_retry (h : jobLaw s) : jobLaw (retry s) := by
  unfold retry
  split
  · rename_i hc
    simp only [Bool.and_eq_true] at hc
    exact jobLaw_arbitrate h hc.1
  · exact h
theorem jobLaw_applySwap (h : jobLaw s) : jobLaw (applySwap s) := by
  simpa [jobLaw] using h
theorem jobLaw_closePass (h : jobLaw s) : jobLaw (closePass s) := by
  simpa [jobLaw] using h
theorem jobLaw_passEnd (h : jobLaw s) : jobLaw (passEnd s) := by
  simpa [jobLaw] using h
theorem jobLaw_checkPassEnd (h : jobLaw s) : jobLaw (checkPassEnd s) := by
  simpa [jobLaw] using h
theorem jobLaw_offer (n : Nat) (ch : ChannelId) (h : jobLaw s) : jobLaw (offer n ch s) := by
  unfold offer
  try simp only []
  repeat' split
  all_goals with_reducible repeat (first | exact h | apply jobLaw_decideOffer | apply jobLaw_select)
theorem jobLaw_moveOnto (n : Nat) (h : jobLaw s) : jobLaw (moveOnto n s) := by
  unfold moveOnto
  try simp only []
  repeat' split
  all_goals with_reducible repeat (first | exact h | apply jobLaw_withScan | apply jobLaw_checkPassEnd | apply jobLaw_offer)
theorem jobLaw_cursorMove (h : jobLaw s) : jobLaw (cursorMove s) := by
  unfold cursorMove
  try simp only []
  repeat' split
  all_goals with_reducible repeat (first | exact h | apply jobLaw_moveOnto)
theorem jobLaw_passStart (h : jobLaw s) : jobLaw (passStart s) := by
  unfold passStart
  try simp only []
  repeat' split
  all_goals with_reducible repeat (first | exact h | apply jobLaw_withScan | apply jobLaw_moveOnto)
theorem jobLaw_overrun (h : jobLaw s) : jobLaw (overrun s) := by
  simpa [jobLaw] using h
theorem jobLaw_passDue (h : jobLaw s) : jobLaw (passDue s) := by
  unfold passDue
  try simp only []
  repeat' split
  all_goals with_reducible repeat (first | exact h | apply jobLaw_passStart | apply jobLaw_overrun)
theorem jobLaw_expiry (h : jobLaw s) : jobLaw (expiry s) := by
  unfold expiry
  try simp only []
  repeat' split
  all_goals with_reducible repeat (first | exact h | apply jobLaw_withScan | apply jobLaw_passDue)
theorem jobLaw_timerTick (h : jobLaw s) : jobLaw (timerTick s) := by
  unfold timerTick
  try simp only []
  repeat' split
  all_goals with_reducible repeat (first | exact h | apply jobLaw_withScan | apply jobLaw_expiry)
theorem jobLaw_qualifiedEdge (l : Bool) (h : jobLaw s) : jobLaw (qualifiedEdge l s) := by
  unfold qualifiedEdge
  try simp only []
  repeat' split
  all_goals with_reducible repeat (first | exact h | apply jobLaw_withScan | apply jobLaw_passDue)
theorem jobLaw_trigSample (h : jobLaw s) : jobLaw (trigSample s) := by
  unfold trigSample
  try simp only []
  repeat' split
  all_goals with_reducible repeat (first | exact h | apply jobLaw_withScan | apply jobLaw_qualifiedEdge)
theorem jobLaw_dropJobs (p : QueuedJob → Bool) (h : jobLaw s) : jobLaw (dropJobs p s) := h
theorem jobLaw_clearStallIfEmpty (h : jobLaw s) : jobLaw (clearStallIfEmpty s) := by
  unfold clearStallIfEmpty; split <;> exact h
theorem jobLaw_removeJobs (p : QueuedJob → Bool) (h : jobLaw s) : jobLaw (removeJobs p s).1 := by
  unfold removeJobs
  try simp only []
  repeat' split
  all_goals with_reducible repeat (first | exact h | apply jobLaw_retake | apply jobLaw_checkPassEnd | apply jobLaw_dropJobs | apply jobLaw_clearStallIfEmpty)
theorem jobLaw_completeStop (h : jobLaw s) : jobLaw (completeStop s) := by
  simpa [jobLaw] using h
theorem jobLaw_countOut (h : jobLaw s) : jobLaw (countOut s) := by
  simpa [jobLaw] using h
theorem jobLaw_relink (ch : ChannelId) (a b : Descriptor) (h : jobLaw s) : jobLaw (relink ch a b s) := by
  simpa [jobLaw] using h
theorem jobLaw_removeAlert (ch : ChannelId) (h : jobLaw s) : jobLaw (removeAlert ch s) := by
  simpa [jobLaw] using h
theorem jobLaw_withdrawOffer (ch : ChannelId) (h : jobLaw s) : jobLaw (withdrawOffer ch s) := by
  simpa [jobLaw] using h
theorem jobLaw_applyCommit (ch : ChannelId) (im : Image) (h : jobLaw s) : jobLaw (applyCommit ch im s).1 := by
  unfold applyCommit
  try simp only []
  repeat' split
  all_goals with_reducible repeat (first | exact h | apply jobLaw_onChannel | apply jobLaw_removeJobs | apply jobLaw_relink | apply jobLaw_removeAlert | apply jobLaw_withdrawOffer)
theorem jobLaw_decideCommit (ch : ChannelId) (im : Image) (h : jobLaw s) : jobLaw (decideCommit ch im s).1 := by
  unfold decideCommit
  try simp only []
  repeat' split
  all_goals with_reducible repeat (first | exact h | apply jobLaw_applyCommit)
theorem jobLaw_decideDeferred (h : jobLaw s) : jobLaw (decideDeferred s) := by
  unfold decideDeferred
  try simp only []
  repeat' split
  all_goals with_reducible repeat (first | exact h | apply jobLaw_withDeferred | apply jobLaw_finishWorking | apply jobLaw_decideCommit)
theorem jobLaw_jobEnd (st : JobStatus) (h : jobLaw s) : jobLaw (jobEnd st s) := by
  unfold jobEnd
  split
  · exact h
  · rename_i j hj
    refine jobLaw_select ?_
    obtain ⟨z, c, p, t, ht, hf⟩ := announceTo_fifo (quietSequencer j st s) (announce st j s)
    have hlen := fifoShare_length t (announce st j s) z c p
    obtain ⟨h1, h2, h3, h4⟩ := h
    simp [hj] at h3
    refine ⟨by simp [Sequencer.quiet], by simp [Sequencer.quiet], by simp [hf, Sequencer.quiet], ?_⟩
    simp only [State.withQueue_fifo, hf, fifoShare_reserved]
    rw [ht] at hlen
    simp only [quietSequencer_keeps] at hlen
    omega
theorem jobLaw_abortJob (h : jobLaw s) : jobLaw (abortJob s).1 := by
  unfold abortJob
  try simp only []
  repeat' split
  all_goals with_reducible repeat (first | exact h | apply jobLaw_jobEnd)
theorem jobLaw_phaseEnd (pe : PhaseEnd) (h : jobLaw s) : jobLaw (phaseEnd pe s) := by
  unfold phaseEnd
  simp only []
  split
  · exact h
  · rename_i j hj
    have hj' : s.seq.job.isSome = true := by simp [hj]
    have hi : s.seq.state ≠ .idle := fun h0 => by rw [h.1.mp h0] at hj; cases hj
    repeat' split
    · exact jobLaw_jobEnd _ (jobLaw_onChannel _ _ h)
    · refine jobLaw_startPhase _ (jobLaw_withSeq (jobLaw_onSlot _ _ (jobLaw_onChannel _ _ h)) ?_ ?_ ?_) ?_ <;>
        simp [hj, hi]
    all_goals exact jobLaw_jobEnd _ (jobLaw_onSlot _ _ (jobLaw_onChannel _ _ h))
theorem jobLaw_sampleComplete (h : jobLaw s) (hs : s.seq.state ≠ .idle) : jobLaw (sampleComplete s) := by
  unfold sampleComplete
  simp only []
  split
  · exact jobLaw_phaseEnd _ h
  · split
    · exact jobLaw_phaseEnd _ (jobLaw_withWork _ h)
    · exact jobLaw_enterArm (jobLaw_withWork _ h) (jobLaw_isSome h hs)
theorem jobLaw_overflowed (h : jobLaw s) (hs : s.seq.state ≠ .idle) : jobLaw (overflowed s) := by
  unfold overflowed
  simp only []
  have hj := jobLaw_isSome h hs
  split
  · exact jobLaw_enterArm (jobLaw_runRequest _ (jobLaw_withSeq h hj (by simpa using hj) (by simpa using hs))) (by simpa using hj)
  · exact jobLaw_phaseEnd _ h
theorem jobLaw_sequencerTb (h : jobLaw s) : jobLaw (sequencerTb s) := by
  unfold sequencerTb
  simp only []
  split
  · exact h
  · exact h
  all_goals (
    rename_i hst
    have hs : s.seq.state ≠ .idle := by rw [hst]; simp
    have hj := jobLaw_isSome h hs
    repeat' split)
  all_goals first
    | exact jobLaw_withWork _ h
    | exact jobLaw_enterSettle (jobLaw_withWork _ h) hj
    | exact jobLaw_phaseEnd _ (jobLaw_withWork _ h)
    | exact jobLaw_sampleComplete (jobLaw_withWork _ h) (by simpa using hs)
    | exact jobLaw_overflowed h hs
theorem jobLaw_sequencerSlow (h : jobLaw s) : jobLaw (sequencerSlow s) := by
  unfold sequencerSlow
  simp only []
  split
  · rename_i hst
    have hs : s.seq.state ≠ .idle := by rw [hst]; simp
    split
    · exact jobLaw_enterArm (jobLaw_withWork _ h) (jobLaw_isSome h hs)
    · exact jobLaw_withWork _ h
  all_goals exact h
theorem jobLaw_sequencerEdge (h : jobLaw s) : jobLaw (sequencerEdge s) := by
  unfold sequencerEdge
  simp only []
  split
  · exact h
  · exact h
  · exact h
  all_goals (
    rename_i hst
    have hs : s.seq.state ≠ .idle := by rw [hst]; simp
    have hj := jobLaw_isSome h hs
    repeat' split)
  all_goals first
    | exact jobLaw_startSample h hj
    | exact jobLaw_withWork _ h
    | exact jobLaw_overflowed h hs
    | exact jobLaw_sampleComplete (jobLaw_withWork _ h) (by simpa using hs)
theorem jobLaw_deliverEdge (c : Bool) (h : jobLaw s) : jobLaw (deliverEdge c s) := by
  unfold deliverEdge
  try simp only []
  repeat' split
  all_goals with_reducible repeat (first | exact h | apply jobLaw_withFreeIndex | apply jobLaw_sequencerEdge)
theorem jobLaw_oscillatorEdge (c : Bool) (h : jobLaw s) : jobLaw (oscillatorEdge c s) := by
  rw [oscillatorEdge_spec]
  try simp only []
  repeat' split
  all_goals with_reducible repeat (first | exact h | apply jobLaw_withFrontEnd | apply jobLaw_deliverEdge)
theorem jobLaw_nodeMoves (h : jobLaw s) : jobLaw (nodeMoves s) := by
  simpa [jobLaw] using h
theorem jobLaw_stampTick (h : jobLaw s) : jobLaw (stampTick s) := by
  unfold stampTick
  try simp only []
  repeat' split
  all_goals with_reducible repeat (first | exact h | apply jobLaw_withTimebase)
theorem jobLaw_ageTick (h : jobLaw s) : jobLaw (ageTick s) := by
  unfold ageTick
  try simp only []
  repeat' split
  all_goals with_reducible repeat (first | exact h | apply jobLaw_withRefs)
theorem jobLaw_scanSlow (h : jobLaw s) : jobLaw (scanSlow s) := by
  unfold scanSlow
  try simp only []
  repeat' split
  all_goals with_reducible repeat (first | exact h | apply jobLaw_timerTick | apply jobLaw_trigSample)
theorem jobLaw_slowShare (h : jobLaw s) : jobLaw (slowShare s) := 
  eitherOrder_ind (fun _ n h => jobLaw_withFreeIndex n h) (jobLaw_scanSlow (jobLaw_ageTick (jobLaw_stampTick h)))
    (jobLaw_ageTick (jobLaw_scanSlow (jobLaw_stampTick h)))
theorem jobLaw_sequencerShare (b : SeqState) (w : Bool) (h : jobLaw s) : jobLaw (sequencerShare b w s) := by
  unfold sequencerShare
  try simp only []
  repeat' split
  all_goals with_reducible repeat (first | exact h | apply jobLaw_sequencerTb | apply jobLaw_sequencerSlow)
theorem jobLaw_cursorShare (b : Cursor) (h : jobLaw s) : jobLaw (cursorShare b s) := by
  unfold cursorShare
  try simp only []
  repeat' split
  all_goals with_reducible repeat (first | exact h | apply jobLaw_cursorMove)
theorem jobLaw_tbTick (l : Bool) (h : jobLaw s) : jobLaw (tbTick l s) := by
  unfold tbTick
  split
  · exact anyOrder_ind (fun _ n h => jobLaw_withFreeIndex n h) (fun _ h => jobLaw_sequencerShare _ _ h)
      (fun _ h => jobLaw_cursorShare _ h) (fun _ h => by split; exacts [jobLaw_slowShare h, h])
      (jobLaw_withPins _ (jobLaw_withTimebase _ h))
  · exact h
theorem jobLaw_slowTick (l : Bool) (h : jobLaw s) : jobLaw (slowTick l s) := by
  unfold slowTick
  try simp only []
  repeat' split
  all_goals with_reducible repeat (first | exact h | apply jobLaw_withTimebase | apply jobLaw_withPins | apply jobLaw_sequencerSlow | apply jobLaw_slowShare)
theorem jobLaw_refuse (r : Reason) (h : jobLaw s) : jobLaw (refuse r s).1 := h
theorem jobLaw_admitDirect (ch : ChannelId) (h : jobLaw s) : jobLaw (admitDirect ch s).1 := by
  unfold admitDirect
  simp only []
  repeat' split
  all_goals first | exact h | exact jobLaw_select h
theorem jobLaw_measureNow (h : jobLaw s) : jobLaw (measureNow s).1 := by
  unfold measureNow
  try simp only []
  repeat' split
  all_goals with_reducible repeat (first | exact h | apply jobLaw_refuse | apply jobLaw_admitDirect)
theorem jobLaw_flushQueue (h : jobLaw s) : jobLaw (flushQueue s).1 := by
  unfold flushQueue
  try simp only []
  repeat' split
  all_goals with_reducible repeat (first | exact h | apply jobLaw_removeJobs | apply jobLaw_refuse)
theorem jobLaw_scanStart (h : jobLaw s) : jobLaw (scanStart s).1 := by
  unfold scanStart
  try simp only []
  repeat' split
  all_goals with_reducible repeat (first | exact h | apply jobLaw_withScan | apply jobLaw_passStart | apply jobLaw_refuse)
theorem jobLaw_scanOnce (h : jobLaw s) : jobLaw (scanOnce s).1 := by
  unfold scanOnce
  try simp only []
  repeat' split
  all_goals with_reducible repeat (first | exact h | apply jobLaw_withScan | apply jobLaw_passStart | apply jobLaw_refuse)
theorem jobLaw_scanStop (h : jobLaw s) : jobLaw (scanStop s).1 := by
  unfold scanStop
  try simp only []
  repeat' split
  all_goals with_reducible repeat (first | exact h | apply jobLaw_withScan | apply jobLaw_applySwap | apply jobLaw_removeJobs)
theorem jobLaw_swapBanks (h : jobLaw s) : jobLaw (swapBanks s).1 := by
  unfold swapBanks
  try simp only []
  repeat' split
  all_goals with_reducible repeat (first | exact h | apply jobLaw_withScan | apply jobLaw_refuse)
theorem jobLaw_commitChannel (h : jobLaw s) : jobLaw (commitChannel s).1 := by
  unfold commitChannel
  try simp only []
  repeat' split
  all_goals with_reducible repeat (first | exact h | apply jobLaw_withDeferred | apply jobLaw_decideCommit | apply jobLaw_refuse)
theorem jobLaw_fetchChannel (h : jobLaw s) : jobLaw (fetchChannel s).1 := by
  unfold fetchChannel
  try simp only []
  repeat' split
  all_goals with_reducible repeat (first | exact h | apply jobLaw_withStaging | apply jobLaw_refuse)
theorem jobLaw_invalidateReference (h : jobLaw s) : jobLaw (invalidateReference s).1 := by
  unfold invalidateReference
  try simp only []
  repeat' split
  all_goals with_reducible repeat (first | exact h | apply jobLaw_onSlot | apply jobLaw_invalidateAll | apply jobLaw_refuse)
theorem jobLaw_clearZone (h : jobLaw s) : jobLaw (clearZone s).1 := by
  unfold clearZone
  try simp only []
  repeat' split
  all_goals with_reducible repeat (first | exact h | apply jobLaw_withChannels | apply jobLaw_withAlerts | apply jobLaw_onChannel | apply jobLaw_removeAlert | apply jobLaw_refuse)
theorem jobLaw_clearAlerts (h : jobLaw s) : jobLaw (clearAlerts s).1 := by
  unfold clearAlerts
  try simp only []
  repeat' split
  all_goals with_reducible repeat (first | exact h | apply jobLaw_withAlerts)
theorem jobLaw_clearResults (h : jobLaw s) : jobLaw (clearResults s).1 := jobLaw_retry (jobLaw_withFifo h rfl (Nat.zero_le _))
theorem jobLaw_setTimebase (h : jobLaw s) : jobLaw (setTimebase s).1 := by
  unfold setTimebase
  try simp only []
  repeat' split
  all_goals with_reducible repeat (first | exact h | apply jobLaw_withTimebase | apply jobLaw_invalidateAll | apply jobLaw_refuse)
theorem jobLaw_sleep (h : jobLaw s) : jobLaw (sleep s).1 := by
  unfold sleep
  try simp only []
  repeat' split
  all_goals with_reducible repeat (first | exact h | apply jobLaw_withFrontEnd | apply jobLaw_withTimebase | apply jobLaw_invalidateAll | apply jobLaw_refuse)
theorem jobLaw_wake (h : jobLaw s) : jobLaw (wake s).1 := by
  unfold wake
  try simp only []
  repeat' split
  all_goals with_reducible repeat (first | exact h | apply jobLaw_withFrontEnd | apply jobLaw_withTimebase)
theorem jobLaw_unknownCommand (h : jobLaw s) : jobLaw (unknownCommand s).1 := by
  unfold unknownCommand
  try simp only []
  repeat' split
  all_goals with_reducible repeat (first | exact h | apply jobLaw_refuse)
theorem jobLaw_quietEngine (h : jobLaw s) : jobLaw (quietEngine s) := by
  refine ⟨?_, ?_, ?_, ?_⟩ <;> simp [quietEngine, Sequencer.quiet, JobQueue.quiet, ResultFifo.quiet]
theorem jobLaw_engineReset (h : jobLaw s) : jobLaw (engineReset s) := by
  unfold engineReset
  try simp only []
  repeat' split
  all_goals with_reducible repeat (first | exact h | apply jobLaw_raise | apply jobLaw_recordOutcome | apply jobLaw_quietEngine)
theorem jobLaw_powerOn (h : jobLaw s) : jobLaw (powerOn s) := by
  refine ⟨?_, ?_, ?_, ?_⟩ <;> simp [powerOn, State.reset, Sequencer.quiet, JobQueue.quiet, ResultFifo.reset]
theorem jobLaw_endReset (l : Bool) (h : jobLaw s) : jobLaw (endReset l s) := by
  unfold endReset
  try simp only []
  repeat' split
  all_goals with_reducible repeat (first | exact h | apply jobLaw_withInReset | apply jobLaw_withFrontEnd | apply jobLaw_withPort | apply jobLaw_withPins)
theorem jobLaw_takeResult (h : jobLaw s) : jobLaw (takeResult s) := by
  unfold takeResult
  split
  · exact h
  · rename_i r rest hr
    exact jobLaw_withFifo h rfl (by simp [hr])
theorem jobLaw_popResult (h : jobLaw s) : jobLaw (popResult s) := by
  unfold popResult
  try simp only []
  repeat' split
  all_goals with_reducible repeat (first | exact h | apply jobLaw_retry | apply jobLaw_takeResult)
theorem jobLaw_popAlert (h : jobLaw s) : jobLaw (popAlert s) := by
  unfold popAlert
  try simp only []
  repeat' split
  all_goals with_reducible repeat (first | exact h | apply jobLaw_withAlerts)
theorem jobLaw_readAction (a : Byte) (h : jobLaw s) : jobLaw (readAction a s) := by
  unfold readAction
  try simp only []
  repeat' split
  all_goals with_reducible repeat (first | exact h | apply jobLaw_popResult | apply jobLaw_popAlert)
theorem jobLaw_advancePointer (h : jobLaw s) : jobLaw (advancePointer s) := by
  unfold advancePointer
  try simp only []
  repeat' split
  all_goals with_reducible repeat (first | exact h | apply jobLaw_withPort)
theorem jobLaw_busStart (a : Byte) (h : jobLaw s) : jobLaw (busStart a s) := by
  unfold busStart
  try simp only []
  repeat' split
  all_goals with_reducible repeat (first | exact h | apply jobLaw_withPort)
theorem jobLaw_openWrite (h : jobLaw s) : jobLaw (openWrite s) := by
  unfold openWrite
  try simp only []
  repeat' split
  all_goals with_reducible repeat (first | exact h | apply jobLaw_busStart)
theorem jobLaw_copySnapshot (h : jobLaw s) : jobLaw (copySnapshot s) := by
  unfold copySnapshot
  try simp only []
  repeat' split
  all_goals with_reducible repeat (first | exact h | apply jobLaw_busStart)
theorem jobLaw_sendByte (a : State → State) (h : jobLaw s) (ha : jobLaw (a s)) : jobLaw (sendByte a s) := jobLaw_advancePointer (jobLaw_withPort _ ha)
theorem jobLaw_windowRead (a : Byte) (e : State → State) (h : jobLaw s) (he : ∀ t, jobLaw t → jobLaw (e t)) :
    jobLaw (windowRead a e s) := by
  unfold windowRead
  split
  · exact h
  · split
    · refine jobLaw_sendByte _ h ?_
      split
      · exact he _ h
      · exact jobLaw_readAction _ h
    all_goals exact h
theorem jobLaw_issue (c : Byte) (f : State → State × Reply) (h : jobLaw s) (hf : jobLaw (f s).1) :
    jobLaw (issue c f s) := by
  unfold issue
  split
  · exact jobLaw_collide h
  · exact jobLaw_recordOutcome _ _ hf
theorem jobLaw_issueAbort (h : jobLaw s) : jobLaw (issueAbort s) := by
  unfold issueAbort
  try simp only []
  repeat' split
  all_goals with_reducible repeat (first | exact h | apply jobLaw_recordOutcome | apply jobLaw_abortJob)
theorem jobLaw_issueCode (c : Byte) (h : jobLaw s) : jobLaw (issueCode c s) := by
  unfold issueCode
  refine iteInduction (fun _ => ?_) (fun _ => ?_)
  · exact jobLaw_issue _ _ h (jobLaw_measureNow h)
  refine iteInduction (fun _ => ?_) (fun _ => ?_)
  · exact jobLaw_issueAbort h
  refine iteInduction (fun _ => ?_) (fun _ => ?_)
  · exact jobLaw_issue _ _ h (jobLaw_flushQueue h)
  refine iteInduction (fun _ => ?_) (fun _ => ?_)
  · exact jobLaw_issue _ _ h (jobLaw_scanStart h)
  refine iteInduction (fun _ => ?_) (fun _ => ?_)
  · exact jobLaw_issue _ _ h (jobLaw_scanStop h)
  refine iteInduction (fun _ => ?_) (fun _ => ?_)
  · exact jobLaw_issue _ _ h (jobLaw_scanOnce h)
  refine iteInduction (fun _ => ?_) (fun _ => ?_)
  · exact jobLaw_issue _ _ h (jobLaw_swapBanks h)
  refine iteInduction (fun _ => ?_) (fun _ => ?_)
  · exact jobLaw_issue _ _ h (jobLaw_commitChannel h)
  refine iteInduction (fun _ => ?_) (fun _ => ?_)
  · exact jobLaw_issue _ _ h (jobLaw_fetchChannel h)
  refine iteInduction (fun _ => ?_) (fun _ => ?_)
  · exact jobLaw_issue _ _ h (jobLaw_invalidateReference h)
  refine iteInduction (fun _ => ?_) (fun _ => ?_)
  · exact jobLaw_issue _ _ h (jobLaw_clearZone h)
  refine iteInduction (fun _ => ?_) (fun _ => ?_)
  · exact jobLaw_issue _ _ h (jobLaw_clearAlerts h)
  refine iteInduction (fun _ => ?_) (fun _ => ?_)
  · exact jobLaw_issue _ _ h (jobLaw_clearResults h)
  refine iteInduction (fun _ => ?_) (fun _ => ?_)
  · exact jobLaw_issue _ _ h (jobLaw_setTimebase h)
  refine iteInduction (fun _ => ?_) (fun _ => ?_)
  · exact jobLaw_issue _ _ h (jobLaw_sleep h)
  refine iteInduction (fun _ => ?_) (fun _ => ?_)
  · exact jobLaw_issue _ _ h (jobLaw_wake h)
  refine iteInduction (fun _ => ?_) (fun _ => ?_)
  · exact jobLaw_engineReset h
  exact jobLaw_issue _ _ h (jobLaw_unknownCommand h)
theorem jobLaw_clearFlags (v : Byte) (h : jobLaw s) : jobLaw (clearFlags v s) := by
  unfold clearFlags
  try simp only []
  repeat' split
  all_goals with_reducible repeat (first | exact h | apply jobLaw_withEvents)
theorem jobLaw_writeEnables (v : Byte) (h : jobLaw s) : jobLaw (writeEnables v s) := by
  unfold writeEnables
  try simp only []
  repeat' split
  all_goals with_reducible repeat (first | exact h | apply jobLaw_withEvents)
theorem jobLaw_writeBank (a v : Byte) (h : jobLaw s) : jobLaw (writeBank a v s) := by
  unfold writeBank
  try simp only []
  repeat' split
  all_goals with_reducible repeat (first | exact h | apply jobLaw_withScan)
theorem jobLaw_writeOverrun (v : Byte) (h : jobLaw s) : jobLaw (writeOverrun v s) := by
  unfold writeOverrun
  try simp only []
  repeat' split
  all_goals with_reducible repeat (first | exact h | apply jobLaw_withScan | apply jobLaw_overrun)
theorem jobLaw_writePolicy (v : Byte) (h : jobLaw s) : jobLaw (writePolicy v s) := jobLaw_retry h
theorem jobLaw_writePeriodLow (v : Byte) (h : jobLaw s) : jobLaw (writePeriodLow v s) := by
  unfold writePeriodLow
  try simp only []
  repeat' split
  all_goals with_reducible repeat (first | exact h | apply jobLaw_withScan)
theorem jobLaw_writePeriodHigh (v : Byte) (h : jobLaw s) : jobLaw (writePeriodHigh v s) := by
  unfold writePeriodHigh
  try simp only []
  repeat' split
  all_goals with_reducible repeat (first | exact h | apply jobLaw_withScan)
theorem jobLaw_writePlain (a v : Byte) (h : jobLaw s) : jobLaw (writePlain a v s) := by
  unfold writePlain
  simp only []
  repeat' refine iteInduction (fun _ => ?_) (fun _ => ?_)
  all_goals first | exact h | exact jobLaw_writePeriodLow _ h | exact jobLaw_writePeriodHigh _ h
theorem jobLaw_registerWrite (a v : Byte) (h : jobLaw s) : jobLaw (registerWrite a v s) := by
  unfold registerWrite
  try simp only []
  repeat' split
  all_goals with_reducible repeat (first | exact h | apply jobLaw_issueCode | apply jobLaw_clearFlags | apply jobLaw_writeEnables | apply jobLaw_writeBank | apply jobLaw_writeOverrun | apply jobLaw_writePolicy | apply jobLaw_writePlain)
theorem jobLaw_takeByte (v : Byte) (e : State → State) (h : jobLaw s) (he : ∀ t, jobLaw t → jobLaw (e t)) :
    jobLaw (takeByte v e s) := by
  unfold takeByte
  split
  · exact h
  · split
    · exact jobLaw_withPort _ h
    · exact he _ (jobLaw_advancePointer h)
    all_goals exact h
theorem jobLaw_dataByte (a v : Byte) (e : State → State) (h : jobLaw s) (he : ∀ t, jobLaw t → jobLaw (e t)) :
    jobLaw (dataByte a v e s) := 
  jobLaw_takeByte _ _ h (fun t ht => by split; exacts [he t ht, jobLaw_registerWrite _ _ ht])
theorem jobLaw_loadPointer (v : Byte) (h : jobLaw s) : jobLaw (loadPointer v s) := jobLaw_takeByte _ _ h (fun _ ht => jobLaw_registerWrite _ _ ht)

end Sys2Proof.Machine
end

