-- ==== Sys2Proof/Laws/NodeLaw.lean ====
section
/-! SUPPORT. What keeps the law of the node (R4). -/

namespace Sys2Proof.Machine

set_option linter.unusedTactic false
set_option linter.unreachableTactic false

variable {s : State}

/-- R4: what the law asks of the front end in a state of the Sequencer. -/
def nodeShape (st : SeqState) (pin : PinId) (on : Bool) (fe : FrontEnd) : Prop :=
  match st with
  | .idle => fe = (if on then .clamped else .held)
  | .discharge => fe = .clamped ∧ on = true
  | .settle => fe.selected = some pin ∧ on = true
  | .arm => fe.selected = some pin ∧ on = true
  | .count => fe.selected = some pin ∧ on = true

theorem nodeLaw_iff : nodeLaw s ↔ (s.inReset = true → s.timebase.power = .awake) ∧
    nodeShape s.seq.state s.seq.work.pin (clocked s) s.frontEnd := by
  unfold nodeLaw nodeShape
  cases s.seq.state <;> rfl

theorem nodeLaw_of {t : State} (hr : t.inReset = s.inReset) (hp : t.timebase.power = s.timebase.power)
    (hs : nodeShape t.seq.state t.seq.work.pin (clocked s) t.frontEnd) (h : nodeLaw s) : nodeLaw t := by
  have hc : clocked t = clocked s := by simp [clocked, hr, hp]
  rw [nodeLaw_iff, hc, hr, hp]
  exact ⟨h.1, hs⟩

/-- A job runs only while ticks arrive. -/
theorem nodeLaw_clocked (h : nodeLaw s) (hs : s.seq.state ≠ .idle) : clocked s = true := by
  have h2 := (nodeLaw_iff.mp h).2
  cases hst : s.seq.state <;> rw [hst] at h2 <;> simp_all [nodeShape]

/-- R1: while ticks arrive, a clamp request closes the clamp. -/
theorem nodeLaw_clampRequest (h : nodeLaw s) (hc : clocked s = true) : (clampRequest s).frontEnd = .clamped := by
  have h2 := (nodeLaw_iff.mp h).2
  rw [hc] at h2
  unfold clampRequest
  cases hfe : s.frontEnd with
  | clamped => exact hfe
  | running => rfl
  | held => rw [hfe] at h2; cases hst : s.seq.state <;> rw [hst] at h2 <;> simp [nodeShape, FrontEnd.selected] at h2

theorem nodeLaw_withWork {w : Working} (h : nodeLaw s) (hw : w.pin = s.seq.work.pin) :
    nodeLaw (s.withSeq { s.seq with work := w }) := by
  refine nodeLaw_of (s := s) rfl rfl ?_ h
  have h2 := (nodeLaw_iff.mp h).2
  simp only [State.withSeq_seq, State.withSeq_frontEnd, hw]
  exact h2

/-- R2: a change of the comparator output leaves the selected pin. -/
theorem nodeLaw_comparator {pin : PinId} (high : Bool) (h : nodeLaw s) (hf : s.frontEnd.selected = some pin) :
    nodeLaw (s.withFrontEnd (.running pin high)) := by
  refine nodeLaw_of (s := s) rfl rfl ?_ h
  have h2 := (nodeLaw_iff.mp h).2
  show nodeShape s.seq.state s.seq.work.pin (clocked s) (.running pin high)
  cases hfe : s.frontEnd with
  | clamped => rw [hfe] at hf; cases hf
  | held => rw [hfe] at hf; cases hf
  | running n b =>
    rw [hfe] at hf h2
    obtain rfl : n = pin := Option.some.inj hf
    cases hst : s.seq.state <;> rw [hst] at h2
    · simp only [nodeShape] at h2; split at h2 <;> cases h2
    · cases h2.1
    all_goals exact h2
  all_goals exact h2

theorem nodeLaw_withPending (x : List Instr) (h : nodeLaw s) : nodeLaw (s.withPending x) := h
theorem nodeLaw_withChannels (x : Vector Channel 16) (h : nodeLaw s) : nodeLaw (s.withChannels x) := h
theorem nodeLaw_withStaging (x : Vector Byte 32) (h : nodeLaw s) : nodeLaw (s.withStaging x) := h
theorem nodeLaw_withDeferred (x : Option DeferredCommit) (h : nodeLaw s) : nodeLaw (s.withDeferred x) := h
theorem nodeLaw_withRefs (x : Vector RefSlot 4) (h : nodeLaw s) : nodeLaw (s.withRefs x) := h
theorem nodeLaw_withQueue (x : JobQueue) (h : nodeLaw s) : nodeLaw (s.withQueue x) := h
theorem nodeLaw_withScan (x : ScanController) (h : nodeLaw s) : nodeLaw (s.withScan x) := h
theorem nodeLaw_withAlerts (x : AlertList) (h : nodeLaw s) : nodeLaw (s.withAlerts x) := h
theorem nodeLaw_withFifo (x : ResultFifo) (h : nodeLaw s) : nodeLaw (s.withFifo x) := h
theorem nodeLaw_withPort (x : SerialPort) (h : nodeLaw s) : nodeLaw (s.withPort x) := h
theorem nodeLaw_withCmd (x : CommandPort) (h : nodeLaw s) : nodeLaw (s.withCmd x) := h
theorem nodeLaw_withEvents (x : EventUnit) (h : nodeLaw s) : nodeLaw (s.withEvents x) := h
theorem nodeLaw_withPins (x : InputPins) (h : nodeLaw s) : nodeLaw (s.withPins x) := h
theorem nodeLaw_withFreeIndex (x : Nat) (h : nodeLaw s) : nodeLaw (s.withFreeIndex x) := h

theorem nodeLaw_raise (f : Flag) (h : nodeLaw s) : nodeLaw (raise f s) := by
  simpa [nodeLaw, clocked, drivenPin] using h
theorem nodeLaw_onChannel (ch : ChannelId) (f : Channel → Channel) (h : nodeLaw s) : nodeLaw (onChannel ch f s) := by
  simpa [nodeLaw, clocked, drivenPin] using h
theorem nodeLaw_setEngaged (m : Bool) (ch : ChannelId) (h : nodeLaw s) : nodeLaw (setEngaged m ch s) := by
  simpa [nodeLaw, clocked, drivenPin] using h
theorem nodeLaw_markJob (m : Bool) (j : InFlight) (h : nodeLaw s) : nodeLaw (markJob m j s) := by
  simpa [nodeLaw, clocked, drivenPin] using h
theorem nodeLaw_onSlot (ch : ChannelId) (f : RefSlot → RefSlot) (h : nodeLaw s) : nodeLaw (onSlot ch f s) := by
  simpa [nodeLaw, clocked, drivenPin] using h
theorem nodeLaw_invalidateAll (h : nodeLaw s) : nodeLaw (invalidateAll s) := by
  simpa [nodeLaw, clocked, drivenPin] using h
theorem nodeLaw_recordOutcome (c : Byte) (r : Reply) (h : nodeLaw s) : nodeLaw (recordOutcome c r s) := by
  simpa [nodeLaw, clocked, drivenPin] using h
theorem nodeLaw_collide (h : nodeLaw s) : nodeLaw (collide s) := by
  simpa [nodeLaw, clocked, drivenPin] using h
theorem nodeLaw_finishWorking (r : Reply) (h : nodeLaw s) : nodeLaw (finishWorking r s) := by
  simpa [nodeLaw, clocked, drivenPin] using h
theorem nodeLaw_startPhase (ch : ChannelId) (h : nodeLaw s) (hc : clocked s = true) : nodeLaw (startPhase ch s) := by
  refine nodeLaw_of (s := s) (by simp) (by simp) ?_ h
  have := nodeLaw_clampRequest h hc
  simp only [startPhase_state, nodeShape]
  refine ⟨?_, hc⟩
  unfold startPhase
  unfold clampRequest at this ⊢
  simp only [State.withSeq_frontEnd]
  split <;> simp_all
theorem nodeLaw_enterArm (h : nodeLaw s) (hf : s.frontEnd.selected = some s.seq.work.pin) (hc : clocked s = true) :
    nodeLaw (enterArm s) := nodeLaw_of (s := s) rfl rfl ⟨hf, hc⟩ h
theorem nodeLaw_enterSettle (h : nodeLaw s) (hc : clocked s = true) : nodeLaw (enterSettle s) := by
  unfold enterSettle
  simp only []
  split
  · exact nodeLaw_of (s := s) rfl rfl ⟨rfl, hc⟩ h
  · exact nodeLaw_of (s := s) rfl rfl ⟨rfl, hc⟩ h
theorem nodeLaw_startSample (h : nodeLaw s) (hf : s.frontEnd.selected = some s.seq.work.pin) (hc : clocked s = true) :
    nodeLaw (startSample s) := nodeLaw_of (s := s) rfl rfl ⟨hf, hc⟩ h
theorem nodeLaw_decideOffer (n : Nat) (ch : ChannelId) (h : nodeLaw s) : nodeLaw (decideOffer n ch s) := by
  simpa [nodeLaw, clocked, drivenPin] using h
theorem nodeLaw_retakeOffer (h : nodeLaw s) : nodeLaw (retakeOffer s) := by
  simpa [nodeLaw, clocked, drivenPin] using h
theorem nodeLaw_retake (h : nodeLaw s) : nodeLaw (retake s) := by
  simpa [nodeLaw, clocked, drivenPin] using h
theorem nodeLaw_jobStart (q : QueuedJob) (h : nodeLaw s) (hc : clocked s = true) : nodeLaw (jobStart q s) := by
  unfold jobStart
  refine nodeLaw_startPhase _ (nodeLaw_markJob _ _ (nodeLaw_withQueue _ ?_)) (by simp [clocked] at hc ⊢; exact hc)
  exact nodeLaw_of (s := s) rfl rfl (nodeLaw_iff.mp h).2 h
theorem nodeLaw_arbitrate (h : nodeLaw s) (hr : arbiterReady s = true) : nodeLaw (arbitrate s) := by
  have hc := (arbiterReady_spec s hr).2.2
  rcases arbitrate_spec s with ⟨_, he⟩ | ⟨q, rest, t, _, ht, he⟩ | ⟨q, rest, _, _, he⟩ <;> rw [he]
  · exact h
  · apply nodeLaw_retake
    rcases reserve_spec s ht with ⟨hf, rfl⟩ | ⟨hf, _, rfl⟩
    · exact nodeLaw_jobStart _ h hc
    · exact nodeLaw_jobStart _ h hc
  · split <;> exact h
theorem nodeLaw_select (h : nodeLaw s) : nodeLaw (select s) := by
  unfold select
  split
  · rename_i hc
    simp only [Bool.and_eq_true] at hc
    exact nodeLaw_arbitrate h hc.1
  · exact h
theorem nodeLaw_retry (h : nodeLaw s) : nodeLaw (retry s) := by
  unfold retry
  split
  · rename_i hc
    simp only [Bool.and_eq_true] at hc
    exact nodeLaw_arbitrate h hc.1
  · exact h
theorem nodeLaw_applySwap (h : nodeLaw s) : nodeLaw (applySwap s) := by
  simpa [nodeLaw, clocked, drivenPin] using h
theorem nodeLaw_closePass (h : nodeLaw s) : nodeLaw (closePass s) := by
  simpa [nodeLaw, clocked, drivenPin] using h
theorem nodeLaw_passEnd (h : nodeLaw s) : nodeLaw (passEnd s) := by
  simpa [nodeLaw, clocked, drivenPin] using h
theorem nodeLaw_checkPassEnd (h : nodeLaw s) : nodeLaw (checkPassEnd s) := by
  simpa [nodeLaw, clocked, drivenPin] using h
theorem nodeLaw_offer (n : Nat) (ch : ChannelId) (h : nodeLaw s) : nodeLaw (offer n ch s) := by
  unfold offer
  try simp only []
  repeat' split
  all_goals with_reducible repeat (first | exact h | apply nodeLaw_decideOffer | apply nodeLaw_select)
theorem nodeLaw_moveOnto (n : Nat) (h : nodeLaw s) : nodeLaw (moveOnto n s) := by
  unfold moveOnto
  try simp only []
  repeat' split
  all_goals with_reducible repeat (first | exact h | apply nodeLaw_withScan | apply nodeLaw_checkPassEnd | apply nodeLaw_offer)
theorem nodeLaw_cursorMove (h : nodeLaw s) : nodeLaw (cursorMove s) := by
  unfold cursorMove
  try simp only []
  repeat' split
  all_goals with_reducible repeat (first | exact h | apply nodeLaw_moveOnto)
theorem nodeLaw_passStart (h : nodeLaw s) : nodeLaw (passStart s) := by
  unfold passStart
  try simp only []
  repeat' split
  all_goals with_reducible repeat (first | exact h | apply nodeLaw_withScan | apply nodeLaw_moveOnto)
theorem nodeLaw_overrun (h : nodeLaw s) : nodeLaw (overrun s) := by
  simpa [nodeLaw, clocked, drivenPin] using h
theorem nodeLaw_passDue (h : nodeLaw s) : nodeLaw (passDue s) := by
  unfold passDue
  try simp only []
  repeat' split
  all_goals with_reducible repeat (first | exact h | apply nodeLaw_passStart | apply nodeLaw_overrun)
theorem nodeLaw_expiry (h : nodeLaw s) : nodeLaw (expiry s) := by
  unfold expiry
  try simp only []
  repeat' split
  all_goals with_reducible repeat (first | exact h | apply nodeLaw_withScan | apply nodeLaw_passDue)
theorem nodeLaw_timerTick (h : nodeLaw s) : nodeLaw (timerTick s) := by
  unfold timerTick
  try simp only []
  repeat' split
  all_goals with_reducible repeat (first | exact h | apply nodeLaw_withScan | apply nodeLaw_expiry)
theorem nodeLaw_qualifiedEdge (l : Bool) (h : nodeLaw s) : nodeLaw (qualifiedEdge l s) := by
  unfold qualifiedEdge
  try simp only []
  repeat' split
  all_goals with_reducible repeat (first | exact h | apply nodeLaw_withScan | apply nodeLaw_passDue)
theorem nodeLaw_trigSample (h : nodeLaw s) : nodeLaw (trigSample s) := by
  unfold trigSample
  try simp only []
  repeat' split
  all_goals with_reducible repeat (first | exact h | apply nodeLaw_withScan | apply nodeLaw_qualifiedEdge)
theorem nodeLaw_dropJobs (p : QueuedJob → Bool) (h : nodeLaw s) : nodeLaw (dropJobs p s) := by
  simpa [nodeLaw, clocked, drivenPin] using h
theorem nodeLaw_clearStallIfEmpty (h : nodeLaw s) : nodeLaw (clearStallIfEmpty s) := by
  simpa [nodeLaw, clocked, drivenPin] using h
theorem nodeLaw_removeJobs (p : QueuedJob → Bool) (h : nodeLaw s) : nodeLaw (removeJobs p s).1 := by
  simpa [nodeLaw, clocked, drivenPin] using h
theorem nodeLaw_completeStop (h : nodeLaw s) : nodeLaw (completeStop s) := by
  simpa [nodeLaw, clocked, drivenPin] using h
theorem nodeLaw_countOut (h : nodeLaw s) : nodeLaw (countOut s) := by
  simpa [nodeLaw, clocked, drivenPin] using h
theorem nodeLaw_relink (ch : ChannelId) (a b : Descriptor) (h : nodeLaw s) : nodeLaw (relink ch a b s) := by
  simpa [nodeLaw, clocked, drivenPin] using h
theorem nodeLaw_removeAlert (ch : ChannelId) (h : nodeLaw s) : nodeLaw (removeAlert ch s) := by
  simpa [nodeLaw, clocked, drivenPin] using h
theorem nodeLaw_withdrawOffer (ch : ChannelId) (h : nodeLaw s) : nodeLaw (withdrawOffer ch s) := by
  simpa [nodeLaw, clocked, drivenPin] using h
theorem nodeLaw_applyCommit (ch : ChannelId) (im : Image) (h : nodeLaw s) : nodeLaw (applyCommit ch im s).1 := by
  simpa [nodeLaw, clocked, drivenPin] using h
theorem nodeLaw_decideCommit (ch : ChannelId) (im : Image) (h : nodeLaw s) : nodeLaw (decideCommit ch im s).1 := by
  simpa [nodeLaw, clocked, drivenPin] using h
theorem nodeLaw_decideDeferred (h : nodeLaw s) : nodeLaw (decideDeferred s) := by
  simpa [nodeLaw, clocked, drivenPin] using h
theorem nodeLaw_referenceShare (a : Completion) (h : nodeLaw s) : nodeLaw (referenceShare a s) := by
  simpa [nodeLaw, clocked, drivenPin] using h
theorem nodeLaw_zoneShare (a : Completion) (h : nodeLaw s) : nodeLaw (zoneShare a s) := by
  simpa [nodeLaw, clocked, drivenPin] using h
theorem nodeLaw_fifoShare (a : Completion) (z : Zone) (c : Bool) (p : ReportPolicy) (h : nodeLaw s) :
    nodeLaw (fifoShare a z c p s) := by
  simpa [nodeLaw, clocked, drivenPin] using h
theorem nodeLaw_lastStatusShare (a : Completion) (h : nodeLaw s) : nodeLaw (lastStatusShare a s) := by
  simpa [nodeLaw, clocked, drivenPin] using h
theorem nodeLaw_quietSequencer (j : InFlight) (st : JobStatus) (h : nodeLaw s) : nodeLaw (quietSequencer j st s) := by
  refine nodeLaw_of (s := s) (by simp) (by simp) ?_ h
  have h2 := (nodeLaw_iff.mp h).2
  have hfe : (quietSequencer j st s).frontEnd = (clampRequest s).frontEnd := by
    unfold quietSequencer clampRequest
    simp only [State.withSeq_frontEnd]
    split <;> (split <;> simp_all)
  rw [hfe]
  simp only [quietSequencer_seq, Sequencer.quiet, nodeShape]
  by_cases hi : s.seq.state = .idle
  · rw [hi] at h2
    simp only [nodeShape] at h2
    unfold clampRequest
    cases hc : clocked s <;> simp_all
  · have hc := nodeLaw_clocked h hi
    rw [nodeLaw_clampRequest h hc]; simp [hc]
theorem nodeLaw_announceTo (a : Completion) (h : nodeLaw s) : nodeLaw (announceTo a s) := by
  simpa [nodeLaw, clocked, drivenPin] using h
theorem nodeLaw_offerSequencer (h : nodeLaw s) : nodeLaw (offerSequencer s) := nodeLaw_select h
theorem nodeLaw_jobEnd (st : JobStatus) (h : nodeLaw s) : nodeLaw (jobEnd st s) := by
  unfold jobEnd
  try simp only []
  repeat' split
  all_goals with_reducible repeat (first | exact h | apply nodeLaw_quietSequencer | apply nodeLaw_announceTo | apply nodeLaw_offerSequencer)
theorem nodeLaw_abortJob (h : nodeLaw s) : nodeLaw (abortJob s).1 := by
  unfold abortJob
  try simp only []
  repeat' split
  all_goals with_reducible repeat (first | exact h | apply nodeLaw_jobEnd)
theorem nodeLaw_phaseEnd (pe : PhaseEnd) (h : nodeLaw s) (hc : clocked s = true) : nodeLaw (phaseEnd pe s) := by
  unfold phaseEnd
  simp only []
  split
  · exact h
  · rename_i j hj
    repeat' split
    · exact nodeLaw_jobEnd _ (nodeLaw_onChannel _ _ h)
    · refine nodeLaw_startPhase _ ?_ (by simp [clocked] at hc ⊢; exact hc)
      exact nodeLaw_of (s := s) rfl rfl (nodeLaw_iff.mp h).2 h
    all_goals exact nodeLaw_jobEnd _ (nodeLaw_onSlot _ _ (nodeLaw_onChannel _ _ h))
theorem nodeLaw_sampleComplete (h : nodeLaw s) (hs : s.seq.state = .count) : nodeLaw (sampleComplete s) := by
  have h2 := (nodeLaw_iff.mp h).2
  rw [hs] at h2
  obtain ⟨hf, hc⟩ := h2
  unfold sampleComplete
  simp only []
  repeat' split
  · exact nodeLaw_phaseEnd _ h hc
  · exact nodeLaw_phaseEnd _ (nodeLaw_withWork h rfl) hc
  · exact nodeLaw_enterArm (nodeLaw_withWork h rfl) hf hc
theorem nodeLaw_overflowed (h : nodeLaw s) (hs : s.seq.state = .count) : nodeLaw (overflowed s) := by
  have h2 := (nodeLaw_iff.mp h).2
  rw [hs] at h2
  obtain ⟨hf, hc⟩ := h2
  unfold overflowed
  simp only []
  split
  · exact nodeLaw_of (s := s) rfl rfl ⟨rfl, hc⟩ h
  · exact nodeLaw_phaseEnd _ h hc
theorem nodeLaw_sequencerTb (h : nodeLaw s) : nodeLaw (sequencerTb s) := by
  have h2 := (nodeLaw_iff.mp h).2
  unfold sequencerTb
  simp only []
  split
  all_goals try exact h
  all_goals (
    rename_i hst
    have hc : clocked s = true := nodeLaw_clocked h (by rw [hst]; simp)
    rw [hst] at h2
    have hf := h2.1)
  all_goals repeat' split
  all_goals first
    | exact nodeLaw_withWork h rfl
    | exact nodeLaw_startSample h hf hc
    | exact nodeLaw_enterSettle (nodeLaw_withWork h rfl) hc
    | exact nodeLaw_enterArm (nodeLaw_withWork h rfl) hf hc
    | exact nodeLaw_phaseEnd _ (nodeLaw_withWork h rfl) hc
    | exact nodeLaw_sampleComplete (nodeLaw_withWork h rfl) hst
    | exact nodeLaw_overflowed h hst
theorem nodeLaw_sequencerSlow (h : nodeLaw s) : nodeLaw (sequencerSlow s) := by
  have h2 := (nodeLaw_iff.mp h).2
  unfold sequencerSlow
  simp only []
  split
  all_goals try exact h
  all_goals (
    rename_i hst
    have hc : clocked s = true := nodeLaw_clocked h (by rw [hst]; simp)
    rw [hst] at h2
    have hf := h2.1)
  all_goals repeat' split
  all_goals first
    | exact nodeLaw_withWork h rfl
    | exact nodeLaw_startSample h hf hc
    | exact nodeLaw_enterSettle (nodeLaw_withWork h rfl) hc
    | exact nodeLaw_enterArm (nodeLaw_withWork h rfl) hf hc
    | exact nodeLaw_phaseEnd _ (nodeLaw_withWork h rfl) hc
    | exact nodeLaw_sampleComplete (nodeLaw_withWork h rfl) hst
    | exact nodeLaw_overflowed h hst
theorem nodeLaw_sequencerEdge (h : nodeLaw s) : nodeLaw (sequencerEdge s) := by
  have h2 := (nodeLaw_iff.mp h).2
  unfold sequencerEdge
  simp only []
  split
  all_goals try exact h
  all_goals (
    rename_i hst
    have hc : clocked s = true := nodeLaw_clocked h (by rw [hst]; simp)
    rw [hst] at h2
    have hf := h2.1)
  all_goals repeat' split
  all_goals first
    | exact nodeLaw_withWork h rfl
    | exact nodeLaw_startSample h hf hc
    | exact nodeLaw_enterSettle (nodeLaw_withWork h rfl) hc
    | exact nodeLaw_enterArm (nodeLaw_withWork h rfl) hf hc
    | exact nodeLaw_phaseEnd _ (nodeLaw_withWork h rfl) hc
    | exact nodeLaw_sampleComplete (nodeLaw_withWork h rfl) hst
    | exact nodeLaw_overflowed h hst
theorem nodeLaw_deliverEdge (c : Bool) (h : nodeLaw s) : nodeLaw (deliverEdge c s) := by
  unfold deliverEdge
  try simp only []
  repeat' split
  all_goals with_reducible repeat (first | exact h | apply nodeLaw_withFreeIndex | apply nodeLaw_sequencerEdge)
theorem nodeLaw_oscillatorEdge (c : Bool) (h : nodeLaw s) : nodeLaw (oscillatorEdge c s) := by
  rw [oscillatorEdge_spec]
  split
  · exact h
  · exact h
  · rename_i hf; exact nodeLaw_deliverEdge _ (nodeLaw_comparator _ h (by rw [hf]; rfl))
theorem nodeLaw_nodeMoves (h : nodeLaw s) : nodeLaw (nodeMoves s) := by
  rcases nodeMoves_spec s with he | he | ⟨pin, hf, he⟩ <;> rw [he]
  · exact h
  · exact nodeLaw_withFreeIndex _ h
  · exact nodeLaw_withFreeIndex _ (nodeLaw_comparator _ h (by rw [hf]; rfl))
theorem nodeLaw_stampTick (h : nodeLaw s) : nodeLaw (stampTick s) := nodeLaw_of (s := s) rfl rfl (nodeLaw_iff.mp h).2 h
theorem nodeLaw_ageTick (h : nodeLaw s) : nodeLaw (ageTick s) := by
  unfold ageTick
  try simp only []
  repeat' split
  all_goals with_reducible repeat (first | exact h | apply nodeLaw_withRefs)
theorem nodeLaw_scanSlow (h : nodeLaw s) : nodeLaw (scanSlow s) := by
  unfold scanSlow
  try simp only []
  repeat' split
  all_goals with_reducible repeat (first | exact h | apply nodeLaw_timerTick | apply nodeLaw_trigSample)
theorem nodeLaw_slowShare (h : nodeLaw s) : nodeLaw (slowShare s) := 
  eitherOrder_ind (fun _ n h => nodeLaw_withFreeIndex n h) (nodeLaw_scanSlow (nodeLaw_ageTick (nodeLaw_stampTick h)))
    (nodeLaw_ageTick (nodeLaw_scanSlow (nodeLaw_stampTick h)))
theorem nodeLaw_sequencerShare (b : SeqState) (w : Bool) (h : nodeLaw s) : nodeLaw (sequencerShare b w s) := by
  unfold sequencerShare
  try simp only []
  repeat' split
  all_goals with_reducible repeat (first | exact h | apply nodeLaw_sequencerTb | apply nodeLaw_sequencerSlow)
theorem nodeLaw_cursorShare (b : Cursor) (h : nodeLaw s) : nodeLaw (cursorShare b s) := by
  unfold cursorShare
  try simp only []
  repeat' split
  all_goals with_reducible repeat (first | exact h | apply nodeLaw_cursorMove)
theorem nodeLaw_tbTick (l : Bool) (h : nodeLaw s) : nodeLaw (tbTick l s) := by
  unfold tbTick
  split
  · exact anyOrder_ind (fun _ n h => nodeLaw_withFreeIndex n h) (fun _ h => nodeLaw_sequencerShare _ _ h)
      (fun _ h => nodeLaw_cursorShare _ h) (fun _ h => by split; exacts [nodeLaw_slowShare h, h])
      (nodeLaw_withPins _ (nodeLaw_of (s := s) rfl rfl (nodeLaw_iff.mp h).2 h))
  · exact h
theorem nodeLaw_slowTick (l : Bool) (h : nodeLaw s) : nodeLaw (slowTick l s) := by
  unfold slowTick
  split
  · exact nodeLaw_slowShare (nodeLaw_sequencerSlow (nodeLaw_withPins _ (nodeLaw_of (s := s) rfl rfl (nodeLaw_iff.mp h).2 h)))
  · exact h
theorem nodeLaw_refuse (r : Reason) (h : nodeLaw s) : nodeLaw (refuse r s).1 := h
theorem nodeLaw_admitDirect (ch : ChannelId) (h : nodeLaw s) : nodeLaw (admitDirect ch s).1 := by
  unfold admitDirect
  try simp only []
  repeat' split
  all_goals with_reducible repeat (first | exact h | apply nodeLaw_withQueue | apply nodeLaw_select | apply nodeLaw_refuse)
theorem nodeLaw_measureNow (h : nodeLaw s) : nodeLaw (measureNow s).1 := by
  unfold measureNow
  try simp only []
  repeat' split
  all_goals with_reducible repeat (first | exact h | apply nodeLaw_refuse | apply nodeLaw_admitDirect)
theorem nodeLaw_flushQueue (h : nodeLaw s) : nodeLaw (flushQueue s).1 := by
  unfold flushQueue
  try simp only []
  repeat' split
  all_goals with_reducible repeat (first | exact h | apply nodeLaw_removeJobs | apply nodeLaw_refuse)
theorem nodeLaw_scanStart (h : nodeLaw s) : nodeLaw (scanStart s).1 := by
  unfold scanStart
  try simp only []
  repeat' split
  all_goals with_reducible repeat (first | exact h | apply nodeLaw_withScan | apply nodeLaw_passStart | apply nodeLaw_refuse)
theorem nodeLaw_scanOnce (h : nodeLaw s) : nodeLaw (scanOnce s).1 := by
  unfold scanOnce
  try simp only []
  repeat' split
  all_goals with_reducible repeat (first | exact h | apply nodeLaw_withScan | apply nodeLaw_passStart | apply nodeLaw_refuse)
theorem nodeLaw_scanStop (h : nodeLaw s) : nodeLaw (scanStop s).1 := by
  unfold scanStop
  try simp only []
  repeat' split
  all_goals with_reducible repeat (first | exact h | apply nodeLaw_withScan | apply nodeLaw_applySwap | apply nodeLaw_removeJobs)
theorem nodeLaw_swapBanks (h : nodeLaw s) : nodeLaw (swapBanks s).1 := by
  unfold swapBanks
  try simp only []
  repeat' split
  all_goals with_reducible repeat (first | exact h | apply nodeLaw_withScan | apply nodeLaw_refuse)
theorem nodeLaw_commitChannel (h : nodeLaw s) : nodeLaw (commitChannel s).1 := by
  unfold commitChannel
  try simp only []
  repeat' split
  all_goals with_reducible repeat (first | exact h | apply nodeLaw_withDeferred | apply nodeLaw_decideCommit | apply nodeLaw_refuse)
theorem nodeLaw_fetchChannel (h : nodeLaw s) : nodeLaw (fetchChannel s).1 := by
  unfold fetchChannel
  try simp only []
  repeat' split
  all_goals with_reducible repeat (first | exact h | apply nodeLaw_withStaging | apply nodeLaw_refuse)
theorem nodeLaw_invalidateReference (h : nodeLaw s) : nodeLaw (invalidateReference s).1 := by
  unfold invalidateReference
  try simp only []
  repeat' split
  all_goals with_reducible repeat (first | exact h | apply nodeLaw_onSlot | apply nodeLaw_invalidateAll | apply nodeLaw_refuse)
theorem nodeLaw_clearZone (h : nodeLaw s) : nodeLaw (clearZone s).1 := by
  unfold clearZone
  try simp only []
  repeat' split
  all_goals with_reducible repeat (first | exact h | apply nodeLaw_withChannels | apply nodeLaw_withAlerts | apply nodeLaw_onChannel | apply nodeLaw_removeAlert | apply nodeLaw_refuse)
theorem nodeLaw_clearAlerts (h : nodeLaw s) : nodeLaw (clearAlerts s).1 := by
  unfold clearAlerts
  try simp only []
  repeat' split
  all_goals with_reducible repeat (first | exact h | apply nodeLaw_withAlerts)
theorem nodeLaw_clearResults (h : nodeLaw s) : nodeLaw (clearResults s).1 := by
  unfold clearResults
  try simp only []
  repeat' split
  all_goals with_reducible repeat (first | exact h | apply nodeLaw_withFifo | apply nodeLaw_retry)
theorem nodeLaw_setTimebase (h : nodeLaw s) : nodeLaw (setTimebase s).1 := by
  unfold setTimebase
  repeat' split
  all_goals first | exact h | exact nodeLaw_invalidateAll (nodeLaw_of (s := s) rfl rfl (nodeLaw_iff.mp h).2 h)
theorem nodeLaw_sleep (h : nodeLaw s) (hr : s.inReset = false) : nodeLaw (sleep s).1 := by
  unfold sleep
  repeat' split
  all_goals try exact h
  rename_i _ hi _ _
  refine nodeLaw_invalidateAll ?_
  rw [nodeLaw_iff]
  simp at hi
  simp [hr, hi, clocked, nodeShape]
theorem nodeLaw_wake (h : nodeLaw s) (hr : s.inReset = false) : nodeLaw (wake s).1 := by
  unfold wake
  split
  · exact h
  · rename_i hp
    have hi : s.seq.state = .idle := by
      by_contra hi
      have := nodeLaw_clocked h hi
      simp [clocked] at this
      exact hp this.2
    rw [nodeLaw_iff]
    simp [hr, hi, clocked, nodeShape]
theorem nodeLaw_unknownCommand (h : nodeLaw s) : nodeLaw (unknownCommand s).1 := by
  unfold unknownCommand
  try simp only []
  repeat' split
  all_goals with_reducible repeat (first | exact h | apply nodeLaw_refuse)
theorem nodeLaw_quietEngine (h : nodeLaw s) : nodeLaw (quietEngine s) := by
  refine nodeLaw_of (s := s) (by simp [quietEngine]) (by simp [quietEngine]) ?_ h
  have hfe : (quietEngine s).frontEnd = (clampRequest s).frontEnd := by
    unfold quietEngine clampRequest invalidateAll
    simp only [State.withSeq_frontEnd, State.withChannels_frontEnd, State.withDeferred_frontEnd, State.withQueue_frontEnd,
      State.withScan_frontEnd, State.withAlerts_frontEnd, State.withFifo_frontEnd, State.withEvents_frontEnd,
      State.withRefs_frontEnd]
    split <;> simp_all
  rw [hfe]
  have h2 := (nodeLaw_iff.mp h).2
  have hq : (quietEngine s).seq = .quiet := by simp [quietEngine]
  simp only [hq, Sequencer.quiet, nodeShape]
  by_cases hi : s.seq.state = .idle
  · rw [hi] at h2
    simp only [nodeShape] at h2
    unfold clampRequest
    cases hc : clocked s <;> simp_all
  · have hc := nodeLaw_clocked h hi
    rw [nodeLaw_clampRequest h hc]; simp [hc]
theorem nodeLaw_engineReset (h : nodeLaw s) : nodeLaw (engineReset s) := by
  unfold engineReset
  try simp only []
  repeat' split
  all_goals with_reducible repeat (first | exact h | apply nodeLaw_raise | apply nodeLaw_recordOutcome | apply nodeLaw_quietEngine)
theorem nodeLaw_powerOn (h : nodeLaw s) : nodeLaw (powerOn s) := by
  rw [nodeLaw_iff]
  simp [powerOn, State.reset, clocked, Sequencer.quiet, nodeShape]
theorem nodeLaw_endReset (l : Bool) (h : nodeLaw s) : nodeLaw (endReset l s) := by
  unfold endReset
  split
  · rename_i hr
    have h1 := h.1 hr
    have hi : s.seq.state = .idle := by
      by_contra hi
      have := nodeLaw_clocked h hi
      simp [clocked, hr] at this
    rw [nodeLaw_iff]
    simp [hi, clocked, h1, nodeShape]
  · exact h
theorem nodeLaw_takeResult (h : nodeLaw s) : nodeLaw (takeResult s) := by
  unfold takeResult
  try simp only []
  repeat' split
  all_goals with_reducible repeat (first | exact h | apply nodeLaw_withFifo)
theorem nodeLaw_popResult (h : nodeLaw s) : nodeLaw (popResult s) := by
  unfold popResult
  try simp only []
  repeat' split
  all_goals with_reducible repeat (first | exact h | apply nodeLaw_retry | apply nodeLaw_takeResult)
theorem nodeLaw_popAlert (h : nodeLaw s) : nodeLaw (popAlert s) := by
  unfold popAlert
  try simp only []
  repeat' split
  all_goals with_reducible repeat (first | exact h | apply nodeLaw_withAlerts)
theorem nodeLaw_readAction (a : Byte) (h : nodeLaw s) : nodeLaw (readAction a s) := by
  unfold readAction
  try simp only []
  repeat' split
  all_goals with_reducible repeat (first | exact h | apply nodeLaw_popResult | apply nodeLaw_popAlert)
theorem nodeLaw_advancePointer (h : nodeLaw s) : nodeLaw (advancePointer s) := by
  unfold advancePointer
  try simp only []
  repeat' split
  all_goals with_reducible repeat (first | exact h | apply nodeLaw_withPort)
theorem nodeLaw_busStart (a : Byte) (h : nodeLaw s) : nodeLaw (busStart a s) := by
  unfold busStart
  try simp only []
  repeat' split
  all_goals with_reducible repeat (first | exact h | apply nodeLaw_withPort)
theorem nodeLaw_openWrite (h : nodeLaw s) : nodeLaw (openWrite s) := by
  unfold openWrite
  try simp only []
  repeat' split
  all_goals with_reducible repeat (first | exact h | apply nodeLaw_busStart)
theorem nodeLaw_copySnapshot (h : nodeLaw s) : nodeLaw (copySnapshot s) := by
  unfold copySnapshot
  try simp only []
  repeat' split
  all_goals with_reducible repeat (first | exact h | apply nodeLaw_busStart)
theorem nodeLaw_sendByte (a : State → State) (h : nodeLaw s) (ha : nodeLaw (a s)) : nodeLaw (sendByte a s) := nodeLaw_advancePointer (nodeLaw_withPort _ ha)
theorem nodeLaw_windowRead (a : Byte) (e : State → State) (h : nodeLaw s) (he : ∀ t, nodeLaw t → nodeLaw (e t)) :
    nodeLaw (windowRead a e s) := by
  unfold windowRead
  split
  · exact h
  · split
    · refine nodeLaw_sendByte _ h ?_
      split
      · exact he _ h
      · exact nodeLaw_readAction _ h
    all_goals exact h
theorem nodeLaw_issue (c : Byte) (f : State → State × Reply) (h : nodeLaw s) (hf : nodeLaw (f s).1) :
    nodeLaw (issue c f s) := by
  unfold issue
  split
  · exact nodeLaw_collide h
  · exact nodeLaw_recordOutcome _ _ hf
theorem nodeLaw_issueAbort (h : nodeLaw s) : nodeLaw (issueAbort s) := by
  unfold issueAbort
  try simp only []
  repeat' split
  all_goals with_reducible repeat (first | exact h | apply nodeLaw_recordOutcome | apply nodeLaw_abortJob)
theorem nodeLaw_issueCode (c : Byte) (h : nodeLaw s) (hr : s.inReset = false) : nodeLaw (issueCode c s) := by
  unfold issueCode
  refine iteInduction (fun _ => ?_) (fun _ => ?_)
  · exact nodeLaw_issue _ _ h (nodeLaw_measureNow h)
  refine iteInduction (fun _ => ?_) (fun _ => ?_)
  · exact nodeLaw_issueAbort h
  refine iteInduction (fun _ => ?_) (fun _ => ?_)
  · exact nodeLaw_issue _ _ h (nodeLaw_flushQueue h)
  refine iteInduction (fun _ => ?_) (fun _ => ?_)
  · exact nodeLaw_issue _ _ h (nodeLaw_scanStart h)
  refine iteInduction (fun _ => ?_) (fun _ => ?_)
  · exact nodeLaw_issue _ _ h (nodeLaw_scanStop h)
  refine iteInduction (fun _ => ?_) (fun _ => ?_)
  · exact nodeLaw_issue _ _ h (nodeLaw_scanOnce h)
  refine iteInduction (fun _ => ?_) (fun _ => ?_)
  · exact nodeLaw_issue _ _ h (nodeLaw_swapBanks h)
  refine iteInduction (fun _ => ?_) (fun _ => ?_)
  · exact nodeLaw_issue _ _ h (nodeLaw_commitChannel h)
  refine iteInduction (fun _ => ?_) (fun _ => ?_)
  · exact nodeLaw_issue _ _ h (nodeLaw_fetchChannel h)
  refine iteInduction (fun _ => ?_) (fun _ => ?_)
  · exact nodeLaw_issue _ _ h (nodeLaw_invalidateReference h)
  refine iteInduction (fun _ => ?_) (fun _ => ?_)
  · exact nodeLaw_issue _ _ h (nodeLaw_clearZone h)
  refine iteInduction (fun _ => ?_) (fun _ => ?_)
  · exact nodeLaw_issue _ _ h (nodeLaw_clearAlerts h)
  refine iteInduction (fun _ => ?_) (fun _ => ?_)
  · exact nodeLaw_issue _ _ h (nodeLaw_clearResults h)
  refine iteInduction (fun _ => ?_) (fun _ => ?_)
  · exact nodeLaw_issue _ _ h (nodeLaw_setTimebase h)
  refine iteInduction (fun _ => ?_) (fun _ => ?_)
  · exact nodeLaw_issue _ _ h (nodeLaw_sleep h hr)
  refine iteInduction (fun _ => ?_) (fun _ => ?_)
  · exact nodeLaw_issue _ _ h (nodeLaw_wake h hr)
  refine iteInduction (fun _ => ?_) (fun _ => ?_)
  · exact nodeLaw_engineReset h
  exact nodeLaw_issue _ _ h (nodeLaw_unknownCommand h)
theorem nodeLaw_clearFlags (v : Byte) (h : nodeLaw s) : nodeLaw (clearFlags v s) := by
  unfold clearFlags
  try simp only []
  repeat' split
  all_goals with_reducible repeat (first | exact h | apply nodeLaw_withEvents)
theorem nodeLaw_writeEnables (v : Byte) (h : nodeLaw s) : nodeLaw (writeEnables v s) := by
  unfold writeEnables
  try simp only []
  repeat' split
  all_goals with_reducible repeat (first | exact h | apply nodeLaw_withEvents)
theorem nodeLaw_writeBank (a v : Byte) (h : nodeLaw s) : nodeLaw (writeBank a v s) := by
  unfold writeBank
  try simp only []
  repeat' split
  all_goals with_reducible repeat (first | exact h | apply nodeLaw_withScan)
theorem nodeLaw_writeOverrun (v : Byte) (h : nodeLaw s) : nodeLaw (writeOverrun v s) := by
  unfold writeOverrun
  try simp only []
  repeat' split
  all_goals with_reducible repeat (first | exact h | apply nodeLaw_withScan | apply nodeLaw_overrun)
theorem nodeLaw_writePolicy (v : Byte) (h : nodeLaw s) : nodeLaw (writePolicy v s) := by
  unfold writePolicy
  try simp only []
  repeat' split
  all_goals with_reducible repeat (first | exact h | apply nodeLaw_withFifo | apply nodeLaw_retry)
theorem nodeLaw_writePeriodLow (v : Byte) (h : nodeLaw s) : nodeLaw (writePeriodLow v s) := by
  unfold writePeriodLow
  try simp only []
  repeat' split
  all_goals with_reducible repeat (first | exact h | apply nodeLaw_withScan)
theorem nodeLaw_writePeriodHigh (v : Byte) (h : nodeLaw s) : nodeLaw (writePeriodHigh v s) := by
  unfold writePeriodHigh
  try simp only []
  repeat' split
  all_goals with_reducible repeat (first | exact h | apply nodeLaw_withScan)
theorem nodeLaw_writePlain (a v : Byte) (h : nodeLaw s) : nodeLaw (writePlain a v s) := by
  unfold writePlain
  simp only []
  repeat' refine iteInduction (fun _ => ?_) (fun _ => ?_)
  all_goals first | exact h | exact nodeLaw_of (s := s) rfl rfl (nodeLaw_iff.mp h).2 h
theorem nodeLaw_registerWrite (a v : Byte) (h : nodeLaw s) (hr : s.inReset = false) :
    nodeLaw (registerWrite a v s) := by
  unfold registerWrite
  refine iteInduction (fun _ => nodeLaw_issueCode _ h hr) (fun _ => ?_)
  refine iteInduction (fun _ => nodeLaw_writeOverrun _ h) (fun _ => ?_)
  refine iteInduction (fun _ => nodeLaw_clearFlags _ h) (fun _ => ?_)
  refine iteInduction (fun _ => nodeLaw_writeEnables _ h) (fun _ => ?_)
  refine iteInduction (fun _ => nodeLaw_writePolicy _ h) (fun _ => ?_)
  refine iteInduction (fun _ => nodeLaw_writeBank _ _ h) (fun _ => ?_)
  exact nodeLaw_writePlain _ _ h
theorem nodeLaw_takeByte (v : Byte) (e : State → State) (h : nodeLaw s) (he : ∀ t, nodeLaw t → t.inReset = false → nodeLaw (e t)) :
    nodeLaw (takeByte v e s) := by
  unfold takeByte
  split
  · exact h
  · rename_i hr
    split
    · exact nodeLaw_withPort _ h
    · exact he _ (nodeLaw_advancePointer h) (by simpa [advancePointer] using hr)
    all_goals exact h
theorem nodeLaw_dataByte (a v : Byte) (e : State → State) (h : nodeLaw s) (he : ∀ t, nodeLaw t → t.inReset = false → nodeLaw (e t)) :
    nodeLaw (dataByte a v e s) := 
  nodeLaw_takeByte _ _ h (fun t ht hr => by split; exacts [he t ht hr, nodeLaw_registerWrite _ _ ht hr])
theorem nodeLaw_loadPointer (v : Byte) (h : nodeLaw s) : nodeLaw (loadPointer v s) := nodeLaw_takeByte _ _ h (fun _ ht hr => nodeLaw_registerWrite _ _ ht hr)

end Sys2Proof.Machine
end

