-- ==== Sys2Proof/Laws/PassLaw.lean ====
section
/-! SUPPORT. What keeps the law of the pass count (R117). -/

namespace Sys2Proof.Machine

set_option linter.unusedTactic false
set_option linter.unreachableTactic false

variable {s : State}

/-- What the law asks in each scan state, from the count `n` of SCAN jobs. -/
def passShape (sc : ScanController) (n : Nat) (fly strict : Bool) : Prop :=
  match sc.state with
  | .stopped => n = 0 ∧ sc.cursor = .cleared ∧ sc.swapPending = false ∧ sc.timer = 0
  | .waiting => n = 0 ∧ sc.cursor = .cleared ∧ sc.swapPending = false ∧ sc.mode ≠ .single
  | .running => sc.cursor ≠ .cleared ∧ (strict = true → ¬(sc.cursor = .done ∧ sc.passCount = 0))
  | .stopping => n = 1 ∧ fly = true ∧ sc.cursor = .cleared ∧ sc.timer = 0

/-- The law, with the end of a finished pass still due when `strict` is false. -/
def passForm (strict : Bool) (s : State) : Prop :=
  (s.seq.state = .idle → s.seq.job = none) ∧ s.scan.passCount = scanJobs s ∧
    passShape s.scan (scanJobs s) (scanInFlight s) strict

theorem passLaw_iff : passLaw s ↔ passForm true s := by
  unfold passLaw passForm passShape
  cases s.scan.state <;> simp

theorem passForm_withScan {b : Bool} (sc : ScanController) (hi : s.seq.state = .idle → s.seq.job = none)
    (hc : sc.passCount = scanJobs s) (hp : passShape sc (scanJobs s) (scanInFlight s) b) : passForm b (s.withScan sc) :=
  ⟨hi, hc, hp⟩

theorem passForm_weaken {b : Bool} (h : passForm b s) : passForm false s := by
  obtain ⟨h1, h2, h3⟩ := h
  refine ⟨h1, h2, ?_⟩
  unfold passShape at h3 ⊢
  cases hs : s.scan.state <;> simp_all

/-- A pass under way, before its cursor is placed. -/
def passOpen (s : State) : Prop :=
  (s.seq.state = .idle → s.seq.job = none) ∧ s.scan.passCount = scanJobs s ∧ s.scan.state = .running

theorem scanJobs_of {t : State} (hq : t.queue.jobs = s.queue.jobs) (hj : t.seq.job = s.seq.job) :
    scanJobs t = scanJobs s ∧ scanInFlight t = scanInFlight s := by
  have hf : scanInFlight t = scanInFlight s := by unfold scanInFlight; rw [hj]
  exact ⟨by simp only [scanJobs, hq, hf], hf⟩

theorem passLaw_keep {t : State} (hs : t.scan = s.scan) (hq : t.queue.jobs = s.queue.jobs) (hj : t.seq = s.seq)
    (h : passLaw s) : passLaw t := by
  obtain ⟨e1, e2⟩ := scanJobs_of (s := s) (t := t) hq (by rw [hj])
  simpa only [passLaw, hs, hj, e1, e2] using h

theorem passForm_of {b : Bool} {t : State} (hs : t.scan = s.scan) (hq : t.queue.jobs = s.queue.jobs)
    (hi : t.seq.state = .idle → t.seq.job = none) (hf : scanInFlight t = scanInFlight s) (h : passForm b s) :
    passForm b t := by
  have hn : scanJobs t = scanJobs s := by simp [scanJobs, hq, hf]
  refine ⟨hi, ?_, ?_⟩
  · rw [hs, hn]; exact h.2.1
  · rw [hs, hn, hf]; exact h.2.2

/-- R92: what the queue decides about an offer of a pass under way. -/
theorem passLaw_decideOffer {n : Nat} {ch : ChannelId} (h : passOpen s) : passLaw (decideOffer n ch s) := by
  obtain ⟨h1, h2, h3⟩ := h
  rw [passLaw_iff]
  unfold decideOffer
  repeat' split
  · refine ⟨h1, h2, ?_⟩
    simp [passShape, h3]
  · refine ⟨h1, h2, ?_⟩
    simp [passShape, h3]
  · refine ⟨h1, ?_, ?_⟩
    · have hf : ∀ (x : JobQueue) (y : ScanController),
          scanInFlight ((s.withQueue x).withScan y) = scanInFlight s := fun _ _ => rfl
      simp only [scanJobs, hf, State.withScan_scan, State.withScan_queue, State.withQueue_queue, List.countP_append] at h2 ⊢
      rw [h2]
      simp [JobTag.isScan]
      omega
    · simp [passShape, h3]

theorem passForm_running {b : Bool} (h : passForm b s) (hc : s.scan.cursor ≠ .cleared) : passOpen s := by
  refine ⟨h.1, h.2.1, ?_⟩
  have h3 := h.2.2
  unfold passShape at h3
  cases hs : s.scan.state <;> simp_all

theorem passForm_retakeOffer {b : Bool} (h : passForm b s) : passForm b (retakeOffer s) := by
  unfold retakeOffer
  split
  · rename_i n ch hc
    have := passLaw_iff.mp (passLaw_decideOffer (n := n) (ch := ch) (passForm_running h (by rw [hc]; simp)))
    cases b
    · exact passForm_weaken this
    · exact this
  all_goals exact h

theorem passForm_retake {b : Bool} (h : passForm b s) : passForm b (retake s) := by
  unfold retake
  split
  · exact h
  · exact passForm_retakeOffer h

/-- R118: the pass end, when it is due. -/
theorem passLaw_checkPassEnd (h : passForm false s) : passLaw (checkPassEnd s) := by
  rw [passLaw_iff]
  unfold checkPassEnd
  obtain ⟨h1, h2, h3⟩ := h
  split
  · rename_i hc
    obtain ⟨hr, hd, h0⟩ := hc
    have hn : scanJobs s = 0 := by omega
    have key : ∀ t : State, t.queue.jobs = s.queue.jobs → t.seq = s.seq → t.scan.swapPending = false →
        t.scan.passCount = 0 → passForm true (closePass t) := by
      intro t hq hseq hsw hp
      have hnt : scanJobs t = 0 ∧ scanInFlight t = scanInFlight s := by
        have := scanJobs_of (s := s) (t := t) hq (by rw [hseq]); rw [this.1, this.2]; exact ⟨hn, rfl⟩
      unfold closePass
      split <;> rename_i hm <;>
        refine ⟨by simpa [hseq] using h1, hp.trans (Eq.trans hnt.1.symm (scanJobs_of rfl rfl).1.symm), ?_⟩ <;>
        simp [passShape, hsw, hm] <;> exact (scanJobs_of rfl rfl).1.trans hnt.1
    unfold passEnd
    apply key
    · simp
    · simp
    · unfold applySwap; split
      · rfl
      · rename_i hsw; simpa using hsw
    · unfold applySwap; split <;> simp [h0]
  · rename_i hc
    refine ⟨h1, h2, ?_⟩
    unfold passShape at h3 ⊢
    cases hs : s.scan.state <;> simp_all

theorem passLaw_select' (h : passLaw s) (hr : arbiterReady s = true) : passLaw (arbitrate s) := by
  rw [passLaw_iff] at h ⊢
  obtain ⟨hst, hav, hck⟩ := arbiterReady_spec s hr
  have hn : s.seq.job = none := h.1 hst
  rcases arbitrate_spec s with ⟨_, he⟩ | ⟨q, rest, t, hq, ht, he⟩ | ⟨q, rest, _, _, he⟩ <;> rw [he]
  · exact h
  · apply passForm_retake
    have hp := (selectJob_perm hq).countP_eq (fun j => j.tag.isScan)
    have hsj : ∀ u : State, u.queue.jobs = rest → u.scan = s.scan →
        passForm true (jobStart q u) := by
      intro u hu hsc
      have hfly : scanInFlight (jobStart q u) = q.tag.isScan := by
        simp [scanInFlight, jobRecord_spec]
      have hcount : scanJobs (jobStart q u) = scanJobs s := by
        simp only [scanJobs, hfly, jobStart_queue, hu, hp, List.countP_cons]
        simp [scanInFlight, hn]
      refine ⟨by simp, ?_, ?_⟩
      · rw [hcount]; simpa [hsc] using h.2.1
      · rw [hcount]
        have h3 := h.2.2
        simp only [jobStart_keeps, hsc]
        unfold passShape at h3 ⊢
        cases hs : s.scan.state <;> simp_all [scanInFlight]
    rcases reserve_spec s ht with ⟨hf, rfl⟩ | ⟨hf, _, rfl⟩
    · exact hsj _ (by simp) (by simp)
    · exact hsj _ (by simp) (by simp)
  · split
    · exact h
    · exact passForm_of (s := s) (by simp) (by simp) h.1 rfl h

/-- R116: the cursor of a pass under way is placed. -/
theorem passLaw_placed {n : Nat} (h : passOpen s) : passLaw (moveOnto n s) := by
  unfold moveOnto
  split
  · rename_i entry ch _
    unfold offer select
    have := passLaw_decideOffer (n := entry) (ch := ch) h
    split
    · rename_i hc
      simp only [Bool.and_eq_true] at hc
      exact passLaw_select' this hc.1
    · exact this
  · apply passLaw_checkPassEnd
    refine ⟨h.1, h.2.1, ?_⟩
    simp [passShape, h.2.2]

/-- The Sequencer's record changed, with a job of the same class in flight. -/
theorem passLaw_withSeq {x : Sequencer} (h : passLaw s) (hi : x.state = .idle → x.job = none)
    (hf : scanInFlight (s.withSeq x) = scanInFlight s) : passLaw (s.withSeq x) := by
  rw [passLaw_iff] at h ⊢
  exact passForm_of (s := s) rfl rfl hi hf h

theorem passLaw_withWork (w : Working) (h : passLaw s) : passLaw (s.withSeq { s.seq with work := w }) := h

/-- R115: from STOPPED or WAITING a pass starts. -/
theorem passLaw_passStart (h : passLaw s) (hs : s.scan.state = .stopped ∨ s.scan.state = .waiting) :
    passLaw (passStart s) := by
  unfold passStart
  apply passLaw_placed
  exact ⟨h.1, h.2.1, rfl⟩

theorem passLaw_withPending (x : List Instr) (h : passLaw s) : passLaw (s.withPending x) := h
theorem passLaw_withInReset (x : Bool) (h : passLaw s) : passLaw (s.withInReset x) := h
theorem passLaw_withFrontEnd (x : FrontEnd) (h : passLaw s) : passLaw (s.withFrontEnd x) := h
theorem passLaw_withTimebase (x : Timebase) (h : passLaw s) : passLaw (s.withTimebase x) := h
theorem passLaw_withChannels (x : Vector Channel 16) (h : passLaw s) : passLaw (s.withChannels x) := h
theorem passLaw_withStaging (x : Vector Byte 32) (h : passLaw s) : passLaw (s.withStaging x) := h
theorem passLaw_withDeferred (x : Option DeferredCommit) (h : passLaw s) : passLaw (s.withDeferred x) := h
theorem passLaw_withRefs (x : Vector RefSlot 4) (h : passLaw s) : passLaw (s.withRefs x) := h
theorem passLaw_withAlerts (x : AlertList) (h : passLaw s) : passLaw (s.withAlerts x) := h
theorem passLaw_withFifo (x : ResultFifo) (h : passLaw s) : passLaw (s.withFifo x) := h
theorem passLaw_withPort (x : SerialPort) (h : passLaw s) : passLaw (s.withPort x) := h
theorem passLaw_withCmd (x : CommandPort) (h : passLaw s) : passLaw (s.withCmd x) := h
theorem passLaw_withEvents (x : EventUnit) (h : passLaw s) : passLaw (s.withEvents x) := h
theorem passLaw_withPins (x : InputPins) (h : passLaw s) : passLaw (s.withPins x) := h
theorem passLaw_withFreeIndex (x : Nat) (h : passLaw s) : passLaw (s.withFreeIndex x) := h

theorem passLaw_raise (f : Flag) (h : passLaw s) : passLaw (raise f s) := passLaw_keep (by simp) (by simp) (by simp) h
theorem passLaw_clampRequest (h : passLaw s) : passLaw (clampRequest s) := passLaw_keep (by simp) (by simp) (by simp) h
theorem passLaw_runRequest (p : PinId) (h : passLaw s) : passLaw (runRequest p s) := passLaw_keep (by simp) (by simp) (by simp) h
theorem passLaw_onChannel (ch : ChannelId) (f : Channel → Channel) (h : passLaw s) : passLaw (onChannel ch f s) := passLaw_keep (by simp) (by simp) (by simp) h
theorem passLaw_setEngaged (m : Bool) (ch : ChannelId) (h : passLaw s) : passLaw (setEngaged m ch s) := passLaw_keep (by simp) (by simp) (by simp) h
theorem passLaw_markJob (m : Bool) (j : InFlight) (h : passLaw s) : passLaw (markJob m j s) := passLaw_keep (by simp) (by simp) (by simp) h
theorem passLaw_onSlot (ch : ChannelId) (f : RefSlot → RefSlot) (h : passLaw s) : passLaw (onSlot ch f s) := passLaw_keep (by simp) (by simp) (by simp) h
theorem passLaw_invalidateAll (h : passLaw s) : passLaw (invalidateAll s) := passLaw_keep (by simp) (by simp) (by simp) h
theorem passLaw_recordOutcome (c : Byte) (r : Reply) (h : passLaw s) : passLaw (recordOutcome c r s) := passLaw_keep (by simp) (by simp) (by simp) h
theorem passLaw_collide (h : passLaw s) : passLaw (collide s) := passLaw_keep (by simp) (by simp) (by simp) h
theorem passLaw_finishWorking (r : Reply) (h : passLaw s) : passLaw (finishWorking r s) := passLaw_keep (by simp) (by simp) (by simp) h
theorem passLaw_startPhase (ch : ChannelId) (h : passLaw s) : passLaw (startPhase ch s) := by
  rw [passLaw_iff] at h ⊢
  exact passForm_of (s := s) (by simp) (by simp) (by simp) (by simp [scanInFlight]) h
theorem passLaw_enterArm (h : passLaw s) : passLaw (enterArm s) := passLaw_withSeq h (by simp) rfl
theorem passLaw_enterSettle (h : passLaw s) : passLaw (enterSettle s) := by
  unfold enterSettle
  simp only []
  split
  · exact passLaw_withSeq (passLaw_runRequest _ (passLaw_withSeq h (by simp) rfl)) (by simp) rfl
  · exact passLaw_runRequest _ (passLaw_withSeq h (by simp) rfl)
theorem passLaw_startSample (h : passLaw s) : passLaw (startSample s) := passLaw_withSeq h (by simp) rfl
theorem passLaw_retakeOffer (h : passLaw s) : passLaw (retakeOffer s) := passLaw_iff.mpr (passForm_retakeOffer (passLaw_iff.mp h))
theorem passLaw_retake (h : passLaw s) : passLaw (retake s) := passLaw_iff.mpr (passForm_retake (passLaw_iff.mp h))
theorem passLaw_arbitrate (h : passLaw s) (hr : arbiterReady s = true) : passLaw (arbitrate s) := passLaw_select' h hr
theorem passLaw_select (h : passLaw s) : passLaw (select s) := by
  unfold select
  split
  · rename_i hc
    simp only [Bool.and_eq_true] at hc
    exact passLaw_select' h hc.1
  · exact h
theorem passLaw_retry (h : passLaw s) : passLaw (retry s) := by
  unfold retry
  split
  · rename_i hc
    simp only [Bool.and_eq_true] at hc
    exact passLaw_select' h hc.1
  · exact h
theorem passLaw_cursorMove (h : passLaw s) : passLaw (cursorMove s) := by
  unfold cursorMove
  split
  · rename_i n hc
    exact passLaw_placed (passForm_running (passLaw_iff.mp h) (by rw [hc]; simp))
  all_goals exact h
theorem passLaw_overrun (h : passLaw s) : passLaw (overrun s) := h
theorem passLaw_passDue (h : passLaw s) : passLaw (passDue s) := by
  unfold passDue
  split
  · rename_i hs; exact passLaw_passStart h (.inr hs)
  · exact passLaw_overrun h
  · exact h
  · exact h
theorem passLaw_expiry (h : passLaw s) : passLaw (expiry s) := by
  unfold expiry
  apply passLaw_passDue
  rw [passLaw_iff] at h ⊢
  refine passForm_withScan _ h.1 h.2.1 ?_
  have h3 := h.2.2
  generalize scanJobs s = n at h3 ⊢
  generalize scanInFlight s = f at h3 ⊢
  unfold passShape at h3 ⊢
  cases hs : s.scan.state <;> simp_all
theorem passLaw_timerTick (h : passLaw s) : passLaw (timerTick s) := by
  unfold timerTick
  split
  · rename_i hr
    split
    · exact passLaw_expiry h
    · rw [passLaw_iff] at h ⊢
      refine passForm_withScan _ h.1 h.2.1 ?_
      have h3 := h.2.2
      generalize scanJobs s = n at h3 ⊢
      generalize scanInFlight s = f at h3 ⊢
      unfold passShape at h3 ⊢
      simp [timerRuns] at hr
      cases hs : s.scan.state <;> simp_all
  · exact h
theorem passLaw_qualifiedEdge (l : Bool) (h : passLaw s) : passLaw (qualifiedEdge l s) := by
  unfold qualifiedEdge
  simp only []
  split
  · exact passLaw_passDue h
  · exact h
theorem passLaw_trigSample (h : passLaw s) : passLaw (trigSample s) := by
  unfold trigSample
  split
  · exact h
  · split
    · exact passLaw_qualifiedEdge _ h
    · exact h
theorem passLaw_clearStallIfEmpty (h : passLaw s) : passLaw (clearStallIfEmpty s) := by
  unfold clearStallIfEmpty; split <;> exact h
theorem passLaw_removeJobs (p : QueuedJob → Bool) (h : passLaw s) : passLaw (removeJobs p s).1 := by
  unfold removeJobs
  split
  · exact h
  · apply passLaw_checkPassEnd
    have hd : passForm false (dropJobs p s) := by
      obtain ⟨h1, h2, h3⟩ := passForm_weaken (passLaw_iff.mp h)
      have hc : scanJobs (dropJobs p s) + (s.queue.jobs.filter p).countP (fun j => j.tag.isScan) = scanJobs s := by
        have hsplit : ∀ l : List QueuedJob, (l.filter (fun j => !p j)).countP (fun j => j.tag.isScan) +
            (l.filter p).countP (fun j => j.tag.isScan) = l.countP (fun j => j.tag.isScan) := by
          intro l
          induction l with
          | nil => rfl
          | cons a l ih =>
            cases hp : p a <;> simp [hp, List.countP_cons] <;> omega
        have := hsplit s.queue.jobs
        have hf : scanInFlight (dropJobs p s) = scanInFlight s := rfl
        have hj : (dropJobs p s).queue.jobs = s.queue.jobs.filter (fun j => !p j) := rfl
        unfold scanJobs
        rw [hf, hj]
        omega
      have hf : scanInFlight (dropJobs p s) = scanInFlight s := rfl
      have hpc : (dropJobs p s).scan.passCount =
          s.scan.passCount - (s.queue.jobs.filter p).countP (fun j => j.tag.isScan) := rfl
      have hge : scanInFlight s = true → 1 ≤ scanJobs (dropJobs p s) := by
        intro h0
        unfold scanJobs
        rw [hf, h0]
        simp
      refine ⟨h1, by omega, ?_⟩
      rw [hf]
      generalize scanJobs (dropJobs p s) = m at hc hge ⊢
      unfold passShape at h3 ⊢
      simp only [dropJobs, State.withScan_scan]
      cases hs : s.scan.state <;> simp only [hs] at h3 ⊢
      · exact ⟨by omega, h3.2⟩
      · exact ⟨by omega, h3.2⟩
      · exact ⟨h3.1, by simp⟩
      · have := hge h3.2.1
        exact ⟨by omega, h3.2⟩
    have hk := passForm_retake hd
    unfold clearStallIfEmpty
    split <;> exact hk
theorem passLaw_relink (ch : ChannelId) (a b : Descriptor) (h : passLaw s) : passLaw (relink ch a b s) := passLaw_keep (by simp) (by simp) (by simp) h
theorem passLaw_removeAlert (ch : ChannelId) (h : passLaw s) : passLaw (removeAlert ch s) := passLaw_keep (by simp) (by simp) (by simp) h
theorem passLaw_withdrawOffer (ch : ChannelId) (h : passLaw s) : passLaw (withdrawOffer ch s) := by
  unfold withdrawOffer
  split
  · rename_i n ch' hc
    split
    · have hr := passForm_running (passLaw_iff.mp h) (by rw [hc]; simp)
      rw [passLaw_iff] at h ⊢
      refine ⟨h.1, h.2.1, ?_⟩
      simp [passShape, hr.2.2]
    · exact h
  all_goals exact h
theorem passLaw_applyCommit (ch : ChannelId) (im : Image) (h : passLaw s) : passLaw (applyCommit ch im s).1 := by
  unfold applyCommit
  try simp only []
  repeat' split
  all_goals with_reducible repeat (first | exact h | apply passLaw_onChannel | apply passLaw_removeJobs | apply passLaw_relink | apply passLaw_removeAlert | apply passLaw_withdrawOffer)
theorem passLaw_decideCommit (ch : ChannelId) (im : Image) (h : passLaw s) : passLaw (decideCommit ch im s).1 := by
  unfold decideCommit
  try simp only []
  repeat' split
  all_goals with_reducible repeat (first | exact h | apply passLaw_applyCommit)
theorem passLaw_decideDeferred (h : passLaw s) : passLaw (decideDeferred s) := by
  unfold decideDeferred
  try simp only []
  repeat' split
  all_goals with_reducible repeat (first | exact h | apply passLaw_withDeferred | apply passLaw_finishWorking | apply passLaw_decideCommit)
theorem passLaw_offerSequencer (h : passLaw s) : passLaw (offerSequencer s) := passLaw_select h
theorem passLaw_jobEnd (st : JobStatus) (h : passLaw s) : passLaw (jobEnd st s) := by
  unfold jobEnd
  split
  · exact h
  · rename_i j hj
    apply passLaw_offerSequencer
    unfold announceTo
    simp only []
    apply passLaw_decideDeferred
    set t := lastStatusShare _ _ with ht
    have hsc : t.scan = s.scan := by rw [ht]; simp
    have hq : t.queue = s.queue := by rw [ht]; simp
    have hse : t.seq = .quiet := by rw [ht]; simp
    clear_value t
    have hfly : scanInFlight t = false := by simp [scanInFlight, hse, Sequencer.quiet]
    have htag : (announce st j s).tag = j.tag := rfl
    have hs0 : scanInFlight s = j.tag.isScan := by simp [scanInFlight, hj]
    rw [passLaw_iff] at h
    obtain ⟨h1, h2, h3⟩ := h
    have hn : scanJobs s = scanJobs t + (if j.tag.isScan then 1 else 0) := by
      simp [scanJobs, hfly, hs0, hq]
    rw [htag]
    split
    · rename_i hscan
      simp only [hscan, if_true] at hn
      unfold countOut
      simp only []
      have hst := h3
      unfold passShape at h3
      have ht1 : ∀ u : State, u.queue = t.queue → u.seq = t.seq → scanJobs u = scanJobs t ∧ scanInFlight u = false := by
        intro u hu hv
        have := scanJobs_of (s := t) (t := u) (by rw [hu]) (by rw [hv])
        exact ⟨this.1, this.2.trans hfly⟩
      split
      · rename_i hr
        apply passLaw_checkPassEnd
        rw [hsc] at hr
        simp only [hr] at h3
        obtain ⟨e1, e2⟩ := ht1 (t.withScan { t.scan with passCount := t.scan.passCount - 1 }) (by simp) (by simp)
        refine ⟨by simp [hse, Sequencer.quiet], ?_, ?_⟩
        · rw [e1]; simp [hsc]; omega
        · simp [passShape, hsc, hr, h3.1]
      · rename_i hr
        rw [hsc] at hr
        simp only [hr] at h3
        have h0 : scanJobs t = 0 := by omega
        rw [if_pos (by simp [hsc]; omega)]
        unfold completeStop
        apply passLaw_finishWorking
        rw [passLaw_iff]
        obtain ⟨e1, e2⟩ := ht1 (applySwap ((t.withScan { t.scan with passCount := t.scan.passCount - 1 }).withScan
            { t.scan with passCount := t.scan.passCount - 1, state := .stopped })) (by simp) (by simp)
        refine ⟨by simp [hse, Sequencer.quiet], ?_, ?_⟩
        · refine Eq.trans ?_ e1.symm
          rw [h0]
          unfold applySwap; split <;> (simp [hsc]; omega)
        · have hz : ∀ u : State, scanJobs u = 0 → u.scan.state = .stopped → u.scan.cursor = .cleared →
              u.scan.swapPending = false → u.scan.timer = 0 → passShape u.scan (scanJobs u) (scanInFlight u) true := by
            intro u a b c d e; simp [passShape, a, b, c, d, e]
          apply hz
          · exact e1.trans h0
          · unfold applySwap; split <;> simp
          · unfold applySwap; split <;> simp [hsc, h3]
          · unfold applySwap; split
            · simp
            · rename_i hsw; simpa using hsw
          · unfold applySwap; split <;> simp [hsc, h3]
      · rename_i hr
        rw [hsc] at hr
        simp only [hr] at h3
        omega
      · rename_i hr
        rw [hsc] at hr
        simp only [hr] at h3
        omega
    · rename_i hscan
      simp only [hscan] at hn
      have hn' : scanJobs t = scanJobs s := by simpa using hn.symm
      rw [passLaw_iff]
      refine ⟨by simp [hse, Sequencer.quiet], by rw [hn', hsc]; exact h2, ?_⟩
      rw [hn', hsc]
      have hf0 : scanInFlight s = false := by rw [hs0]; simpa using hscan
      rw [hfly]; rw [hf0] at h3; exact h3
theorem passLaw_abortJob (h : passLaw s) : passLaw (abortJob s).1 := by
  unfold abortJob
  try simp only []
  repeat' split
  all_goals with_reducible repeat (first | exact h | apply passLaw_jobEnd)
theorem passLaw_phaseEnd (pe : PhaseEnd) (h : passLaw s) : passLaw (phaseEnd pe s) := by
  unfold phaseEnd
  simp only []
  split
  · exact h
  · rename_i j hj
    have hi : s.seq.state ≠ .idle := fun h0 => by rw [h.1 h0] at hj; cases hj
    repeat' split
    · exact passLaw_jobEnd _ (passLaw_onChannel _ _ h)
    · refine passLaw_startPhase _ (passLaw_withSeq (passLaw_onSlot _ _ (passLaw_onChannel _ _ h)) ?_ ?_)
      · intro h0; exact absurd h0 hi
      · simp [scanInFlight, hj]
    all_goals exact passLaw_jobEnd _ (passLaw_onSlot _ _ (passLaw_onChannel _ _ h))
theorem passLaw_sampleComplete (h : passLaw s) : passLaw (sampleComplete s) := by
  unfold sampleComplete
  simp only []
  repeat' split
  all_goals first
    | exact passLaw_phaseEnd _ h
    | exact passLaw_phaseEnd _ (passLaw_withWork _ h)
    | exact passLaw_enterArm (passLaw_withWork _ h)
theorem passLaw_overflowed (h : passLaw s) : passLaw (overflowed s) := by
  unfold overflowed
  simp only []
  split
  · refine passLaw_enterArm (passLaw_runRequest _ (passLaw_withSeq h ?_ ?_))
    · intro h0; simp only [h.1 h0, Option.map_none]
    · cases hj : s.seq.job <;> simp [scanInFlight, hj]
  · exact passLaw_phaseEnd _ h
theorem passLaw_sequencerTb (h : passLaw s) : passLaw (sequencerTb s) := by
  unfold sequencerTb
  simp only []
  repeat' split
  all_goals first
    | exact h
    | exact passLaw_withWork _ h
    | exact passLaw_startSample h
    | exact passLaw_enterSettle (passLaw_withWork _ h)
    | exact passLaw_enterArm (passLaw_withWork _ h)
    | exact passLaw_phaseEnd _ (passLaw_withWork _ h)
    | exact passLaw_sampleComplete (passLaw_withWork _ h)
    | exact passLaw_overflowed h
theorem passLaw_sequencerSlow (h : passLaw s) : passLaw (sequencerSlow s) := by
  unfold sequencerSlow
  simp only []
  repeat' split
  all_goals first
    | exact h
    | exact passLaw_withWork _ h
    | exact passLaw_startSample h
    | exact passLaw_enterSettle (passLaw_withWork _ h)
    | exact passLaw_enterArm (passLaw_withWork _ h)
    | exact passLaw_phaseEnd _ (passLaw_withWork _ h)
    | exact passLaw_sampleComplete (passLaw_withWork _ h)
    | exact passLaw_overflowed h
theorem passLaw_sequencerEdge (h : passLaw s) : passLaw (sequencerEdge s) := by
  unfold sequencerEdge
  simp only []
  repeat' split
  all_goals first
    | exact h
    | exact passLaw_withWork _ h
    | exact passLaw_startSample h
    | exact passLaw_enterSettle (passLaw_withWork _ h)
    | exact passLaw_enterArm (passLaw_withWork _ h)
    | exact passLaw_phaseEnd _ (passLaw_withWork _ h)
    | exact passLaw_sampleComplete (passLaw_withWork _ h)
    | exact passLaw_overflowed h
theorem passLaw_deliverEdge (c : Bool) (h : passLaw s) : passLaw (deliverEdge c s) := by
  unfold deliverEdge
  try simp only []
  repeat' split
  all_goals with_reducible repeat (first | exact h | apply passLaw_withFreeIndex | apply passLaw_sequencerEdge)
theorem passLaw_oscillatorEdge (c : Bool) (h : passLaw s) : passLaw (oscillatorEdge c s) := by
  rw [oscillatorEdge_spec]
  try simp only []
  repeat' split
  all_goals with_reducible repeat (first | exact h | apply passLaw_withFrontEnd | apply passLaw_deliverEdge)
theorem passLaw_nodeMoves (h : passLaw s) : passLaw (nodeMoves s) := passLaw_keep (by simp) (by simp) (by simp) h
theorem passLaw_stampTick (h : passLaw s) : passLaw (stampTick s) := by
  unfold stampTick
  try simp only []
  repeat' split
  all_goals with_reducible repeat (first | exact h | apply passLaw_withTimebase)
theorem passLaw_ageTick (h : passLaw s) : passLaw (ageTick s) := by
  unfold ageTick
  try simp only []
  repeat' split
  all_goals with_reducible repeat (first | exact h | apply passLaw_withRefs)
theorem passLaw_scanSlow (h : passLaw s) : passLaw (scanSlow s) := by
  unfold scanSlow
  try simp only []
  repeat' split
  all_goals with_reducible repeat (first | exact h | apply passLaw_timerTick | apply passLaw_trigSample)
theorem passLaw_slowShare (h : passLaw s) : passLaw (slowShare s) := 
  eitherOrder_ind (fun _ n h => passLaw_withFreeIndex n h) (passLaw_scanSlow (passLaw_ageTick (passLaw_stampTick h)))
    (passLaw_ageTick (passLaw_scanSlow (passLaw_stampTick h)))
theorem passLaw_sequencerShare (b : SeqState) (w : Bool) (h : passLaw s) : passLaw (sequencerShare b w s) := by
  unfold sequencerShare
  try simp only []
  repeat' split
  all_goals with_reducible repeat (first | exact h | apply passLaw_sequencerTb | apply passLaw_sequencerSlow)
theorem passLaw_cursorShare (b : Cursor) (h : passLaw s) : passLaw (cursorShare b s) := by
  unfold cursorShare
  try simp only []
  repeat' split
  all_goals with_reducible repeat (first | exact h | apply passLaw_cursorMove)
theorem passLaw_tbTick (l : Bool) (h : passLaw s) : passLaw (tbTick l s) := by
  unfold tbTick
  split
  · exact anyOrder_ind (fun _ n h => passLaw_withFreeIndex n h) (fun _ h => passLaw_sequencerShare _ _ h)
      (fun _ h => passLaw_cursorShare _ h) (fun _ h => by split; exacts [passLaw_slowShare h, h])
      (passLaw_withPins _ (passLaw_withTimebase _ h))
  · exact h
theorem passLaw_slowTick (l : Bool) (h : passLaw s) : passLaw (slowTick l s) := by
  unfold slowTick
  try simp only []
  repeat' split
  all_goals with_reducible repeat (first | exact h | apply passLaw_withTimebase | apply passLaw_withPins | apply passLaw_sequencerSlow | apply passLaw_slowShare)
theorem passLaw_refuse (r : Reason) (h : passLaw s) : passLaw (refuse r s).1 := h
theorem passLaw_admitDirect (ch : ChannelId) (h : passLaw s) : passLaw (admitDirect ch s).1 := by
  unfold admitDirect
  simp only []
  repeat' split
  all_goals try exact h
  apply passLaw_select
  rw [passLaw_iff] at h ⊢
  have hn : ∀ u : State, u.queue.jobs = s.queue.jobs ++ [{ channel := ch, tag := .direct s.queue.nextTicket }] →
      u.seq = s.seq → scanJobs u = scanJobs s ∧ scanInFlight u = scanInFlight s := by
    intro u hu hv
    have hf : scanInFlight u = scanInFlight s := by unfold scanInFlight; rw [hv]
    exact ⟨by unfold scanJobs; rw [hu, hf, List.countP_append]; rfl, hf⟩
  obtain ⟨e1, e2⟩ := hn (s.withQueue { s.queue with
      jobs := s.queue.jobs ++ [{ channel := ch, tag := .direct s.queue.nextTicket }],
      nextTicket := ticketAfter s.queue.nextTicket }) (by simp) (by simp)
  refine ⟨h.1, ?_, ?_⟩
  · rw [e1]; exact h.2.1
  · rw [e1, e2]; exact h.2.2
theorem passLaw_measureNow (h : passLaw s) : passLaw (measureNow s).1 := by
  unfold measureNow
  try simp only []
  repeat' split
  all_goals with_reducible repeat (first | exact h | apply passLaw_refuse | apply passLaw_admitDirect)
theorem passLaw_flushQueue (h : passLaw s) : passLaw (flushQueue s).1 := by
  unfold flushQueue
  try simp only []
  repeat' split
  all_goals with_reducible repeat (first | exact h | apply passLaw_removeJobs | apply passLaw_refuse)
theorem passLaw_scanStart (h : passLaw s) : passLaw (scanStart s).1 := by
  unfold scanStart
  split
  · exact h
  refine iteInduction (motive := fun r => passLaw (Prod.fst r)) (fun _ => h) (fun _ => ?_)
  refine iteInduction (motive := fun r => passLaw (Prod.fst r)) (fun _ => h) (fun hs => ?_)
  simp only [ne_eq, Decidable.not_not] at hs
  refine passLaw_passStart ?_ (.inl (by simpa using hs))
  rw [passLaw_iff] at h ⊢
  refine passForm_withScan _ h.1 h.2.1 ?_
  have h3 := h.2.2
  generalize scanJobs s = n at h3 ⊢
  generalize scanInFlight s = f at h3 ⊢
  unfold passShape at h3 ⊢
  simp [hs] at h3 ⊢
  exact ⟨h3.1, h3.2.1, h3.2.2.1⟩
theorem passLaw_scanOnce (h : passLaw s) : passLaw (scanOnce s).1 := by
  unfold scanOnce
  split
  · exact h
  · split
    · rename_i hs
      refine passLaw_passStart ?_ (.inl (by simpa using hs))
      rw [passLaw_iff] at h ⊢
      refine passForm_withScan _ h.1 h.2.1 ?_
      have h3 := h.2.2
      generalize scanJobs s = n at h3 ⊢
      generalize scanInFlight s = f at h3 ⊢
      unfold passShape at h3 ⊢
      simp [hs] at h3 ⊢
      exact h3
    · rename_i hs
      exact passLaw_passStart h (.inr hs)
    · exact h
    · exact h
theorem passLaw_scanStop (h : passLaw s) : passLaw (scanStop s).1 := by
  unfold scanStop
  split
  · exact h
  · rename_i hns
    simp only []
    have h1 := h.1
    have hcount : ∀ l : List QueuedJob, (l.filter (fun j => !j.tag.isScan)).countP (fun j => j.tag.isScan) = 0 := by
      intro l
      rw [List.countP_eq_zero]
      intro a ha
      have := (List.mem_filter.mp ha).2
      simpa using this
    set s0 := s.withScan { s.scan with cursor := .cleared, timer := 0 } with hs0
    have hrem : ∃ cnt, (removeJobs (fun j => j.tag.isScan) s0).1.scan = { s0.scan with passCount := cnt } ∧
        cnt = (if scanInFlight s then 1 else 0) ∧
        (removeJobs (fun j => j.tag.isScan) s0).1.queue.jobs.countP (fun j => j.tag.isScan) = 0 := by
      have h2 : s.scan.passCount = scanJobs s := h.2.1
      unfold removeJobs
      split
      · rename_i he
        refine ⟨s.scan.passCount, rfl, ?_, ?_⟩
        · rw [h2]
          simp only [scanJobs]
          have : s.queue.jobs.countP (fun j => j.tag.isScan) = 0 := by
            rw [List.countP_eq_length_filter]
            simpa [hs0] using he
          omega
        · rw [List.countP_eq_length_filter]
          simpa using he
      · have hret : retake (dropJobs (fun j => j.tag.isScan) s0) = dropJobs (fun j => j.tag.isScan) s0 := by
          simp [retake, retakeOffer, dropJobs, hs0]
        rw [hret]
        have hcpe : ∀ u : State, u.scan.cursor = .cleared → checkPassEnd u = u := by
          intro u hu; simp [checkPassEnd, hu]
        have hcl : (clearStallIfEmpty (dropJobs (fun j => j.tag.isScan) s0)).scan.cursor = .cleared := by
          simp [dropJobs, hs0]
        simp only [hcpe _ hcl]
        refine ⟨s.scan.passCount - (s.queue.jobs.filter (fun j => j.tag.isScan)).countP (fun j => j.tag.isScan), ?_, ?_, ?_⟩
        · simp [dropJobs, hs0]
        · rw [h2]
          have : (s.queue.jobs.filter (fun j => j.tag.isScan)).countP (fun j => j.tag.isScan)
              = s.queue.jobs.countP (fun j => j.tag.isScan) := by
            rw [List.countP_eq_length_filter, List.filter_filter, List.countP_eq_length_filter]; simp
          rw [this]; simp only [scanJobs]; omega
        · have : (clearStallIfEmpty (dropJobs (fun j => j.tag.isScan) s0)).queue.jobs
              = s.queue.jobs.filter (fun j => !j.tag.isScan) := by
            unfold clearStallIfEmpty; split <;> simp [dropJobs, hs0]
          rw [this]; exact hcount _
    obtain ⟨cnt, hsc, hcnt, hq⟩ := hrem
    set r := removeJobs (fun j => j.tag.isScan) s0 with hr
    have hseq : r.1.seq = s.seq := by rw [hr]; simp [hs0]
    clear_value r
    split
    · rename_i hfly
      simp only [hfly, if_true] at hcnt
      rw [passLaw_iff]
      have hf : ∀ x, scanInFlight (r.1.withScan x) = true := by
        intro x; simpa [scanInFlight, hseq] using hfly
      have hj : ∀ x, scanJobs (r.1.withScan x) = 1 := by
        intro x; simp only [scanJobs, hf]; simp [hq]
      refine ⟨by simpa [hseq] using h1, ?_, ?_⟩
      · rw [hj]; simp [hsc, hcnt]
      · rw [hj, hf]; simp [passShape, hsc, hs0]
    · rename_i hfly
      simp only [hfly] at hcnt
      rw [passLaw_iff]
      have hf : ∀ x, scanInFlight ((applySwap r.1).withScan x) = false := by
        intro x; simpa [scanInFlight, hseq] using hfly
      have hj : ∀ x, scanJobs ((applySwap r.1).withScan x) = 0 := by
        intro x; simp only [scanJobs, hf]; simp [hq]
      refine ⟨by simpa [hseq] using h1, ?_, ?_⟩
      · rw [hj]; unfold applySwap; split <;> simp [hsc, hcnt]
      · rw [hj, hf]
        unfold applySwap
        split
        · simp [passShape, hsc, hs0]
        · rename_i hsw
          simp at hsw
          simp [passShape, hsc, hs0]
          simpa [hsc, hs0] using hsw
theorem passLaw_swapBanks (h : passLaw s) : passLaw (swapBanks s).1 := by
  unfold swapBanks
  simp only []
  split
  · exact h
  · split
    all_goals (
      rename_i hs
      rw [passLaw_iff] at h ⊢
      refine passForm_withScan _ h.1 h.2.1 ?_
      have h3 := h.2.2
      generalize scanJobs s = n at h3 ⊢
      generalize scanInFlight s = f at h3 ⊢
      unfold passShape at h3 ⊢
      simp [hs] at h3 ⊢
      exact h3)
theorem passLaw_commitChannel (h : passLaw s) : passLaw (commitChannel s).1 := by
  unfold commitChannel
  try simp only []
  repeat' split
  all_goals with_reducible repeat (first | exact h | apply passLaw_withDeferred | apply passLaw_decideCommit | apply passLaw_refuse)
theorem passLaw_fetchChannel (h : passLaw s) : passLaw (fetchChannel s).1 := by
  unfold fetchChannel
  try simp only []
  repeat' split
  all_goals with_reducible repeat (first | exact h | apply passLaw_withStaging | apply passLaw_refuse)
theorem passLaw_invalidateReference (h : passLaw s) : passLaw (invalidateReference s).1 := by
  unfold invalidateReference
  try simp only []
  repeat' split
  all_goals with_reducible repeat (first | exact h | apply passLaw_onSlot | apply passLaw_invalidateAll | apply passLaw_refuse)
theorem passLaw_clearZone (h : passLaw s) : passLaw (clearZone s).1 := by
  unfold clearZone
  try simp only []
  repeat' split
  all_goals with_reducible repeat (first | exact h | apply passLaw_withChannels | apply passLaw_withAlerts | apply passLaw_onChannel | apply passLaw_removeAlert | apply passLaw_refuse)
theorem passLaw_clearAlerts (h : passLaw s) : passLaw (clearAlerts s).1 := by
  unfold clearAlerts
  try simp only []
  repeat' split
  all_goals with_reducible repeat (first | exact h | apply passLaw_withAlerts)
theorem passLaw_clearResults (h : passLaw s) : passLaw (clearResults s).1 := passLaw_retry h
theorem passLaw_setTimebase (h : passLaw s) : passLaw (setTimebase s).1 := by
  unfold setTimebase
  try simp only []
  repeat' split
  all_goals with_reducible repeat (first | exact h | apply passLaw_withTimebase | apply passLaw_invalidateAll | apply passLaw_refuse)
theorem passLaw_sleep (h : passLaw s) : passLaw (sleep s).1 := by
  unfold sleep
  try simp only []
  repeat' split
  all_goals with_reducible repeat (first | exact h | apply passLaw_withFrontEnd | apply passLaw_withTimebase | apply passLaw_invalidateAll | apply passLaw_refuse)
theorem passLaw_wake (h : passLaw s) : passLaw (wake s).1 := by
  unfold wake
  try simp only []
  repeat' split
  all_goals with_reducible repeat (first | exact h | apply passLaw_withFrontEnd | apply passLaw_withTimebase)
theorem passLaw_unknownCommand (h : passLaw s) : passLaw (unknownCommand s).1 := by
  unfold unknownCommand
  try simp only []
  repeat' split
  all_goals with_reducible repeat (first | exact h | apply passLaw_refuse)
theorem passLaw_quietEngine (h : passLaw s) : passLaw (quietEngine s) := by
  refine ⟨fun _ => by simp [quietEngine, Sequencer.quiet], ?_, ?_⟩ <;>
    simp [quietEngine, scanJobs, scanInFlight, Sequencer.quiet, JobQueue.quiet, ScanController.quiet]
theorem passLaw_engineReset (h : passLaw s) : passLaw (engineReset s) := by
  unfold engineReset
  try simp only []
  repeat' split
  all_goals with_reducible repeat (first | exact h | apply passLaw_raise | apply passLaw_recordOutcome | apply passLaw_quietEngine)
theorem passLaw_powerOn (h : passLaw s) : passLaw (powerOn s) := ⟨fun _ => rfl, rfl, rfl, rfl, rfl, rfl⟩
theorem passLaw_endReset (l : Bool) (h : passLaw s) : passLaw (endReset l s) := by
  unfold endReset
  try simp only []
  repeat' split
  all_goals with_reducible repeat (first | exact h | apply passLaw_withInReset | apply passLaw_withFrontEnd | apply passLaw_withPort | apply passLaw_withPins)
theorem passLaw_takeResult (h : passLaw s) : passLaw (takeResult s) := by
  unfold takeResult
  try simp only []
  repeat' split
  all_goals with_reducible repeat (first | exact h | apply passLaw_withFifo)
theorem passLaw_popResult (h : passLaw s) : passLaw (popResult s) := by
  unfold popResult
  try simp only []
  repeat' split
  all_goals with_reducible repeat (first | exact h | apply passLaw_retry | apply passLaw_takeResult)
theorem passLaw_popAlert (h : passLaw s) : passLaw (popAlert s) := by
  unfold popAlert
  try simp only []
  repeat' split
  all_goals with_reducible repeat (first | exact h | apply passLaw_withAlerts)
theorem passLaw_readAction (a : Byte) (h : passLaw s) : passLaw (readAction a s) := by
  unfold readAction
  try simp only []
  repeat' split
  all_goals with_reducible repeat (first | exact h | apply passLaw_popResult | apply passLaw_popAlert)
theorem passLaw_advancePointer (h : passLaw s) : passLaw (advancePointer s) := by
  unfold advancePointer
  try simp only []
  repeat' split
  all_goals with_reducible repeat (first | exact h | apply passLaw_withPort)
theorem passLaw_busStart (a : Byte) (h : passLaw s) : passLaw (busStart a s) := by
  unfold busStart
  try simp only []
  repeat' split
  all_goals with_reducible repeat (first | exact h | apply passLaw_withPort)
theorem passLaw_openWrite (h : passLaw s) : passLaw (openWrite s) := by
  unfold openWrite
  try simp only []
  repeat' split
  all_goals with_reducible repeat (first | exact h | apply passLaw_busStart)
theorem passLaw_copySnapshot (h : passLaw s) : passLaw (copySnapshot s) := by
  unfold copySnapshot
  try simp only []
  repeat' split
  all_goals with_reducible repeat (first | exact h | apply passLaw_busStart)
theorem passLaw_sendByte (a : State → State) (h : passLaw s) (ha : passLaw (a s)) : passLaw (sendByte a s) := passLaw_advancePointer (passLaw_withPort _ ha)
theorem passLaw_windowRead (a : Byte) (e : State → State) (h : passLaw s) (he : ∀ t, passLaw t → passLaw (e t)) :
    passLaw (windowRead a e s) := by
  unfold windowRead
  split
  · exact h
  · split
    · refine passLaw_sendByte _ h ?_
      split
      · exact he _ h
      · exact passLaw_readAction _ h
    all_goals exact h
theorem passLaw_issue (c : Byte) (f : State → State × Reply) (h : passLaw s) (hf : passLaw (f s).1) :
    passLaw (issue c f s) := by
  unfold issue
  split
  · exact passLaw_collide h
  · exact passLaw_recordOutcome _ _ hf
theorem passLaw_issueAbort (h : passLaw s) : passLaw (issueAbort s) := by
  unfold issueAbort
  try simp only []
  repeat' split
  all_goals with_reducible repeat (first | exact h | apply passLaw_recordOutcome | apply passLaw_abortJob)
theorem passLaw_issueCode (c : Byte) (h : passLaw s) : passLaw (issueCode c s) := by
  unfold issueCode
  refine iteInduction (fun _ => ?_) (fun _ => ?_)
  · exact passLaw_issue _ _ h (passLaw_measureNow h)
  refine iteInduction (fun _ => ?_) (fun _ => ?_)
  · exact passLaw_issueAbort h
  refine iteInduction (fun _ => ?_) (fun _ => ?_)
  · exact passLaw_issue _ _ h (passLaw_flushQueue h)
  refine iteInduction (fun _ => ?_) (fun _ => ?_)
  · exact passLaw_issue _ _ h (passLaw_scanStart h)
  refine iteInduction (fun _ => ?_) (fun _ => ?_)
  · exact passLaw_issue _ _ h (passLaw_scanStop h)
  refine iteInduction (fun _ => ?_) (fun _ => ?_)
  · exact passLaw_issue _ _ h (passLaw_scanOnce h)
  refine iteInduction (fun _ => ?_) (fun _ => ?_)
  · exact passLaw_issue _ _ h (passLaw_swapBanks h)
  refine iteInduction (fun _ => ?_) (fun _ => ?_)
  · exact passLaw_issue _ _ h (passLaw_commitChannel h)
  refine iteInduction (fun _ => ?_) (fun _ => ?_)
  · exact passLaw_issue _ _ h (passLaw_fetchChannel h)
  refine iteInduction (fun _ => ?_) (fun _ => ?_)
  · exact passLaw_issue _ _ h (passLaw_invalidateReference h)
  refine iteInduction (fun _ => ?_) (fun _ => ?_)
  · exact passLaw_issue _ _ h (passLaw_clearZone h)
  refine iteInduction (fun _ => ?_) (fun _ => ?_)
  · exact passLaw_issue _ _ h (passLaw_clearAlerts h)
  refine iteInduction (fun _ => ?_) (fun _ => ?_)
  · exact passLaw_issue _ _ h (passLaw_clearResults h)
  refine iteInduction (fun _ => ?_) (fun _ => ?_)
  · exact passLaw_issue _ _ h (passLaw_setTimebase h)
  refine iteInduction (fun _ => ?_) (fun _ => ?_)
  · exact passLaw_issue _ _ h (passLaw_sleep h)
  refine iteInduction (fun _ => ?_) (fun _ => ?_)
  · exact passLaw_issue _ _ h (passLaw_wake h)
  refine iteInduction (fun _ => ?_) (fun _ => ?_)
  · exact passLaw_engineReset h
  exact passLaw_issue _ _ h (passLaw_unknownCommand h)
theorem passLaw_clearFlags (v : Byte) (h : passLaw s) : passLaw (clearFlags v s) := by
  unfold clearFlags
  try simp only []
  repeat' split
  all_goals with_reducible repeat (first | exact h | apply passLaw_withEvents)
theorem passLaw_writeEnables (v : Byte) (h : passLaw s) : passLaw (writeEnables v s) := by
  unfold writeEnables
  try simp only []
  repeat' split
  all_goals with_reducible repeat (first | exact h | apply passLaw_withEvents)
theorem passLaw_writeBank (a v : Byte) (h : passLaw s) : passLaw (writeBank a v s) := by
  unfold writeBank storeBank
  simp only []
  repeat' split
  all_goals exact h
theorem passLaw_writeOverrun (v : Byte) (h : passLaw s) : passLaw (writeOverrun v s) := by
  unfold writeOverrun
  repeat' split
  all_goals exact h
theorem passLaw_writePolicy (v : Byte) (h : passLaw s) : passLaw (writePolicy v s) := passLaw_retry h
theorem passLaw_writePeriodLow (v : Byte) (h : passLaw s) : passLaw (writePeriodLow v s) := by
  unfold writePeriodLow
  repeat' split
  all_goals exact h
theorem passLaw_writePeriodHigh (v : Byte) (h : passLaw s) : passLaw (writePeriodHigh v s) := by
  unfold writePeriodHigh
  repeat' split
  all_goals exact h
theorem passLaw_writePlain (a v : Byte) (h : passLaw s) : passLaw (writePlain a v s) := by
  unfold writePlain
  simp only []
  repeat' refine iteInduction (fun _ => ?_) (fun _ => ?_)
  all_goals exact h
theorem passLaw_registerWrite (a v : Byte) (h : passLaw s) : passLaw (registerWrite a v s) := by
  unfold registerWrite
  try simp only []
  repeat' split
  all_goals with_reducible repeat (first | exact h | apply passLaw_issueCode | apply passLaw_clearFlags | apply passLaw_writeEnables | apply passLaw_writeBank | apply passLaw_writeOverrun | apply passLaw_writePolicy | apply passLaw_writePlain)
theorem passLaw_takeByte (v : Byte) (e : State → State) (h : passLaw s) (he : ∀ t, passLaw t → passLaw (e t)) :
    passLaw (takeByte v e s) := by
  unfold takeByte
  split
  · exact h
  · split
    · exact passLaw_withPort _ h
    · exact he _ (passLaw_advancePointer h)
    all_goals exact h
theorem passLaw_dataByte (a v : Byte) (e : State → State) (h : passLaw s) (he : ∀ t, passLaw t → passLaw (e t)) :
    passLaw (dataByte a v e s) := 
  passLaw_takeByte _ _ h (fun t ht => by split; exacts [he t ht, passLaw_registerWrite _ _ ht])
theorem passLaw_loadPointer (v : Byte) (h : passLaw s) : passLaw (loadPointer v s) := passLaw_takeByte _ _ h (fun _ ht => passLaw_registerWrite _ _ ht)

end Sys2Proof.Machine
end

