-- ==== Sys2Proof/Laws/PerInstr.lean ====
section
/-! SUPPORT. The family WriteRow: a well-formed row that is a register write is the row its address and byte name. -/

namespace Sys2Proof.Laws.WriteRow

/-- R164, R168, R195: the row of the register write that a well-formed row is, is that row. -/
def Statement (i : Instr) : Prop :=
  i.wellFormed = true → ∀ address value, i.busWrite = some (address, value) → Instr.ofRegisterWrite address value = i

theorem measureNow : Statement .measureNow := by
  intro _ _ _ e
  first
    | (injection e with e; injection e with e1 e2; subst e1; subst e2; rfl)
    | cases e

theorem abortJob : Statement .abortJob := by
  intro _ _ _ e
  first
    | (injection e with e; injection e with e1 e2; subst e1; subst e2; rfl)
    | cases e

theorem flushQueue : Statement .flushQueue := by
  intro _ _ _ e
  first
    | (injection e with e; injection e with e1 e2; subst e1; subst e2; rfl)
    | cases e

theorem scanStart : Statement .scanStart := by
  intro _ _ _ e
  first
    | (injection e with e; injection e with e1 e2; subst e1; subst e2; rfl)
    | cases e

theorem scanStop : Statement .scanStop := by
  intro _ _ _ e
  first
    | (injection e with e; injection e with e1 e2; subst e1; subst e2; rfl)
    | cases e

theorem scanOnce : Statement .scanOnce := by
  intro _ _ _ e
  first
    | (injection e with e; injection e with e1 e2; subst e1; subst e2; rfl)
    | cases e

theorem swapBanks : Statement .swapBanks := by
  intro _ _ _ e
  first
    | (injection e with e; injection e with e1 e2; subst e1; subst e2; rfl)
    | cases e

theorem commitChannel : Statement .commitChannel := by
  intro _ _ _ e
  first
    | (injection e with e; injection e with e1 e2; subst e1; subst e2; rfl)
    | cases e

theorem fetchChannel : Statement .fetchChannel := by
  intro _ _ _ e
  first
    | (injection e with e; injection e with e1 e2; subst e1; subst e2; rfl)
    | cases e

theorem invalidateReference : Statement .invalidateReference := by
  intro _ _ _ e
  first
    | (injection e with e; injection e with e1 e2; subst e1; subst e2; rfl)
    | cases e

theorem clearZone : Statement .clearZone := by
  intro _ _ _ e
  first
    | (injection e with e; injection e with e1 e2; subst e1; subst e2; rfl)
    | cases e

theorem clearAlerts : Statement .clearAlerts := by
  intro _ _ _ e
  first
    | (injection e with e; injection e with e1 e2; subst e1; subst e2; rfl)
    | cases e

theorem clearResults : Statement .clearResults := by
  intro _ _ _ e
  first
    | (injection e with e; injection e with e1 e2; subst e1; subst e2; rfl)
    | cases e

theorem setTimebase : Statement .setTimebase := by
  intro _ _ _ e
  first
    | (injection e with e; injection e with e1 e2; subst e1; subst e2; rfl)
    | cases e

theorem sleep : Statement .sleep := by
  intro _ _ _ e
  first
    | (injection e with e; injection e with e1 e2; subst e1; subst e2; rfl)
    | cases e

theorem wake : Statement .wake := by
  intro _ _ _ e
  first
    | (injection e with e; injection e with e1 e2; subst e1; subst e2; rfl)
    | cases e

theorem engineReset : Statement .engineReset := by
  intro _ _ _ e
  first
    | (injection e with e; injection e with e1 e2; subst e1; subst e2; rfl)
    | cases e

theorem unknownCommand (code : Byte) : Statement (.unknownCommand code) := by
  intro h address value e
  injection e with e; injection e with e1 e2; subst e1; subst e2
  simp [Instr.wellFormed, assignedCode] at h
  simp [Instr.ofRegisterWrite, Instr.ofCode, h]

theorem resultWindowPop : Statement .resultWindowPop := by
  intro _ _ _ e
  first
    | (injection e with e; injection e with e1 e2; subst e1; subst e2; rfl)
    | cases e

theorem alertWindowPop : Statement .alertWindowPop := by
  intro _ _ _ e
  first
    | (injection e with e; injection e with e1 e2; subst e1; subst e2; rfl)
    | cases e

theorem eventFlagsWrite (value : Byte) : Statement (.eventFlagsWrite value) := by
  intro _ _ _ e
  first
    | (injection e with e; injection e with e1 e2; subst e1; subst e2; rfl)
    | cases e

theorem eventEnablesWrite (value : Byte) : Statement (.eventEnablesWrite value) := by
  intro _ _ _ e
  first
    | (injection e with e; injection e with e1 e2; subst e1; subst e2; rfl)
    | cases e

theorem overrunCounterWrite (value : Byte) : Statement (.overrunCounterWrite value) := by
  intro _ _ _ e
  first
    | (injection e with e; injection e with e1 e2; subst e1; subst e2; rfl)
    | cases e

theorem fullPolicyWrite (value : Byte) : Statement (.fullPolicyWrite value) := by
  intro _ _ _ e
  first
    | (injection e with e; injection e with e1 e2; subst e1; subst e2; rfl)
    | cases e

theorem scanBankWrite (address : Byte) (value : Byte) : Statement (.scanBankWrite address value) := by
  intro h address' value' e
  injection e with e; injection e with e1 e2; subst e1; subst e2
  have h' : scanBankAddress address = true := h
  unfold Instr.ofRegisterWrite
  rw [if_neg, if_neg, if_neg, if_neg, if_neg, if_pos h']
  all_goals (intro e; subst e; revert h'; decide)

theorem registerWrite (address : Byte) (value : Byte) : Statement (.registerWrite address value) := by
  intro h address' value' e
  injection e with e; injection e with e1 e2; subst e1; subst e2
  simp [Instr.wellFormed, singleRowAddress] at h
  simp [Instr.ofRegisterWrite, h]

theorem registerPointerLoad (value : Byte) : Statement (.registerPointerLoad value) := by
  intro _ _ _ e
  first
    | (injection e with e; injection e with e1 e2; subst e1; subst e2; rfl)
    | cases e

theorem statusSnapshotCopy : Statement .statusSnapshotCopy := by
  intro _ _ _ e
  first
    | (injection e with e; injection e with e1 e2; subst e1; subst e2; rfl)
    | cases e

theorem powerOnReset : Statement .powerOnReset := by
  intro _ _ _ e
  first
    | (injection e with e; injection e with e1 e2; subst e1; subst e2; rfl)
    | cases e

theorem resetEnd (addrHigh : Bool) : Statement (.resetEnd addrHigh) := by
  intro _ _ _ e
  first
    | (injection e with e; injection e with e1 e2; subst e1; subst e2; rfl)
    | cases e

theorem tbTick (trigHigh : Bool) : Statement (.tbTick trigHigh) := by
  intro _ _ _ e
  first
    | (injection e with e; injection e with e1 e2; subst e1; subst e2; rfl)
    | cases e

theorem slowTick (trigHigh : Bool) : Statement (.slowTick trigHigh) := by
  intro _ _ _ e
  first
    | (injection e with e; injection e with e1 e2; subst e1; subst e2; rfl)
    | cases e

theorem oscillatorEdge (close : Bool) : Statement (.oscillatorEdge close) := by
  intro _ _ _ e
  first
    | (injection e with e; injection e with e1 e2; subst e1; subst e2; rfl)
    | cases e

theorem dischargeEnd : Statement .dischargeEnd := by
  intro _ _ _ e
  first
    | (injection e with e; injection e with e1 e2; subst e1; subst e2; rfl)
    | cases e

theorem settleEnd : Statement .settleEnd := by
  intro _ _ _ e
  first
    | (injection e with e; injection e with e1 e2; subst e1; subst e2; rfl)
    | cases e

theorem edgeTimeout : Statement .edgeTimeout := by
  intro _ _ _ e
  first
    | (injection e with e; injection e with e1 e2; subst e1; subst e2; rfl)
    | cases e

theorem windowGateClose : Statement .windowGateClose := by
  intro _ _ _ e
  first
    | (injection e with e; injection e with e1 e2; subst e1; subst e2; rfl)
    | cases e

theorem periodGateClose : Statement .periodGateClose := by
  intro _ _ _ e
  first
    | (injection e with e; injection e with e1 e2; subst e1; subst e2; rfl)
    | cases e

theorem overflow : Statement .overflow := by
  intro _ _ _ e
  first
    | (injection e with e; injection e with e1 e2; subst e1; subst e2; rfl)
    | cases e

theorem passTimerExpiry : Statement .passTimerExpiry := by
  intro _ _ _ e
  first
    | (injection e with e; injection e with e1 e2; subst e1; subst e2; rfl)
    | cases e

theorem trigEdgeQualified : Statement .trigEdgeQualified := by
  intro _ _ _ e
  first
    | (injection e with e; injection e with e1 e2; subst e1; subst e2; rfl)
    | cases e

theorem arbiterSelection : Statement .arbiterSelection := by
  intro _ _ _ e
  first
    | (injection e with e; injection e with e1 e2; subst e1; subst e2; rfl)
    | cases e

theorem cursorAdvance : Statement .cursorAdvance := by
  intro _ _ _ e
  first
    | (injection e with e; injection e with e1 e2; subst e1; subst e2; rfl)
    | cases e

theorem offerRetake : Statement .offerRetake := by
  intro _ _ _ e
  first
    | (injection e with e; injection e with e1 e2; subst e1; subst e2; rfl)
    | cases e

theorem writeTransactionStart : Statement .writeTransactionStart := by
  intro _ _ _ e
  first
    | (injection e with e; injection e with e1 e2; subst e1; subst e2; rfl)
    | cases e

end Sys2Proof.Laws.WriteRow
end

