-- ==== Sys2Proof/Laws/QueueLaw.lean ====
section
/-! SUPPORT. What keeps the law of the queue (R88). -/

namespace Sys2Proof.Machine

set_option linter.unusedTactic false
set_option linter.unreachableTactic false

variable {s : State}

/-- The law of a list of jobs. -/
def jobsLaw (jobs : List QueuedJob) : Prop := jobs.length ≤ 8 ∧ (jobs.map QueuedJob.key).Nodup

theorem queueLaw_iff : queueLaw s ↔ jobsLaw s.queue.jobs := Iff.rfl

theorem jobsLaw_sublist {a b : List QueuedJob} (hab : a.Sublist b) (h : jobsLaw b) : jobsLaw a :=
  ⟨hab.length_le.trans h.1, h.2.sublist (hab.map _)⟩

theorem jobsLaw_append {jobs : List QueuedJob} {j : QueuedJob} (h : jobsLaw jobs) (hl : jobs.length < 8)
    (hk : ∀ x ∈ jobs, x.key ≠ j.key) : jobsLaw (jobs ++ [j]) := by
  refine ⟨by simp; omega, ?_⟩
  rw [List.map_append, List.nodup_append]
  refine ⟨h.2, by simp, ?_⟩
  intro a ha b hb
  simp only [List.map_cons, List.map_nil, List.mem_singleton] at hb
  obtain ⟨x, hx, rfl⟩ := List.mem_map.mp ha
  subst hb
  exact hk x hx

/-- R94: a selection takes one job and leaves the others in their order. -/
theorem selectJob_sublist {jobs rest : List QueuedJob} {q : QueuedJob} (h : selectJob jobs = some (q, rest)) :
    rest.Sublist jobs := by
  unfold selectJob at h
  split at h
  · injection h with h; injection h with _ h; subst h; exact List.eraseP_sublist
  · split at h
    · cases h
    · injection h with h; injection h with _ h; subst h; exact List.sublist_cons_self _ _

theorem queueLaw_of_jobs {t : State} (hj : t.queue.jobs = s.queue.jobs) (h : queueLaw s) : queueLaw t := by
  unfold queueLaw; rw [hj]; exact h

theorem queueLaw_withPending (x : List Instr) (h : queueLaw s) : queueLaw (s.withPending x) := h
theorem queueLaw_withInReset (x : Bool) (h : queueLaw s) : queueLaw (s.withInReset x) := h
theorem queueLaw_withFrontEnd (x : FrontEnd) (h : queueLaw s) : queueLaw (s.withFrontEnd x) := h
theorem queueLaw_withTimebase (x : Timebase) (h : queueLaw s) : queueLaw (s.withTimebase x) := h
theorem queueLaw_withChannels (x : Vector Channel 16) (h : queueLaw s) : queueLaw (s.withChannels x) := h
theorem queueLaw_withStaging (x : Vector Byte 32) (h : queueLaw s) : queueLaw (s.withStaging x) := h
theorem queueLaw_withDeferred (x : Option DeferredCommit) (h : queueLaw s) : queueLaw (s.withDeferred x) := h
theorem queueLaw_withSeq (x : Sequencer) (h : queueLaw s) : queueLaw (s.withSeq x) := h
theorem queueLaw_withRefs (x : Vector RefSlot 4) (h : queueLaw s) : queueLaw (s.withRefs x) := h
theorem queueLaw_withScan (x : ScanController) (h : queueLaw s) : queueLaw (s.withScan x) := h
theorem queueLaw_withAlerts (x : AlertList) (h : queueLaw s) : queueLaw (s.withAlerts x) := h
theorem queueLaw_withFifo (x : ResultFifo) (h : queueLaw s) : queueLaw (s.withFifo x) := h
theorem queueLaw_withPort (x : SerialPort) (h : queueLaw s) : queueLaw (s.withPort x) := h
theorem queueLaw_withCmd (x : CommandPort) (h : queueLaw s) : queueLaw (s.withCmd x) := h
theorem queueLaw_withEvents (x : EventUnit) (h : queueLaw s) : queueLaw (s.withEvents x) := h
theorem queueLaw_withPins (x : InputPins) (h : queueLaw s) : queueLaw (s.withPins x) := h
theorem queueLaw_withFreeIndex (x : Nat) (h : queueLaw s) : queueLaw (s.withFreeIndex x) := h

theorem queueLaw_raise (f : Flag) (h : queueLaw s) : queueLaw (raise f s) := by
  simpa [queueLaw] using h
theorem queueLaw_clampRequest (h : queueLaw s) : queueLaw (clampRequest s) := by
  simpa [queueLaw] using h
theorem queueLaw_runRequest (p : PinId) (h : queueLaw s) : queueLaw (runRequest p s) := by
  simpa [queueLaw] using h
theorem queueLaw_onChannel (ch : ChannelId) (f : Channel → Channel) (h : queueLaw s) :
    queueLaw (onChannel ch f s) := by
  simpa [queueLaw] using h
theorem queueLaw_setEngaged (m : Bool) (ch : ChannelId) (h : queueLaw s) : queueLaw (setEngaged m ch s) := by
  simpa [queueLaw] using h
theorem queueLaw_markJob (m : Bool) (j : InFlight) (h : queueLaw s) : queueLaw (markJob m j s) := by
  simpa [queueLaw] using h
theorem queueLaw_onSlot (ch : ChannelId) (f : RefSlot → RefSlot) (h : queueLaw s) : queueLaw (onSlot ch f s) := by
  simpa [queueLaw] using h
theorem queueLaw_invalidateAll (h : queueLaw s) : queueLaw (invalidateAll s) := by
  simpa [queueLaw] using h
theorem queueLaw_recordOutcome (c : Byte) (r : Reply) (h : queueLaw s) : queueLaw (recordOutcome c r s) := by
  simpa [queueLaw] using h
theorem queueLaw_collide (h : queueLaw s) : queueLaw (collide s) := by
  simpa [queueLaw] using h
theorem queueLaw_finishWorking (r : Reply) (h : queueLaw s) : queueLaw (finishWorking r s) := by
  simpa [queueLaw] using h
theorem queueLaw_startPhase (ch : ChannelId) (h : queueLaw s) : queueLaw (startPhase ch s) := by
  simpa [queueLaw] using h
theorem queueLaw_enterArm (h : queueLaw s) : queueLaw (enterArm s) := by
  simpa [queueLaw] using h
theorem queueLaw_enterSettle (h : queueLaw s) : queueLaw (enterSettle s) := by
  simpa [queueLaw] using h
theorem queueLaw_startSample (h : queueLaw s) : queueLaw (startSample s) := by
  simpa [queueLaw] using h
theorem queueLaw_decideOffer (n : Nat) (ch : ChannelId) (h : queueLaw s) : queueLaw (decideOffer n ch s) := by
  unfold decideOffer
  split
  · exact h
  · rename_i hany
    split
    · exact h
    · rename_i hlen
      have hl : s.queue.jobs.length < 8 := by simpa [Config.queueCapacity] using hlen
      refine jobsLaw_append h hl ?_
      intro x hx hk
      apply hany
      rw [List.any_eq_true]
      refine ⟨x, hx, ?_⟩
      cases hd : x.tag <;> simp_all [QueuedJob.key, QueuedJob.isScanFor, JobTag.isScan, JobTag.isDirect]
theorem queueLaw_retakeOffer (h : queueLaw s) : queueLaw (retakeOffer s) := by
  unfold retakeOffer
  try simp only []
  repeat' split
  all_goals with_reducible repeat (first | exact h | apply queueLaw_decideOffer)
theorem queueLaw_retake (h : queueLaw s) : queueLaw (retake s) := by
  unfold retake
  try simp only []
  repeat' split
  all_goals with_reducible repeat (first | exact h | apply queueLaw_retakeOffer)
theorem queueLaw_jobStart (q : QueuedJob) (h : queueLaw s) : queueLaw (jobStart q s) := queueLaw_of_jobs (by simp [jobStart]) h
theorem queueLaw_arbitrate (h : queueLaw s) : queueLaw (arbitrate s) := by
  unfold arbitrate
  split
  · exact h
  · rename_i q rest hq
    have hr : jobsLaw rest := jobsLaw_sublist (selectJob_sublist hq) h
    split
    · exact queueLaw_retake (queueLaw_jobStart _ hr)
    · split
      · exact h
      · exact h
theorem queueLaw_select (h : queueLaw s) : queueLaw (select s) := by
  unfold select
  try simp only []
  repeat' split
  all_goals with_reducible repeat (first | exact h | apply queueLaw_arbitrate)
theorem queueLaw_retry (h : queueLaw s) : queueLaw (retry s) := by
  unfold retry
  try simp only []
  repeat' split
  all_goals with_reducible repeat (first | exact h | apply queueLaw_arbitrate)
theorem queueLaw_applySwap (h : queueLaw s) : queueLaw (applySwap s) := by
  simpa [queueLaw] using h
theorem queueLaw_closePass (h : queueLaw s) : queueLaw (closePass s) := by
  simpa [queueLaw] using h
theorem queueLaw_passEnd (h : queueLaw s) : queueLaw (passEnd s) := by
  simpa [queueLaw] using h
theorem queueLaw_checkPassEnd (h : queueLaw s) : queueLaw (checkPassEnd s) := by
  simpa [queueLaw] using h
theorem queueLaw_offer (n : Nat) (ch : ChannelId) (h : queueLaw s) : queueLaw (offer n ch s) := by
  unfold offer
  try simp only []
  repeat' split
  all_goals with_reducible repeat (first | exact h | apply queueLaw_decideOffer | apply queueLaw_select)
theorem queueLaw_moveOnto (n : Nat) (h : queueLaw s) : queueLaw (moveOnto n s) := by
  unfold moveOnto
  try simp only []
  repeat' split
  all_goals with_reducible repeat (first | exact h | apply queueLaw_withScan | apply queueLaw_checkPassEnd | apply queueLaw_offer)
theorem queueLaw_cursorMove (h : queueLaw s) : queueLaw (cursorMove s) := by
  unfold cursorMove
  try simp only []
  repeat' split
  all_goals with_reducible repeat (first | exact h | apply queueLaw_moveOnto)
theorem queueLaw_passStart (h : queueLaw s) : queueLaw (passStart s) := by
  unfold passStart
  try simp only []
  repeat' split
  all_goals with_reducible repeat (first | exact h | apply queueLaw_withScan | apply queueLaw_moveOnto)
theorem queueLaw_overrun (h : queueLaw s) : queueLaw (overrun s) := by
  simpa [queueLaw] using h
theorem queueLaw_passDue (h : queueLaw s) : queueLaw (passDue s) := by
  unfold passDue
  try simp only []
  repeat' split
  all_goals with_reducible repeat (first | exact h | apply queueLaw_passStart | apply queueLaw_overrun)
theorem queueLaw_expiry (h : queueLaw s) : queueLaw (expiry s) := by
  unfold expiry
  try simp only []
  repeat' split
  all_goals with_reducible repeat (first | exact h | apply queueLaw_withScan | apply queueLaw_passDue)
theorem queueLaw_timerTick (h : queueLaw s) : queueLaw (timerTick s) := by
  unfold timerTick
  try simp only []
  repeat' split
  all_goals with_reducible repeat (first | exact h | apply queueLaw_withScan | apply queueLaw_expiry)
theorem queueLaw_qualifiedEdge (l : Bool) (h : queueLaw s) : queueLaw (qualifiedEdge l s) := by
  unfold qualifiedEdge
  try simp only []
  repeat' split
  all_goals with_reducible repeat (first | exact h | apply queueLaw_withScan | apply queueLaw_passDue)
theorem queueLaw_trigSample (h : queueLaw s) : queueLaw (trigSample s) := by
  unfold trigSample
  try simp only []
  repeat' split
  all_goals with_reducible repeat (first | exact h | apply queueLaw_withScan | apply queueLaw_qualifiedEdge)
theorem queueLaw_dropJobs (p : QueuedJob → Bool) (h : queueLaw s) : queueLaw (dropJobs p s) := jobsLaw_sublist List.filter_sublist h
theorem queueLaw_clearStallIfEmpty (h : queueLaw s) : queueLaw (clearStallIfEmpty s) := by
  unfold clearStallIfEmpty; split <;> exact h
theorem queueLaw_removeJobs (p : QueuedJob → Bool) (h : queueLaw s) : queueLaw (removeJobs p s).1 := by
  unfold removeJobs
  split
  · exact h
  · exact queueLaw_checkPassEnd (queueLaw_clearStallIfEmpty (queueLaw_retake (queueLaw_dropJobs p h)))
theorem queueLaw_completeStop (h : queueLaw s) : queueLaw (completeStop s) := by
  simpa [queueLaw] using h
theorem queueLaw_countOut (h : queueLaw s) : queueLaw (countOut s) := by
  simpa [queueLaw] using h
theorem queueLaw_relink (ch : ChannelId) (a b : Descriptor) (h : queueLaw s) : queueLaw (relink ch a b s) := by
  simpa [queueLaw] using h
theorem queueLaw_removeAlert (ch : ChannelId) (h : queueLaw s) : queueLaw (removeAlert ch s) := by
  simpa [queueLaw] using h
theorem queueLaw_withdrawOffer (ch : ChannelId) (h : queueLaw s) : queueLaw (withdrawOffer ch s) := by
  simpa [queueLaw] using h
theorem queueLaw_applyCommit (ch : ChannelId) (im : Image) (h : queueLaw s) : queueLaw (applyCommit ch im s).1 := by
  unfold applyCommit
  try simp only []
  repeat' split
  all_goals with_reducible repeat (first | exact h | apply queueLaw_onChannel | apply queueLaw_removeJobs | apply queueLaw_relink | apply queueLaw_removeAlert | apply queueLaw_withdrawOffer)
theorem queueLaw_decideCommit (ch : ChannelId) (im : Image) (h : queueLaw s) : queueLaw (decideCommit ch im s).1 := by
  unfold decideCommit
  try simp only []
  repeat' split
  all_goals with_reducible repeat (first | exact h | apply queueLaw_applyCommit)
theorem queueLaw_decideDeferred (h : queueLaw s) : queueLaw (decideDeferred s) := by
  unfold decideDeferred
  try simp only []
  repeat' split
  all_goals with_reducible repeat (first | exact h | apply queueLaw_withDeferred | apply queueLaw_finishWorking | apply queueLaw_decideCommit)
theorem queueLaw_referenceShare (a : Completion) (h : queueLaw s) : queueLaw (referenceShare a s) := by
  simpa [queueLaw] using h
theorem queueLaw_zoneShare (a : Completion) (h : queueLaw s) : queueLaw (zoneShare a s) := by
  simpa [queueLaw] using h
theorem queueLaw_fifoShare (a : Completion) (z : Zone) (c : Bool) (p : ReportPolicy) (h : queueLaw s) :
    queueLaw (fifoShare a z c p s) := by
  simpa [queueLaw] using h
theorem queueLaw_lastStatusShare (a : Completion) (h : queueLaw s) : queueLaw (lastStatusShare a s) := by
  simpa [queueLaw] using h
theorem queueLaw_quietSequencer (j : InFlight) (st : JobStatus) (h : queueLaw s) :
    queueLaw (quietSequencer j st s) := by
  simpa [queueLaw] using h
theorem queueLaw_announceTo (a : Completion) (h : queueLaw s) : queueLaw (announceTo a s) := by
  unfold announceTo
  try simp only []
  repeat' split
  all_goals with_reducible repeat (first | exact h | apply queueLaw_countOut | apply queueLaw_decideDeferred | apply queueLaw_referenceShare | apply queueLaw_zoneShare | apply queueLaw_fifoShare | apply queueLaw_lastStatusShare)
theorem queueLaw_offerSequencer (h : queueLaw s) : queueLaw (offerSequencer s) := queueLaw_select h
theorem queueLaw_jobEnd (st : JobStatus) (h : queueLaw s) : queueLaw (jobEnd st s) := by
  unfold jobEnd
  try simp only []
  repeat' split
  all_goals with_reducible repeat (first | exact h | apply queueLaw_quietSequencer | apply queueLaw_announceTo | apply queueLaw_offerSequencer)
theorem queueLaw_abortJob (h : queueLaw s) : queueLaw (abortJob s).1 := by
  unfold abortJob
  try simp only []
  repeat' split
  all_goals with_reducible repeat (first | exact h | apply queueLaw_jobEnd)
theorem queueLaw_phaseEnd (pe : PhaseEnd) (h : queueLaw s) : queueLaw (phaseEnd pe s) := by
  unfold phaseEnd
  try simp only []
  repeat' split
  all_goals with_reducible repeat (first | exact h | apply queueLaw_withSeq | apply queueLaw_onChannel | apply queueLaw_onSlot | apply queueLaw_startPhase | apply queueLaw_jobEnd)
theorem queueLaw_sampleComplete (h : queueLaw s) : queueLaw (sampleComplete s) := by
  unfold sampleComplete
  try simp only []
  repeat' split
  all_goals with_reducible repeat (first | exact h | apply queueLaw_withSeq | apply queueLaw_enterArm | apply queueLaw_phaseEnd)
theorem queueLaw_overflowed (h : queueLaw s) : queueLaw (overflowed s) := by
  unfold overflowed
  try simp only []
  repeat' split
  all_goals with_reducible repeat (first | exact h | apply queueLaw_withSeq | apply queueLaw_runRequest | apply queueLaw_enterArm | apply queueLaw_phaseEnd)
theorem queueLaw_sequencerTb (h : queueLaw s) : queueLaw (sequencerTb s) := by
  unfold sequencerTb
  try simp only []
  repeat' split
  all_goals with_reducible repeat (first | exact h | apply queueLaw_withSeq | apply queueLaw_enterSettle | apply queueLaw_phaseEnd | apply queueLaw_sampleComplete | apply queueLaw_overflowed)
theorem queueLaw_sequencerSlow (h : queueLaw s) : queueLaw (sequencerSlow s) := by
  simpa [queueLaw] using h
theorem queueLaw_sequencerEdge (h : queueLaw s) : queueLaw (sequencerEdge s) := by
  unfold sequencerEdge
  try simp only []
  repeat' split
  all_goals with_reducible repeat (first | exact h | apply queueLaw_withSeq | apply queueLaw_startSample | apply queueLaw_sampleComplete | apply queueLaw_overflowed)
theorem queueLaw_deliverEdge (c : Bool) (h : queueLaw s) : queueLaw (deliverEdge c s) := by
  unfold deliverEdge
  try simp only []
  repeat' split
  all_goals with_reducible repeat (first | exact h | apply queueLaw_withFreeIndex | apply queueLaw_sequencerEdge)
theorem queueLaw_oscillatorEdge (c : Bool) (h : queueLaw s) : queueLaw (oscillatorEdge c s) := by
  rw [oscillatorEdge_spec]
  try simp only []
  repeat' split
  all_goals with_reducible repeat (first | exact h | apply queueLaw_withFrontEnd | apply queueLaw_deliverEdge)
theorem queueLaw_nodeMoves (h : queueLaw s) : queueLaw (nodeMoves s) := by
  simpa [queueLaw] using h
theorem queueLaw_stampTick (h : queueLaw s) : queueLaw (stampTick s) := by
  unfold stampTick
  try simp only []
  repeat' split
  all_goals with_reducible repeat (first | exact h | apply queueLaw_withTimebase)
theorem queueLaw_ageTick (h : queueLaw s) : queueLaw (ageTick s) := by
  unfold ageTick
  try simp only []
  repeat' split
  all_goals with_reducible repeat (first | exact h | apply queueLaw_withRefs)
theorem queueLaw_scanSlow (h : queueLaw s) : queueLaw (scanSlow s) := by
  unfold scanSlow
  try simp only []
  repeat' split
  all_goals with_reducible repeat (first | exact h | apply queueLaw_timerTick | apply queueLaw_trigSample)
theorem queueLaw_slowShare (h : queueLaw s) : queueLaw (slowShare s) := 
  eitherOrder_ind (fun _ n h => queueLaw_withFreeIndex n h) (queueLaw_scanSlow (queueLaw_ageTick (queueLaw_stampTick h)))
    (queueLaw_ageTick (queueLaw_scanSlow (queueLaw_stampTick h)))
theorem queueLaw_sequencerShare (b : SeqState) (w : Bool) (h : queueLaw s) : queueLaw (sequencerShare b w s) := by
  unfold sequencerShare
  try simp only []
  repeat' split
  all_goals with_reducible repeat (first | exact h | apply queueLaw_sequencerTb | apply queueLaw_sequencerSlow)
theorem queueLaw_cursorShare (b : Cursor) (h : queueLaw s) : queueLaw (cursorShare b s) := by
  unfold cursorShare
  try simp only []
  repeat' split
  all_goals with_reducible repeat (first | exact h | apply queueLaw_cursorMove)
theorem queueLaw_tbTick (l : Bool) (h : queueLaw s) : queueLaw (tbTick l s) := by
  unfold tbTick
  split
  · exact anyOrder_ind (fun _ n h => queueLaw_withFreeIndex n h) (fun _ h => queueLaw_sequencerShare _ _ h)
      (fun _ h => queueLaw_cursorShare _ h) (fun _ h => by split; exacts [queueLaw_slowShare h, h])
      (queueLaw_withPins _ (queueLaw_withTimebase _ h))
  · exact h
theorem queueLaw_slowTick (l : Bool) (h : queueLaw s) : queueLaw (slowTick l s) := by
  unfold slowTick
  try simp only []
  repeat' split
  all_goals with_reducible repeat (first | exact h | apply queueLaw_withTimebase | apply queueLaw_withPins | apply queueLaw_sequencerSlow | apply queueLaw_slowShare)
theorem queueLaw_refuse (r : Reason) (h : queueLaw s) : queueLaw (refuse r s).1 := h
theorem queueLaw_admitDirect (ch : ChannelId) (h : queueLaw s) : queueLaw (admitDirect ch s).1 := by
  unfold admitDirect
  simp only []
  repeat' split
  · exact h
  · exact h
  · exact h
  · exact h
  · rename_i hfind hlen
    refine queueLaw_select (jobsLaw_append h (by simpa [Config.queueCapacity] using hlen) ?_)
    intro x hx hk
    have := List.find?_eq_none.mp hfind x hx
    apply this
    cases hd : x.tag <;> simp_all [QueuedJob.key, QueuedJob.isDirectFor, JobTag.isDirect]
theorem queueLaw_measureNow (h : queueLaw s) : queueLaw (measureNow s).1 := by
  unfold measureNow
  try simp only []
  repeat' split
  all_goals with_reducible repeat (first | exact h | apply queueLaw_refuse | apply queueLaw_admitDirect)
theorem queueLaw_flushQueue (h : queueLaw s) : queueLaw (flushQueue s).1 := by
  unfold flushQueue
  try simp only []
  repeat' split
  all_goals with_reducible repeat (first | exact h | apply queueLaw_removeJobs | apply queueLaw_refuse)
theorem queueLaw_scanStart (h : queueLaw s) : queueLaw (scanStart s).1 := by
  unfold scanStart
  try simp only []
  repeat' split
  all_goals with_reducible repeat (first | exact h | apply queueLaw_withScan | apply queueLaw_passStart | apply queueLaw_refuse)
theorem queueLaw_scanOnce (h : queueLaw s) : queueLaw (scanOnce s).1 := by
  unfold scanOnce
  try simp only []
  repeat' split
  all_goals with_reducible repeat (first | exact h | apply queueLaw_withScan | apply queueLaw_passStart | apply queueLaw_refuse)
theorem queueLaw_scanStop (h : queueLaw s) : queueLaw (scanStop s).1 := by
  unfold scanStop
  try simp only []
  repeat' split
  all_goals with_reducible repeat (first | exact h | apply queueLaw_withScan | apply queueLaw_applySwap | apply queueLaw_removeJobs)
theorem queueLaw_swapBanks (h : queueLaw s) : queueLaw (swapBanks s).1 := by
  unfold swapBanks
  try simp only []
  repeat' split
  all_goals with_reducible repeat (first | exact h | apply queueLaw_withScan | apply queueLaw_refuse)
theorem queueLaw_commitChannel (h : queueLaw s) : queueLaw (commitChannel s).1 := by
  unfold commitChannel
  try simp only []
  repeat' split
  all_goals with_reducible repeat (first | exact h | apply queueLaw_withDeferred | apply queueLaw_decideCommit | apply queueLaw_refuse)
theorem queueLaw_fetchChannel (h : queueLaw s) : queueLaw (fetchChannel s).1 := by
  unfold fetchChannel
  try simp only []
  repeat' split
  all_goals with_reducible repeat (first | exact h | apply queueLaw_withStaging | apply queueLaw_refuse)
theorem queueLaw_invalidateReference (h : queueLaw s) : queueLaw (invalidateReference s).1 := by
  unfold invalidateReference
  try simp only []
  repeat' split
  all_goals with_reducible repeat (first | exact h | apply queueLaw_onSlot | apply queueLaw_invalidateAll | apply queueLaw_refuse)
theorem queueLaw_clearZone (h : queueLaw s) : queueLaw (clearZone s).1 := by
  unfold clearZone
  try simp only []
  repeat' split
  all_goals with_reducible repeat (first | exact h | apply queueLaw_withChannels | apply queueLaw_withAlerts | apply queueLaw_onChannel | apply queueLaw_removeAlert | apply queueLaw_refuse)
theorem queueLaw_clearAlerts (h : queueLaw s) : queueLaw (clearAlerts s).1 := by
  unfold clearAlerts
  try simp only []
  repeat' split
  all_goals with_reducible repeat (first | exact h | apply queueLaw_withAlerts)
theorem queueLaw_clearResults (h : queueLaw s) : queueLaw (clearResults s).1 := by
  unfold clearResults
  try simp only []
  repeat' split
  all_goals with_reducible repeat (first | exact h | apply queueLaw_withFifo | apply queueLaw_retry)
theorem queueLaw_setTimebase (h : queueLaw s) : queueLaw (setTimebase s).1 := by
  unfold setTimebase
  try simp only []
  repeat' split
  all_goals with_reducible repeat (first | exact h | apply queueLaw_withTimebase | apply queueLaw_invalidateAll | apply queueLaw_refuse)
theorem queueLaw_sleep (h : queueLaw s) : queueLaw (sleep s).1 := by
  unfold sleep
  try simp only []
  repeat' split
  all_goals with_reducible repeat (first | exact h | apply queueLaw_withFrontEnd | apply queueLaw_withTimebase | apply queueLaw_invalidateAll | apply queueLaw_refuse)
theorem queueLaw_wake (h : queueLaw s) : queueLaw (wake s).1 := by
  unfold wake
  try simp only []
  repeat' split
  all_goals with_reducible repeat (first | exact h | apply queueLaw_withFrontEnd | apply queueLaw_withTimebase)
theorem queueLaw_unknownCommand (h : queueLaw s) : queueLaw (unknownCommand s).1 := by
  unfold unknownCommand
  try simp only []
  repeat' split
  all_goals with_reducible repeat (first | exact h | apply queueLaw_refuse)
theorem queueLaw_quietEngine (h : queueLaw s) : queueLaw (quietEngine s) := queueLaw_of_jobs (s := .reset) (by simp [quietEngine]; rfl) ⟨by decide, by decide⟩
theorem queueLaw_engineReset (h : queueLaw s) : queueLaw (engineReset s) := by
  unfold engineReset
  try simp only []
  repeat' split
  all_goals with_reducible repeat (first | exact h | apply queueLaw_raise | apply queueLaw_recordOutcome | apply queueLaw_quietEngine)
theorem queueLaw_powerOn (h : queueLaw s) : queueLaw (powerOn s) := queueLaw_of_jobs (s := .reset) rfl ⟨by decide, by decide⟩
theorem queueLaw_endReset (l : Bool) (h : queueLaw s) : queueLaw (endReset l s) := by
  unfold endReset
  try simp only []
  repeat' split
  all_goals with_reducible repeat (first | exact h | apply queueLaw_withInReset | apply queueLaw_withFrontEnd | apply queueLaw_withPort | apply queueLaw_withPins)
theorem queueLaw_takeResult (h : queueLaw s) : queueLaw (takeResult s) := by
  unfold takeResult
  try simp only []
  repeat' split
  all_goals with_reducible repeat (first | exact h | apply queueLaw_withFifo)
theorem queueLaw_popResult (h : queueLaw s) : queueLaw (popResult s) := by
  unfold popResult
  try simp only []
  repeat' split
  all_goals with_reducible repeat (first | exact h | apply queueLaw_retry | apply queueLaw_takeResult)
theorem queueLaw_popAlert (h : queueLaw s) : queueLaw (popAlert s) := by
  unfold popAlert
  try simp only []
  repeat' split
  all_goals with_reducible repeat (first | exact h | apply queueLaw_withAlerts)
theorem queueLaw_readAction (a : Byte) (h : queueLaw s) : queueLaw (readAction a s) := by
  unfold readAction
  try simp only []
  repeat' split
  all_goals with_reducible repeat (first | exact h | apply queueLaw_popResult | apply queueLaw_popAlert)
theorem queueLaw_advancePointer (h : queueLaw s) : queueLaw (advancePointer s) := by
  unfold advancePointer
  try simp only []
  repeat' split
  all_goals with_reducible repeat (first | exact h | apply queueLaw_withPort)
theorem queueLaw_busStart (a : Byte) (h : queueLaw s) : queueLaw (busStart a s) := by
  unfold busStart
  try simp only []
  repeat' split
  all_goals with_reducible repeat (first | exact h | apply queueLaw_withPort)
theorem queueLaw_openWrite (h : queueLaw s) : queueLaw (openWrite s) := by
  unfold openWrite
  try simp only []
  repeat' split
  all_goals with_reducible repeat (first | exact h | apply queueLaw_busStart)
theorem queueLaw_copySnapshot (h : queueLaw s) : queueLaw (copySnapshot s) := by
  unfold copySnapshot
  try simp only []
  repeat' split
  all_goals with_reducible repeat (first | exact h | apply queueLaw_busStart)
theorem queueLaw_sendByte (a : State → State) (h : queueLaw s) (ha : queueLaw (a s)) : queueLaw (sendByte a s) := queueLaw_advancePointer (queueLaw_withPort _ ha)
theorem queueLaw_windowRead (a : Byte) (e : State → State) (h : queueLaw s) (he : ∀ t, queueLaw t → queueLaw (e t)) :
    queueLaw (windowRead a e s) := by
  unfold windowRead
  split
  · exact h
  · split
    · refine queueLaw_sendByte _ h ?_
      split
      · exact he _ h
      · exact queueLaw_readAction _ h
    all_goals exact h
theorem queueLaw_issue (c : Byte) (f : State → State × Reply) (h : queueLaw s) (hf : queueLaw (f s).1) :
    queueLaw (issue c f s) := by
  unfold issue
  split
  · exact queueLaw_collide h
  · exact queueLaw_recordOutcome _ _ hf
theorem queueLaw_issueAbort (h : queueLaw s) : queueLaw (issueAbort s) := by
  unfold issueAbort
  try simp only []
  repeat' split
  all_goals with_reducible repeat (first | exact h | apply queueLaw_recordOutcome | apply queueLaw_abortJob)
theorem queueLaw_issueCode (c : Byte) (h : queueLaw s) : queueLaw (issueCode c s) := by
  unfold issueCode
  refine iteInduction (fun _ => ?_) (fun _ => ?_)
  · exact queueLaw_issue _ _ h (queueLaw_measureNow h)
  refine iteInduction (fun _ => ?_) (fun _ => ?_)
  · exact queueLaw_issueAbort h
  refine iteInduction (fun _ => ?_) (fun _ => ?_)
  · exact queueLaw_issue _ _ h (queueLaw_flushQueue h)
  refine iteInduction (fun _ => ?_) (fun _ => ?_)
  · exact queueLaw_issue _ _ h (queueLaw_scanStart h)
  refine iteInduction (fun _ => ?_) (fun _ => ?_)
  · exact queueLaw_issue _ _ h (queueLaw_scanStop h)
  refine iteInduction (fun _ => ?_) (fun _ => ?_)
  · exact queueLaw_issue _ _ h (queueLaw_scanOnce h)
  refine iteInduction (fun _ => ?_) (fun _ => ?_)
  · exact queueLaw_issue _ _ h (queueLaw_swapBanks h)
  refine iteInduction (fun _ => ?_) (fun _ => ?_)
  · exact queueLaw_issue _ _ h (queueLaw_commitChannel h)
  refine iteInduction (fun _ => ?_) (fun _ => ?_)
  · exact queueLaw_issue _ _ h (queueLaw_fetchChannel h)
  refine iteInduction (fun _ => ?_) (fun _ => ?_)
  · exact queueLaw_issue _ _ h (queueLaw_invalidateReference h)
  refine iteInduction (fun _ => ?_) (fun _ => ?_)
  · exact queueLaw_issue _ _ h (queueLaw_clearZone h)
  refine iteInduction (fun _ => ?_) (fun _ => ?_)
  · exact queueLaw_issue _ _ h (queueLaw_clearAlerts h)
  refine iteInduction (fun _ => ?_) (fun _ => ?_)
  · exact queueLaw_issue _ _ h (queueLaw_clearResults h)
  refine iteInduction (fun _ => ?_) (fun _ => ?_)
  · exact queueLaw_issue _ _ h (queueLaw_setTimebase h)
  refine iteInduction (fun _ => ?_) (fun _ => ?_)
  · exact queueLaw_issue _ _ h (queueLaw_sleep h)
  refine iteInduction (fun _ => ?_) (fun _ => ?_)
  · exact queueLaw_issue _ _ h (queueLaw_wake h)
  refine iteInduction (fun _ => ?_) (fun _ => ?_)
  · exact queueLaw_engineReset h
  exact queueLaw_issue _ _ h (queueLaw_unknownCommand h)
theorem queueLaw_clearFlags (v : Byte) (h : queueLaw s) : queueLaw (clearFlags v s) := by
  unfold clearFlags
  try simp only []
  repeat' split
  all_goals with_reducible repeat (first | exact h | apply queueLaw_withEvents)
theorem queueLaw_writeEnables (v : Byte) (h : queueLaw s) : queueLaw (writeEnables v s) := by
  unfold writeEnables
  try simp only []
  repeat' split
  all_goals with_reducible repeat (first | exact h | apply queueLaw_withEvents)
theorem queueLaw_writeBank (a v : Byte) (h : queueLaw s) : queueLaw (writeBank a v s) := by
  unfold writeBank
  try simp only []
  repeat' split
  all_goals with_reducible repeat (first | exact h | apply queueLaw_withScan)
theorem queueLaw_writeOverrun (v : Byte) (h : queueLaw s) : queueLaw (writeOverrun v s) := by
  unfold writeOverrun
  try simp only []
  repeat' split
  all_goals with_reducible repeat (first | exact h | apply queueLaw_withScan | apply queueLaw_overrun)
theorem queueLaw_writePolicy (v : Byte) (h : queueLaw s) : queueLaw (writePolicy v s) := by
  unfold writePolicy
  try simp only []
  repeat' split
  all_goals with_reducible repeat (first | exact h | apply queueLaw_withFifo | apply queueLaw_retry)
theorem queueLaw_writePeriodLow (v : Byte) (h : queueLaw s) : queueLaw (writePeriodLow v s) := by
  unfold writePeriodLow
  try simp only []
  repeat' split
  all_goals with_reducible repeat (first | exact h | apply queueLaw_withScan)
theorem queueLaw_writePeriodHigh (v : Byte) (h : queueLaw s) : queueLaw (writePeriodHigh v s) := by
  unfold writePeriodHigh
  try simp only []
  repeat' split
  all_goals with_reducible repeat (first | exact h | apply queueLaw_withScan)
theorem queueLaw_writePlain (a v : Byte) (h : queueLaw s) : queueLaw (writePlain a v s) := by
  unfold writePlain
  try simp only []
  repeat' split
  all_goals with_reducible repeat (first | exact h | apply queueLaw_withTimebase | apply queueLaw_withStaging | apply queueLaw_withScan | apply queueLaw_withFifo | apply queueLaw_withCmd | apply queueLaw_writePeriodLow | apply queueLaw_writePeriodHigh)
theorem queueLaw_registerWrite (a v : Byte) (h : queueLaw s) : queueLaw (registerWrite a v s) := by
  unfold registerWrite
  try simp only []
  repeat' split
  all_goals with_reducible repeat (first | exact h | apply queueLaw_issueCode | apply queueLaw_clearFlags | apply queueLaw_writeEnables | apply queueLaw_writeBank | apply queueLaw_writeOverrun | apply queueLaw_writePolicy | apply queueLaw_writePlain)
theorem queueLaw_takeByte (v : Byte) (e : State → State) (h : queueLaw s) (he : ∀ t, queueLaw t → queueLaw (e t)) :
    queueLaw (takeByte v e s) := by
  unfold takeByte
  split
  · exact h
  · split
    · exact queueLaw_withPort _ h
    · exact he _ (queueLaw_advancePointer h)
    all_goals exact h
theorem queueLaw_dataByte (a v : Byte) (e : State → State) (h : queueLaw s) (he : ∀ t, queueLaw t → queueLaw (e t)) :
    queueLaw (dataByte a v e s) := 
  queueLaw_takeByte _ _ h (fun t ht => by split; exacts [he t ht, queueLaw_registerWrite _ _ ht])
theorem queueLaw_loadPointer (v : Byte) (h : queueLaw s) : queueLaw (loadPointer v s) := queueLaw_takeByte _ _ h (fun _ ht => queueLaw_registerWrite _ _ ht)

end Sys2Proof.Machine
end

