-- ==== Sys2Proof/Laws/RangeLaw.lean ====
section
/-! SUPPORT. What keeps the law of the range step (R53), beside that of the engaged marks. -/

namespace Sys2Proof.Machine

set_option linter.unusedTactic false
set_option linter.unreachableTactic false

variable {s : State}

/-- The law of the range step together with that of the marks, which protects the descriptor being measured. -/
def rangeInv (s : State) : Prop := engagedLaw s ∧ rangeLaw s

theorem rangeInv_keep {t : State} (hc : t.channels = s.channels) (hs : t.seq = s.seq) (h : rangeInv s) : rangeInv t := by
  unfold rangeInv engagedLaw rangeLaw at h ⊢
  simpa only [hc, hs] using h

/-- What the working copy and the measured descriptor must agree in. -/
def fits (x : Sequencer) (s : State) : Prop :=
  ∀ j, x.job = some j → x.work.agrees s.channels[j.measured.val].desc

/-- The Sequencer's record changed, engaging what it engaged, with a working copy that fits. -/
theorem rangeInv_withSeq {x : Sequencer} (h : rangeInv s) (hi : x.state = .idle → x.job = none)
    (hj : ∀ ch, engagedBy x.job ch = engagedBy s.seq.job ch) (hw : fits x s) : rangeInv (s.withSeq x) :=
  ⟨engagedLaw_withSeq h.1 hi hj, h.2.1, hw⟩

/-- The fields of the working copy that the law speaks of are unchanged. -/
theorem rangeInv_withWork (w : Working) (h : rangeInv s) (hm : w.method = s.seq.work.method) (hg : w.g = s.seq.work.g)
    (ha : w.autoRange = s.seq.work.autoRange) (hk : w.k = s.seq.work.k) :
    rangeInv (s.withSeq { s.seq with work := w }) := by
  refine ⟨engagedLaw_withWork w h.1, h.2.1, fun j hj => ?_⟩
  have := h.2.2 j hj
  unfold Working.agrees stepLimit at this ⊢
  simp only [State.withSeq_seq, State.withSeq_channels, hm, hg, ha, hk]
  exact this

/-- R25: the measured channel is one that the job engages. -/
theorem measured_engages (j : InFlight) : j.engages j.measured = true := by
  unfold InFlight.engages InFlight.measured
  cases hp : j.phase <;> cases hr : j.refresh <;> simp

/-- R30: a channel that is not engaged is not the one being measured. -/
theorem not_measured {ch : ChannelId} (h : engagedLaw s) (hn : s.channels[ch.val].engaged = false) {j : InFlight}
    (hj : s.seq.job = some j) : j.measured ≠ ch := by
  intro he
  subst he
  have := h.2 j.measured
  rw [hj] at this
  simp only [measured_engages] at this
  rw [hn] at this
  cases this

/-- R53: the step that a phase end leaves is within the limit of the channel. -/
theorem stepLaw_stepAfter {pe : PhaseEnd} {w : Working} {c : Channel} (hw : w.agrees c.desc) (hc : c.stepLaw) :
    Channel.stepLaw { c with rangeStep := stepAfter pe w c.rangeStep } := by
  obtain ⟨h1, h2, h3, h4, h5⟩ := hw
  obtain ⟨c1, c2, c3⟩ := hc
  have hk : w.k ≤ 3 ∧ (c.desc.method = .period → w.k ≤ c.desc.g.val) := by
    unfold stepLimit at h4
    cases hm : w.method <;> simp only [hm] at h4
    · exact ⟨h4, fun hp => by rw [h1, hp] at hm; cases hm⟩
    · rw [h2] at h4; exact ⟨by omega, fun _ => by omega⟩
  unfold stepAfter Channel.stepLaw
  by_cases ha : w.autoRange = true
  · rw [if_pos ha]
    rw [ha] at h3
    cases pe
    · simp only []
      split
      · exact ⟨by omega, fun hp => by have := hk.2 hp; omega, fun hf => by rw [← h3] at hf; cases hf⟩
      · exact ⟨hk.1, hk.2, fun hf => by rw [← h3] at hf; cases hf⟩
    · exact ⟨hk.1, hk.2, fun hf => by rw [← h3] at hf; cases hf⟩
    · exact ⟨c1, c2, c3⟩
    · exact ⟨c1, c2, c3⟩
  · rw [if_neg ha]
    exact ⟨c1, c2, c3⟩

/-- R45: a phase starts with the settings and the step of the channel it measures. -/
theorem rangeInv_startPhase (ch : ChannelId) (he : engagedLaw (startPhase ch s)) (hc : ∀ ch : ChannelId, s.channels[ch.val].stepLaw)
    (hm : ∀ j, s.seq.job = some j → j.measured = ch) : rangeInv (startPhase ch s) := by
  refine ⟨he, fun ch' => by simpa using hc ch', fun j hj => ?_⟩
  have hj' : s.seq.job = some j := by simpa using hj
  have hch := hm j hj'
  subst hch
  have hl := hc j.measured
  obtain ⟨c1, c2, c3⟩ := hl
  unfold startPhase
  simp only [clampRequest_keeps, State.withSeq_seq, State.withSeq_channels]
  refine ⟨rfl, rfl, rfl, ?_, c3⟩
  unfold stepLimit
  cases hmm : s.channels[j.measured.val].desc.method
  · exact c1
  · exact Nat.le_min.mpr ⟨c1, c2 hmm⟩

theorem rangeInv_withPending (x : List Instr) (h : rangeInv s) : rangeInv (s.withPending x) := h
theorem rangeInv_withInReset (x : Bool) (h : rangeInv s) : rangeInv (s.withInReset x) := h
theorem rangeInv_withFrontEnd (x : FrontEnd) (h : rangeInv s) : rangeInv (s.withFrontEnd x) := h
theorem rangeInv_withTimebase (x : Timebase) (h : rangeInv s) : rangeInv (s.withTimebase x) := h
theorem rangeInv_withStaging (x : Vector Byte 32) (h : rangeInv s) : rangeInv (s.withStaging x) := h
theorem rangeInv_withDeferred (x : Option DeferredCommit) (h : rangeInv s) : rangeInv (s.withDeferred x) := h
theorem rangeInv_withRefs (x : Vector RefSlot 4) (h : rangeInv s) : rangeInv (s.withRefs x) := h
theorem rangeInv_withQueue (x : JobQueue) (h : rangeInv s) : rangeInv (s.withQueue x) := h
theorem rangeInv_withScan (x : ScanController) (h : rangeInv s) : rangeInv (s.withScan x) := h
theorem rangeInv_withAlerts (x : AlertList) (h : rangeInv s) : rangeInv (s.withAlerts x) := h
theorem rangeInv_withFifo (x : ResultFifo) (h : rangeInv s) : rangeInv (s.withFifo x) := h
theorem rangeInv_withPort (x : SerialPort) (h : rangeInv s) : rangeInv (s.withPort x) := h
theorem rangeInv_withCmd (x : CommandPort) (h : rangeInv s) : rangeInv (s.withCmd x) := h
theorem rangeInv_withEvents (x : EventUnit) (h : rangeInv s) : rangeInv (s.withEvents x) := h
theorem rangeInv_withPins (x : InputPins) (h : rangeInv s) : rangeInv (s.withPins x) := h
theorem rangeInv_withFreeIndex (x : Nat) (h : rangeInv s) : rangeInv (s.withFreeIndex x) := h

theorem rangeInv_raise (f : Flag) (h : rangeInv s) : rangeInv (raise f s) := rangeInv_keep (by simp) (by simp) h
theorem rangeInv_clampRequest (h : rangeInv s) : rangeInv (clampRequest s) := rangeInv_keep (by simp) (by simp) h
theorem rangeInv_runRequest (p : PinId) (h : rangeInv s) : rangeInv (runRequest p s) := rangeInv_keep (by simp) (by simp) h
theorem rangeInv_onChannel (ch : ChannelId) (f : Channel → Channel) (h : rangeInv s) (hf : ∀ c, (f c).engaged = c.engaged)
    (hd : ∀ c, (f c).desc = c.desc) (hs : s.channels[ch.val].stepLaw → (f s.channels[ch.val]).stepLaw) :
    rangeInv (onChannel ch f s) := by
  refine ⟨engagedLaw_onChannel _ _ h.1 hf, fun ch' => ?_, fun j hj => ?_⟩
  · rw [onChannel_get]
    split
    · exact hs (h.2.1 _)
    · exact h.2.1 _
  · have hd' : (onChannel ch f s).channels[j.measured.val].desc = s.channels[j.measured.val].desc := by
      rw [onChannel_get]
      split
      · rename_i he; rw [hd]; simp only [he]
      · rfl
    rw [hd']
    exact h.2.2 j hj
theorem rangeInv_onSlot (ch : ChannelId) (f : RefSlot → RefSlot) (h : rangeInv s) : rangeInv (onSlot ch f s) := rangeInv_keep (by simp) (by simp) h
theorem rangeInv_invalidateAll (h : rangeInv s) : rangeInv (invalidateAll s) := rangeInv_keep (by simp) (by simp) h
theorem rangeInv_recordOutcome (c : Byte) (r : Reply) (h : rangeInv s) : rangeInv (recordOutcome c r s) := rangeInv_keep (by simp) (by simp) h
theorem rangeInv_collide (h : rangeInv s) : rangeInv (collide s) := rangeInv_keep (by simp) (by simp) h
theorem rangeInv_finishWorking (r : Reply) (h : rangeInv s) : rangeInv (finishWorking r s) := rangeInv_keep (by simp) (by simp) h
theorem rangeInv_enterArm (h : rangeInv s) : rangeInv (enterArm s) := rangeInv_withSeq h (by simp) (fun _ => rfl) h.2.2
theorem rangeInv_enterSettle (h : rangeInv s) : rangeInv (enterSettle s) := by
  unfold enterSettle
  have h1 : rangeInv (runRequest s.seq.work.pin
      (s.withSeq { s.seq with state := .settle, work := { s.seq.work with settleCount := 0 } })) :=
    rangeInv_runRequest _ (rangeInv_withSeq h (by simp) (fun _ => rfl) h.2.2)
  simp only []
  split
  · exact rangeInv_enterArm h1
  · exact h1
theorem rangeInv_startSample (h : rangeInv s) : rangeInv (startSample s) := rangeInv_withSeq h (by simp) (fun _ => rfl) h.2.2
theorem rangeInv_decideOffer (n : Nat) (ch : ChannelId) (h : rangeInv s) : rangeInv (decideOffer n ch s) := rangeInv_keep (by simp) (by simp) h
theorem rangeInv_retakeOffer (h : rangeInv s) : rangeInv (retakeOffer s) := rangeInv_keep (by simp) (by simp) h
theorem rangeInv_retake (h : rangeInv s) : rangeInv (retake s) := rangeInv_keep (by simp) (by simp) h
theorem rangeInv_jobStart (q : QueuedJob) (h : rangeInv s) (hn : s.seq.job = none) : rangeInv (jobStart q s) := by
  have he := engagedLaw_jobStart q h.1 hn
  unfold jobStart at he ⊢
  refine rangeInv_startPhase _ he (fun ch => ?_) (fun j hj => ?_)
  · have hcs : ∀ (m : Bool) (j : InFlight) (u : State), (u.channels[ch.val].stepLaw) →
        (markJob m j u).channels[ch.val].stepLaw := by
      intro m j u hu
      have hon : ∀ (a : ChannelId) (v : State), v.channels[ch.val].stepLaw → (setEngaged m a v).channels[ch.val].stepLaw := by
        intro a v hv
        unfold setEngaged
        rw [onChannel_get]
        split
        · rename_i hq; subst hq; exact hv
        · exact hv
      unfold markJob
      split
      · exact hon _ _ hu
      · exact hon _ _ (hon _ _ hu)
    exact hcs _ _ _ (h.2.1 ch)
  · simp at hj; rw [← hj]
theorem rangeInv_arbitrate (h : rangeInv s) (hr : arbiterReady s = true) : rangeInv (arbitrate s) := by
  have hn : s.seq.job = none := h.1.1 (arbiterReady_spec s hr).1
  rcases arbitrate_spec s with ⟨_, he⟩ | ⟨q, rest, t, _, ht, he⟩ | ⟨q, rest, _, _, he⟩ <;> rw [he]
  · exact h
  · apply rangeInv_retake
    rcases reserve_spec s ht with ⟨hf, rfl⟩ | ⟨hf, _, rfl⟩
    · exact rangeInv_jobStart _ h hn
    · exact rangeInv_jobStart _ h hn
  · split <;> exact h
theorem rangeInv_select (h : rangeInv s) : rangeInv (select s) := by
  unfold select
  split
  · rename_i hc
    simp only [Bool.and_eq_true] at hc
    exact rangeInv_arbitrate h hc.1
  · exact h
theorem rangeInv_retry (h : rangeInv s) : rangeInv (retry s) := by
  unfold retry
  split
  · rename_i hc
    simp only [Bool.and_eq_true] at hc
    exact rangeInv_arbitrate h hc.1
  · exact h
theorem rangeInv_applySwap (h : rangeInv s) : rangeInv (applySwap s) := rangeInv_keep (by simp) (by simp) h
theorem rangeInv_closePass (h : rangeInv s) : rangeInv (closePass s) := rangeInv_keep (by simp) (by simp) h
theorem rangeInv_passEnd (h : rangeInv s) : rangeInv (passEnd s) := rangeInv_keep (by simp) (by simp) h
theorem rangeInv_checkPassEnd (h : rangeInv s) : rangeInv (checkPassEnd s) := rangeInv_keep (by simp) (by simp) h
theorem rangeInv_offer (n : Nat) (ch : ChannelId) (h : rangeInv s) : rangeInv (offer n ch s) := by
  unfold offer
  try simp only []
  repeat' split
  all_goals with_reducible repeat (first | exact h | apply rangeInv_decideOffer | apply rangeInv_select)
theorem rangeInv_moveOnto (n : Nat) (h : rangeInv s) : rangeInv (moveOnto n s) := by
  unfold moveOnto
  try simp only []
  repeat' split
  all_goals with_reducible repeat (first | exact h | apply rangeInv_withScan | apply rangeInv_checkPassEnd | apply rangeInv_offer)
theorem rangeInv_cursorMove (h : rangeInv s) : rangeInv (cursorMove s) := by
  unfold cursorMove
  try simp only []
  repeat' split
  all_goals with_reducible repeat (first | exact h | apply rangeInv_moveOnto)
theorem rangeInv_passStart (h : rangeInv s) : rangeInv (passStart s) := by
  unfold passStart
  try simp only []
  repeat' split
  all_goals with_reducible repeat (first | exact h | apply rangeInv_withScan | apply rangeInv_moveOnto)
theorem rangeInv_overrun (h : rangeInv s) : rangeInv (overrun s) := rangeInv_keep (by simp) (by simp) h
theorem rangeInv_passDue (h : rangeInv s) : rangeInv (passDue s) := by
  unfold passDue
  try simp only []
  repeat' split
  all_goals with_reducible repeat (first | exact h | apply rangeInv_passStart | apply rangeInv_overrun)
theorem rangeInv_expiry (h : rangeInv s) : rangeInv (expiry s) := by
  unfold expiry
  try simp only []
  repeat' split
  all_goals with_reducible repeat (first | exact h | apply rangeInv_withScan | apply rangeInv_passDue)
theorem rangeInv_timerTick (h : rangeInv s) : rangeInv (timerTick s) := by
  unfold timerTick
  try simp only []
  repeat' split
  all_goals with_reducible repeat (first | exact h | apply rangeInv_withScan | apply rangeInv_expiry)
theorem rangeInv_qualifiedEdge (l : Bool) (h : rangeInv s) : rangeInv (qualifiedEdge l s) := by
  unfold qualifiedEdge
  try simp only []
  repeat' split
  all_goals with_reducible repeat (first | exact h | apply rangeInv_withScan | apply rangeInv_passDue)
theorem rangeInv_trigSample (h : rangeInv s) : rangeInv (trigSample s) := by
  unfold trigSample
  try simp only []
  repeat' split
  all_goals with_reducible repeat (first | exact h | apply rangeInv_withScan | apply rangeInv_qualifiedEdge)
theorem rangeInv_dropJobs (p : QueuedJob → Bool) (h : rangeInv s) : rangeInv (dropJobs p s) := rangeInv_keep (by simp) (by simp) h
theorem rangeInv_clearStallIfEmpty (h : rangeInv s) : rangeInv (clearStallIfEmpty s) := rangeInv_keep (by simp) (by simp) h
theorem rangeInv_removeJobs (p : QueuedJob → Bool) (h : rangeInv s) : rangeInv (removeJobs p s).1 := rangeInv_keep (by simp) (by simp) h
theorem rangeInv_completeStop (h : rangeInv s) : rangeInv (completeStop s) := rangeInv_keep (by simp) (by simp) h
theorem rangeInv_countOut (h : rangeInv s) : rangeInv (countOut s) := rangeInv_keep (by simp) (by simp) h
theorem rangeInv_relink (ch : ChannelId) (a b : Descriptor) (h : rangeInv s) : rangeInv (relink ch a b s) := rangeInv_keep (by simp) (by simp) h
theorem rangeInv_removeAlert (ch : ChannelId) (h : rangeInv s) : rangeInv (removeAlert ch s) := rangeInv_keep (by simp) (by simp) h
theorem rangeInv_withdrawOffer (ch : ChannelId) (h : rangeInv s) : rangeInv (withdrawOffer ch s) := rangeInv_keep (by simp) (by simp) h
theorem rangeInv_applyCommit (ch : ChannelId) (im : Image) (h : rangeInv s) (hn : s.channels[ch.val].engaged = false) :
    rangeInv (applyCommit ch im s).1 := by
  refine ⟨engagedLaw_applyCommit ch im h.1, fun ch' => ?_, fun j hj => ?_⟩
  · simp only [applyCommit_channels, setChannel_get]
    split
    · obtain ⟨c1, c2, c3⟩ := h.2.1 ch
      unfold rangeReset Channel.stepLaw
      simp only []
      split
      · exact ⟨by simp, fun _ => by simp, fun _ => rfl⟩
      · rename_i hr
        simp only [bne_iff_ne, Bool.or_eq_true, not_or, ne_eq, Decidable.not_not] at hr
        obtain ⟨⟨r1, r2⟩, r3⟩ := hr
        exact ⟨c1, fun hp => by rw [← r2]; exact c2 (r1.trans hp), fun hp => c3 (r3.trans hp)⟩
    · exact h.2.1 ch'
  · have hj' : s.seq.job = some j := by simpa using hj
    have hne := not_measured h.1 hn hj'
    have := h.2.2 j hj'
    simp only [applyCommit_channels, setChannel_get, applyCommit_keeps]
    rw [if_neg (fun hq => hne hq.symm)]
    exact this
theorem rangeInv_decideCommit (ch : ChannelId) (im : Image) (h : rangeInv s) (hn : s.channels[ch.val].engaged = false) :
    rangeInv (decideCommit ch im s).1 := by
  unfold decideCommit
  split
  · exact h
  · exact rangeInv_applyCommit _ _ h hn
theorem rangeInv_decideDeferred (h : rangeInv s) (hn : s.seq.job = none) : rangeInv (decideDeferred s) := by
  unfold decideDeferred
  split
  · exact h
  · rename_i dc _
    have h0 : s.channels[dc.channel.val].engaged = false := by
      have := h.1.2 dc.channel
      rw [hn] at this
      exact this
    exact rangeInv_finishWorking _ (rangeInv_decideCommit _ _ (rangeInv_withDeferred _ h) h0)
theorem rangeInv_referenceShare (a : Completion) (h : rangeInv s) : rangeInv (referenceShare a s) := rangeInv_keep (by simp) (by simp) h
theorem rangeInv_zoneShare (a : Completion) (h : rangeInv s) : rangeInv (zoneShare a s) := by
  unfold zoneShare
  simp only []
  split
  · exact rangeInv_raise _ (rangeInv_withAlerts _ (rangeInv_onChannel _ _ h (fun _ => rfl) (fun _ => rfl) (fun hq => hq)))
  · exact rangeInv_onChannel _ _ h (fun _ => rfl) (fun _ => rfl) (fun hq => hq)
theorem rangeInv_fifoShare (a : Completion) (z : Zone) (c : Bool) (p : ReportPolicy) (h : rangeInv s) :
    rangeInv (fifoShare a z c p s) := rangeInv_keep (by simp) (by simp) h
theorem rangeInv_lastStatusShare (a : Completion) (h : rangeInv s) : rangeInv (lastStatusShare a s) := rangeInv_onChannel _ _ h (fun _ => rfl) (fun _ => rfl) (fun hq => hq)
theorem rangeInv_quietSequencer (j : InFlight) (st : JobStatus) (h : rangeInv s) (hj : s.seq.job = some j) :
    rangeInv (quietSequencer j st s) := by
  refine ⟨engagedLaw_quietSequencer j st h.1 hj, fun ch => ?_, fun k hk => ?_⟩
  · have h1 := quietSequencer_item Channel.rangeStep (fun _ _ => rfl) j st ch s
    have h2 := quietSequencer_item Channel.desc (fun _ _ => rfl) j st ch s
    unfold Channel.stepLaw
    rw [h1, h2]
    exact h.2.1 ch
  · simp [Sequencer.quiet] at hk
theorem rangeInv_announceTo (a : Completion) (h : rangeInv s) (hn : s.seq.job = none) :
    rangeInv (announceTo a s) := by
  unfold announceTo
  simp only []
  have h1 : ∀ z c p, rangeInv (lastStatusShare a (fifoShare a z c p (zoneShare a (referenceShare a s)))) := fun z c p =>
    rangeInv_lastStatusShare _ (rangeInv_fifoShare _ _ _ _ (rangeInv_zoneShare _ (rangeInv_referenceShare _ h)))
  apply rangeInv_decideDeferred
  · split
    · exact rangeInv_countOut (h1 _ _ _)
    · exact h1 _ _ _
  · split <;> simpa using hn
theorem rangeInv_offerSequencer (h : rangeInv s) : rangeInv (offerSequencer s) := rangeInv_select h
theorem rangeInv_jobEnd (st : JobStatus) (h : rangeInv s) : rangeInv (jobEnd st s) := by
  unfold jobEnd
  split
  · exact h
  · rename_i j hj
    exact rangeInv_offerSequencer (rangeInv_announceTo _ (rangeInv_quietSequencer j st h hj) (by simp [Sequencer.quiet]))
theorem rangeInv_abortJob (h : rangeInv s) : rangeInv (abortJob s).1 := by
  unfold abortJob
  try simp only []
  repeat' split
  all_goals with_reducible repeat (first | exact h | apply rangeInv_jobEnd)
theorem rangeInv_phaseEnd (pe : PhaseEnd) (h : rangeInv s) : rangeInv (phaseEnd pe s) := by
  unfold phaseEnd
  simp only []
  split
  · exact h
  · rename_i j hj
    have hi : s.seq.state ≠ .idle := fun h0 => by rw [h.1.1 h0] at hj; cases hj
    have h1 : rangeInv (onChannel j.measured (fun c => { c with rangeStep := stepAfter pe s.seq.work c.rangeStep }) s) :=
      rangeInv_onChannel _ _ h (fun _ => rfl) (fun _ => rfl) (fun hq => stepLaw_stepAfter (h.2.2 j hj) hq)
    repeat' split
    · exact rangeInv_jobEnd _ h1
    · have h2 := rangeInv_onSlot j.measured
        (RefSlot.measured s.seq.work.cTotal s.seq.work.gTotal s.seq.work.method) h1
      refine rangeInv_startPhase _ (engagedLaw_startPhase _ (engagedLaw_withSeq h2.1 ?_ ?_)) h2.2.1 ?_
      · intro h0; exact absurd h0 hi
      · intro ch; simp [hj, engagedBy, InFlight.engages]
      · intro k hk
        simp at hk
        rw [← hk]
        simp [InFlight.measured]
    all_goals exact rangeInv_jobEnd _ (rangeInv_onSlot _ _ h1)
theorem rangeInv_sampleComplete (h : rangeInv s) : rangeInv (sampleComplete s) := by
  unfold sampleComplete
  simp only []
  repeat' split
  all_goals first
    | exact rangeInv_phaseEnd _ h
    | exact rangeInv_phaseEnd _ (rangeInv_withWork _ h rfl rfl rfl rfl)
    | exact rangeInv_enterArm (rangeInv_withWork _ h rfl rfl rfl rfl)
theorem rangeInv_overflowed (h : rangeInv s) : rangeInv (overflowed s) := by
  unfold overflowed
  simp only []
  split
  · rename_i hc
    refine rangeInv_enterArm (rangeInv_runRequest _ (rangeInv_withSeq h ?_ ?_ ?_))
    · intro h0; simp only [h.1.1 h0, Option.map_none]
    · intro ch; cases hj : s.seq.job <;> simp [engagedBy, InFlight.engages]
    · intro k hk
      cases hj : s.seq.job with
      | none => rw [hj] at hk; cases hk
      | some j =>
        rw [hj] at hk
        simp only [Option.map_some, Option.some.injEq] at hk
        subst hk
        have := h.2.2 j hj
        obtain ⟨a1, a2, a3, a4, a5⟩ := this
        refine ⟨a1, a2, a3, ?_, fun hf => ?_⟩
        · have := hc.2
          unfold stepLimit at this ⊢
          simp only []
          omega
        · rw [hc.1] at hf; cases hf
  · exact rangeInv_phaseEnd _ h
theorem rangeInv_sequencerTb (h : rangeInv s) : rangeInv (sequencerTb s) := by
  unfold sequencerTb
  simp only []
  repeat' split
  all_goals first
    | exact h
    | exact rangeInv_withWork _ h rfl rfl rfl rfl
    | exact rangeInv_startSample h
    | exact rangeInv_enterSettle (rangeInv_withWork _ h rfl rfl rfl rfl)
    | exact rangeInv_enterArm (rangeInv_withWork _ h rfl rfl rfl rfl)
    | exact rangeInv_phaseEnd _ (rangeInv_withWork _ h rfl rfl rfl rfl)
    | exact rangeInv_sampleComplete (rangeInv_withWork _ h rfl rfl rfl rfl)
    | exact rangeInv_overflowed h
theorem rangeInv_sequencerSlow (h : rangeInv s) : rangeInv (sequencerSlow s) := by
  unfold sequencerSlow
  simp only []
  repeat' split
  all_goals first
    | exact h
    | exact rangeInv_withWork _ h rfl rfl rfl rfl
    | exact rangeInv_startSample h
    | exact rangeInv_enterSettle (rangeInv_withWork _ h rfl rfl rfl rfl)
    | exact rangeInv_enterArm (rangeInv_withWork _ h rfl rfl rfl rfl)
    | exact rangeInv_phaseEnd _ (rangeInv_withWork _ h rfl rfl rfl rfl)
    | exact rangeInv_sampleComplete (rangeInv_withWork _ h rfl rfl rfl rfl)
    | exact rangeInv_overflowed h
theorem rangeInv_sequencerEdge (h : rangeInv s) : rangeInv (sequencerEdge s) := by
  unfold sequencerEdge
  simp only []
  repeat' split
  all_goals first
    | exact h
    | exact rangeInv_withWork _ h rfl rfl rfl rfl
    | exact rangeInv_startSample h
    | exact rangeInv_enterSettle (rangeInv_withWork _ h rfl rfl rfl rfl)
    | exact rangeInv_enterArm (rangeInv_withWork _ h rfl rfl rfl rfl)
    | exact rangeInv_phaseEnd _ (rangeInv_withWork _ h rfl rfl rfl rfl)
    | exact rangeInv_sampleComplete (rangeInv_withWork _ h rfl rfl rfl rfl)
    | exact rangeInv_overflowed h
theorem rangeInv_deliverEdge (c : Bool) (h : rangeInv s) : rangeInv (deliverEdge c s) := by
  unfold deliverEdge
  try simp only []
  repeat' split
  all_goals with_reducible repeat (first | exact h | apply rangeInv_withFreeIndex | apply rangeInv_sequencerEdge)
theorem rangeInv_oscillatorEdge (c : Bool) (h : rangeInv s) : rangeInv (oscillatorEdge c s) := by
  rw [oscillatorEdge_spec]
  try simp only []
  repeat' split
  all_goals with_reducible repeat (first | exact h | apply rangeInv_withFrontEnd | apply rangeInv_deliverEdge)
theorem rangeInv_nodeMoves (h : rangeInv s) : rangeInv (nodeMoves s) := rangeInv_keep (by simp) (by simp) h
theorem rangeInv_stampTick (h : rangeInv s) : rangeInv (stampTick s) := by
  unfold stampTick
  try simp only []
  repeat' split
  all_goals with_reducible repeat (first | exact h | apply rangeInv_withTimebase)
theorem rangeInv_ageTick (h : rangeInv s) : rangeInv (ageTick s) := by
  unfold ageTick
  try simp only []
  repeat' split
  all_goals with_reducible repeat (first | exact h | apply rangeInv_withRefs)
theorem rangeInv_scanSlow (h : rangeInv s) : rangeInv (scanSlow s) := by
  unfold scanSlow
  try simp only []
  repeat' split
  all_goals with_reducible repeat (first | exact h | apply rangeInv_timerTick | apply rangeInv_trigSample)
theorem rangeInv_slowShare (h : rangeInv s) : rangeInv (slowShare s) := 
  eitherOrder_ind (fun _ n h => rangeInv_withFreeIndex n h) (rangeInv_scanSlow (rangeInv_ageTick (rangeInv_stampTick h)))
    (rangeInv_ageTick (rangeInv_scanSlow (rangeInv_stampTick h)))
theorem rangeInv_sequencerShare (b : SeqState) (w : Bool) (h : rangeInv s) : rangeInv (sequencerShare b w s) := by
  unfold sequencerShare
  try simp only []
  repeat' split
  all_goals with_reducible repeat (first | exact h | apply rangeInv_sequencerTb | apply rangeInv_sequencerSlow)
theorem rangeInv_cursorShare (b : Cursor) (h : rangeInv s) : rangeInv (cursorShare b s) := by
  unfold cursorShare
  try simp only []
  repeat' split
  all_goals with_reducible repeat (first | exact h | apply rangeInv_cursorMove)
theorem rangeInv_tbTick (l : Bool) (h : rangeInv s) : rangeInv (tbTick l s) := by
  unfold tbTick
  split
  · exact anyOrder_ind (fun _ n h => rangeInv_withFreeIndex n h) (fun _ h => rangeInv_sequencerShare _ _ h)
      (fun _ h => rangeInv_cursorShare _ h) (fun _ h => by split; exacts [rangeInv_slowShare h, h])
      (rangeInv_withPins _ (rangeInv_withTimebase _ h))
  · exact h
theorem rangeInv_slowTick (l : Bool) (h : rangeInv s) : rangeInv (slowTick l s) := by
  unfold slowTick
  try simp only []
  repeat' split
  all_goals with_reducible repeat (first | exact h | apply rangeInv_withTimebase | apply rangeInv_withPins | apply rangeInv_sequencerSlow | apply rangeInv_slowShare)
theorem rangeInv_refuse (r : Reason) (h : rangeInv s) : rangeInv (refuse r s).1 := h
theorem rangeInv_admitDirect (ch : ChannelId) (h : rangeInv s) : rangeInv (admitDirect ch s).1 := by
  unfold admitDirect
  try simp only []
  repeat' split
  all_goals with_reducible repeat (first | exact h | apply rangeInv_withQueue | apply rangeInv_select | apply rangeInv_refuse)
theorem rangeInv_measureNow (h : rangeInv s) : rangeInv (measureNow s).1 := by
  unfold measureNow
  try simp only []
  repeat' split
  all_goals with_reducible repeat (first | exact h | apply rangeInv_refuse | apply rangeInv_admitDirect)
theorem rangeInv_flushQueue (h : rangeInv s) : rangeInv (flushQueue s).1 := by
  unfold flushQueue
  try simp only []
  repeat' split
  all_goals with_reducible repeat (first | exact h | apply rangeInv_removeJobs | apply rangeInv_refuse)
theorem rangeInv_scanStart (h : rangeInv s) : rangeInv (scanStart s).1 := by
  unfold scanStart
  try simp only []
  repeat' split
  all_goals with_reducible repeat (first | exact h | apply rangeInv_withScan | apply rangeInv_passStart | apply rangeInv_refuse)
theorem rangeInv_scanOnce (h : rangeInv s) : rangeInv (scanOnce s).1 := by
  unfold scanOnce
  try simp only []
  repeat' split
  all_goals with_reducible repeat (first | exact h | apply rangeInv_withScan | apply rangeInv_passStart | apply rangeInv_refuse)
theorem rangeInv_scanStop (h : rangeInv s) : rangeInv (scanStop s).1 := by
  unfold scanStop
  try simp only []
  repeat' split
  all_goals with_reducible repeat (first | exact h | apply rangeInv_withScan | apply rangeInv_applySwap | apply rangeInv_removeJobs)
theorem rangeInv_swapBanks (h : rangeInv s) : rangeInv (swapBanks s).1 := by
  unfold swapBanks
  try simp only []
  repeat' split
  all_goals with_reducible repeat (first | exact h | apply rangeInv_withScan | apply rangeInv_refuse)
theorem rangeInv_commitChannel (h : rangeInv s) : rangeInv (commitChannel s).1 := by
  unfold commitChannel
  split
  · exact h
  · simp only []
    split
    · exact h
    · rename_i hn
      exact rangeInv_decideCommit _ _ h (by simpa using hn)
theorem rangeInv_fetchChannel (h : rangeInv s) : rangeInv (fetchChannel s).1 := by
  unfold fetchChannel
  try simp only []
  repeat' split
  all_goals with_reducible repeat (first | exact h | apply rangeInv_withStaging | apply rangeInv_refuse)
theorem rangeInv_invalidateReference (h : rangeInv s) : rangeInv (invalidateReference s).1 := by
  unfold invalidateReference
  try simp only []
  repeat' split
  all_goals with_reducible repeat (first | exact h | apply rangeInv_onSlot | apply rangeInv_invalidateAll | apply rangeInv_refuse)
theorem rangeInv_clearZone (h : rangeInv s) : rangeInv (clearZone s).1 := by
  unfold clearZone
  split
  · have hd : ∀ ch : ChannelId, (mapTable (fun c : Channel => { c with zone := .unknown }) s.channels)[ch.val] =
        { s.channels[ch.val] with zone := .unknown } := fun ch => by simp
    refine ⟨⟨h.1.1, fun ch => ?_⟩, fun ch => ?_, fun j hj => ?_⟩
    · simp only [State.withAlerts_channels, State.withChannels_channels, hd]
      exact h.1.2 ch
    · simp only [State.withAlerts_channels, State.withChannels_channels, hd]
      exact h.2.1 ch
    · simp only [State.withAlerts_channels, State.withChannels_channels, hd]
      exact h.2.2 j hj
  · split
    · exact h
    · exact rangeInv_removeAlert _ (rangeInv_onChannel _ _ h (fun _ => rfl) (fun _ => rfl) (fun hq => hq))
theorem rangeInv_clearAlerts (h : rangeInv s) : rangeInv (clearAlerts s).1 := by
  unfold clearAlerts
  try simp only []
  repeat' split
  all_goals with_reducible repeat (first | exact h | apply rangeInv_withAlerts)
theorem rangeInv_clearResults (h : rangeInv s) : rangeInv (clearResults s).1 := by
  unfold clearResults
  try simp only []
  repeat' split
  all_goals with_reducible repeat (first | exact h | apply rangeInv_withFifo | apply rangeInv_retry)
theorem rangeInv_setTimebase (h : rangeInv s) : rangeInv (setTimebase s).1 := by
  unfold setTimebase
  try simp only []
  repeat' split
  all_goals with_reducible repeat (first | exact h | apply rangeInv_withTimebase | apply rangeInv_invalidateAll | apply rangeInv_refuse)
theorem rangeInv_sleep (h : rangeInv s) : rangeInv (sleep s).1 := by
  unfold sleep
  try simp only []
  repeat' split
  all_goals with_reducible repeat (first | exact h | apply rangeInv_withFrontEnd | apply rangeInv_withTimebase | apply rangeInv_invalidateAll | apply rangeInv_refuse)
theorem rangeInv_wake (h : rangeInv s) : rangeInv (wake s).1 := by
  unfold wake
  try simp only []
  repeat' split
  all_goals with_reducible repeat (first | exact h | apply rangeInv_withFrontEnd | apply rangeInv_withTimebase)
theorem rangeInv_unknownCommand (h : rangeInv s) : rangeInv (unknownCommand s).1 := by
  unfold unknownCommand
  try simp only []
  repeat' split
  all_goals with_reducible repeat (first | exact h | apply rangeInv_refuse)
theorem rangeInv_quietEngine (h : rangeInv s) : rangeInv (quietEngine s) := by
  refine ⟨engagedLaw_quietEngine h.1, fun ch => ?_, fun j hj => ?_⟩
  · simp [quietEngine, Channel.quiet, Channel.stepLaw]
  · simp [quietEngine, Sequencer.quiet] at hj
theorem rangeInv_engineReset (h : rangeInv s) : rangeInv (engineReset s) := by
  unfold engineReset
  try simp only []
  repeat' split
  all_goals with_reducible repeat (first | exact h | apply rangeInv_raise | apply rangeInv_recordOutcome | apply rangeInv_quietEngine)
theorem rangeInv_powerOn (h : rangeInv s) : rangeInv (powerOn s) := by
  refine ⟨engagedLaw_powerOn h.1, fun ch => ?_, fun j hj => ?_⟩
  · simp [powerOn, State.reset, Channel.zero, Descriptor.zero, Channel.stepLaw]
  · simp [powerOn, State.reset, Sequencer.quiet] at hj
theorem rangeInv_endReset (l : Bool) (h : rangeInv s) : rangeInv (endReset l s) := by
  unfold endReset
  try simp only []
  repeat' split
  all_goals with_reducible repeat (first | exact h | apply rangeInv_withInReset | apply rangeInv_withFrontEnd | apply rangeInv_withPort | apply rangeInv_withPins)
theorem rangeInv_takeResult (h : rangeInv s) : rangeInv (takeResult s) := by
  unfold takeResult
  try simp only []
  repeat' split
  all_goals with_reducible repeat (first | exact h | apply rangeInv_withFifo)
theorem rangeInv_popResult (h : rangeInv s) : rangeInv (popResult s) := by
  unfold popResult
  try simp only []
  repeat' split
  all_goals with_reducible repeat (first | exact h | apply rangeInv_retry | apply rangeInv_takeResult)
theorem rangeInv_popAlert (h : rangeInv s) : rangeInv (popAlert s) := by
  unfold popAlert
  try simp only []
  repeat' split
  all_goals with_reducible repeat (first | exact h | apply rangeInv_withAlerts)
theorem rangeInv_readAction (a : Byte) (h : rangeInv s) : rangeInv (readAction a s) := by
  unfold readAction
  try simp only []
  repeat' split
  all_goals with_reducible repeat (first | exact h | apply rangeInv_popResult | apply rangeInv_popAlert)
theorem rangeInv_advancePointer (h : rangeInv s) : rangeInv (advancePointer s) := by
  unfold advancePointer
  try simp only []
  repeat' split
  all_goals with_reducible repeat (first | exact h | apply rangeInv_withPort)
theorem rangeInv_busStart (a : Byte) (h : rangeInv s) : rangeInv (busStart a s) := by
  unfold busStart
  try simp only []
  repeat' split
  all_goals with_reducible repeat (first | exact h | apply rangeInv_withPort)
theorem rangeInv_openWrite (h : rangeInv s) : rangeInv (openWrite s) := by
  unfold openWrite
  try simp only []
  repeat' split
  all_goals with_reducible repeat (first | exact h | apply rangeInv_busStart)
theorem rangeInv_copySnapshot (h : rangeInv s) : rangeInv (copySnapshot s) := by
  unfold copySnapshot
  try simp only []
  repeat' split
  all_goals with_reducible repeat (first | exact h | apply rangeInv_busStart)
theorem rangeInv_sendByte (a : State → State) (h : rangeInv s) (ha : rangeInv (a s)) : rangeInv (sendByte a s) := rangeInv_advancePointer (rangeInv_withPort _ ha)
theorem rangeInv_windowRead (a : Byte) (e : State → State) (h : rangeInv s) (he : ∀ t, rangeInv t → rangeInv (e t)) :
    rangeInv (windowRead a e s) := by
  unfold windowRead
  split
  · exact h
  · split
    · refine rangeInv_sendByte _ h ?_
      split
      · exact he _ h
      · exact rangeInv_readAction _ h
    all_goals exact h
theorem rangeInv_issue (c : Byte) (f : State → State × Reply) (h : rangeInv s) (hf : rangeInv (f s).1) :
    rangeInv (issue c f s) := by
  unfold issue
  split
  · exact rangeInv_collide h
  · exact rangeInv_recordOutcome _ _ hf
theorem rangeInv_issueAbort (h : rangeInv s) : rangeInv (issueAbort s) := by
  unfold issueAbort
  try simp only []
  repeat' split
  all_goals with_reducible repeat (first | exact h | apply rangeInv_recordOutcome | apply rangeInv_abortJob)
theorem rangeInv_issueCode (c : Byte) (h : rangeInv s) : rangeInv (issueCode c s) := by
  unfold issueCode
  refine iteInduction (fun _ => ?_) (fun _ => ?_)
  · exact rangeInv_issue _ _ h (rangeInv_measureNow h)
  refine iteInduction (fun _ => ?_) (fun _ => ?_)
  · exact rangeInv_issueAbort h
  refine iteInduction (fun _ => ?_) (fun _ => ?_)
  · exact rangeInv_issue _ _ h (rangeInv_flushQueue h)
  refine iteInduction (fun _ => ?_) (fun _ => ?_)
  · exact rangeInv_issue _ _ h (rangeInv_scanStart h)
  refine iteInduction (fun _ => ?_) (fun _ => ?_)
  · exact rangeInv_issue _ _ h (rangeInv_scanStop h)
  refine iteInduction (fun _ => ?_) (fun _ => ?_)
  · exact rangeInv_issue _ _ h (rangeInv_scanOnce h)
  refine iteInduction (fun _ => ?_) (fun _ => ?_)
  · exact rangeInv_issue _ _ h (rangeInv_swapBanks h)
  refine iteInduction (fun _ => ?_) (fun _ => ?_)
  · exact rangeInv_issue _ _ h (rangeInv_commitChannel h)
  refine iteInduction (fun _ => ?_) (fun _ => ?_)
  · exact rangeInv_issue _ _ h (rangeInv_fetchChannel h)
  refine iteInduction (fun _ => ?_) (fun _ => ?_)
  · exact rangeInv_issue _ _ h (rangeInv_invalidateReference h)
  refine iteInduction (fun _ => ?_) (fun _ => ?_)
  · exact rangeInv_issue _ _ h (rangeInv_clearZone h)
  refine iteInduction (fun _ => ?_) (fun _ => ?_)
  · exact rangeInv_issue _ _ h (rangeInv_clearAlerts h)
  refine iteInduction (fun _ => ?_) (fun _ => ?_)
  · exact rangeInv_issue _ _ h (rangeInv_clearResults h)
  refine iteInduction (fun _ => ?_) (fun _ => ?_)
  · exact rangeInv_issue _ _ h (rangeInv_setTimebase h)
  refine iteInduction (fun _ => ?_) (fun _ => ?_)
  · exact rangeInv_issue _ _ h (rangeInv_sleep h)
  refine iteInduction (fun _ => ?_) (fun _ => ?_)
  · exact rangeInv_issue _ _ h (rangeInv_wake h)
  refine iteInduction (fun _ => ?_) (fun _ => ?_)
  · exact rangeInv_engineReset h
  exact rangeInv_issue _ _ h (rangeInv_unknownCommand h)
theorem rangeInv_clearFlags (v : Byte) (h : rangeInv s) : rangeInv (clearFlags v s) := by
  unfold clearFlags
  try simp only []
  repeat' split
  all_goals with_reducible repeat (first | exact h | apply rangeInv_withEvents)
theorem rangeInv_writeEnables (v : Byte) (h : rangeInv s) : rangeInv (writeEnables v s) := by
  unfold writeEnables
  try simp only []
  repeat' split
  all_goals with_reducible repeat (first | exact h | apply rangeInv_withEvents)
theorem rangeInv_writeBank (a v : Byte) (h : rangeInv s) : rangeInv (writeBank a v s) := by
  unfold writeBank
  try simp only []
  repeat' split
  all_goals with_reducible repeat (first | exact h | apply rangeInv_withScan)
theorem rangeInv_writeOverrun (v : Byte) (h : rangeInv s) : rangeInv (writeOverrun v s) := by
  unfold writeOverrun
  try simp only []
  repeat' split
  all_goals with_reducible repeat (first | exact h | apply rangeInv_withScan | apply rangeInv_overrun)
theorem rangeInv_writePolicy (v : Byte) (h : rangeInv s) : rangeInv (writePolicy v s) := by
  unfold writePolicy
  try simp only []
  repeat' split
  all_goals with_reducible repeat (first | exact h | apply rangeInv_withFifo | apply rangeInv_retry)
theorem rangeInv_writePeriodLow (v : Byte) (h : rangeInv s) : rangeInv (writePeriodLow v s) := by
  unfold writePeriodLow
  try simp only []
  repeat' split
  all_goals with_reducible repeat (first | exact h | apply rangeInv_withScan)
theorem rangeInv_writePeriodHigh (v : Byte) (h : rangeInv s) : rangeInv (writePeriodHigh v s) := by
  unfold writePeriodHigh
  try simp only []
  repeat' split
  all_goals with_reducible repeat (first | exact h | apply rangeInv_withScan)
theorem rangeInv_writePlain (a v : Byte) (h : rangeInv s) : rangeInv (writePlain a v s) := by
  unfold writePlain
  try simp only []
  repeat' split
  all_goals with_reducible repeat (first | exact h | apply rangeInv_withTimebase | apply rangeInv_withStaging | apply rangeInv_withScan | apply rangeInv_withFifo | apply rangeInv_withCmd | apply rangeInv_writePeriodLow | apply rangeInv_writePeriodHigh)
theorem rangeInv_registerWrite (a v : Byte) (h : rangeInv s) : rangeInv (registerWrite a v s) := by
  unfold registerWrite
  try simp only []
  repeat' split
  all_goals with_reducible repeat (first | exact h | apply rangeInv_issueCode | apply rangeInv_clearFlags | apply rangeInv_writeEnables | apply rangeInv_writeBank | apply rangeInv_writeOverrun | apply rangeInv_writePolicy | apply rangeInv_writePlain)
theorem rangeInv_takeByte (v : Byte) (e : State → State) (h : rangeInv s) (he : ∀ t, rangeInv t → rangeInv (e t)) :
    rangeInv (takeByte v e s) := by
  unfold takeByte
  split
  · exact h
  · split
    · exact rangeInv_withPort _ h
    · exact he _ (rangeInv_advancePointer h)
    all_goals exact h
theorem rangeInv_dataByte (a v : Byte) (e : State → State) (h : rangeInv s) (he : ∀ t, rangeInv t → rangeInv (e t)) :
    rangeInv (dataByte a v e s) := 
  rangeInv_takeByte _ _ h (fun t ht => by split; exacts [he t ht, rangeInv_registerWrite _ _ ht])
theorem rangeInv_loadPointer (v : Byte) (h : rangeInv s) : rangeInv (loadPointer v s) := rangeInv_takeByte _ _ h (fun _ ht => rangeInv_registerWrite _ _ ht)

end Sys2Proof.Machine
end

