-- ==== Sys2Proof/Laws/SequenceLaw.lean ====
section
/-! SUPPORT. What keeps the law of the sequence numbers (R146). -/

namespace Sys2Proof.Machine

set_option linter.unusedTactic false
set_option linter.unreachableTactic false

variable {s : State}

/-- R146: the law of a list of records, with the next number. -/
def numbersLaw (l : List ResultRecord) (next : BitVec 16) : Prop :=
  ∀ (i : Nat) (h : i < l.length), l[i].sequence = next - BitVec.ofNat 16 (l.length - i)

/-- R149, R157: records leave from the head. -/
theorem numbersLaw_drop {l : List ResultRecord} {n : BitVec 16} (k : Nat) (h : numbersLaw l n) :
    numbersLaw (l.drop k) n := by
  intro i hi
  have hi' : k + i < l.length := by simp at hi; omega
  rw [List.getElem_drop, h (k + i) hi', List.length_drop]
  congr 2; omega

/-- R152: a record joins at the tail with the next number. -/
theorem numbersLaw_append {l : List ResultRecord} {n : BitVec 16} {r : ResultRecord} (hr : r.sequence = n)
    (h : numbersLaw l n) : numbersLaw (l ++ [r]) (n + 1) := by
  intro i hi
  simp only [List.length_append, List.length_cons, List.length_nil] at hi
  by_cases hl : i < l.length
  · rw [List.getElem_append_left hl, h i hl]
    have : (l ++ [r]).length - i = (l.length - i) + 1 := by simp; omega
    rw [this, BitVec.ofNat_add]
    bv_omega
  · have : i = l.length := by omega
    subst this
    simp [hr]

theorem sequenceLaw_of_fifo {t : State} (hr : t.fifo.records = s.fifo.records)
    (hn : t.fifo.nextSequence = s.fifo.nextSequence) (h : sequenceLaw s) : sequenceLaw t := by
  unfold sequenceLaw; rw [hr, hn]; exact h

theorem sequenceLaw_withPending (x : List Instr) (h : sequenceLaw s) : sequenceLaw (s.withPending x) := h
theorem sequenceLaw_withInReset (x : Bool) (h : sequenceLaw s) : sequenceLaw (s.withInReset x) := h
theorem sequenceLaw_withFrontEnd (x : FrontEnd) (h : sequenceLaw s) : sequenceLaw (s.withFrontEnd x) := h
theorem sequenceLaw_withTimebase (x : Timebase) (h : sequenceLaw s) : sequenceLaw (s.withTimebase x) := h
theorem sequenceLaw_withChannels (x : Vector Channel 16) (h : sequenceLaw s) : sequenceLaw (s.withChannels x) := h
theorem sequenceLaw_withStaging (x : Vector Byte 32) (h : sequenceLaw s) : sequenceLaw (s.withStaging x) := h
theorem sequenceLaw_withDeferred (x : Option DeferredCommit) (h : sequenceLaw s) : sequenceLaw (s.withDeferred x) := h
theorem sequenceLaw_withSeq (x : Sequencer) (h : sequenceLaw s) : sequenceLaw (s.withSeq x) := h
theorem sequenceLaw_withRefs (x : Vector RefSlot 4) (h : sequenceLaw s) : sequenceLaw (s.withRefs x) := h
theorem sequenceLaw_withQueue (x : JobQueue) (h : sequenceLaw s) : sequenceLaw (s.withQueue x) := h
theorem sequenceLaw_withScan (x : ScanController) (h : sequenceLaw s) : sequenceLaw (s.withScan x) := h
theorem sequenceLaw_withAlerts (x : AlertList) (h : sequenceLaw s) : sequenceLaw (s.withAlerts x) := h
theorem sequenceLaw_withPort (x : SerialPort) (h : sequenceLaw s) : sequenceLaw (s.withPort x) := h
theorem sequenceLaw_withCmd (x : CommandPort) (h : sequenceLaw s) : sequenceLaw (s.withCmd x) := h
theorem sequenceLaw_withEvents (x : EventUnit) (h : sequenceLaw s) : sequenceLaw (s.withEvents x) := h
theorem sequenceLaw_withPins (x : InputPins) (h : sequenceLaw s) : sequenceLaw (s.withPins x) := h
theorem sequenceLaw_withFreeIndex (x : Nat) (h : sequenceLaw s) : sequenceLaw (s.withFreeIndex x) := h

theorem sequenceLaw_raise (f : Flag) (h : sequenceLaw s) : sequenceLaw (raise f s) := by
  simpa [sequenceLaw] using h
theorem sequenceLaw_clampRequest (h : sequenceLaw s) : sequenceLaw (clampRequest s) := by
  simpa [sequenceLaw] using h
theorem sequenceLaw_runRequest (p : PinId) (h : sequenceLaw s) : sequenceLaw (runRequest p s) := by
  simpa [sequenceLaw] using h
theorem sequenceLaw_onChannel (ch : ChannelId) (f : Channel → Channel) (h : sequenceLaw s) :
    sequenceLaw (onChannel ch f s) := by
  simpa [sequenceLaw] using h
theorem sequenceLaw_setEngaged (m : Bool) (ch : ChannelId) (h : sequenceLaw s) : sequenceLaw (setEngaged m ch s) := by
  simpa [sequenceLaw] using h
theorem sequenceLaw_markJob (m : Bool) (j : InFlight) (h : sequenceLaw s) : sequenceLaw (markJob m j s) := by
  simpa [sequenceLaw] using h
theorem sequenceLaw_onSlot (ch : ChannelId) (f : RefSlot → RefSlot) (h : sequenceLaw s) :
    sequenceLaw (onSlot ch f s) := by
  simpa [sequenceLaw] using h
theorem sequenceLaw_invalidateAll (h : sequenceLaw s) : sequenceLaw (invalidateAll s) := by
  simpa [sequenceLaw] using h
theorem sequenceLaw_recordOutcome (c : Byte) (r : Reply) (h : sequenceLaw s) : sequenceLaw (recordOutcome c r s) := by
  simpa [sequenceLaw] using h
theorem sequenceLaw_collide (h : sequenceLaw s) : sequenceLaw (collide s) := by
  simpa [sequenceLaw] using h
theorem sequenceLaw_finishWorking (r : Reply) (h : sequenceLaw s) : sequenceLaw (finishWorking r s) := by
  simpa [sequenceLaw] using h
theorem sequenceLaw_startPhase (ch : ChannelId) (h : sequenceLaw s) : sequenceLaw (startPhase ch s) := by
  simpa [sequenceLaw] using h
theorem sequenceLaw_enterArm (h : sequenceLaw s) : sequenceLaw (enterArm s) := by
  simpa [sequenceLaw] using h
theorem sequenceLaw_enterSettle (h : sequenceLaw s) : sequenceLaw (enterSettle s) := by
  simpa [sequenceLaw] using h
theorem sequenceLaw_startSample (h : sequenceLaw s) : sequenceLaw (startSample s) := by
  simpa [sequenceLaw] using h
theorem sequenceLaw_decideOffer (n : Nat) (ch : ChannelId) (h : sequenceLaw s) :
    sequenceLaw (decideOffer n ch s) := by
  simpa [sequenceLaw] using h
theorem sequenceLaw_retakeOffer (h : sequenceLaw s) : sequenceLaw (retakeOffer s) := by
  simpa [sequenceLaw] using h
theorem sequenceLaw_retake (h : sequenceLaw s) : sequenceLaw (retake s) := by
  simpa [sequenceLaw] using h
theorem sequenceLaw_jobStart (q : QueuedJob) (h : sequenceLaw s) : sequenceLaw (jobStart q s) := by
  simpa [sequenceLaw] using h
theorem sequenceLaw_arbitrate (h : sequenceLaw s) : sequenceLaw (arbitrate s) := by
  unfold arbitrate
  split
  · exact h
  · split
    · rename_i hr
      rcases reserve_spec s hr with ⟨_, rfl⟩ | ⟨_, _, rfl⟩
      · exact sequenceLaw_retake (sequenceLaw_jobStart _ h)
      · exact sequenceLaw_retake (sequenceLaw_jobStart _ (numbersLaw_drop 1 h))
    · split <;> exact h
theorem sequenceLaw_select (h : sequenceLaw s) : sequenceLaw (select s) := by
  unfold select
  try simp only []
  repeat' split
  all_goals with_reducible repeat (first | exact h | apply sequenceLaw_arbitrate)
theorem sequenceLaw_retry (h : sequenceLaw s) : sequenceLaw (retry s) := by
  unfold retry
  try simp only []
  repeat' split
  all_goals with_reducible repeat (first | exact h | apply sequenceLaw_arbitrate)
theorem sequenceLaw_applySwap (h : sequenceLaw s) : sequenceLaw (applySwap s) := by
  simpa [sequenceLaw] using h
theorem sequenceLaw_closePass (h : sequenceLaw s) : sequenceLaw (closePass s) := by
  simpa [sequenceLaw] using h
theorem sequenceLaw_passEnd (h : sequenceLaw s) : sequenceLaw (passEnd s) := by
  simpa [sequenceLaw] using h
theorem sequenceLaw_checkPassEnd (h : sequenceLaw s) : sequenceLaw (checkPassEnd s) := by
  simpa [sequenceLaw] using h
theorem sequenceLaw_offer (n : Nat) (ch : ChannelId) (h : sequenceLaw s) : sequenceLaw (offer n ch s) := by
  unfold offer
  try simp only []
  repeat' split
  all_goals with_reducible repeat (first | exact h | apply sequenceLaw_decideOffer | apply sequenceLaw_select)
theorem sequenceLaw_moveOnto (n : Nat) (h : sequenceLaw s) : sequenceLaw (moveOnto n s) := by
  unfold moveOnto
  try simp only []
  repeat' split
  all_goals with_reducible repeat (first | exact h | apply sequenceLaw_withScan | apply sequenceLaw_checkPassEnd | apply sequenceLaw_offer)
theorem sequenceLaw_cursorMove (h : sequenceLaw s) : sequenceLaw (cursorMove s) := by
  unfold cursorMove
  try simp only []
  repeat' split
  all_goals with_reducible repeat (first | exact h | apply sequenceLaw_moveOnto)
theorem sequenceLaw_passStart (h : sequenceLaw s) : sequenceLaw (passStart s) := by
  unfold passStart
  try simp only []
  repeat' split
  all_goals with_reducible repeat (first | exact h | apply sequenceLaw_withScan | apply sequenceLaw_moveOnto)
theorem sequenceLaw_overrun (h : sequenceLaw s) : sequenceLaw (overrun s) := by
  simpa [sequenceLaw] using h
theorem sequenceLaw_passDue (h : sequenceLaw s) : sequenceLaw (passDue s) := by
  unfold passDue
  try simp only []
  repeat' split
  all_goals with_reducible repeat (first | exact h | apply sequenceLaw_passStart | apply sequenceLaw_overrun)
theorem sequenceLaw_expiry (h : sequenceLaw s) : sequenceLaw (expiry s) := by
  unfold expiry
  try simp only []
  repeat' split
  all_goals with_reducible repeat (first | exact h | apply sequenceLaw_withScan | apply sequenceLaw_passDue)
theorem sequenceLaw_timerTick (h : sequenceLaw s) : sequenceLaw (timerTick s) := by
  unfold timerTick
  try simp only []
  repeat' split
  all_goals with_reducible repeat (first | exact h | apply sequenceLaw_withScan | apply sequenceLaw_expiry)
theorem sequenceLaw_qualifiedEdge (l : Bool) (h : sequenceLaw s) : sequenceLaw (qualifiedEdge l s) := by
  unfold qualifiedEdge
  try simp only []
  repeat' split
  all_goals with_reducible repeat (first | exact h | apply sequenceLaw_withScan | apply sequenceLaw_passDue)
theorem sequenceLaw_trigSample (h : sequenceLaw s) : sequenceLaw (trigSample s) := by
  unfold trigSample
  try simp only []
  repeat' split
  all_goals with_reducible repeat (first | exact h | apply sequenceLaw_withScan | apply sequenceLaw_qualifiedEdge)
theorem sequenceLaw_dropJobs (p : QueuedJob → Bool) (h : sequenceLaw s) : sequenceLaw (dropJobs p s) := by
  simpa [sequenceLaw] using h
theorem sequenceLaw_clearStallIfEmpty (h : sequenceLaw s) : sequenceLaw (clearStallIfEmpty s) := by
  simpa [sequenceLaw] using h
theorem sequenceLaw_removeJobs (p : QueuedJob → Bool) (h : sequenceLaw s) : sequenceLaw (removeJobs p s).1 := by
  simpa [sequenceLaw] using h
theorem sequenceLaw_completeStop (h : sequenceLaw s) : sequenceLaw (completeStop s) := by
  simpa [sequenceLaw] using h
theorem sequenceLaw_countOut (h : sequenceLaw s) : sequenceLaw (countOut s) := by
  simpa [sequenceLaw] using h
theorem sequenceLaw_relink (ch : ChannelId) (a b : Descriptor) (h : sequenceLaw s) :
    sequenceLaw (relink ch a b s) := by
  simpa [sequenceLaw] using h
theorem sequenceLaw_removeAlert (ch : ChannelId) (h : sequenceLaw s) : sequenceLaw (removeAlert ch s) := by
  simpa [sequenceLaw] using h
theorem sequenceLaw_withdrawOffer (ch : ChannelId) (h : sequenceLaw s) : sequenceLaw (withdrawOffer ch s) := by
  simpa [sequenceLaw] using h
theorem sequenceLaw_applyCommit (ch : ChannelId) (im : Image) (h : sequenceLaw s) :
    sequenceLaw (applyCommit ch im s).1 := by
  simpa [sequenceLaw] using h
theorem sequenceLaw_decideCommit (ch : ChannelId) (im : Image) (h : sequenceLaw s) :
    sequenceLaw (decideCommit ch im s).1 := by
  simpa [sequenceLaw] using h
theorem sequenceLaw_decideDeferred (h : sequenceLaw s) : sequenceLaw (decideDeferred s) := by
  simpa [sequenceLaw] using h
theorem sequenceLaw_referenceShare (a : Completion) (h : sequenceLaw s) : sequenceLaw (referenceShare a s) := by
  simpa [sequenceLaw] using h
theorem sequenceLaw_zoneShare (a : Completion) (h : sequenceLaw s) : sequenceLaw (zoneShare a s) := by
  simpa [sequenceLaw] using h
theorem sequenceLaw_fifoShare (a : Completion) (z : Zone) (c : Bool) (p : ReportPolicy) (h : sequenceLaw s) :
    sequenceLaw (fifoShare a z c p s) := by
  unfold fifoShare
  simp only []
  split
  · split <;> exact numbersLaw_append rfl h
  · exact h
theorem sequenceLaw_lastStatusShare (a : Completion) (h : sequenceLaw s) : sequenceLaw (lastStatusShare a s) := by
  simpa [sequenceLaw] using h
theorem sequenceLaw_quietSequencer (j : InFlight) (st : JobStatus) (h : sequenceLaw s) :
    sequenceLaw (quietSequencer j st s) := by
  simpa [sequenceLaw] using h
theorem sequenceLaw_announceTo (a : Completion) (h : sequenceLaw s) : sequenceLaw (announceTo a s) := by
  unfold announceTo
  try simp only []
  repeat' split
  all_goals with_reducible repeat (first | exact h | apply sequenceLaw_countOut | apply sequenceLaw_decideDeferred | apply sequenceLaw_referenceShare | apply sequenceLaw_zoneShare | apply sequenceLaw_fifoShare | apply sequenceLaw_lastStatusShare)
theorem sequenceLaw_offerSequencer (h : sequenceLaw s) : sequenceLaw (offerSequencer s) := by
  unfold offerSequencer
  try simp only []
  repeat' split
  all_goals with_reducible repeat (first | exact h | apply sequenceLaw_withQueue | apply sequenceLaw_select)
theorem sequenceLaw_jobEnd (st : JobStatus) (h : sequenceLaw s) : sequenceLaw (jobEnd st s) := by
  unfold jobEnd
  try simp only []
  repeat' split
  all_goals with_reducible repeat (first | exact h | apply sequenceLaw_quietSequencer | apply sequenceLaw_announceTo | apply sequenceLaw_offerSequencer)
theorem sequenceLaw_abortJob (h : sequenceLaw s) : sequenceLaw (abortJob s).1 := by
  unfold abortJob
  try simp only []
  repeat' split
  all_goals with_reducible repeat (first | exact h | apply sequenceLaw_jobEnd)
theorem sequenceLaw_phaseEnd (pe : PhaseEnd) (h : sequenceLaw s) : sequenceLaw (phaseEnd pe s) := by
  unfold phaseEnd
  try simp only []
  repeat' split
  all_goals with_reducible repeat (first | exact h | apply sequenceLaw_withSeq | apply sequenceLaw_onChannel | apply sequenceLaw_onSlot | apply sequenceLaw_startPhase | apply sequenceLaw_jobEnd)
theorem sequenceLaw_sampleComplete (h : sequenceLaw s) : sequenceLaw (sampleComplete s) := by
  unfold sampleComplete
  try simp only []
  repeat' split
  all_goals with_reducible repeat (first | exact h | apply sequenceLaw_withSeq | apply sequenceLaw_enterArm | apply sequenceLaw_phaseEnd)
theorem sequenceLaw_overflowed (h : sequenceLaw s) : sequenceLaw (overflowed s) := by
  unfold overflowed
  try simp only []
  repeat' split
  all_goals with_reducible repeat (first | exact h | apply sequenceLaw_withSeq | apply sequenceLaw_runRequest | apply sequenceLaw_enterArm | apply sequenceLaw_phaseEnd)
theorem sequenceLaw_sequencerTb (h : sequenceLaw s) : sequenceLaw (sequencerTb s) := by
  unfold sequencerTb
  try simp only []
  repeat' split
  all_goals with_reducible repeat (first | exact h | apply sequenceLaw_withSeq | apply sequenceLaw_enterSettle | apply sequenceLaw_phaseEnd | apply sequenceLaw_sampleComplete | apply sequenceLaw_overflowed)
theorem sequenceLaw_sequencerSlow (h : sequenceLaw s) : sequenceLaw (sequencerSlow s) := by
  simpa [sequenceLaw] using h
theorem sequenceLaw_sequencerEdge (h : sequenceLaw s) : sequenceLaw (sequencerEdge s) := by
  unfold sequencerEdge
  try simp only []
  repeat' split
  all_goals with_reducible repeat (first | exact h | apply sequenceLaw_withSeq | apply sequenceLaw_startSample | apply sequenceLaw_sampleComplete | apply sequenceLaw_overflowed)
theorem sequenceLaw_deliverEdge (c : Bool) (h : sequenceLaw s) : sequenceLaw (deliverEdge c s) := by
  unfold deliverEdge
  try simp only []
  repeat' split
  all_goals with_reducible repeat (first | exact h | apply sequenceLaw_withFreeIndex | apply sequenceLaw_sequencerEdge)
theorem sequenceLaw_oscillatorEdge (c : Bool) (h : sequenceLaw s) : sequenceLaw (oscillatorEdge c s) := by
  rw [oscillatorEdge_spec]
  try simp only []
  repeat' split
  all_goals with_reducible repeat (first | exact h | apply sequenceLaw_withFrontEnd | apply sequenceLaw_deliverEdge)
theorem sequenceLaw_nodeMoves (h : sequenceLaw s) : sequenceLaw (nodeMoves s) := by
  simpa [sequenceLaw] using h
theorem sequenceLaw_stampTick (h : sequenceLaw s) : sequenceLaw (stampTick s) := by
  unfold stampTick
  try simp only []
  repeat' split
  all_goals with_reducible repeat (first | exact h | apply sequenceLaw_withTimebase)
theorem sequenceLaw_ageTick (h : sequenceLaw s) : sequenceLaw (ageTick s) := by
  unfold ageTick
  try simp only []
  repeat' split
  all_goals with_reducible repeat (first | exact h | apply sequenceLaw_withRefs)
theorem sequenceLaw_scanSlow (h : sequenceLaw s) : sequenceLaw (scanSlow s) := by
  unfold scanSlow
  try simp only []
  repeat' split
  all_goals with_reducible repeat (first | exact h | apply sequenceLaw_timerTick | apply sequenceLaw_trigSample)
theorem sequenceLaw_slowShare (h : sequenceLaw s) : sequenceLaw (slowShare s) := 
  eitherOrder_ind (fun _ n h => sequenceLaw_withFreeIndex n h) (sequenceLaw_scanSlow (sequenceLaw_ageTick (sequenceLaw_stampTick h)))
    (sequenceLaw_ageTick (sequenceLaw_scanSlow (sequenceLaw_stampTick h)))
theorem sequenceLaw_sequencerShare (b : SeqState) (w : Bool) (h : sequenceLaw s) :
    sequenceLaw (sequencerShare b w s) := by
  unfold sequencerShare
  try simp only []
  repeat' split
  all_goals with_reducible repeat (first | exact h | apply sequenceLaw_sequencerTb | apply sequenceLaw_sequencerSlow)
theorem sequenceLaw_cursorShare (b : Cursor) (h : sequenceLaw s) : sequenceLaw (cursorShare b s) := by
  unfold cursorShare
  try simp only []
  repeat' split
  all_goals with_reducible repeat (first | exact h | apply sequenceLaw_cursorMove)
theorem sequenceLaw_tbTick (l : Bool) (h : sequenceLaw s) : sequenceLaw (tbTick l s) := by
  unfold tbTick
  split
  · exact anyOrder_ind (fun _ n h => sequenceLaw_withFreeIndex n h) (fun _ h => sequenceLaw_sequencerShare _ _ h)
      (fun _ h => sequenceLaw_cursorShare _ h) (fun _ h => by split; exacts [sequenceLaw_slowShare h, h])
      (sequenceLaw_withPins _ (sequenceLaw_withTimebase _ h))
  · exact h
theorem sequenceLaw_slowTick (l : Bool) (h : sequenceLaw s) : sequenceLaw (slowTick l s) := by
  unfold slowTick
  try simp only []
  repeat' split
  all_goals with_reducible repeat (first | exact h | apply sequenceLaw_withTimebase | apply sequenceLaw_withPins | apply sequenceLaw_sequencerSlow | apply sequenceLaw_slowShare)
theorem sequenceLaw_refuse (r : Reason) (h : sequenceLaw s) : sequenceLaw (refuse r s).1 := h
theorem sequenceLaw_admitDirect (ch : ChannelId) (h : sequenceLaw s) : sequenceLaw (admitDirect ch s).1 := by
  unfold admitDirect
  try simp only []
  repeat' split
  all_goals with_reducible repeat (first | exact h | apply sequenceLaw_withQueue | apply sequenceLaw_select | apply sequenceLaw_refuse)
theorem sequenceLaw_measureNow (h : sequenceLaw s) : sequenceLaw (measureNow s).1 := by
  unfold measureNow
  try simp only []
  repeat' split
  all_goals with_reducible repeat (first | exact h | apply sequenceLaw_refuse | apply sequenceLaw_admitDirect)
theorem sequenceLaw_flushQueue (h : sequenceLaw s) : sequenceLaw (flushQueue s).1 := by
  unfold flushQueue
  try simp only []
  repeat' split
  all_goals with_reducible repeat (first | exact h | apply sequenceLaw_removeJobs | apply sequenceLaw_refuse)
theorem sequenceLaw_scanStart (h : sequenceLaw s) : sequenceLaw (scanStart s).1 := by
  unfold scanStart
  try simp only []
  repeat' split
  all_goals with_reducible repeat (first | exact h | apply sequenceLaw_withScan | apply sequenceLaw_passStart | apply sequenceLaw_refuse)
theorem sequenceLaw_scanOnce (h : sequenceLaw s) : sequenceLaw (scanOnce s).1 := by
  unfold scanOnce
  try simp only []
  repeat' split
  all_goals with_reducible repeat (first | exact h | apply sequenceLaw_withScan | apply sequenceLaw_passStart | apply sequenceLaw_refuse)
theorem sequenceLaw_scanStop (h : sequenceLaw s) : sequenceLaw (scanStop s).1 := by
  unfold scanStop
  try simp only []
  repeat' split
  all_goals with_reducible repeat (first | exact h | apply sequenceLaw_withScan | apply sequenceLaw_applySwap | apply sequenceLaw_removeJobs)
theorem sequenceLaw_swapBanks (h : sequenceLaw s) : sequenceLaw (swapBanks s).1 := by
  unfold swapBanks
  try simp only []
  repeat' split
  all_goals with_reducible repeat (first | exact h | apply sequenceLaw_withScan | apply sequenceLaw_refuse)
theorem sequenceLaw_commitChannel (h : sequenceLaw s) : sequenceLaw (commitChannel s).1 := by
  unfold commitChannel
  try simp only []
  repeat' split
  all_goals with_reducible repeat (first | exact h | apply sequenceLaw_withDeferred | apply sequenceLaw_decideCommit | apply sequenceLaw_refuse)
theorem sequenceLaw_fetchChannel (h : sequenceLaw s) : sequenceLaw (fetchChannel s).1 := by
  unfold fetchChannel
  try simp only []
  repeat' split
  all_goals with_reducible repeat (first | exact h | apply sequenceLaw_withStaging | apply sequenceLaw_refuse)
theorem sequenceLaw_invalidateReference (h : sequenceLaw s) : sequenceLaw (invalidateReference s).1 := by
  unfold invalidateReference
  try simp only []
  repeat' split
  all_goals with_reducible repeat (first | exact h | apply sequenceLaw_onSlot | apply sequenceLaw_invalidateAll | apply sequenceLaw_refuse)
theorem sequenceLaw_clearZone (h : sequenceLaw s) : sequenceLaw (clearZone s).1 := by
  unfold clearZone
  try simp only []
  repeat' split
  all_goals with_reducible repeat (first | exact h | apply sequenceLaw_withChannels | apply sequenceLaw_withAlerts | apply sequenceLaw_onChannel | apply sequenceLaw_removeAlert | apply sequenceLaw_refuse)
theorem sequenceLaw_clearAlerts (h : sequenceLaw s) : sequenceLaw (clearAlerts s).1 := by
  unfold clearAlerts
  try simp only []
  repeat' split
  all_goals with_reducible repeat (first | exact h | apply sequenceLaw_withAlerts)
theorem sequenceLaw_clearResults (h : sequenceLaw s) : sequenceLaw (clearResults s).1 := sequenceLaw_retry (fun i hi => absurd hi (Nat.not_lt_zero i))
theorem sequenceLaw_setTimebase (h : sequenceLaw s) : sequenceLaw (setTimebase s).1 := by
  unfold setTimebase
  try simp only []
  repeat' split
  all_goals with_reducible repeat (first | exact h | apply sequenceLaw_withTimebase | apply sequenceLaw_invalidateAll | apply sequenceLaw_refuse)
theorem sequenceLaw_sleep (h : sequenceLaw s) : sequenceLaw (sleep s).1 := by
  unfold sleep
  try simp only []
  repeat' split
  all_goals with_reducible repeat (first | exact h | apply sequenceLaw_withFrontEnd | apply sequenceLaw_withTimebase | apply sequenceLaw_invalidateAll | apply sequenceLaw_refuse)
theorem sequenceLaw_wake (h : sequenceLaw s) : sequenceLaw (wake s).1 := by
  unfold wake
  try simp only []
  repeat' split
  all_goals with_reducible repeat (first | exact h | apply sequenceLaw_withFrontEnd | apply sequenceLaw_withTimebase)
theorem sequenceLaw_unknownCommand (h : sequenceLaw s) : sequenceLaw (unknownCommand s).1 := by
  unfold unknownCommand
  try simp only []
  repeat' split
  all_goals with_reducible repeat (first | exact h | apply sequenceLaw_refuse)
theorem sequenceLaw_quietEngine (h : sequenceLaw s) : sequenceLaw (quietEngine s) := sequenceLaw_of_fifo (s := .reset) (by simp [quietEngine]; rfl) (by simp [quietEngine]; rfl)
    (fun i hi => absurd hi (Nat.not_lt_zero i))
theorem sequenceLaw_engineReset (h : sequenceLaw s) : sequenceLaw (engineReset s) := by
  unfold engineReset
  try simp only []
  repeat' split
  all_goals with_reducible repeat (first | exact h | apply sequenceLaw_raise | apply sequenceLaw_recordOutcome | apply sequenceLaw_quietEngine)
theorem sequenceLaw_powerOn (h : sequenceLaw s) : sequenceLaw (powerOn s) := fun i hi => absurd hi (Nat.not_lt_zero i)
theorem sequenceLaw_endReset (l : Bool) (h : sequenceLaw s) : sequenceLaw (endReset l s) := by
  unfold endReset
  try simp only []
  repeat' split
  all_goals with_reducible repeat (first | exact h | apply sequenceLaw_withInReset | apply sequenceLaw_withFrontEnd | apply sequenceLaw_withPort | apply sequenceLaw_withPins)
theorem sequenceLaw_takeResult (h : sequenceLaw s) : sequenceLaw (takeResult s) := by
  unfold takeResult
  split
  · exact h
  · rename_i r rest hr
    have := numbersLaw_drop 1 h
    rw [hr] at this
    exact this
theorem sequenceLaw_popResult (h : sequenceLaw s) : sequenceLaw (popResult s) := by
  unfold popResult
  try simp only []
  repeat' split
  all_goals with_reducible repeat (first | exact h | apply sequenceLaw_retry | apply sequenceLaw_takeResult)
theorem sequenceLaw_popAlert (h : sequenceLaw s) : sequenceLaw (popAlert s) := by
  unfold popAlert
  try simp only []
  repeat' split
  all_goals with_reducible repeat (first | exact h | apply sequenceLaw_withAlerts)
theorem sequenceLaw_readAction (a : Byte) (h : sequenceLaw s) : sequenceLaw (readAction a s) := by
  unfold readAction
  try simp only []
  repeat' split
  all_goals with_reducible repeat (first | exact h | apply sequenceLaw_popResult | apply sequenceLaw_popAlert)
theorem sequenceLaw_advancePointer (h : sequenceLaw s) : sequenceLaw (advancePointer s) := by
  unfold advancePointer
  try simp only []
  repeat' split
  all_goals with_reducible repeat (first | exact h | apply sequenceLaw_withPort)
theorem sequenceLaw_busStart (a : Byte) (h : sequenceLaw s) : sequenceLaw (busStart a s) := by
  unfold busStart
  try simp only []
  repeat' split
  all_goals with_reducible repeat (first | exact h | apply sequenceLaw_withPort)
theorem sequenceLaw_openWrite (h : sequenceLaw s) : sequenceLaw (openWrite s) := by
  unfold openWrite
  try simp only []
  repeat' split
  all_goals with_reducible repeat (first | exact h | apply sequenceLaw_busStart)
theorem sequenceLaw_copySnapshot (h : sequenceLaw s) : sequenceLaw (copySnapshot s) := by
  unfold copySnapshot
  try simp only []
  repeat' split
  all_goals with_reducible repeat (first | exact h | apply sequenceLaw_busStart)
theorem sequenceLaw_sendByte (a : State → State) (h : sequenceLaw s) (ha : sequenceLaw (a s)) :
    sequenceLaw (sendByte a s) := sequenceLaw_advancePointer (sequenceLaw_withPort _ ha)
theorem sequenceLaw_windowRead (a : Byte) (e : State → State) (h : sequenceLaw s) (he : ∀ t, sequenceLaw t → sequenceLaw (e t)) :
    sequenceLaw (windowRead a e s) := by
  unfold windowRead
  split
  · exact h
  · split
    · refine sequenceLaw_sendByte _ h ?_
      split
      · exact he _ h
      · exact sequenceLaw_readAction _ h
    all_goals exact h
theorem sequenceLaw_issue (c : Byte) (f : State → State × Reply) (h : sequenceLaw s) (hf : sequenceLaw (f s).1) :
    sequenceLaw (issue c f s) := by
  unfold issue
  split
  · exact sequenceLaw_collide h
  · exact sequenceLaw_recordOutcome _ _ hf
theorem sequenceLaw_issueAbort (h : sequenceLaw s) : sequenceLaw (issueAbort s) := by
  unfold issueAbort
  try simp only []
  repeat' split
  all_goals with_reducible repeat (first | exact h | apply sequenceLaw_recordOutcome | apply sequenceLaw_abortJob)
theorem sequenceLaw_issueCode (c : Byte) (h : sequenceLaw s) : sequenceLaw (issueCode c s) := by
  unfold issueCode
  refine iteInduction (fun _ => ?_) (fun _ => ?_)
  · exact sequenceLaw_issue _ _ h (sequenceLaw_measureNow h)
  refine iteInduction (fun _ => ?_) (fun _ => ?_)
  · exact sequenceLaw_issueAbort h
  refine iteInduction (fun _ => ?_) (fun _ => ?_)
  · exact sequenceLaw_issue _ _ h (sequenceLaw_flushQueue h)
  refine iteInduction (fun _ => ?_) (fun _ => ?_)
  · exact sequenceLaw_issue _ _ h (sequenceLaw_scanStart h)
  refine iteInduction (fun _ => ?_) (fun _ => ?_)
  · exact sequenceLaw_issue _ _ h (sequenceLaw_scanStop h)
  refine iteInduction (fun _ => ?_) (fun _ => ?_)
  · exact sequenceLaw_issue _ _ h (sequenceLaw_scanOnce h)
  refine iteInduction (fun _ => ?_) (fun _ => ?_)
  · exact sequenceLaw_issue _ _ h (sequenceLaw_swapBanks h)
  refine iteInduction (fun _ => ?_) (fun _ => ?_)
  · exact sequenceLaw_issue _ _ h (sequenceLaw_commitChannel h)
  refine iteInduction (fun _ => ?_) (fun _ => ?_)
  · exact sequenceLaw_issue _ _ h (sequenceLaw_fetchChannel h)
  refine iteInduction (fun _ => ?_) (fun _ => ?_)
  · exact sequenceLaw_issue _ _ h (sequenceLaw_invalidateReference h)
  refine iteInduction (fun _ => ?_) (fun _ => ?_)
  · exact sequenceLaw_issue _ _ h (sequenceLaw_clearZone h)
  refine iteInduction (fun _ => ?_) (fun _ => ?_)
  · exact sequenceLaw_issue _ _ h (sequenceLaw_clearAlerts h)
  refine iteInduction (fun _ => ?_) (fun _ => ?_)
  · exact sequenceLaw_issue _ _ h (sequenceLaw_clearResults h)
  refine iteInduction (fun _ => ?_) (fun _ => ?_)
  · exact sequenceLaw_issue _ _ h (sequenceLaw_setTimebase h)
  refine iteInduction (fun _ => ?_) (fun _ => ?_)
  · exact sequenceLaw_issue _ _ h (sequenceLaw_sleep h)
  refine iteInduction (fun _ => ?_) (fun _ => ?_)
  · exact sequenceLaw_issue _ _ h (sequenceLaw_wake h)
  refine iteInduction (fun _ => ?_) (fun _ => ?_)
  · exact sequenceLaw_engineReset h
  exact sequenceLaw_issue _ _ h (sequenceLaw_unknownCommand h)
theorem sequenceLaw_clearFlags (v : Byte) (h : sequenceLaw s) : sequenceLaw (clearFlags v s) := by
  unfold clearFlags
  try simp only []
  repeat' split
  all_goals with_reducible repeat (first | exact h | apply sequenceLaw_withEvents)
theorem sequenceLaw_writeEnables (v : Byte) (h : sequenceLaw s) : sequenceLaw (writeEnables v s) := by
  unfold writeEnables
  try simp only []
  repeat' split
  all_goals with_reducible repeat (first | exact h | apply sequenceLaw_withEvents)
theorem sequenceLaw_writeBank (a v : Byte) (h : sequenceLaw s) : sequenceLaw (writeBank a v s) := by
  unfold writeBank
  try simp only []
  repeat' split
  all_goals with_reducible repeat (first | exact h | apply sequenceLaw_withScan)
theorem sequenceLaw_writeOverrun (v : Byte) (h : sequenceLaw s) : sequenceLaw (writeOverrun v s) := by
  unfold writeOverrun
  try simp only []
  repeat' split
  all_goals with_reducible repeat (first | exact h | apply sequenceLaw_withScan | apply sequenceLaw_overrun)
theorem sequenceLaw_writePolicy (v : Byte) (h : sequenceLaw s) : sequenceLaw (writePolicy v s) := sequenceLaw_retry h
theorem sequenceLaw_writePeriodLow (v : Byte) (h : sequenceLaw s) : sequenceLaw (writePeriodLow v s) := by
  unfold writePeriodLow
  try simp only []
  repeat' split
  all_goals with_reducible repeat (first | exact h | apply sequenceLaw_withScan)
theorem sequenceLaw_writePeriodHigh (v : Byte) (h : sequenceLaw s) : sequenceLaw (writePeriodHigh v s) := by
  unfold writePeriodHigh
  try simp only []
  repeat' split
  all_goals with_reducible repeat (first | exact h | apply sequenceLaw_withScan)
theorem sequenceLaw_writePlain (a v : Byte) (h : sequenceLaw s) : sequenceLaw (writePlain a v s) := by
  unfold writePlain
  simp only []
  repeat' refine iteInduction (fun _ => ?_) (fun _ => ?_)
  all_goals first | exact h | exact sequenceLaw_writePeriodLow _ h | exact sequenceLaw_writePeriodHigh _ h
theorem sequenceLaw_registerWrite (a v : Byte) (h : sequenceLaw s) : sequenceLaw (registerWrite a v s) := by
  unfold registerWrite
  try simp only []
  repeat' split
  all_goals with_reducible repeat (first | exact h | apply sequenceLaw_issueCode | apply sequenceLaw_clearFlags | apply sequenceLaw_writeEnables | apply sequenceLaw_writeBank | apply sequenceLaw_writeOverrun | apply sequenceLaw_writePolicy | apply sequenceLaw_writePlain)
theorem sequenceLaw_takeByte (v : Byte) (e : State → State) (h : sequenceLaw s) (he : ∀ t, sequenceLaw t → sequenceLaw (e t)) :
    sequenceLaw (takeByte v e s) := by
  unfold takeByte
  split
  · exact h
  · split
    · exact sequenceLaw_withPort _ h
    · exact he _ (sequenceLaw_advancePointer h)
    all_goals exact h
theorem sequenceLaw_dataByte (a v : Byte) (e : State → State) (h : sequenceLaw s) (he : ∀ t, sequenceLaw t → sequenceLaw (e t)) :
    sequenceLaw (dataByte a v e s) := 
  sequenceLaw_takeByte _ _ h (fun t ht => by split; exacts [he t ht, sequenceLaw_registerWrite _ _ ht])
theorem sequenceLaw_loadPointer (v : Byte) (h : sequenceLaw s) : sequenceLaw (loadPointer v s) := sequenceLaw_takeByte _ _ h (fun _ ht => sequenceLaw_registerWrite _ _ ht)

end Sys2Proof.Machine
end

