-- ==== Sys2Proof/Laws/SlotLaw.lean ====
section
/-! SUPPORT. What keeps the law of the slots (R68, R71). -/

namespace Sys2Proof.Machine

set_option linter.unusedTactic false
set_option linter.unreachableTactic false

variable {s : State}

/-- Slots changed in nothing that the law speaks of. -/
def slotsAlike (v w : Vector RefSlot 4) : Prop :=
  ∀ i : Fin 4, w[i.val].owner = v[i.val].owner ∧ w[i.val].users = v[i.val].users ∧ (v[i.val] = .free → w[i.val] = .free)

theorem slotLaw_of {t : State} (hr : slotsAlike s.refs t.refs)
    (hc : ∀ ch : ChannelId, t.channels[ch.val].desc = s.channels[ch.val].desc) (h : slotLaw s) : slotLaw t := by
  obtain ⟨h1, h2, h3, h4, h5⟩ := h
  have hn : ∀ r, namersOf r t = namersOf r s := by
    intro r
    unfold namersOf
    simp only [hc]
  refine ⟨fun i hi => (hr i).2.2 (h1 i (by rw [← (hr i).1]; exact hi)), fun i j r hi hj => ?_, fun r => ?_, fun i r hi => ?_, fun ch hch => ?_⟩
  · rw [(hr i).1] at hi
    rw [(hr j).1] at hj
    exact h2 i j r hi hj
  · rw [hc, h3 r]
    constructor
    · rintro ⟨i, hi⟩; exact ⟨i, by rw [(hr i).1]; exact hi⟩
    · rintro ⟨i, hi⟩; exact ⟨i, by rw [← (hr i).1]; exact hi⟩
  · rw [(hr i).1] at hi
    rw [(hr i).2.1, hn]
    exact h4 i r hi
  · rw [hc] at hch
    have := h5 ch hch
    simp only [hc] at this ⊢
    exact this

theorem slotLaw_keep {t : State} (hr : t.refs = s.refs)
    (hc : ∀ ch : ChannelId, t.channels[ch.val].desc = s.channels[ch.val].desc) (h : slotLaw s) : slotLaw t :=
  slotLaw_of (by intro i; rw [hr]; exact ⟨rfl, rfl, fun h => h⟩) hc h

theorem slotsAlike_map {f : RefSlot → RefSlot} (hf : ∀ sl, (f sl).owner = sl.owner ∧ (f sl).users = sl.users)
    (hz : f .free = .free) (v : Vector RefSlot 4) : slotsAlike v (mapTable f v) := by
  intro i
  simp only [mapTable_get]
  exact ⟨(hf _).1, (hf _).2, fun h => by rw [h, hz]⟩

/-- A change of an owned slot that keeps its owner and its users. -/
theorem slotLaw_onSlot' {ch : ChannelId} {f : RefSlot → RefSlot}
    (hf : ∀ sl, (f sl).owner = sl.owner ∧ (f sl).users = sl.users) (h : slotLaw s) : slotLaw (onSlot ch f s) := by
  refine slotLaw_of (s := s) (slotsAlike_map (f := fun sl => if sl.owner = some ch then f sl else sl) ?_ ?_ _) (fun _ => by simp) h
  · intro sl
    split
    · exact hf sl
    · exact ⟨rfl, rfl⟩
  · rfl

theorem onSlot_get (r : ChannelId) (f : RefSlot → RefSlot) (i : Fin 4) :
    (onSlot r f s).refs[i.val] = if s.refs[i.val].owner = some r then f s.refs[i.val] else s.refs[i.val] := by
  simp [onSlot]

/-- A slot that a channel owns is the one the table finds. -/
theorem slotOf_spec (ch : ChannelId) (s : State) :
    (slotOf ch s = none ∧ ∀ i : Fin 4, s.refs[i.val].owner ≠ some ch) ∨
      ∃ i : Fin 4, slotOf ch s = some s.refs[i.val] ∧ s.refs[i.val].owner = some ch := by
  unfold slotOf
  cases hf : s.refs.toList.find? (fun sl => sl.owner == some ch) with
  | none =>
    left
    refine ⟨rfl, fun i hi => ?_⟩
    have := List.find?_eq_none.mp hf s.refs[i.val] (by simp)
    simp [hi] at this
  | some sl =>
    right
    have hm := List.mem_of_find?_eq_some hf
    have hp := List.find?_some hf
    obtain ⟨i, hi, he⟩ := List.getElem_of_mem hm
    refine ⟨⟨i, by simpa using hi⟩, ?_, ?_⟩
    · rw [← he]; simp
    · rw [← he] at hp; simpa using hp

/-- One predicate of two that differ at one element at most, counted over a list without repetition. -/
theorem countP_change {α : Type} [DecidableEq α] {p q : α → Bool} {x : α} {l : List α} (hl : l.Nodup) (hx : x ∈ l)
    (hpq : ∀ y, y ≠ x → p y = q y) : l.countP p + (if q x then 1 else 0) = l.countP q + (if p x then 1 else 0) := by
  induction l with
  | nil => cases hx
  | cons a l ih =>
    simp only [List.countP_cons]
    rw [List.nodup_cons] at hl
    by_cases ha : a = x
    · subst ha
      have : l.countP p = l.countP q := by
        apply List.countP_congr
        intro y hy
        rw [hpq y (fun h => hl.1 (h ▸ hy))]
      omega
    · have hx' : x ∈ l := by
        rcases List.mem_cons.mp hx with h | h
        · exact absurd h.symm ha
        · exact h
      have := ih hl.2 hx'
      rw [hpq a ha]
      omega

/-- R29: what an image that passes every check satisfies. -/
theorem validate_none {ch : ChannelId} {im : Image} (hv : validate ch im s = none) :
    (im.descriptor.role = .ratio → im.descriptor.refChannel ≠ ch ∧
      s.channels[im.descriptor.refChannel.val].desc.role = .reference ∧
      s.channels[im.descriptor.refChannel.val].desc.enabled = true ∧
      s.channels[im.descriptor.refChannel.val].desc.method = im.descriptor.method) ∧
    (im.descriptor.role = .reference → slotOf ch s = none → someSlotFree s = true) ∧
    (0 < usersOf ch s → im.descriptor.role = .reference ∧ im.descriptor.method = s.channels[ch.val].desc.method ∧
      im.descriptor.enabled = true) := by
  unfold validate at hv
  simp only [] at hv
  split at hv
  · cases hv
  · split at hv
    · cases hv
    rename_i h2
    split at hv
    · cases hv
    split at hv
    · cases hv
    rename_i h4
    split at hv
    · cases hv
    rename_i h5
    split at hv
    · cases hv
    rename_i h6
    split at hv
    · cases hv
    rename_i h7
    split at hv
    · cases hv
    rename_i h8
    refine ⟨fun hr => ?_, fun hr hs => ?_, fun hu => ?_⟩
    · have hlt : im.refChannel.toNat < 16 := by
        by_contra hc
        exact h2 ⟨hr, by omega⟩
      have hroleraw : Role.ofCode im.role = .ratio := hr
      have href : im.descriptor.refChannel = ⟨im.refChannel.toNat, hlt⟩ := by
        unfold Image.descriptor
        simp only [hroleraw, if_true]
        ext
        simp [Nat.mod_eq_of_lt hlt]
      have hnamed : namedDescriptor im.refChannel s = s.channels[im.descriptor.refChannel.val].desc := by
        unfold namedDescriptor
        rw [channelOf_some (ch := ⟨im.refChannel.toNat, hlt⟩) rfl]
        simp only [href]
      rw [hnamed] at h5 h6
      refine ⟨fun he => h4 ⟨hr, by rw [← he, href]⟩, ?_, ?_, ?_⟩
      · by_contra hc
        exact h5 ⟨hr, fun hx => hc hx.1⟩
      · by_contra hc
        exact h5 ⟨hr, fun hx => hc hx.2⟩
      · by_contra hc
        exact h6 ⟨hr, hc⟩
    · by_contra hc
      exact h7 ⟨hr, hs, by simpa using hc⟩
    · by_contra hc
      exact h8 ⟨hu, fun hx => hc ⟨hx.1, hx.2.1, hx.2.2⟩⟩

/-- R71: the namers of a reference after one channel's descriptor is replaced. -/
theorem namersOf_set {ch r : ChannelId} {t : State} {d : Descriptor} (hself : t.channels[ch.val].desc = d)
    (hother : ∀ c : ChannelId, c ≠ ch → t.channels[c.val].desc = s.channels[c.val].desc) :
    namersOf r t + (if s.channels[ch.val].desc.role == .ratio && s.channels[ch.val].desc.refChannel == r then 1 else 0) =
      namersOf r s + (if d.role == .ratio && d.refChannel == r then 1 else 0) := by
  have := countP_change (p := fun c : ChannelId => t.channels[c.val].desc.role == .ratio && t.channels[c.val].desc.refChannel == r)
    (q := fun c : ChannelId => s.channels[c.val].desc.role == .ratio && s.channels[c.val].desc.refChannel == r)
    (List.nodup_finRange 16) (List.mem_finRange ch) (fun y hy => by rw [hother y hy])
  unfold namersOf
  rw [hself] at this
  exact this

theorem allocateSlot_spec (ch : ChannelId) (v : Vector RefSlot 4) (hfree : ∃ i : Fin 4, v[i.val].owner = none) :
    ∃ k : Fin 4, v[k.val].owner = none ∧ ∀ i : Fin 4, (allocateSlot ch v)[i.val] =
      if i = k then { RefSlot.free with owner := some ch } else v[i.val] := by
  have key : ∀ k : Fin 4, ∀ i : Fin 4, (v.set k.val { RefSlot.free with owner := some ch })[i.val] =
      if i = k then { RefSlot.free with owner := some ch } else v[i.val] := by
    intro k i
    rw [Vector.getElem_set]
    by_cases hik : k = i
    · subst hik; simp
    · rw [if_neg (fun h => hik (Fin.ext h)), if_neg (fun h => hik h.symm)]
  by_cases h0 : v[0].owner = none
  · have he : allocateSlot ch v = v.set 0 { RefSlot.free with owner := some ch } := if_pos h0
    rw [he]; exact ⟨0, h0, key 0⟩
  by_cases h1 : v[1].owner = none
  · have he : allocateSlot ch v = v.set 1 { RefSlot.free with owner := some ch } := (if_neg h0).trans (if_pos h1)
    rw [he]; exact ⟨1, h1, key 1⟩
  by_cases h2 : v[2].owner = none
  · have he : allocateSlot ch v = v.set 2 { RefSlot.free with owner := some ch } :=
      (if_neg h0).trans ((if_neg h1).trans (if_pos h2))
    rw [he]; exact ⟨2, h2, key 2⟩
  by_cases h3 : v[3].owner = none
  · have he : allocateSlot ch v = v.set 3 { RefSlot.free with owner := some ch } :=
      (if_neg h0).trans ((if_neg h1).trans ((if_neg h2).trans (if_pos h3)))
    rw [he]; exact ⟨3, h3, key 3⟩
  obtain ⟨i, hi⟩ := hfree
  have : i = 0 ∨ i = 1 ∨ i = 2 ∨ i = 3 := by omega
  rcases this with rfl | rfl | rfl | rfl <;> contradiction

/-- R69 to R71: the slots after an apply, by the roles before and after it: users counted, then freed, owned, or
invalidated. -/
theorem relink_get (ch : ChannelId) (old new : Descriptor) (s : State) :
    ∃ s2 : State, (∀ i : Fin 4, s2.refs[i.val].owner = s.refs[i.val].owner ∧
        (s.refs[i.val].owner = none → s2.refs[i.val] = s.refs[i.val]) ∧
        s2.refs[i.val].users = s.refs[i.val].users -
          (if old.role = .ratio ∧ s.refs[i.val].owner = some old.refChannel then 1 else 0) +
          (if new.role = .ratio ∧ s.refs[i.val].owner = some new.refChannel then 1 else 0)) ∧
      relink ch old new s =
        (if old.role = .reference ∧ new.role ≠ .reference then onSlot ch (fun _ => .free) s2
        else if new.role = .reference ∧ slotOf ch s2 = none then s2.withRefs (allocateSlot ch s2.refs)
        else if old.role = .reference ∧ new.role = .reference ∧
            (old.pin ≠ new.pin ∨ old.method ≠ new.method ∨ old.g ≠ new.g ∨ old.s ≠ new.s) then
          onSlot ch RefSlot.invalidate s2
        else s2) := by
  refine ⟨_, ?_, rfl⟩
  intro i
  have hcase : ∀ (p : Prop) [Decidable p] (r : ChannelId) (f : Nat → Nat) (u : State),
      let v := if p then onSlot r (fun sl => { sl with users := f sl.users }) u else u
      v.refs[i.val].owner = u.refs[i.val].owner ∧ (u.refs[i.val].owner = none → v.refs[i.val] = u.refs[i.val]) ∧
        v.refs[i.val].users = if p ∧ u.refs[i.val].owner = some r then f u.refs[i.val].users else u.refs[i.val].users := by
    intro p _ r f u
    by_cases hp : p
    · simp only [hp, if_true, true_and, onSlot_get]
      by_cases ho : u.refs[i.val].owner = some r
      · rw [if_pos ho, if_pos ho]; exact ⟨rfl, fun h => (by rw [h] at ho; cases ho), rfl⟩
      · rw [if_neg ho, if_neg ho]; exact ⟨rfl, fun _ => rfl, rfl⟩
    · simp only [hp, if_false, false_and]; exact ⟨trivial, fun _ => trivial, trivial⟩
  have c1 := hcase (old.role = .ratio) old.refChannel (· - 1) s
  have c2 := hcase (new.role = .ratio) new.refChannel (· + 1)
    (if old.role = .ratio then onSlot old.refChannel (fun sl => { sl with users := sl.users - 1 }) s else s)
  simp only [] at c1 c2 ⊢
  refine ⟨c2.1.trans c1.1, fun hn => (c2.2.1 (c1.1.trans hn)).trans (c1.2.1 hn), ?_⟩
  rw [c2.2.2, c1.1, c1.2.2]
  split <;> split <;> rfl

/-- R68, R71: an apply of a descriptor that passes checks 4 to 8 keeps the law. -/
theorem slotLaw_relink {ch : ChannelId} {old new : Descriptor} {t : State} (h : slotLaw s)
    (hold : s.channels[ch.val].desc = old)
    (v1 : new.role = .ratio → new.refChannel ≠ ch ∧
      s.channels[new.refChannel.val].desc.role = .reference ∧ s.channels[new.refChannel.val].desc.enabled = true ∧
      s.channels[new.refChannel.val].desc.method = new.method)
    (v2 : new.role = .reference → slotOf ch s = none → someSlotFree s = true)
    (v3 : 0 < usersOf ch s → new.role = .reference ∧ new.method = old.method ∧ new.enabled = true)
    (hr : t.refs = (relink ch old new s).refs) (hself : t.channels[ch.val].desc = new)
    (hother : ∀ c : ChannelId, c ≠ ch → t.channels[c.val].desc = s.channels[c.val].desc) : slotLaw t := by
  obtain ⟨h1, h2, h3, h4, h5⟩ := h
  have hn := fun r => namersOf_set (s := s) (ch := ch) (r := r) hself hother
  rw [hold] at hn
  obtain ⟨s2, hs2, hrel⟩ := relink_get ch old new s
  rw [hrel] at hr
  clear hrel
  have howner : ∀ i : Fin 4, s2.refs[i.val].owner = s.refs[i.val].owner := fun i => (hs2 i).1
  have hfree : ∀ i : Fin 4, s2.refs[i.val].owner = none → s2.refs[i.val] = .free := fun i hi => by
    rw [howner i] at hi
    rw [(hs2 i).2.1 hi]
    exact h1 i hi
  have hroleold : old.role = .reference ↔ ∃ i : Fin 4, s.refs[i.val].owner = some ch := by rw [← hold]; exact h3 ch
  -- a channel that is not a REFERENCE is named by none
  have hnone : ∀ r : ChannelId, s.channels[r.val].desc.role ≠ .reference → namersOf r s = 0 := by
    intro r hr0
    unfold namersOf
    rw [List.countP_eq_zero]
    intro c _ hc
    simp only [Bool.and_eq_true, beq_iff_eq] at hc
    have hx : ∀ q : ChannelId, s.channels[c.val].desc.refChannel = q → s.channels[q.val].desc.role = .reference := by
      rintro q rfl
      exact (h5 c hc.1).1
    exact hr0 (hx r hc.2)
  have hnamed : ∀ r : ChannelId, s.channels[r.val].desc.role = .ratio → 0 < namersOf s.channels[r.val].desc.refChannel s := by
    intro r hr0
    unfold namersOf
    rw [List.countP_pos_iff]
    exact ⟨r, List.mem_finRange r, by simp [hr0]⟩
  -- a REFERENCE that is named stays an enabled REFERENCE of its method
  have hstays : 0 < namersOf ch s → old.role = .reference → new.role = .reference ∧ new.method = old.method ∧
      new.enabled = true := by
    intro hpos ho
    refine v3 ?_
    obtain ⟨i, hi⟩ := hroleold.mp ho
    rcases slotOf_spec ch s with ⟨_, hno⟩ | ⟨k, hk, hko⟩
    · exact absurd hi (hno i)
    · unfold usersOf
      rw [hk]
      simp only []
      rw [h4 k ch hko]
      exact hpos
  -- the users of a slot after the apply's additions
  have husers : ∀ i : Fin 4, ∀ r, s.refs[i.val].owner = some r → s2.refs[i.val].users = namersOf r t := by
    intro i r hi
    have e1 := hn r
    have e2 := h4 i r hi
    have hA : (if (old.role == .ratio && old.refChannel == r) = true then 1 else 0) =
        (if old.role = .ratio ∧ r = old.refChannel then 1 else 0) := by
      simp only [Bool.and_eq_true, beq_iff_eq, eq_comm (a := old.refChannel)]
    have hB : (if (new.role == .ratio && new.refChannel == r) = true then 1 else 0) =
        (if new.role = .ratio ∧ r = new.refChannel then 1 else 0) := by
      simp only [Bool.and_eq_true, beq_iff_eq, eq_comm (a := new.refChannel)]
    rw [hA, hB] at e1
    have e3 : old.role = .ratio ∧ r = old.refChannel → 0 < namersOf r s := by
      rintro ⟨ho, rfl⟩
      have := hnamed ch
      rw [hold] at this
      exact this ho
    rw [(hs2 i).2.2]
    simp only [hi, e2, Option.some.injEq]
    by_cases ho : old.role = .ratio ∧ r = old.refChannel
    · have := e3 ho
      rw [if_pos ho] at e1 ⊢
      omega
    · rw [if_neg ho] at e1 ⊢
      omega
  -- every RATIO channel names an enabled REFERENCE of its method
  have h5' : ∀ c q : ChannelId, s.channels[c.val].desc.refChannel = q → s.channels[c.val].desc.role = .ratio →
      0 < namersOf q s ∧ s.channels[q.val].desc.role = .reference ∧ s.channels[q.val].desc.enabled = true ∧
        s.channels[q.val].desc.method = s.channels[c.val].desc.method := by
    rintro c q rfl hc
    exact ⟨hnamed c hc, h5 c hc⟩
  have hlink' : ∀ (c q : ChannelId) (d : Descriptor), t.channels[c.val].desc = d → d.refChannel = q → d.role = .ratio →
      t.channels[q.val].desc.role = .reference ∧ t.channels[q.val].desc.enabled = true ∧
        t.channels[q.val].desc.method = d.method := by
    intro c q d hd hq hc
    by_cases hcc : c = ch
    · subst hcc
      obtain rfl : new = d := hself.symm.trans hd
      obtain ⟨w1, w2, w3, w4⟩ := v1 hc
      subst hq
      rw [hother _ w1]
      exact ⟨w2, w3, w4⟩
    · rw [hother c hcc] at hd
      subst hd
      obtain ⟨hp, w1, w2, w3⟩ := h5' c q hq hc
      by_cases hrr : q = ch
      · subst hrr
        rw [hold] at w1 w2 w3
        obtain ⟨x1, x2, x3⟩ := hstays hp w1
        rw [hself]
        exact ⟨x1, x3, x2.trans w3⟩
      · rw [hother _ hrr]
        exact ⟨w1, w2, w3⟩
  have hlink := fun (c : ChannelId) (hc : t.channels[c.val].desc.role = .ratio) => hlink' c _ _ rfl rfl hc
  -- the roles of the other channels are as before
  have hrole : ∀ r : ChannelId, r ≠ ch →
      (t.channels[r.val].desc.role = .reference ↔ ∃ i : Fin 4, s.refs[i.val].owner = some r) := fun r hne => by
    rw [hother r hne]; exact h3 r
  split at hr
  · -- the slot is freed
    rename_i hcase
    have hget : ∀ i : Fin 4, t.refs[i.val] = if s.refs[i.val].owner = some ch then .free else s2.refs[i.val] := by
      intro i
      rw [hr, onSlot_get, howner]
    have hown : ∀ (i : Fin 4) r, t.refs[i.val].owner = some r → r ≠ ch ∧ s.refs[i.val].owner = some r ∧
        t.refs[i.val] = s2.refs[i.val] := by
      intro i r hi
      have hg := hget i
      by_cases ho : s.refs[i.val].owner = some ch
      · rw [if_pos ho] at hg
        rw [hg] at hi
        cases hi
      · rw [if_neg ho] at hg
        rw [hg, howner] at hi
        exact ⟨fun he => ho (he ▸ hi), hi, hg⟩
    refine ⟨fun i hi => ?_, fun i j r hi hj => h2 i j r (hown i r hi).2.1 (hown j r hj).2.1, fun r => ?_,
      fun i r hi => ?_, hlink⟩
    · have hg := hget i
      split at hg
      · exact hg
      · rw [hg] at hi ⊢
        exact hfree i hi
    · by_cases hrc : r = ch
      · subst hrc
        rw [hself]
        exact ⟨fun hx => absurd hx hcase.2, fun ⟨i, hi⟩ => absurd rfl (hown i r hi).1⟩
      · rw [hrole r hrc]
        constructor
        · rintro ⟨i, hi⟩
          refine ⟨i, ?_⟩
          rw [hget i, if_neg (fun hx => hrc (by rw [hi] at hx; exact Option.some.inj hx)), howner]
          exact hi
        · rintro ⟨i, hi⟩
          exact ⟨i, (hown i r hi).2.1⟩
    · obtain ⟨_, ho, he⟩ := hown i r hi
      rw [he]
      exact husers i r ho
  split at hr
  · -- a free slot is owned
    rename_i hcase
    have hnos : ∀ i : Fin 4, s.refs[i.val].owner ≠ some ch := by
      rcases slotOf_spec ch s2 with ⟨_, hno⟩ | ⟨k, hk, _⟩
      · exact fun i => by rw [← howner i]; exact hno i
      · rw [hcase.2] at hk; cases hk
    have hslot : slotOf ch s = none := by
      rcases slotOf_spec ch s with ⟨hno, _⟩ | ⟨k, _, hko⟩
      · exact hno
      · exact absurd hko (hnos k)
    have hsome : ∃ i : Fin 4, s2.refs[i.val].owner = none := by
      have hf := v2 hcase.1 hslot
      unfold someSlotFree at hf
      obtain ⟨sl, hm, hsl⟩ := List.any_eq_true.mp hf
      obtain ⟨i, hi, he⟩ := List.getElem_of_mem hm
      refine ⟨⟨i, by simpa using hi⟩, ?_⟩
      rw [howner]
      rw [← he] at hsl
      simpa using hsl
    obtain ⟨k, hk, hget⟩ := allocateSlot_spec ch s2.refs hsome
    have hget : ∀ i : Fin 4, t.refs[i.val] = if i = k then { RefSlot.free with owner := some ch } else s2.refs[i.val] := by
      intro i
      rw [hr]
      exact hget i
    have hown : ∀ (i : Fin 4) r, t.refs[i.val].owner = some r →
        (i = k ∧ r = ch) ∨ (i ≠ k ∧ r ≠ ch ∧ s.refs[i.val].owner = some r ∧ t.refs[i.val] = s2.refs[i.val]) := by
      intro i r hi
      have hg := hget i
      by_cases hik : i = k
      · rw [if_pos hik] at hg
        rw [hg] at hi
        exact .inl ⟨hik, (Option.some.inj hi).symm⟩
      · rw [if_neg hik] at hg
        rw [hg, howner] at hi
        exact .inr ⟨hik, fun he => hnos i (he ▸ hi), hi, hg⟩
    refine ⟨fun i hi => ?_, fun i j r hi hj => ?_, fun r => ?_, fun i r hi => ?_, hlink⟩
    · have hg := hget i
      split at hg
      · rw [hg] at hi; cases hi
      · rw [hg] at hi ⊢
        exact hfree i hi
    · rcases hown i r hi with ⟨a1, a2⟩ | ⟨_, a2, a3, _⟩ <;> rcases hown j r hj with ⟨b1, b2⟩ | ⟨_, b2, b3, _⟩
      · rw [a1, b1]
      · exact absurd a2 b2
      · exact absurd b2 a2
      · exact h2 i j r a3 b3
    · by_cases hrc : r = ch
      · subst hrc
        rw [hself]
        exact ⟨fun _ => ⟨k, by rw [hget k, if_pos rfl]⟩, fun _ => hcase.1⟩
      · rw [hrole r hrc]
        constructor
        · rintro ⟨i, hi⟩
          refine ⟨i, ?_⟩
          rw [hget i, if_neg (fun hx => by rw [hx, ← howner, hk] at hi; cases hi), howner]
          exact hi
        · rintro ⟨i, hi⟩
          rcases hown i r hi with ⟨_, a2⟩ | ⟨_, _, a3, _⟩
          · exact absurd a2 hrc
          · exact ⟨i, a3⟩
    · rcases hown i r hi with ⟨a1, a2⟩ | ⟨_, _, a3, a4⟩
      · rw [hget i, if_pos a1, a2]
        have e1 := hn ch
        have e2 := hnone ch (by
          rw [hold]
          exact fun hx => by obtain ⟨i, hi⟩ := hroleold.mp hx; exact hnos i hi)
        have hB : ¬(new.role == .ratio && new.refChannel == ch) = true := by simp [hcase.1]
        rw [if_neg hB] at e1
        show 0 = namersOf ch t
        omega
      · rw [a4]
        exact husers i r a3
  · -- the slots keep their owners
    rename_i hA hB
    have hget : ∀ i : Fin 4, t.refs[i.val].owner = s.refs[i.val].owner ∧ t.refs[i.val].users = s2.refs[i.val].users ∧
        (s.refs[i.val].owner = none → t.refs[i.val] = .free) := by
      intro i
      have hbase : s2.refs[i.val].owner = s.refs[i.val].owner ∧ s2.refs[i.val].users = s2.refs[i.val].users ∧
          (s.refs[i.val].owner = none → s2.refs[i.val] = .free) :=
        ⟨howner i, rfl, fun hx => hfree i (by rw [howner]; exact hx)⟩
      rw [hr]
      split
      · rw [onSlot_get]
        split
        · rename_i ho
          exact ⟨howner i, rfl, fun hx => by rw [← howner, ho] at hx; cases hx⟩
        · exact hbase
      · exact hbase
    refine ⟨fun i hi => (hget i).2.2 (by rw [← (hget i).1]; exact hi),
      fun i j r hi hj => h2 i j r (by rw [← (hget i).1]; exact hi) (by rw [← (hget j).1]; exact hj), fun r => ?_,
      fun i r hi => ?_, hlink⟩
    · have hiff : (∃ i : Fin 4, t.refs[i.val].owner = some r) ↔ ∃ i : Fin 4, s.refs[i.val].owner = some r := by
        constructor <;> rintro ⟨i, hi⟩
        · exact ⟨i, by rw [← (hget i).1]; exact hi⟩
        · exact ⟨i, by rw [(hget i).1]; exact hi⟩
      rw [hiff]
      by_cases hrc : r = ch
      · subst hrc
        rw [hself, ← hroleold]
        constructor
        · intro hx
          rcases slotOf_spec r s2 with ⟨hno, _⟩ | ⟨k, _, hko⟩
          · exact absurd ⟨hx, hno⟩ hB
          · exact hroleold.mpr ⟨k, by rw [← howner]; exact hko⟩
        · intro hx
          by_contra hy
          exact hA ⟨hx, hy⟩
      · exact hrole r hrc
    · rw [(hget i).2.1]
      exact husers i r (by rw [← (hget i).1]; exact hi)

/-- R68, R71: an apply of an image that passed the checks keeps the law. -/
theorem slotLaw_relinked {ch : ChannelId} {im : Image} {t : State} (h : slotLaw s) (hv : validate ch im s = none)
    (hr : t.refs = (relink ch s.channels[ch.val].desc im.descriptor s).refs)
    (hself : t.channels[ch.val].desc = im.descriptor)
    (hother : ∀ c : ChannelId, c ≠ ch → t.channels[c.val].desc = s.channels[c.val].desc) : slotLaw t :=
  slotLaw_relink h rfl (validate_none hv).1 (validate_none hv).2.1 (validate_none hv).2.2 hr hself hother

theorem slotLaw_withPending (x : List Instr) (h : slotLaw s) : slotLaw (s.withPending x) := h
theorem slotLaw_withInReset (x : Bool) (h : slotLaw s) : slotLaw (s.withInReset x) := h
theorem slotLaw_withFrontEnd (x : FrontEnd) (h : slotLaw s) : slotLaw (s.withFrontEnd x) := h
theorem slotLaw_withTimebase (x : Timebase) (h : slotLaw s) : slotLaw (s.withTimebase x) := h
theorem slotLaw_withStaging (x : Vector Byte 32) (h : slotLaw s) : slotLaw (s.withStaging x) := h
theorem slotLaw_withDeferred (x : Option DeferredCommit) (h : slotLaw s) : slotLaw (s.withDeferred x) := h
theorem slotLaw_withSeq (x : Sequencer) (h : slotLaw s) : slotLaw (s.withSeq x) := h
theorem slotLaw_withQueue (x : JobQueue) (h : slotLaw s) : slotLaw (s.withQueue x) := h
theorem slotLaw_withScan (x : ScanController) (h : slotLaw s) : slotLaw (s.withScan x) := h
theorem slotLaw_withAlerts (x : AlertList) (h : slotLaw s) : slotLaw (s.withAlerts x) := h
theorem slotLaw_withFifo (x : ResultFifo) (h : slotLaw s) : slotLaw (s.withFifo x) := h
theorem slotLaw_withPort (x : SerialPort) (h : slotLaw s) : slotLaw (s.withPort x) := h
theorem slotLaw_withCmd (x : CommandPort) (h : slotLaw s) : slotLaw (s.withCmd x) := h
theorem slotLaw_withEvents (x : EventUnit) (h : slotLaw s) : slotLaw (s.withEvents x) := h
theorem slotLaw_withPins (x : InputPins) (h : slotLaw s) : slotLaw (s.withPins x) := h
theorem slotLaw_withFreeIndex (x : Nat) (h : slotLaw s) : slotLaw (s.withFreeIndex x) := h

theorem slotLaw_raise (f : Flag) (h : slotLaw s) : slotLaw (raise f s) := slotLaw_keep (by simp) (fun _ => by simp) h
theorem slotLaw_clampRequest (h : slotLaw s) : slotLaw (clampRequest s) := slotLaw_keep (by simp) (fun _ => by simp) h
theorem slotLaw_runRequest (p : PinId) (h : slotLaw s) : slotLaw (runRequest p s) := slotLaw_keep (by simp) (fun _ => by simp) h
theorem slotLaw_onChannel (ch : ChannelId) (f : Channel → Channel) (h : slotLaw s) (hf : ∀ c, (f c).desc = c.desc) :
    slotLaw (onChannel ch f s) := slotLaw_keep (by simp) (fun b => onChannel_item Channel.desc hf b s) h
theorem slotLaw_setEngaged (m : Bool) (ch : ChannelId) (h : slotLaw s) : slotLaw (setEngaged m ch s) := slotLaw_onChannel _ _ h (fun _ => rfl)
theorem slotLaw_markJob (m : Bool) (j : InFlight) (h : slotLaw s) : slotLaw (markJob m j s) := slotLaw_keep (by simp) (fun b => markJob_item Channel.desc (fun _ _ => rfl) _ _ b s) h
theorem slotLaw_onSlot (ch : ChannelId) (f : RefSlot → RefSlot) (h : slotLaw s) (hf : ∀ sl, (f sl).owner = sl.owner ∧ (f sl).users = sl.users) :
    slotLaw (onSlot ch f s) := slotLaw_onSlot' hf h
theorem slotLaw_invalidateAll (h : slotLaw s) : slotLaw (invalidateAll s) := slotLaw_of (slotsAlike_map (f := RefSlot.invalidate) (fun _ => ⟨rfl, rfl⟩) rfl _) (fun _ => by simp) h
theorem slotLaw_recordOutcome (c : Byte) (r : Reply) (h : slotLaw s) : slotLaw (recordOutcome c r s) := slotLaw_keep (by simp) (fun _ => by simp) h
theorem slotLaw_collide (h : slotLaw s) : slotLaw (collide s) := slotLaw_keep (by simp) (fun _ => by simp) h
theorem slotLaw_finishWorking (r : Reply) (h : slotLaw s) : slotLaw (finishWorking r s) := slotLaw_keep (by simp) (fun _ => by simp) h
theorem slotLaw_startPhase (ch : ChannelId) (h : slotLaw s) : slotLaw (startPhase ch s) := slotLaw_keep (by simp) (fun _ => by simp) h
theorem slotLaw_enterArm (h : slotLaw s) : slotLaw (enterArm s) := slotLaw_keep (by simp) (fun _ => by simp) h
theorem slotLaw_enterSettle (h : slotLaw s) : slotLaw (enterSettle s) := slotLaw_keep (by simp) (fun _ => by simp) h
theorem slotLaw_startSample (h : slotLaw s) : slotLaw (startSample s) := slotLaw_keep (by simp) (fun _ => by simp) h
theorem slotLaw_decideOffer (n : Nat) (ch : ChannelId) (h : slotLaw s) : slotLaw (decideOffer n ch s) := slotLaw_keep (by simp) (fun _ => by simp) h
theorem slotLaw_retakeOffer (h : slotLaw s) : slotLaw (retakeOffer s) := slotLaw_keep (by simp) (fun _ => by simp) h
theorem slotLaw_retake (h : slotLaw s) : slotLaw (retake s) := slotLaw_keep (by simp) (fun _ => by simp) h
theorem slotLaw_jobStart (q : QueuedJob) (h : slotLaw s) : slotLaw (jobStart q s) := slotLaw_keep (by simp) (fun b => jobStart_item Channel.desc (fun _ _ => rfl) q b s) h
theorem slotLaw_arbitrate (h : slotLaw s) : slotLaw (arbitrate s) := slotLaw_keep (by simp) (fun b => arbitrate_item Channel.desc (fun _ _ => rfl) b s) h
theorem slotLaw_select (h : slotLaw s) : slotLaw (select s) := slotLaw_keep (by simp) (fun b => select_item Channel.desc (fun _ _ => rfl) b s) h
theorem slotLaw_retry (h : slotLaw s) : slotLaw (retry s) := by
  unfold retry
  try simp only []
  repeat' split
  all_goals with_reducible repeat (first | exact h | apply slotLaw_arbitrate)
theorem slotLaw_applySwap (h : slotLaw s) : slotLaw (applySwap s) := slotLaw_keep (by simp) (fun _ => by simp) h
theorem slotLaw_closePass (h : slotLaw s) : slotLaw (closePass s) := slotLaw_keep (by simp) (fun _ => by simp) h
theorem slotLaw_passEnd (h : slotLaw s) : slotLaw (passEnd s) := slotLaw_keep (by simp) (fun _ => by simp) h
theorem slotLaw_checkPassEnd (h : slotLaw s) : slotLaw (checkPassEnd s) := slotLaw_keep (by simp) (fun _ => by simp) h
theorem slotLaw_offer (n : Nat) (ch : ChannelId) (h : slotLaw s) : slotLaw (offer n ch s) := by
  unfold offer
  try simp only []
  repeat' split
  all_goals with_reducible repeat (first | exact h | apply slotLaw_decideOffer | apply slotLaw_select)
theorem slotLaw_moveOnto (n : Nat) (h : slotLaw s) : slotLaw (moveOnto n s) := by
  unfold moveOnto
  try simp only []
  repeat' split
  all_goals with_reducible repeat (first | exact h | apply slotLaw_withScan | apply slotLaw_checkPassEnd | apply slotLaw_offer)
theorem slotLaw_cursorMove (h : slotLaw s) : slotLaw (cursorMove s) := by
  unfold cursorMove
  try simp only []
  repeat' split
  all_goals with_reducible repeat (first | exact h | apply slotLaw_moveOnto)
theorem slotLaw_passStart (h : slotLaw s) : slotLaw (passStart s) := by
  unfold passStart
  try simp only []
  repeat' split
  all_goals with_reducible repeat (first | exact h | apply slotLaw_withScan | apply slotLaw_moveOnto)
theorem slotLaw_overrun (h : slotLaw s) : slotLaw (overrun s) := slotLaw_keep (by simp) (fun _ => by simp) h
theorem slotLaw_passDue (h : slotLaw s) : slotLaw (passDue s) := by
  unfold passDue
  try simp only []
  repeat' split
  all_goals with_reducible repeat (first | exact h | apply slotLaw_passStart | apply slotLaw_overrun)
theorem slotLaw_expiry (h : slotLaw s) : slotLaw (expiry s) := by
  unfold expiry
  try simp only []
  repeat' split
  all_goals with_reducible repeat (first | exact h | apply slotLaw_withScan | apply slotLaw_passDue)
theorem slotLaw_timerTick (h : slotLaw s) : slotLaw (timerTick s) := by
  unfold timerTick
  try simp only []
  repeat' split
  all_goals with_reducible repeat (first | exact h | apply slotLaw_withScan | apply slotLaw_expiry)
theorem slotLaw_qualifiedEdge (l : Bool) (h : slotLaw s) : slotLaw (qualifiedEdge l s) := by
  unfold qualifiedEdge
  try simp only []
  repeat' split
  all_goals with_reducible repeat (first | exact h | apply slotLaw_withScan | apply slotLaw_passDue)
theorem slotLaw_trigSample (h : slotLaw s) : slotLaw (trigSample s) := by
  unfold trigSample
  try simp only []
  repeat' split
  all_goals with_reducible repeat (first | exact h | apply slotLaw_withScan | apply slotLaw_qualifiedEdge)
theorem slotLaw_dropJobs (p : QueuedJob → Bool) (h : slotLaw s) : slotLaw (dropJobs p s) := slotLaw_keep (by simp) (fun _ => by simp) h
theorem slotLaw_clearStallIfEmpty (h : slotLaw s) : slotLaw (clearStallIfEmpty s) := slotLaw_keep (by simp) (fun _ => by simp) h
theorem slotLaw_removeJobs (p : QueuedJob → Bool) (h : slotLaw s) : slotLaw (removeJobs p s).1 := slotLaw_keep (by simp) (fun _ => by simp) h
theorem slotLaw_completeStop (h : slotLaw s) : slotLaw (completeStop s) := slotLaw_keep (by simp) (fun _ => by simp) h
theorem slotLaw_countOut (h : slotLaw s) : slotLaw (countOut s) := slotLaw_keep (by simp) (fun _ => by simp) h
theorem slotLaw_removeAlert (ch : ChannelId) (h : slotLaw s) : slotLaw (removeAlert ch s) := slotLaw_keep (by simp) (fun _ => by simp) h
theorem slotLaw_withdrawOffer (ch : ChannelId) (h : slotLaw s) : slotLaw (withdrawOffer ch s) := slotLaw_keep (by simp) (fun _ => by simp) h
theorem slotLaw_applyCommit (ch : ChannelId) (im : Image) (h : slotLaw s) (hv : validate ch im s = none) :
    slotLaw (applyCommit ch im s).1 := by
  refine slotLaw_relinked (ch := ch) (im := im) h hv (by unfold applyCommit; simp only []; split <;> split <;> simp) ?_ (fun b hb => ?_)
  · simp only [applyCommit_channels, setChannel_get, if_true]
  · simp only [applyCommit_channels, setChannel_get]
    rw [if_neg (fun hq => hb hq.symm)]
theorem slotLaw_decideCommit (ch : ChannelId) (im : Image) (h : slotLaw s) : slotLaw (decideCommit ch im s).1 := by
  unfold decideCommit
  split
  · exact h
  · rename_i hv
    exact slotLaw_applyCommit _ _ h hv
theorem slotLaw_decideDeferred (h : slotLaw s) : slotLaw (decideDeferred s) := by
  unfold decideDeferred
  split
  · exact h
  · exact slotLaw_finishWorking _ (slotLaw_decideCommit _ _ (slotLaw_withDeferred _ h))
theorem slotLaw_referenceShare (a : Completion) (h : slotLaw s) : slotLaw (referenceShare a s) := by
  unfold referenceShare
  split
  · split <;> first | exact h | exact slotLaw_onSlot _ _ h (fun _ => ⟨rfl, rfl⟩)
  · exact h
theorem slotLaw_zoneShare (a : Completion) (h : slotLaw s) : slotLaw (zoneShare a s) := by
  unfold zoneShare
  simp only []
  split
  · exact slotLaw_raise _ (slotLaw_withAlerts _ (slotLaw_onChannel _ _ h (fun _ => rfl)))
  · exact slotLaw_onChannel _ _ h (fun _ => rfl)
theorem slotLaw_fifoShare (a : Completion) (z : Zone) (c : Bool) (p : ReportPolicy) (h : slotLaw s) :
    slotLaw (fifoShare a z c p s) := slotLaw_keep (by simp) (fun _ => by simp) h
theorem slotLaw_lastStatusShare (a : Completion) (h : slotLaw s) : slotLaw (lastStatusShare a s) := slotLaw_onChannel _ _ h (fun _ => rfl)
theorem slotLaw_quietSequencer (j : InFlight) (st : JobStatus) (h : slotLaw s) : slotLaw (quietSequencer j st s) := slotLaw_keep (by simp) (fun b => quietSequencer_item Channel.desc (fun _ _ => rfl) j st b s) h
theorem slotLaw_announceTo (a : Completion) (h : slotLaw s) : slotLaw (announceTo a s) := by
  unfold announceTo
  try simp only []
  repeat' split
  all_goals with_reducible repeat (first | exact h | apply slotLaw_countOut | apply slotLaw_decideDeferred | apply slotLaw_referenceShare | apply slotLaw_zoneShare | apply slotLaw_fifoShare | apply slotLaw_lastStatusShare)
theorem slotLaw_offerSequencer (h : slotLaw s) : slotLaw (offerSequencer s) := by
  unfold offerSequencer
  try simp only []
  repeat' split
  all_goals with_reducible repeat (first | exact h | apply slotLaw_withQueue | apply slotLaw_select)
theorem slotLaw_jobEnd (st : JobStatus) (h : slotLaw s) : slotLaw (jobEnd st s) := by
  unfold jobEnd
  try simp only []
  repeat' split
  all_goals with_reducible repeat (first | exact h | apply slotLaw_quietSequencer | apply slotLaw_announceTo | apply slotLaw_offerSequencer)
theorem slotLaw_abortJob (h : slotLaw s) : slotLaw (abortJob s).1 := by
  unfold abortJob
  try simp only []
  repeat' split
  all_goals with_reducible repeat (first | exact h | apply slotLaw_jobEnd)
theorem slotLaw_phaseEnd (pe : PhaseEnd) (h : slotLaw s) : slotLaw (phaseEnd pe s) := by
  unfold phaseEnd
  simp only []
  split
  · exact h
  · rename_i j hj
    have h1 : slotLaw (onChannel j.measured (fun c => { c with rangeStep := stepAfter pe s.seq.work c.rangeStep }) s) :=
      slotLaw_onChannel _ _ h (fun _ => rfl)
    repeat' split
    · exact slotLaw_jobEnd _ h1
    · exact slotLaw_startPhase _ (slotLaw_withSeq _ (slotLaw_onSlot _ _ h1 (fun _ => ⟨rfl, rfl⟩)))
    all_goals exact slotLaw_jobEnd _ (slotLaw_onSlot _ _ h1 (fun _ => ⟨rfl, rfl⟩))
theorem slotLaw_sampleComplete (h : slotLaw s) : slotLaw (sampleComplete s) := by
  unfold sampleComplete
  try simp only []
  repeat' split
  all_goals with_reducible repeat (first | exact h | apply slotLaw_withSeq | apply slotLaw_enterArm | apply slotLaw_phaseEnd)
theorem slotLaw_overflowed (h : slotLaw s) : slotLaw (overflowed s) := by
  unfold overflowed
  try simp only []
  repeat' split
  all_goals with_reducible repeat (first | exact h | apply slotLaw_withSeq | apply slotLaw_runRequest | apply slotLaw_enterArm | apply slotLaw_phaseEnd)
theorem slotLaw_sequencerTb (h : slotLaw s) : slotLaw (sequencerTb s) := by
  unfold sequencerTb
  try simp only []
  repeat' split
  all_goals with_reducible repeat (first | exact h | apply slotLaw_withSeq | apply slotLaw_enterSettle | apply slotLaw_phaseEnd | apply slotLaw_sampleComplete | apply slotLaw_overflowed)
theorem slotLaw_sequencerSlow (h : slotLaw s) : slotLaw (sequencerSlow s) := slotLaw_keep (by simp) (fun _ => by simp) h
theorem slotLaw_sequencerEdge (h : slotLaw s) : slotLaw (sequencerEdge s) := by
  unfold sequencerEdge
  try simp only []
  repeat' split
  all_goals with_reducible repeat (first | exact h | apply slotLaw_withSeq | apply slotLaw_startSample | apply slotLaw_sampleComplete | apply slotLaw_overflowed)
theorem slotLaw_deliverEdge (c : Bool) (h : slotLaw s) : slotLaw (deliverEdge c s) := by
  unfold deliverEdge
  try simp only []
  repeat' split
  all_goals with_reducible repeat (first | exact h | apply slotLaw_withFreeIndex | apply slotLaw_sequencerEdge)
theorem slotLaw_oscillatorEdge (c : Bool) (h : slotLaw s) : slotLaw (oscillatorEdge c s) := by
  rw [oscillatorEdge_spec]
  try simp only []
  repeat' split
  all_goals with_reducible repeat (first | exact h | apply slotLaw_withFrontEnd | apply slotLaw_deliverEdge)
theorem slotLaw_nodeMoves (h : slotLaw s) : slotLaw (nodeMoves s) := slotLaw_keep (by simp) (fun _ => by simp) h
theorem slotLaw_stampTick (h : slotLaw s) : slotLaw (stampTick s) := by
  unfold stampTick
  try simp only []
  repeat' split
  all_goals with_reducible repeat (first | exact h | apply slotLaw_withTimebase)
theorem slotLaw_ageTick (h : slotLaw s) : slotLaw (ageTick s) := slotLaw_of (slotsAlike_map (f := RefSlot.aged) (fun sl => by unfold RefSlot.aged; split <;> exact ⟨rfl, rfl⟩) rfl _) (fun _ => by simp [ageTick]) h
theorem slotLaw_scanSlow (h : slotLaw s) : slotLaw (scanSlow s) := by
  unfold scanSlow
  try simp only []
  repeat' split
  all_goals with_reducible repeat (first | exact h | apply slotLaw_timerTick | apply slotLaw_trigSample)
theorem slotLaw_slowShare (h : slotLaw s) : slotLaw (slowShare s) := 
  eitherOrder_ind (fun _ n h => slotLaw_withFreeIndex n h) (slotLaw_scanSlow (slotLaw_ageTick (slotLaw_stampTick h)))
    (slotLaw_ageTick (slotLaw_scanSlow (slotLaw_stampTick h)))
theorem slotLaw_sequencerShare (b : SeqState) (w : Bool) (h : slotLaw s) : slotLaw (sequencerShare b w s) := by
  unfold sequencerShare
  try simp only []
  repeat' split
  all_goals with_reducible repeat (first | exact h | apply slotLaw_sequencerTb | apply slotLaw_sequencerSlow)
theorem slotLaw_cursorShare (b : Cursor) (h : slotLaw s) : slotLaw (cursorShare b s) := by
  unfold cursorShare
  try simp only []
  repeat' split
  all_goals with_reducible repeat (first | exact h | apply slotLaw_cursorMove)
theorem slotLaw_tbTick (l : Bool) (h : slotLaw s) : slotLaw (tbTick l s) := by
  unfold tbTick
  split
  · exact anyOrder_ind (fun _ n h => slotLaw_withFreeIndex n h) (fun _ h => slotLaw_sequencerShare _ _ h)
      (fun _ h => slotLaw_cursorShare _ h) (fun _ h => by split; exacts [slotLaw_slowShare h, h])
      (slotLaw_withPins _ (slotLaw_withTimebase _ h))
  · exact h
theorem slotLaw_slowTick (l : Bool) (h : slotLaw s) : slotLaw (slowTick l s) := by
  unfold slowTick
  try simp only []
  repeat' split
  all_goals with_reducible repeat (first | exact h | apply slotLaw_withTimebase | apply slotLaw_withPins | apply slotLaw_sequencerSlow | apply slotLaw_slowShare)
theorem slotLaw_refuse (r : Reason) (h : slotLaw s) : slotLaw (refuse r s).1 := h
theorem slotLaw_admitDirect (ch : ChannelId) (h : slotLaw s) : slotLaw (admitDirect ch s).1 := by
  unfold admitDirect
  try simp only []
  repeat' split
  all_goals with_reducible repeat (first | exact h | apply slotLaw_withQueue | apply slotLaw_select | apply slotLaw_refuse)
theorem slotLaw_measureNow (h : slotLaw s) : slotLaw (measureNow s).1 := by
  unfold measureNow
  try simp only []
  repeat' split
  all_goals with_reducible repeat (first | exact h | apply slotLaw_refuse | apply slotLaw_admitDirect)
theorem slotLaw_flushQueue (h : slotLaw s) : slotLaw (flushQueue s).1 := by
  unfold flushQueue
  try simp only []
  repeat' split
  all_goals with_reducible repeat (first | exact h | apply slotLaw_removeJobs | apply slotLaw_refuse)
theorem slotLaw_scanStart (h : slotLaw s) : slotLaw (scanStart s).1 := by
  unfold scanStart
  try simp only []
  repeat' split
  all_goals with_reducible repeat (first | exact h | apply slotLaw_withScan | apply slotLaw_passStart | apply slotLaw_refuse)
theorem slotLaw_scanOnce (h : slotLaw s) : slotLaw (scanOnce s).1 := by
  unfold scanOnce
  try simp only []
  repeat' split
  all_goals with_reducible repeat (first | exact h | apply slotLaw_withScan | apply slotLaw_passStart | apply slotLaw_refuse)
theorem slotLaw_scanStop (h : slotLaw s) : slotLaw (scanStop s).1 := by
  unfold scanStop
  try simp only []
  repeat' split
  all_goals with_reducible repeat (first | exact h | apply slotLaw_withScan | apply slotLaw_applySwap | apply slotLaw_removeJobs)
theorem slotLaw_swapBanks (h : slotLaw s) : slotLaw (swapBanks s).1 := by
  unfold swapBanks
  try simp only []
  repeat' split
  all_goals with_reducible repeat (first | exact h | apply slotLaw_withScan | apply slotLaw_refuse)
theorem slotLaw_commitChannel (h : slotLaw s) : slotLaw (commitChannel s).1 := by
  unfold commitChannel
  try simp only []
  repeat' split
  all_goals with_reducible repeat (first | exact h | apply slotLaw_withDeferred | apply slotLaw_decideCommit | apply slotLaw_refuse)
theorem slotLaw_fetchChannel (h : slotLaw s) : slotLaw (fetchChannel s).1 := by
  unfold fetchChannel
  try simp only []
  repeat' split
  all_goals with_reducible repeat (first | exact h | apply slotLaw_withStaging | apply slotLaw_refuse)
theorem slotLaw_invalidateReference (h : slotLaw s) : slotLaw (invalidateReference s).1 := by
  unfold invalidateReference
  split
  · exact slotLaw_invalidateAll h
  · split
    · exact h
    · split
      · exact h
      · exact slotLaw_onSlot _ _ h (fun _ => ⟨rfl, rfl⟩)
theorem slotLaw_clearZone (h : slotLaw s) : slotLaw (clearZone s).1 := by
  unfold clearZone
  split
  · exact slotLaw_keep (by simp) (fun b => by simp) h
  · split
    · exact h
    · exact slotLaw_removeAlert _ (slotLaw_onChannel _ _ h (fun _ => rfl))
theorem slotLaw_clearAlerts (h : slotLaw s) : slotLaw (clearAlerts s).1 := by
  unfold clearAlerts
  try simp only []
  repeat' split
  all_goals with_reducible repeat (first | exact h | apply slotLaw_withAlerts)
theorem slotLaw_clearResults (h : slotLaw s) : slotLaw (clearResults s).1 := by
  unfold clearResults
  try simp only []
  repeat' split
  all_goals with_reducible repeat (first | exact h | apply slotLaw_withFifo | apply slotLaw_retry)
theorem slotLaw_setTimebase (h : slotLaw s) : slotLaw (setTimebase s).1 := by
  unfold setTimebase
  try simp only []
  repeat' split
  all_goals with_reducible repeat (first | exact h | apply slotLaw_withTimebase | apply slotLaw_invalidateAll | apply slotLaw_refuse)
theorem slotLaw_sleep (h : slotLaw s) : slotLaw (sleep s).1 := by
  unfold sleep
  try simp only []
  repeat' split
  all_goals with_reducible repeat (first | exact h | apply slotLaw_withFrontEnd | apply slotLaw_withTimebase | apply slotLaw_invalidateAll | apply slotLaw_refuse)
theorem slotLaw_wake (h : slotLaw s) : slotLaw (wake s).1 := by
  unfold wake
  try simp only []
  repeat' split
  all_goals with_reducible repeat (first | exact h | apply slotLaw_withFrontEnd | apply slotLaw_withTimebase)
theorem slotLaw_unknownCommand (h : slotLaw s) : slotLaw (unknownCommand s).1 := by
  unfold unknownCommand
  try simp only []
  repeat' split
  all_goals with_reducible repeat (first | exact h | apply slotLaw_refuse)
theorem slotLaw_quietEngine (h : slotLaw s) : slotLaw (quietEngine s) := by
  refine slotLaw_of (s := s) ?_ (fun b => by simp [quietEngine, Channel.quiet]) h
  intro i
  have := slotsAlike_map (f := RefSlot.invalidate) (fun _ => ⟨rfl, rfl⟩) rfl s.refs i
  simpa [quietEngine, invalidateAll] using this
theorem slotLaw_engineReset (h : slotLaw s) : slotLaw (engineReset s) := by
  unfold engineReset
  try simp only []
  repeat' split
  all_goals with_reducible repeat (first | exact h | apply slotLaw_raise | apply slotLaw_recordOutcome | apply slotLaw_quietEngine)
theorem slotLaw_powerOn (h : slotLaw s) : slotLaw (powerOn s) := by
  have hc : ∀ b : ChannelId, (powerOn s).channels[b.val].desc = .zero := fun b => by
    simp [powerOn, State.reset, Channel.zero]
  have hr : ∀ i : Fin 4, (powerOn s).refs[i.val] = .free := fun i => by simp [powerOn, State.reset]
  refine ⟨fun i _ => hr i, fun i j r hi _ => ?_, fun r => ?_, fun i r hi => ?_, fun b hb => ?_⟩
  · rw [hr] at hi; cases hi
  · rw [hc]
    exact ⟨fun hx => (by cases hx), fun ⟨i, hi⟩ => by rw [hr] at hi; cases hi⟩
  · rw [hr] at hi; cases hi
  · rw [hc] at hb; cases hb
theorem slotLaw_endReset (l : Bool) (h : slotLaw s) : slotLaw (endReset l s) := by
  unfold endReset
  try simp only []
  repeat' split
  all_goals with_reducible repeat (first | exact h | apply slotLaw_withInReset | apply slotLaw_withFrontEnd | apply slotLaw_withPort | apply slotLaw_withPins)
theorem slotLaw_takeResult (h : slotLaw s) : slotLaw (takeResult s) := by
  unfold takeResult
  try simp only []
  repeat' split
  all_goals with_reducible repeat (first | exact h | apply slotLaw_withFifo)
theorem slotLaw_popResult (h : slotLaw s) : slotLaw (popResult s) := by
  unfold popResult
  try simp only []
  repeat' split
  all_goals with_reducible repeat (first | exact h | apply slotLaw_retry | apply slotLaw_takeResult)
theorem slotLaw_popAlert (h : slotLaw s) : slotLaw (popAlert s) := by
  unfold popAlert
  try simp only []
  repeat' split
  all_goals with_reducible repeat (first | exact h | apply slotLaw_withAlerts)
theorem slotLaw_readAction (a : Byte) (h : slotLaw s) : slotLaw (readAction a s) := by
  unfold readAction
  try simp only []
  repeat' split
  all_goals with_reducible repeat (first | exact h | apply slotLaw_popResult | apply slotLaw_popAlert)
theorem slotLaw_advancePointer (h : slotLaw s) : slotLaw (advancePointer s) := by
  unfold advancePointer
  try simp only []
  repeat' split
  all_goals with_reducible repeat (first | exact h | apply slotLaw_withPort)
theorem slotLaw_busStart (a : Byte) (h : slotLaw s) : slotLaw (busStart a s) := by
  unfold busStart
  try simp only []
  repeat' split
  all_goals with_reducible repeat (first | exact h | apply slotLaw_withPort)
theorem slotLaw_openWrite (h : slotLaw s) : slotLaw (openWrite s) := by
  unfold openWrite
  try simp only []
  repeat' split
  all_goals with_reducible repeat (first | exact h | apply slotLaw_busStart)
theorem slotLaw_copySnapshot (h : slotLaw s) : slotLaw (copySnapshot s) := by
  unfold copySnapshot
  try simp only []
  repeat' split
  all_goals with_reducible repeat (first | exact h | apply slotLaw_busStart)
theorem slotLaw_sendByte (a : State → State) (h : slotLaw s) (ha : slotLaw (a s)) : slotLaw (sendByte a s) := slotLaw_advancePointer (slotLaw_withPort _ ha)
theorem slotLaw_windowRead (a : Byte) (e : State → State) (h : slotLaw s) (he : ∀ t, slotLaw t → slotLaw (e t)) :
    slotLaw (windowRead a e s) := by
  unfold windowRead
  split
  · exact h
  · split
    · refine slotLaw_sendByte _ h ?_
      split
      · exact he _ h
      · exact slotLaw_readAction _ h
    all_goals exact h
theorem slotLaw_issue (c : Byte) (f : State → State × Reply) (h : slotLaw s) (hf : slotLaw (f s).1) :
    slotLaw (issue c f s) := by
  unfold issue
  split
  · exact slotLaw_collide h
  · exact slotLaw_recordOutcome _ _ hf
theorem slotLaw_issueAbort (h : slotLaw s) : slotLaw (issueAbort s) := by
  unfold issueAbort
  try simp only []
  repeat' split
  all_goals with_reducible repeat (first | exact h | apply slotLaw_recordOutcome | apply slotLaw_abortJob)
theorem slotLaw_issueCode (c : Byte) (h : slotLaw s) : slotLaw (issueCode c s) := by
  unfold issueCode
  refine iteInduction (fun _ => ?_) (fun _ => ?_)
  · exact slotLaw_issue _ _ h (slotLaw_measureNow h)
  refine iteInduction (fun _ => ?_) (fun _ => ?_)
  · exact slotLaw_issueAbort h
  refine iteInduction (fun _ => ?_) (fun _ => ?_)
  · exact slotLaw_issue _ _ h (slotLaw_flushQueue h)
  refine iteInduction (fun _ => ?_) (fun _ => ?_)
  · exact slotLaw_issue _ _ h (slotLaw_scanStart h)
  refine iteInduction (fun _ => ?_) (fun _ => ?_)
  · exact slotLaw_issue _ _ h (slotLaw_scanStop h)
  refine iteInduction (fun _ => ?_) (fun _ => ?_)
  · exact slotLaw_issue _ _ h (slotLaw_scanOnce h)
  refine iteInduction (fun _ => ?_) (fun _ => ?_)
  · exact slotLaw_issue _ _ h (slotLaw_swapBanks h)
  refine iteInduction (fun _ => ?_) (fun _ => ?_)
  · exact slotLaw_issue _ _ h (slotLaw_commitChannel h)
  refine iteInduction (fun _ => ?_) (fun _ => ?_)
  · exact slotLaw_issue _ _ h (slotLaw_fetchChannel h)
  refine iteInduction (fun _ => ?_) (fun _ => ?_)
  · exact slotLaw_issue _ _ h (slotLaw_invalidateReference h)
  refine iteInduction (fun _ => ?_) (fun _ => ?_)
  · exact slotLaw_issue _ _ h (slotLaw_clearZone h)
  refine iteInduction (fun _ => ?_) (fun _ => ?_)
  · exact slotLaw_issue _ _ h (slotLaw_clearAlerts h)
  refine iteInduction (fun _ => ?_) (fun _ => ?_)
  · exact slotLaw_issue _ _ h (slotLaw_clearResults h)
  refine iteInduction (fun _ => ?_) (fun _ => ?_)
  · exact slotLaw_issue _ _ h (slotLaw_setTimebase h)
  refine iteInduction (fun _ => ?_) (fun _ => ?_)
  · exact slotLaw_issue _ _ h (slotLaw_sleep h)
  refine iteInduction (fun _ => ?_) (fun _ => ?_)
  · exact slotLaw_issue _ _ h (slotLaw_wake h)
  refine iteInduction (fun _ => ?_) (fun _ => ?_)
  · exact slotLaw_engineReset h
  exact slotLaw_issue _ _ h (slotLaw_unknownCommand h)
theorem slotLaw_clearFlags (v : Byte) (h : slotLaw s) : slotLaw (clearFlags v s) := by
  unfold clearFlags
  try simp only []
  repeat' split
  all_goals with_reducible repeat (first | exact h | apply slotLaw_withEvents)
theorem slotLaw_writeEnables (v : Byte) (h : slotLaw s) : slotLaw (writeEnables v s) := by
  unfold writeEnables
  try simp only []
  repeat' split
  all_goals with_reducible repeat (first | exact h | apply slotLaw_withEvents)
theorem slotLaw_writeBank (a v : Byte) (h : slotLaw s) : slotLaw (writeBank a v s) := by
  unfold writeBank
  try simp only []
  repeat' split
  all_goals with_reducible repeat (first | exact h | apply slotLaw_withScan)
theorem slotLaw_writeOverrun (v : Byte) (h : slotLaw s) : slotLaw (writeOverrun v s) := by
  unfold writeOverrun
  try simp only []
  repeat' split
  all_goals with_reducible repeat (first | exact h | apply slotLaw_withScan | apply slotLaw_overrun)
theorem slotLaw_writePolicy (v : Byte) (h : slotLaw s) : slotLaw (writePolicy v s) := by
  unfold writePolicy
  try simp only []
  repeat' split
  all_goals with_reducible repeat (first | exact h | apply slotLaw_withFifo | apply slotLaw_retry)
theorem slotLaw_writePeriodLow (v : Byte) (h : slotLaw s) : slotLaw (writePeriodLow v s) := by
  unfold writePeriodLow
  try simp only []
  repeat' split
  all_goals with_reducible repeat (first | exact h | apply slotLaw_withScan)
theorem slotLaw_writePeriodHigh (v : Byte) (h : slotLaw s) : slotLaw (writePeriodHigh v s) := by
  unfold writePeriodHigh
  try simp only []
  repeat' split
  all_goals with_reducible repeat (first | exact h | apply slotLaw_withScan)
theorem slotLaw_writePlain (a v : Byte) (h : slotLaw s) : slotLaw (writePlain a v s) := by
  unfold writePlain
  try simp only []
  repeat' split
  all_goals with_reducible repeat (first | exact h | apply slotLaw_withTimebase | apply slotLaw_withStaging | apply slotLaw_withScan | apply slotLaw_withFifo | apply slotLaw_withCmd | apply slotLaw_writePeriodLow | apply slotLaw_writePeriodHigh)
theorem slotLaw_registerWrite (a v : Byte) (h : slotLaw s) : slotLaw (registerWrite a v s) := by
  unfold registerWrite
  try simp only []
  repeat' split
  all_goals with_reducible repeat (first | exact h | apply slotLaw_issueCode | apply slotLaw_clearFlags | apply slotLaw_writeEnables | apply slotLaw_writeBank | apply slotLaw_writeOverrun | apply slotLaw_writePolicy | apply slotLaw_writePlain)
theorem slotLaw_takeByte (v : Byte) (e : State → State) (h : slotLaw s) (he : ∀ t, slotLaw t → slotLaw (e t)) :
    slotLaw (takeByte v e s) := by
  unfold takeByte
  split
  · exact h
  · split
    · exact slotLaw_withPort _ h
    · exact he _ (slotLaw_advancePointer h)
    all_goals exact h
theorem slotLaw_dataByte (a v : Byte) (e : State → State) (h : slotLaw s) (he : ∀ t, slotLaw t → slotLaw (e t)) :
    slotLaw (dataByte a v e s) := 
  slotLaw_takeByte _ _ h (fun t ht => by split; exacts [he t ht, slotLaw_registerWrite _ _ ht])
theorem slotLaw_loadPointer (v : Byte) (h : slotLaw s) : slotLaw (loadPointer v s) := slotLaw_takeByte _ _ h (fun _ ht => slotLaw_registerWrite _ _ ht)

end Sys2Proof.Machine
end

