-- ==== Sys2Proof/Laws/StallLaw.lean ====
section
/-! SUPPORT. What keeps the law of the stall (R103): a selection leaves it in every state, and the rest keeps it. -/

namespace Sys2Proof.Machine

variable {s : State}

/-- The law reads the queue and the state of the Sequencer. -/
theorem stallLaw_of {t : State} (hq : t.queue = s.queue) (hs : t.seq.state = s.seq.state) (h : stallLaw s) : stallLaw t := by
  unfold stallLaw
  rw [hq, hs]
  exact h

theorem stallLaw_busy (h : s.seq.state ≠ .idle) : stallLaw s := fun hi => absurd hi h

theorem stallLaw_empty (h : s.queue.jobs = []) : stallLaw s := fun _ _ hj => absurd h hj

/-! ### The Arbiter -/

theorem stallLaw_arbitrate (h : arbiterReady s = true) : stallLaw (arbitrate s) := by
  rcases arbitrate_spec s with ⟨hn, he⟩ | ⟨q, rest, t, _, _, he⟩ | ⟨q, rest, _, _, he⟩ <;> rw [he]
  · refine stallLaw_empty ?_
    by_contra hj
    obtain ⟨q, rest, hq⟩ := selectJob_some hj
    rw [hn] at hq
    cases hq
  · exact stallLaw_busy (by simp)
  · split
    · rename_i hs
      exact fun _ _ _ => hs
    · exact fun _ _ _ => by simp

/-- R94: after a selection that was offered while ticks arrive, the law holds, whatever held before. -/
theorem stallLaw_select (hc : clocked s = true) : stallLaw (select s) := by
  unfold select
  split
  · rename_i h
    exact stallLaw_arbitrate (by simp at h; exact h.1)
  · rename_i h
    intro hi ha _
    by_contra hs
    exact h (by simp [arbiterReady, hi, ha, hc, hs])

theorem stallLaw_retry (h : stallLaw s) : stallLaw (retry s) := by
  unfold retry
  split
  · rename_i hr
    exact stallLaw_arbitrate (by simp at hr; exact hr.1)
  · exact h

/-! ### Removals and commits -/

/-- R98: where the law holds and a job goes, the Arbiter stays stalled while a job is left. -/
theorem stallLaw_removeJobs (p : QueuedJob → Bool) (h : stallLaw s) : stallLaw (removeJobs p s).1 := by
  unfold removeJobs
  split
  · exact h
  · rename_i hgone
    refine stallLaw_of (s := clearStallIfEmpty (retake (dropJobs p s))) (by simp) (by simp) ?_
    intro hi ha hj
    rw [clearStallIfEmpty_queue] at ha hj ⊢
    simp only [clearStallIfEmpty_keeps] at hi
    have hjobs : s.queue.jobs ≠ [] := fun he => hgone (by simp [he])
    have hstalled := h (by simpa [dropJobs] using hi) (by simpa [dropJobs] using ha) hjobs
    have hne : (retake (dropJobs p s)).queue.jobs ≠ [] := hj
    have hst : (retake (dropJobs p s)).queue.stalled = true := by simpa [dropJobs] using hstalled
    simp only [hst, Bool.true_and, Bool.not_eq_true', List.isEmpty_eq_false_iff]
    exact hne

theorem stallLaw_applyCommit (ch : ChannelId) (im : Image) (h : stallLaw s) : stallLaw (applyCommit ch im s).1 := by
  unfold applyCommit
  simp only []
  split
  · refine stallLaw_removeJobs _ (stallLaw_of ?_ ?_ h)
    · split <;> simp
    · split <;> simp
  · refine stallLaw_of ?_ ?_ h
    · split <;> simp
    · split <;> simp

theorem stallLaw_decideCommit (ch : ChannelId) (im : Image) (h : stallLaw s) : stallLaw (decideCommit ch im s).1 := by
  unfold decideCommit
  split
  · exact h
  · exact stallLaw_applyCommit _ _ h

/-! ### The Sequencer -/

theorem stallLaw_jobEnd (st : JobStatus) (hc : clocked s = true) (h : stallLaw s) : stallLaw (jobEnd st s) := by
  unfold jobEnd
  split
  · exact h
  · unfold offerSequencer
    exact stallLaw_select (by simpa [clocked] using hc)

theorem stallLaw_phaseEnd (pe : PhaseEnd) (hc : clocked s = true) (h : stallLaw s) : stallLaw (phaseEnd pe s) := by
  unfold phaseEnd
  split
  · exact h
  · simp only []
    split
    · exact stallLaw_jobEnd _ (by simpa [clocked] using hc) (stallLaw_of (by simp) (by simp) h)
    · split
      · exact stallLaw_busy (by simp)
      all_goals exact stallLaw_jobEnd _ (by simpa [clocked] using hc) (stallLaw_of (by simp) (by simp) h)

theorem stallLaw_sampleComplete (hc : clocked s = true) (h : stallLaw s) : stallLaw (sampleComplete s) := by
  unfold sampleComplete
  simp only []
  split
  · exact stallLaw_phaseEnd _ hc h
  · split
    · exact stallLaw_phaseEnd _ (by simpa [clocked] using hc) (stallLaw_of (by simp) (by simp) h)
    · exact stallLaw_busy (by simp [enterArm])

theorem stallLaw_overflowed (hc : clocked s = true) (h : stallLaw s) : stallLaw (overflowed s) := by
  unfold overflowed
  simp only []
  split
  · exact stallLaw_busy (by simp [enterArm])
  · exact stallLaw_phaseEnd _ hc h

theorem stallLaw_enterSettle : stallLaw (enterSettle s) := by
  unfold enterSettle
  simp only []
  split <;> exact stallLaw_busy (by simp [enterArm])

theorem stallLaw_sequencerTb (hc : clocked s = true) (h : stallLaw s) : stallLaw (sequencerTb s) := by
  have hw : ∀ w : Working, stallLaw (s.withSeq { s.seq with work := w }) := fun w => stallLaw_of (by simp) (by simp) h
  unfold sequencerTb
  simp only []
  split
  · exact h
  · exact h
  · split
    · exact stallLaw_enterSettle
    · exact hw _
  · split
    · exact stallLaw_phaseEnd _ (by simpa [clocked] using hc) (hw _)
    · exact hw _
  · split
    · repeat' split
      · exact stallLaw_sampleComplete (by simpa [clocked] using hc) (hw _)
      · exact stallLaw_phaseEnd _ (by simpa [clocked] using hc) (hw _)
      · exact hw _
    · repeat' split
      · exact stallLaw_overflowed hc h
      · exact stallLaw_phaseEnd _ (by simpa [clocked] using hc) (hw _)
      · exact hw _

theorem stallLaw_sequencerSlow (h : stallLaw s) : stallLaw (sequencerSlow s) := by
  unfold sequencerSlow
  split
  · rename_i hs
    simp only []
    split
    · exact stallLaw_busy (by simp [enterArm])
    · exact stallLaw_busy (by simp [hs])
  all_goals exact h

theorem stallLaw_sequencerEdge (hc : s.seq.state ≠ .idle → clocked s = true) (h : stallLaw s) :
    stallLaw (sequencerEdge s) := by
  unfold sequencerEdge
  simp only []
  split
  · exact h
  · exact h
  · exact h
  · exact stallLaw_busy (by simp [startSample])
  · rename_i hs
    have hc := hc (by rw [hs]; exact nofun)
    split
    · split
      · exact stallLaw_overflowed hc h
      · exact stallLaw_of (by simp) (by simp) h
    · split
      · exact stallLaw_sampleComplete (by simpa [clocked] using hc) (stallLaw_of (by simp) (by simp) h)
      · exact stallLaw_of (by simp) (by simp) h

theorem stallLaw_oscillatorEdge (close : Bool) (hc : s.seq.state ≠ .idle → clocked s = true) (h : stallLaw s) :
    stallLaw (oscillatorEdge close s) := by
  rw [oscillatorEdge_spec]
  split
  · exact h
  · exact h
  · rename_i pin high hf
    unfold deliverEdge
    split
    · simp only []
      split
      · exact stallLaw_sequencerEdge hc h
      · exact h
    · exact stallLaw_sequencerEdge hc h

theorem stallLaw_nodeMoves (h : stallLaw s) : stallLaw (nodeMoves s) := stallLaw_of (by simp) (by simp) h

/-! ### The scan -/

theorem stallLaw_offer (n : Nat) (ch : ChannelId) (hc : clocked s = true) : stallLaw (offer n ch s) :=
  stallLaw_select (by simpa [clocked] using hc)

theorem stallLaw_moveOnto (n : Nat) (hc : clocked s = true) (h : stallLaw s) : stallLaw (moveOnto n s) := by
  unfold moveOnto
  split
  · exact stallLaw_offer _ _ hc
  · exact stallLaw_of (by simp) (by simp) h

theorem stallLaw_cursorMove (hc : clocked s = true) (h : stallLaw s) : stallLaw (cursorMove s) := by
  unfold cursorMove
  split
  · exact stallLaw_moveOnto _ hc h
  all_goals exact h

theorem stallLaw_passStart (hc : clocked s = true) (h : stallLaw s) : stallLaw (passStart s) :=
  stallLaw_moveOnto 0 hc h

theorem stallLaw_passDue (hc : clocked s = true) (h : stallLaw s) : stallLaw (passDue s) := by
  unfold passDue
  split
  · exact stallLaw_passStart hc h
  · exact stallLaw_of (by simp) (by simp) h
  all_goals exact h

theorem stallLaw_expiry (hc : clocked s = true) (h : stallLaw s) : stallLaw (expiry s) := stallLaw_passDue hc h

theorem stallLaw_timerTick (hc : clocked s = true) (h : stallLaw s) : stallLaw (timerTick s) := by
  unfold timerTick
  repeat' split
  · exact stallLaw_expiry hc h
  all_goals exact h

theorem stallLaw_qualifiedEdge (level : Bool) (hc : clocked s = true) (h : stallLaw s) :
    stallLaw (qualifiedEdge level s) := by
  unfold qualifiedEdge
  simp only []
  split
  · exact stallLaw_passDue hc h
  · exact h

theorem stallLaw_trigSample (hc : clocked s = true) (h : stallLaw s) : stallLaw (trigSample s) := by
  unfold trigSample
  repeat' split
  · exact h
  · exact stallLaw_qualifiedEdge _ hc h
  · exact h

/-! ### Ticks -/

/-- What the shares of a tick keep together. -/
def stallAwake (s : State) : Prop := clocked s = true ∧ stallLaw s

theorem stallAwake_freeIndex (s : State) (n : Nat) (h : stallAwake s) : stallAwake (s.withFreeIndex n) := h

theorem stallAwake_slowShare (h : stallAwake s) : stallAwake (slowShare s) := by
  have age : ∀ t, stallAwake t → stallAwake (ageTick t) := fun _ h => h
  have scan : ∀ t, stallAwake t → stallAwake (scanSlow t) := fun t h =>
    ⟨by simpa [scanSlow, clocked] using h.1,
      stallLaw_trigSample (by simpa [clocked] using h.1) (stallLaw_timerTick h.1 h.2)⟩
  have hst : stallAwake (stampTick s) := h
  exact eitherOrder_ind stallAwake_freeIndex (scan _ (age _ hst)) (age _ (scan _ hst))

theorem stallAwake_sequencerShare (before : SeqState) (slow : Bool) (h : stallAwake s) :
    stallAwake (sequencerShare before slow s) := by
  have tb : stallAwake (sequencerTb s) := ⟨by simpa [clocked] using h.1, stallLaw_sequencerTb h.1 h.2⟩
  unfold sequencerShare
  repeat' split
  · exact h
  · exact ⟨by simpa [clocked] using h.1, stallLaw_sequencerSlow h.2⟩
  · exact h
  all_goals exact tb

theorem stallAwake_cursorShare (before : Cursor) (h : stallAwake s) : stallAwake (cursorShare before s) := by
  unfold cursorShare
  split
  · exact ⟨by simpa [clocked] using h.1, stallLaw_cursorMove h.1 h.2⟩
  all_goals exact h

theorem stallLaw_tbTick (level : Bool) (h : stallLaw s) : stallLaw (tbTick level s) := by
  unfold tbTick
  split
  · rename_i hc
    refine And.right (a := clocked _ = true) (anyOrder_ind (P := stallAwake) stallAwake_freeIndex
      (fun _ => stallAwake_sequencerShare _ _) (fun _ => stallAwake_cursorShare _) (fun t ht => ?_)
      ⟨by simpa [clocked] using hc, h⟩)
    split
    · exact stallAwake_slowShare ht
    · exact ht
  · exact h

theorem stallLaw_slowTick (level : Bool) (h : stallLaw s) : stallLaw (slowTick level s) := by
  unfold slowTick
  split
  · rename_i hc
    refine And.right (a := clocked _ = true) (stallAwake_slowShare ⟨by simpa [clocked] using hc, ?_⟩)
    exact stallLaw_sequencerSlow h
  · exact h

/-! ### Commands and register writes -/

/-- What a byte finds: no reset is held, and the Sequencer is busy only while ticks arrive. -/
def stallTaken (s : State) : Prop := s.inReset = false ∧ (s.seq.state ≠ .idle → clocked s = true) ∧ stallLaw s

theorem clocked_awake (h0 : s.inReset = false) (hp : s.timebase.power ≠ .asleep) : clocked s = true := by
  cases h : s.timebase.power with
  | awake => simp [clocked, h0, h]
  | asleep => exact absurd h hp

theorem stallLaw_admitDirect (ch : ChannelId) (hc : clocked s = true) (h : stallLaw s) :
    stallLaw (admitDirect ch s).1 := by
  unfold admitDirect
  simp only []
  repeat' split
  all_goals first | exact h | exact stallLaw_select hc

theorem stallLaw_measureNow (h : stallTaken s) : stallLaw (measureNow s).1 := by
  unfold measureNow
  repeat' split
  · exact h.2.2
  · exact h.2.2
  · rename_i hp
    exact stallLaw_admitDirect _ (clocked_awake h.1 hp) h.2.2

theorem stallLaw_abortJob (h : stallTaken s) : stallLaw (abortJob s).1 := by
  unfold abortJob
  split
  · exact h.2.2
  · rename_i hs
    exact stallLaw_jobEnd _ (h.2.1 hs) h.2.2

theorem stallLaw_flushQueue (h : stallLaw s) : stallLaw (flushQueue s).1 := by
  unfold flushQueue
  split
  · exact h
  · exact stallLaw_removeJobs _ h

theorem stallLaw_scanStart (h : stallTaken s) : stallLaw (scanStart s).1 := by
  unfold scanStart
  split
  · exact h.2.2
  · refine iteInduction (motive := fun x : State × Reply => stallLaw x.1) (fun _ => h.2.2) (fun hp => ?_)
    refine iteInduction (motive := fun x : State × Reply => stallLaw x.1) (fun _ => h.2.2) (fun _ => ?_)
    exact stallLaw_passStart (clocked_awake h.1 hp) h.2.2

theorem stallLaw_scanOnce (h : stallTaken s) : stallLaw (scanOnce s).1 := by
  unfold scanOnce
  refine iteInduction (motive := fun x : State × Reply => stallLaw x.1) (fun _ => h.2.2) (fun hp => ?_)
  have hc := clocked_awake h.1 hp
  split
  · exact stallLaw_passStart hc h.2.2
  · exact stallLaw_passStart hc h.2.2
  · exact h.2.2
  · exact h.2.2

theorem stallLaw_scanStop (h : stallLaw s) : stallLaw (scanStop s).1 := by
  unfold scanStop
  simp only []
  split
  · exact h
  · have hr := stallLaw_removeJobs (fun j => j.tag.isScan)
      (s := s.withScan { s.scan with cursor := .cleared, timer := 0 }) (stallLaw_of (by simp) (by simp) h)
    split <;> exact stallLaw_of (by simp) (by simp) hr

theorem stallLaw_commitChannel (h : stallLaw s) : stallLaw (commitChannel s).1 := by
  unfold commitChannel
  simp only []
  repeat' split
  · exact h
  · exact h
  · exact stallLaw_decideCommit _ _ h

/-- The commands that leave the queue and the Sequencer. -/
theorem stallLaw_quietCommands (h : stallLaw s) :
    stallLaw (swapBanks s).1 ∧ stallLaw (fetchChannel s).1 ∧ stallLaw (invalidateReference s).1 ∧
      stallLaw (clearZone s).1 ∧ stallLaw (clearAlerts s).1 ∧ stallLaw (setTimebase s).1 ∧ stallLaw (sleep s).1 ∧
      stallLaw (wake s).1 ∧ stallLaw (unknownCommand s).1 := by
  unfold swapBanks fetchChannel invalidateReference clearZone clearAlerts setTimebase sleep wake unknownCommand
  simp only []
  refine ⟨?_, ?_, ?_, ?_, ?_, ?_, ?_, ?_, ?_⟩
  all_goals repeat' split
  all_goals exact h

theorem stallLaw_clearResults (h : stallLaw s) : stallLaw (clearResults s).1 := by
  unfold clearResults
  exact stallLaw_retry h

theorem stallLaw_engineReset : stallLaw (engineReset s) := by
  refine stallLaw_empty ?_
  unfold engineReset quietEngine
  simp only []
  split <;> simp [JobQueue.quiet]

theorem stallLaw_issue (c : Byte) (f : State → State × Reply) (h : stallLaw s) (hf : stallLaw (f s).1) :
    stallLaw (issue c f s) := by
  unfold issue
  split
  · exact h
  · exact hf

theorem stallLaw_issueAbort (h : stallTaken s) : stallLaw (issueAbort s) := by
  unfold issueAbort
  split
  · exact stallLaw_abortJob h
  · exact stallLaw_abortJob h

theorem stallLaw_issueCode (c : Byte) (h : stallTaken s) : stallLaw (issueCode c s) := by
  have law := h.2.2
  obtain ⟨h1, h2, h3, h4, h5, h6, h7, h8, h9⟩ := stallLaw_quietCommands law
  unfold issueCode
  refine iteInduction (fun _ => stallLaw_issue _ _ law (stallLaw_measureNow h)) (fun _ => ?_)
  refine iteInduction (fun _ => stallLaw_issueAbort h) (fun _ => ?_)
  refine iteInduction (fun _ => stallLaw_issue _ _ law (stallLaw_flushQueue law)) (fun _ => ?_)
  refine iteInduction (fun _ => stallLaw_issue _ _ law (stallLaw_scanStart h)) (fun _ => ?_)
  refine iteInduction (fun _ => stallLaw_issue _ _ law (stallLaw_scanStop law)) (fun _ => ?_)
  refine iteInduction (fun _ => stallLaw_issue _ _ law (stallLaw_scanOnce h)) (fun _ => ?_)
  refine iteInduction (fun _ => stallLaw_issue _ _ law h1) (fun _ => ?_)
  refine iteInduction (fun _ => stallLaw_issue _ _ law (stallLaw_commitChannel law)) (fun _ => ?_)
  refine iteInduction (fun _ => stallLaw_issue _ _ law h2) (fun _ => ?_)
  refine iteInduction (fun _ => stallLaw_issue _ _ law h3) (fun _ => ?_)
  refine iteInduction (fun _ => stallLaw_issue _ _ law h4) (fun _ => ?_)
  refine iteInduction (fun _ => stallLaw_issue _ _ law h5) (fun _ => ?_)
  refine iteInduction (fun _ => stallLaw_issue _ _ law (stallLaw_clearResults law)) (fun _ => ?_)
  refine iteInduction (fun _ => stallLaw_issue _ _ law h6) (fun _ => ?_)
  refine iteInduction (fun _ => stallLaw_issue _ _ law h7) (fun _ => ?_)
  refine iteInduction (fun _ => stallLaw_issue _ _ law h8) (fun _ => ?_)
  refine iteInduction (fun _ => stallLaw_engineReset) (fun _ => ?_)
  exact stallLaw_issue _ _ law h9

theorem stallLaw_writePolicy (v : Byte) (h : stallLaw s) : stallLaw (writePolicy v s) := stallLaw_retry h

theorem stallLaw_writePlain (a v : Byte) (h : stallLaw s) : stallLaw (writePlain a v s) := by
  unfold writePlain
  simp only []
  repeat' split
  all_goals exact h

theorem stallLaw_registerWrite (a v : Byte) (h : stallTaken s) : stallLaw (registerWrite a v s) := by
  have law := h.2.2
  unfold registerWrite
  refine iteInduction (fun _ => stallLaw_issueCode v h) (fun _ => ?_)
  refine iteInduction (fun _ => by unfold writeOverrun; split <;> exact law) (fun _ => ?_)
  refine iteInduction (fun _ => law) (fun _ => ?_)
  refine iteInduction (fun _ => law) (fun _ => ?_)
  refine iteInduction (fun _ => stallLaw_writePolicy v law) (fun _ => ?_)
  refine iteInduction (fun _ => by unfold writeBank; split <;> exact law) (fun _ => ?_)
  exact stallLaw_writePlain a v law

/-- R164: a data byte in the row of a register write keeps the law where the owner's effect does. -/
theorem stallLaw_takeByte (v : Byte) {e : State → State} (hc : s.seq.state ≠ .idle → clocked s = true) (h : stallLaw s)
    (he : ∀ t, stallTaken t → stallLaw (e t)) : stallLaw (takeByte v e s) := by
  unfold takeByte
  split
  · exact h
  · rename_i h0
    split
    · exact h
    · exact he _ ⟨by simpa [advancePointer] using h0, by simpa [advancePointer, clocked] using hc, h⟩
    · exact h
    · exact h

theorem stallLaw_dataByte (a v : Byte) {e : State → State} (hc : s.seq.state ≠ .idle → clocked s = true)
    (h : stallLaw s) (he : ∀ t, stallTaken t → stallLaw (e t)) : stallLaw (dataByte a v e s) := by
  refine stallLaw_takeByte v hc h (fun t ht => ?_)
  split
  · exact he t ht
  · exact stallLaw_registerWrite _ _ ht

theorem stallLaw_loadPointer (v : Byte) (hc : s.seq.state ≠ .idle → clocked s = true) (h : stallLaw s) :
    stallLaw (loadPointer v s) := stallLaw_takeByte v hc h (fun _ ht => stallLaw_registerWrite _ _ ht)

theorem stallLaw_popResult (h : stallLaw s) : stallLaw (popResult s) := by
  refine stallLaw_retry ?_
  unfold takeResult
  split <;> exact h

theorem stallLaw_popAlert (h : stallLaw s) : stallLaw (popAlert s) := by
  unfold popAlert
  split <;> exact h

theorem stallLaw_windowRead (a : Byte) {pop : State → State} (h : stallLaw s)
    (hp : ∀ t, stallLaw t → stallLaw (pop t)) : stallLaw (windowRead a pop s) := by
  have send : ∀ f : State → State, stallLaw (f s) → stallLaw (sendByte f s) := fun _ hf => hf
  have action : stallLaw (readAction s.port.pointer s) := by
    unfold readAction
    split
    · exact stallLaw_popResult h
    · split
      · exact stallLaw_popAlert h
      · exact h
  unfold windowRead
  split
  · exact h
  · split
    · refine send _ ?_
      split
      · exact hp s h
      · exact action
    all_goals exact h

theorem stallLaw_busStart (a : Byte) (h : stallLaw s) : stallLaw (busStart a s) := by
  unfold busStart
  repeat' split
  all_goals exact h

end Sys2Proof.Machine
end

