-- ==== Sys2Proof/Laws/Ticks.lean ====
section
/-! SUPPORT. With the Sequencer busy, the shares of a tick commute: what the Scan Controller does neither reads nor writes
the Sequencer or the slots. -/

namespace Sys2Proof.Machine

variable {s : State} {f : State → State}

/-- A change of a block that the Scan Controller neither reads nor writes while the Sequencer is busy. -/
structure Aside (f : State → State) : Prop where
  queue : ∀ s, (f s).queue = s.queue
  scan : ∀ s, (f s).scan = s.scan
  channels : ∀ s, (f s).channels = s.channels
  events : ∀ s, (f s).events = s.events
  pins : ∀ s, (f s).pins = s.pins
  withQueue : ∀ s x, f (s.withQueue x) = (f s).withQueue x
  withScan : ∀ s x, f (s.withScan x) = (f s).withScan x
  withEvents : ∀ s x, f (s.withEvents x) = (f s).withEvents x

theorem aside_withSeq (q : Sequencer) : Aside (fun s => s.withSeq q) :=
  ⟨fun _ => rfl, fun _ => rfl, fun _ => rfl, fun _ => rfl, fun _ => rfl, fun _ _ => rfl, fun _ _ => rfl, fun _ _ => rfl⟩

theorem aside_ageTick : Aside ageTick :=
  ⟨fun _ => rfl, fun _ => rfl, fun _ => rfl, fun _ => rfl, fun _ => rfl, fun _ _ => rfl, fun _ _ => rfl, fun _ _ => rfl⟩

/-! ### The cursor and the causes of a pass -/

theorem busy_select (h : s.seq.state ≠ .idle) : select s = s := select_none (.inl (by simp [arbiterReady, h]))

theorem busy_offer (n : Nat) (ch : ChannelId) (h : s.seq.state ≠ .idle) : offer n ch s = decideOffer n ch s :=
  busy_select (by simpa using h)

theorem busy_moveOnto_seq (n : Nat) (h : s.seq.state ≠ .idle) : (moveOnto n s).seq = s.seq := by
  unfold moveOnto
  split
  · rw [busy_offer _ _ h]; simp
  · simp

theorem busy_passDue_seq (h : s.seq.state ≠ .idle) : (passDue s).seq = s.seq := by
  unfold passDue
  split
  · exact busy_moveOnto_seq 0 (by simpa using h)
  all_goals simp

theorem busy_timerTick_seq (h : s.seq.state ≠ .idle) : (timerTick s).seq = s.seq := by
  unfold timerTick
  repeat' split
  · exact busy_passDue_seq (by simpa using h)
  all_goals simp

theorem busy_qualifiedEdge_seq (level : Bool) (h : s.seq.state ≠ .idle) : (qualifiedEdge level s).seq = s.seq := by
  unfold qualifiedEdge
  simp only []
  split
  · exact busy_passDue_seq (by simpa using h)
  · rfl

theorem busy_scanSlow_seq (h : s.seq.state ≠ .idle) : (scanSlow s).seq = s.seq := by
  have ht := busy_timerTick_seq h
  unfold scanSlow trigSample
  repeat' split
  · exact ht
  · rw [busy_qualifiedEdge_seq _ (by rw [ht]; exact h), ht]
  · exact ht

theorem decideOffer_aside (hf : Aside f) (n : Nat) (ch : ChannelId) (s : State) :
    decideOffer n ch (f s) = f (decideOffer n ch s) := by
  unfold decideOffer
  simp only [hf.queue, hf.scan]
  by_cases h1 : s.queue.jobs.any (QueuedJob.isScanFor ch) = true
  · simp only [h1, ↓reduceIte, hf.withScan]
  · simp only [h1, Bool.false_eq_true, ↓reduceIte]
    by_cases h2 : Config.queueCapacity ≤ s.queue.jobs.length
    · simp only [h2, ↓reduceIte, hf.withScan]
    · simp only [h2, ↓reduceIte, hf.withScan, hf.withQueue]

theorem nextOffer_aside (hf : Aside f) (fuel n : Nat) : nextOffer (f s) fuel n = nextOffer s fuel n := by
  have ho : ∀ n, entryOffer (f s) n = entryOffer s n := by
    intro n
    unfold entryOffer
    simp only [hf.scan, hf.channels]
  induction fuel generalizing n with
  | zero => rfl
  | succ fuel ih => rw [nextOffer, nextOffer, ih, ho]

theorem passEnd_aside (hf : Aside f) (s : State) : passEnd (f s) = f (passEnd s) := by
  have hr : raise .pass (f s) = f (raise .pass s) := by
    unfold raise
    rw [hf.events, hf.withEvents]
  have hs : ∀ t, applySwap (f t) = f (applySwap t) := by
    intro t
    unfold applySwap
    rw [hf.scan]
    split
    · rw [hf.withScan]
    · rfl
  have hc : ∀ t, closePass (f t) = f (closePass t) := by
    intro t
    unfold closePass
    rw [hf.scan]
    split <;> rw [hf.withScan]
  unfold passEnd
  rw [hr, hs, hc]

theorem checkPassEnd_aside (hf : Aside f) (s : State) : checkPassEnd (f s) = f (checkPassEnd s) := by
  unfold checkPassEnd
  rw [hf.scan]
  split
  · exact passEnd_aside hf s
  · rfl

theorem moveOnto_aside (hf : Aside f) (n : Nat) (h : s.seq.state ≠ .idle) (hq : (f s).seq.state ≠ .idle) :
    moveOnto n (f s) = f (moveOnto n s) := by
  unfold moveOnto
  rw [nextOffer_aside hf, hf.scan]
  split
  · rw [busy_offer _ _ h, busy_offer _ _ hq, decideOffer_aside hf]
  · rw [← hf.withScan, checkPassEnd_aside hf]

theorem cursorMove_aside (hf : Aside f) (h : s.seq.state ≠ .idle) (hq : (f s).seq.state ≠ .idle) :
    cursorMove (f s) = f (cursorMove s) := by
  unfold cursorMove
  rw [hf.scan]
  split
  · exact moveOnto_aside hf _ h hq
  all_goals rfl

theorem passDue_aside (hf : Aside f) (h : s.seq.state ≠ .idle) (hq : (f s).seq.state ≠ .idle) :
    passDue (f s) = f (passDue s) := by
  unfold passDue passStart overrun raise
  rw [hf.scan]
  split
  · rw [← hf.withScan, moveOnto_aside hf _ (by simpa using h) (by rw [hf.withScan]; simpa using hq)]
  · rw [← hf.withScan, hf.events, hf.withEvents]
  all_goals rfl

theorem timerTick_aside (hf : Aside f) (h : s.seq.state ≠ .idle) (hq : (f s).seq.state ≠ .idle) :
    timerTick (f s) = f (timerTick s) := by
  have hr : timerRuns (f s) = timerRuns s := by unfold timerRuns; rw [hf.scan]
  unfold timerTick expiry
  rw [hr, hf.scan]
  split
  · split
    · rw [← hf.withScan, passDue_aside hf (by simpa using h) (by rw [hf.withScan]; simpa using hq)]
    · rw [hf.withScan]
  · rfl

theorem qualifiedEdge_aside (hf : Aside f) (level : Bool) (h : s.seq.state ≠ .idle) (hq : (f s).seq.state ≠ .idle) :
    qualifiedEdge level (f s) = f (qualifiedEdge level s) := by
  have hp := passDue_aside hf (s := s.withScan { s.scan with filtered := level, stable := 0 }) h
    (by rw [hf.withScan]; exact hq)
  unfold qualifiedEdge
  simp only [hf.scan, State.withScan_scan]
  by_cases hm : s.scan.mode = .triggered ∧ level = polarityLevel s.scan.trigSetting
  · simp only [hm, and_self, ↓reduceIte]
    rw [← hf.withScan]
    simpa only [hm] using hp
  · simp only [hm, ↓reduceIte]
    rw [hf.withScan]

theorem trigSample_aside (hf : Aside f) (h : s.seq.state ≠ .idle) (hq : (f s).seq.state ≠ .idle) :
    trigSample (f s) = f (trigSample s) := by
  have he := qualifiedEdge_aside hf s.pins.trig h hq
  unfold trigSample
  simp only [hf.scan, hf.pins]
  by_cases h1 : s.pins.trig = s.scan.filtered
  · simp only [h1, ↓reduceIte, hf.withScan]
  · simp only [h1, ↓reduceIte]
    by_cases h2 : filterLength s.scan.trigSetting < s.scan.stable + 1
    · simp only [h2, ↓reduceIte, he]
    · simp only [h2, ↓reduceIte, hf.withScan]

theorem scanSlow_aside (hf : Aside f) (hseq : ∀ x y : State, x.seq = y.seq → (f x).seq = (f y).seq)
    (h : s.seq.state ≠ .idle) (hq : (f s).seq.state ≠ .idle) : scanSlow (f s) = f (scanSlow s) := by
  have ht := busy_timerTick_seq h
  unfold scanSlow
  rw [timerTick_aside hf h hq, trigSample_aside hf (by rw [ht]; exact h) (by rw [hseq _ _ ht]; exact hq)]

/-! ### The shares of a slow tick -/

theorem oneOf_same {x : State} {rest : List State} (h : ∀ y ∈ rest, y = x) : oneOf x rest = x := by
  unfold oneOf
  rw [if_pos]
  rw [List.all_eq_true]
  intro y hy
  rw [h y hy]
  simp

/-- R74: with the Sequencer busy no job starts at the tick, and the two orders agree. -/
theorem busy_slowShare (h : s.seq.state ≠ .idle) : slowShare s = scanSlow (ageTick (stampTick s)) := by
  have hb : (stampTick s).seq.state ≠ .idle := h
  unfold slowShare eitherOrder
  refine oneOf_same (fun y hy => ?_)
  rw [List.mem_singleton.mp hy]
  exact (scanSlow_aside aside_ageTick (fun _ _ hxy => hxy) hb hb).symm

theorem busy_slowShare_seq (h : s.seq.state ≠ .idle) : (slowShare s).seq = s.seq := by
  rw [busy_slowShare h, busy_scanSlow_seq (s := ageTick (stampTick s)) h]
  rfl

theorem slowShare_withSeq (q : Sequencer) (h : s.seq.state ≠ .idle) (hq : q.state ≠ .idle) :
    slowShare (s.withSeq q) = (slowShare s).withSeq q := by
  rw [busy_slowShare h, busy_slowShare (s := s.withSeq q) hq]
  exact scanSlow_aside (s := ageTick (stampTick s)) (aside_withSeq q) (fun _ _ _ => rfl) h hq

theorem cursorMove_withSeq (q : Sequencer) (h : s.seq.state ≠ .idle) (hq : q.state ≠ .idle) :
    cursorMove (s.withSeq q) = (cursorMove s).withSeq q := cursorMove_aside (aside_withSeq q) h hq

theorem busy_cursorMove_seq (h : s.seq.state ≠ .idle) : (cursorMove s).seq = s.seq := by
  unfold cursorMove
  split
  · exact busy_moveOnto_seq _ h
  all_goals rfl

/-! ### The shares of a TB tick -/

/-- Where the cursor's share is its move, whatever its place. -/
theorem cursorShare_move (s : State) : cursorShare s.scan.cursor s = cursorMove s := by
  unfold cursorShare cursorMove
  split <;> simp_all

/-- Three shares of which one does nothing, in any order. -/
theorem anyOrder_noC {a b : State → State} (h : b (a s) = a (b s)) : anyOrder a b id s = b (a s) := by
  unfold anyOrder
  refine oneOf_same (fun y hy => ?_)
  simp only [id_eq, List.mem_cons, List.not_mem_nil, or_false] at hy
  rcases hy with rfl | rfl | rfl | rfl | rfl <;> first | rfl | exact h.symm

theorem anyOrder_noB {a c : State → State} (h : c (a s) = a (c s)) : anyOrder a id c s = c (a s) := by
  unfold anyOrder
  refine oneOf_same (fun y hy => ?_)
  simp only [id_eq, List.mem_cons, List.not_mem_nil, or_false] at hy
  rcases hy with rfl | rfl | rfl | rfl | rfl <;> first | rfl | exact h.symm

end Sys2Proof.Machine
end

