-- ==== Sys2Proof/Laws/WorkingLaw.lean ====
section
/-! SUPPORT. What keeps the law of the WORKING outcome (R36, R113, R174), beside those of the marks and of the pass count. -/

namespace Sys2Proof.Machine

set_option linter.unusedTactic false
set_option linter.unreachableTactic false

variable {s z : State}

/-- From `z` to `t`: the outcome and the deferred commit are kept, the scan is stopping as it was, and no mark is lost. -/
def wkeep (z t : State) : Prop :=
  t.cmd.outcome = z.cmd.outcome ∧ t.deferred = z.deferred ∧ (t.scan.state = .stopping ↔ z.scan.state = .stopping) ∧
    ∀ ch : ChannelId, z.channels[ch.val].engaged = true → t.channels[ch.val].engaged = true

theorem wkeep.rfl' (s : State) : wkeep s s := ⟨rfl, rfl, Iff.rfl, fun _ h => h⟩

theorem wkeep.trans {a b c : State} (h : wkeep a b) (g : wkeep b c) : wkeep a c :=
  ⟨g.1.trans h.1, g.2.1.trans h.2.1, g.2.2.1.trans h.2.2.1, fun ch hc => g.2.2.2 ch (h.2.2.2 ch hc)⟩

theorem wkeep_withScan {z : State} (x : ScanController) (hx : x.state = .stopping ↔ s.scan.state = .stopping)
    (h : wkeep z s) : wkeep z (s.withScan x) := h.trans ⟨rfl, rfl, hx, fun _ hc => hc⟩

theorem wkeep_withPending (x : List Instr) (h : wkeep z s) : wkeep z (s.withPending x) := h
theorem wkeep_withInReset (x : Bool) (h : wkeep z s) : wkeep z (s.withInReset x) := h
theorem wkeep_withFrontEnd (x : FrontEnd) (h : wkeep z s) : wkeep z (s.withFrontEnd x) := h
theorem wkeep_withTimebase (x : Timebase) (h : wkeep z s) : wkeep z (s.withTimebase x) := h
theorem wkeep_withStaging (x : Vector Byte 32) (h : wkeep z s) : wkeep z (s.withStaging x) := h
theorem wkeep_withSeq (x : Sequencer) (h : wkeep z s) : wkeep z (s.withSeq x) := h
theorem wkeep_withRefs (x : Vector RefSlot 4) (h : wkeep z s) : wkeep z (s.withRefs x) := h
theorem wkeep_withQueue (x : JobQueue) (h : wkeep z s) : wkeep z (s.withQueue x) := h
theorem wkeep_withAlerts (x : AlertList) (h : wkeep z s) : wkeep z (s.withAlerts x) := h
theorem wkeep_withFifo (x : ResultFifo) (h : wkeep z s) : wkeep z (s.withFifo x) := h
theorem wkeep_withPort (x : SerialPort) (h : wkeep z s) : wkeep z (s.withPort x) := h
theorem wkeep_withEvents (x : EventUnit) (h : wkeep z s) : wkeep z (s.withEvents x) := h
theorem wkeep_withPins (x : InputPins) (h : wkeep z s) : wkeep z (s.withPins x) := h
theorem wkeep_withFreeIndex (x : Nat) (h : wkeep z s) : wkeep z (s.withFreeIndex x) := h

theorem wkeep_raise (f : Flag) (h : wkeep z s) : wkeep z (raise f s) := h.trans ⟨by simp, by simp, by simp, by simp⟩
theorem wkeep_clampRequest (h : wkeep z s) : wkeep z (clampRequest s) := h.trans ⟨by simp, by simp, by simp, by simp⟩
theorem wkeep_runRequest (p : PinId) (h : wkeep z s) : wkeep z (runRequest p s) := h.trans ⟨by simp, by simp, by simp, by simp⟩
theorem wkeep_onSlot (ch : ChannelId) (f : RefSlot → RefSlot) (h : wkeep z s) : wkeep z (onSlot ch f s) := h.trans ⟨by simp, by simp, by simp, by simp⟩
theorem wkeep_invalidateAll (h : wkeep z s) : wkeep z (invalidateAll s) := h.trans ⟨by simp, by simp, by simp, by simp⟩
theorem wkeep_startPhase (ch : ChannelId) (h : wkeep z s) : wkeep z (startPhase ch s) := h.trans ⟨by simp, by simp, by simp, by simp⟩
theorem wkeep_enterArm (h : wkeep z s) : wkeep z (enterArm s) := h.trans ⟨by simp, by simp, by simp, by simp⟩
theorem wkeep_enterSettle (h : wkeep z s) : wkeep z (enterSettle s) := h.trans ⟨by simp, by simp, by simp, by simp⟩
theorem wkeep_startSample (h : wkeep z s) : wkeep z (startSample s) := h.trans ⟨by simp, by simp, by simp, by simp⟩
theorem wkeep_decideOffer (n : Nat) (ch : ChannelId) (h : wkeep z s) : wkeep z (decideOffer n ch s) := by
  unfold decideOffer
  repeat' split
  all_goals exact h.trans ⟨by simp, by simp, by simp, by simp⟩
theorem wkeep_retakeOffer (h : wkeep z s) : wkeep z (retakeOffer s) := by
  unfold retakeOffer
  try simp only []
  repeat' split
  all_goals with_reducible repeat (first | exact h | apply wkeep_decideOffer)
theorem wkeep_retake (h : wkeep z s) : wkeep z (retake s) := by
  unfold retake
  try simp only []
  repeat' split
  all_goals with_reducible repeat (first | exact h | apply wkeep_retakeOffer)
theorem wkeep_jobStart (q : QueuedJob) (h : wkeep z s) : wkeep z (jobStart q s) := by
  refine h.trans ⟨by simp, by simp, by simp, fun ch hc => ?_⟩
  unfold jobStart
  simp only [startPhase_keeps]
  rw [markJob_get]
  split
  · rfl
  · exact hc
theorem wkeep_arbitrate (h : wkeep z s) : wkeep z (arbitrate s) := by
  rcases arbitrate_spec s with ⟨_, he⟩ | ⟨q, rest, t, _, ht, he⟩ | ⟨q, rest, _, _, he⟩ <;> rw [he]
  · exact h
  · apply wkeep_retake
    apply wkeep_jobStart
    rcases reserve_spec s ht with ⟨_, rfl⟩ | ⟨_, _, rfl⟩ <;> exact h
  · split <;> exact h
theorem wkeep_select (h : wkeep z s) : wkeep z (select s) := by
  unfold select
  try simp only []
  repeat' split
  all_goals with_reducible repeat (first | exact h | apply wkeep_arbitrate)
theorem wkeep_retry (h : wkeep z s) : wkeep z (retry s) := by
  unfold retry
  try simp only []
  repeat' split
  all_goals with_reducible repeat (first | exact h | apply wkeep_arbitrate)
theorem wkeep_applySwap (h : wkeep z s) : wkeep z (applySwap s) := by
  unfold applySwap
  split
  · exact wkeep_withScan _ Iff.rfl h
  · exact h
theorem wkeep_closePass (h : wkeep z s) (hs : s.scan.state = .running) : wkeep z (closePass s) := by
  unfold closePass
  split <;> exact wkeep_withScan _ (by simp [hs]) h
theorem wkeep_passEnd (h : wkeep z s) (hs : s.scan.state = .running) : wkeep z (passEnd s) := by
  unfold passEnd
  apply wkeep_closePass (wkeep_applySwap (wkeep_raise _ h))
  unfold applySwap
  split <;> simpa using hs
theorem wkeep_checkPassEnd (h : wkeep z s) : wkeep z (checkPassEnd s) := by
  unfold checkPassEnd
  split
  · rename_i hc; exact wkeep_passEnd h hc.1
  · exact h
theorem wkeep_offer (n : Nat) (ch : ChannelId) (h : wkeep z s) : wkeep z (offer n ch s) := by
  unfold offer
  try simp only []
  repeat' split
  all_goals with_reducible repeat (first | exact h | apply wkeep_decideOffer | apply wkeep_select)
theorem wkeep_moveOnto (n : Nat) (h : wkeep z s) : wkeep z (moveOnto n s) := by
  unfold moveOnto
  split
  · exact wkeep_offer _ _ h
  · exact wkeep_checkPassEnd (wkeep_withScan _ Iff.rfl h)
theorem wkeep_cursorMove (h : wkeep z s) : wkeep z (cursorMove s) := by
  unfold cursorMove
  try simp only []
  repeat' split
  all_goals with_reducible repeat (first | exact h | apply wkeep_moveOnto)
theorem wkeep_passStart (h : wkeep z s) (hs : s.scan.state = .stopped ∨ s.scan.state = .waiting) :
    wkeep z (passStart s) := by
  unfold passStart
  exact wkeep_moveOnto _ (wkeep_withScan _ (by rcases hs with hs | hs <;> simp [hs]) h)
theorem wkeep_overrun (h : wkeep z s) : wkeep z (overrun s) := wkeep_raise _ (wkeep_withScan _ Iff.rfl h)
theorem wkeep_passDue (h : wkeep z s) : wkeep z (passDue s) := by
  unfold passDue
  split
  · rename_i hs; exact wkeep_passStart h (.inr hs)
  · exact wkeep_overrun h
  · exact h
  · exact h
theorem wkeep_expiry (h : wkeep z s) : wkeep z (expiry s) := wkeep_passDue (wkeep_withScan _ Iff.rfl h)
theorem wkeep_timerTick (h : wkeep z s) : wkeep z (timerTick s) := by
  unfold timerTick
  repeat' split
  · exact wkeep_expiry h
  · exact wkeep_withScan _ Iff.rfl h
  · exact h
theorem wkeep_qualifiedEdge (l : Bool) (h : wkeep z s) : wkeep z (qualifiedEdge l s) := by
  unfold qualifiedEdge
  simp only []
  split
  · exact wkeep_passDue (wkeep_withScan _ Iff.rfl h)
  · exact wkeep_withScan _ Iff.rfl h
theorem wkeep_trigSample (h : wkeep z s) : wkeep z (trigSample s) := by
  unfold trigSample
  repeat' split
  · exact wkeep_withScan _ Iff.rfl h
  · exact wkeep_qualifiedEdge _ h
  · exact wkeep_withScan _ Iff.rfl h
theorem wkeep_dropJobs (p : QueuedJob → Bool) (h : wkeep z s) : wkeep z (dropJobs p s) := h.trans ⟨by simp, by simp, by simp [dropJobs], by simp⟩
theorem wkeep_clearStallIfEmpty (h : wkeep z s) : wkeep z (clearStallIfEmpty s) := by
  unfold clearStallIfEmpty
  split <;> exact h
theorem wkeep_removeJobs (p : QueuedJob → Bool) (h : wkeep z s) : wkeep z (removeJobs p s).1 := by
  unfold removeJobs
  split
  · exact h
  · exact wkeep_checkPassEnd (wkeep_clearStallIfEmpty (wkeep_retake (wkeep_dropJobs p h)))
theorem wkeep_relink (ch : ChannelId) (a b : Descriptor) (h : wkeep z s) : wkeep z (relink ch a b s) := h.trans ⟨by simp, by simp, by simp, by simp⟩
theorem wkeep_removeAlert (ch : ChannelId) (h : wkeep z s) : wkeep z (removeAlert ch s) := h.trans ⟨by simp, by simp, by simp, by simp⟩
theorem wkeep_withdrawOffer (ch : ChannelId) (h : wkeep z s) : wkeep z (withdrawOffer ch s) := by
  unfold withdrawOffer
  split
  · split
    · exact wkeep_withScan _ Iff.rfl h
    · exact h
  all_goals exact h
theorem wkeep_nodeMoves (h : wkeep z s) : wkeep z (nodeMoves s) := h.trans ⟨by simp, by simp, by simp, by simp⟩
theorem wkeep_stampTick (h : wkeep z s) : wkeep z (stampTick s) := by
  unfold stampTick
  try simp only []
  repeat' split
  all_goals with_reducible repeat (first | exact h | apply wkeep_withTimebase)
theorem wkeep_ageTick (h : wkeep z s) : wkeep z (ageTick s) := by
  unfold ageTick
  try simp only []
  repeat' split
  all_goals with_reducible repeat (first | exact h | apply wkeep_withRefs)
theorem wkeep_scanSlow (h : wkeep z s) : wkeep z (scanSlow s) := by
  unfold scanSlow
  try simp only []
  repeat' split
  all_goals with_reducible repeat (first | exact h | apply wkeep_timerTick | apply wkeep_trigSample)
theorem wkeep_slowShare (h : wkeep z s) : wkeep z (slowShare s) := 
  eitherOrder_ind (fun _ n h => wkeep_withFreeIndex n h) (wkeep_scanSlow (wkeep_ageTick (wkeep_stampTick h)))
    (wkeep_ageTick (wkeep_scanSlow (wkeep_stampTick h)))



/-- The laws of the marks, of the pass count and of the WORKING outcome. -/
def workInv (s : State) : Prop := engagedLaw s ∧ passLaw s ∧ workingLaw s

theorem workingLaw_of {t : State} (hk : wkeep s t) (h : workingLaw s) : workingLaw t := by
  obtain ⟨k1, k2, k3, k4⟩ := hk
  obtain ⟨h1, h2, h3⟩ := h
  refine ⟨?_, ?_, ?_⟩
  · rw [k1, k2, k3]; exact h1
  · rw [k1, k2, k3]; exact h2
  · rw [k1, k2]; exact fun dc hd => ⟨k4 _ (h3 dc hd).1, (h3 dc hd).2⟩

/-- No command is WORKING, and nothing waits. -/
def calm (s : State) : Prop :=
  s.cmd.outcome.state ≠ .working ∧ s.deferred = none ∧ s.scan.state ≠ .stopping

theorem workingLaw_calm (h : calm s) : workingLaw s :=
  ⟨⟨fun h0 => absurd h0 h.1, fun h0 => h0.elim (fun h1 => by rw [h.2.1] at h1; cases h1) (fun h1 => absurd h1 h.2.2)⟩,
    fun h0 => absurd h0 h.2.2, fun dc hd => by rw [h.2.1] at hd; cases hd⟩

/-- R173: while no command is WORKING, nothing waits. -/
theorem calm_of (h : workingLaw s) (hw : s.cmd.outcome.state ≠ .working) : calm s := by
  refine ⟨hw, ?_, fun hs => hw (h.1.mpr (.inr hs))⟩
  cases hd : s.deferred with
  | none => rfl
  | some dc => exact absurd (h.1.mpr (.inl (by simp [hd]))) hw

theorem calm_keep {t : State} (hk : wkeep s t) (h : calm s) : calm t :=
  ⟨by rw [hk.1]; exact h.1, by rw [hk.2.1]; exact h.2.1, by rw [Ne, hk.2.2.1]; exact h.2.2⟩

/-- R113, R117: in STOPPING a SCAN job is in flight, and it is the last. -/
theorem stopping_spec (h : passLaw s) (hs : s.scan.state = .stopping) :
    s.scan.passCount = 1 ∧ scanInFlight s = true ∧ ¬s.seq.state = .idle := by
  obtain ⟨h1, h2, h3⟩ := h
  rw [hs] at h3
  refine ⟨h2.trans h3.1, h3.2.1, fun hi => ?_⟩
  have := h3.2.1
  rw [scanInFlight, h1 hi] at this
  cases this

/-- An apply or a refusal leaves nothing waiting that did not wait. -/
theorem decideCommit_stopping (ch : ChannelId) (im : Image) :
    ((decideCommit ch im s).1.scan.state = .stopping ↔ s.scan.state = .stopping) ∧ (decideCommit ch im s).2.state ≠ .working := by
  unfold decideCommit
  split
  · exact ⟨Iff.rfl, by simp [Reply.refused]⟩
  · unfold applyCommit
    simp only []
    have key : ∀ u : State, u.scan = s.scan →
        ((removeJobs (fun j => j.channel == ch) (withdrawOffer ch u)).1.scan.state = .stopping ↔ s.scan.state = .stopping) := by
      intro u hu
      rw [← hu]
      exact (wkeep_removeJobs _ (wkeep_withdrawOffer ch (wkeep.rfl' u))).2.2.1
    refine ⟨?_, by split <;> simp [Reply.done]⟩
    repeat' split
    all_goals first
      | (refine key _ ?_; simp)
      | simp

/-- R37, R114: after a job end nothing waits. -/
theorem announceTo_calm (a : Completion) (hd : s.deferred.isSome = true → s.scan.state ≠ .stopping)
    (hw : s.cmd.outcome.state = .working ↔ s.deferred.isSome = true ∨ s.scan.state = .stopping)
    (hs : s.scan.state = .stopping → s.scan.passCount = 1 ∧ a.tag.isScan = true) : calm (announceTo a s) := by
  unfold announceTo
  simp only []
  set t := lastStatusShare _ _ with ht
  have h1 : t.scan = s.scan ∧ t.deferred = s.deferred ∧ t.cmd = s.cmd := by rw [ht]; simp
  clear_value t
  have hcount : ∃ u, (if a.tag.isScan = true then countOut t else t) = u ∧ u.deferred = s.deferred ∧
      u.scan.state ≠ .stopping ∧ (s.deferred = none → u.cmd.outcome.state ≠ .working) := by
    refine ⟨_, rfl, by split <;> simp [h1], ?_, ?_⟩
    · split
      · unfold countOut
        simp only []
        rw [h1.1]
        split
        · rename_i hr
          rw [Ne, (wkeep_checkPassEnd (wkeep.rfl' _)).2.2.1]
          simp [hr]
        · rename_i hr
          rw [if_pos (by simp [(hs hr).1])]
          unfold completeStop applySwap
          split <;> simp
        · rename_i hr; simp [hr]
        · rename_i hr; simp [hr]
      · rename_i hn
        rw [h1.1]
        exact fun h0 => hn (hs h0).2
    · intro hn
      have hcase : s.scan.state = .stopping ∨ s.cmd.outcome.state ≠ .working := by
        by_cases h0 : s.scan.state = .stopping
        · exact .inl h0
        · right; intro hw0; rcases hw.mp hw0 with h2 | h2
          · rw [hn] at h2; cases h2
          · exact h0 h2
      split
      · unfold countOut
        simp only []
        rw [h1.1]
        split
        · rename_i hr
          rcases hcase with h0 | h0
          · rw [hr] at h0; cases h0
          · simpa [h1] using h0
        · rename_i hr
          rw [if_pos (by simp [(hs hr).1])]
          simp [completeStop, finishWorking]
        · rename_i hr
          rcases hcase with h0 | h0
          · rw [hr] at h0; cases h0
          · simpa [h1] using h0
        · rename_i hr
          rcases hcase with h0 | h0
          · rw [hr] at h0; cases h0
          · simpa [h1] using h0
      · rename_i hn'
        rcases hcase with h0 | h0
        · exact absurd (hs h0).2 hn'
        · simpa [h1] using h0
  obtain ⟨u, hu, u1, u2, u3⟩ := hcount
  rw [hu]
  unfold decideDeferred
  split
  · rename_i hn
    exact ⟨u3 (by rw [← u1]; exact hn), hn, u2⟩
  · rename_i dc _
    have hdc := decideCommit_stopping (s := u.withDeferred none) dc.channel dc.image
    refine ⟨by simpa [finishWorking] using hdc.2, by simp, ?_⟩
    simp only [finishWorking_keeps]
    rw [Ne, hdc.1]
    exact u2

theorem workInv_withWork (w : Working) (h : workInv s) : workInv (s.withSeq { s.seq with work := w }) :=
  ⟨engagedLaw_withWork w h.1, passLaw_withWork w h.2.1, h.2.2⟩

theorem workInv_withPending (x : List Instr) (h : workInv s) : workInv (s.withPending x) := h
theorem workInv_withInReset (x : Bool) (h : workInv s) : workInv (s.withInReset x) := h
theorem workInv_withFrontEnd (x : FrontEnd) (h : workInv s) : workInv (s.withFrontEnd x) := h
theorem workInv_withTimebase (x : Timebase) (h : workInv s) : workInv (s.withTimebase x) := h
theorem workInv_withStaging (x : Vector Byte 32) (h : workInv s) : workInv (s.withStaging x) := h
theorem workInv_withRefs (x : Vector RefSlot 4) (h : workInv s) : workInv (s.withRefs x) := h
theorem workInv_withAlerts (x : AlertList) (h : workInv s) : workInv (s.withAlerts x) := h
theorem workInv_withFifo (x : ResultFifo) (h : workInv s) : workInv (s.withFifo x) := h
theorem workInv_withPort (x : SerialPort) (h : workInv s) : workInv (s.withPort x) := h
theorem workInv_withEvents (x : EventUnit) (h : workInv s) : workInv (s.withEvents x) := h
theorem workInv_withPins (x : InputPins) (h : workInv s) : workInv (s.withPins x) := h
theorem workInv_withFreeIndex (x : Nat) (h : workInv s) : workInv (s.withFreeIndex x) := h

theorem workInv_raise (f : Flag) (h : workInv s) : workInv (raise f s) := ⟨engagedLaw_raise _ h.1, passLaw_raise _ h.2.1, workingLaw_of (wkeep_raise _ (wkeep.rfl' _)) h.2.2⟩
theorem workInv_clampRequest (h : workInv s) : workInv (clampRequest s) := ⟨engagedLaw_clampRequest h.1, passLaw_clampRequest h.2.1, workingLaw_of (wkeep_clampRequest (wkeep.rfl' _)) h.2.2⟩
theorem workInv_runRequest (p : PinId) (h : workInv s) : workInv (runRequest p s) := ⟨engagedLaw_runRequest _ h.1, passLaw_runRequest _ h.2.1, workingLaw_of (wkeep_runRequest _ (wkeep.rfl' _)) h.2.2⟩
theorem workInv_onSlot (ch : ChannelId) (f : RefSlot → RefSlot) (h : workInv s) : workInv (onSlot ch f s) := ⟨engagedLaw_onSlot _ _ h.1, passLaw_onSlot _ _ h.2.1, workingLaw_of (wkeep_onSlot _ _ (wkeep.rfl' _)) h.2.2⟩
theorem workInv_invalidateAll (h : workInv s) : workInv (invalidateAll s) := ⟨engagedLaw_invalidateAll h.1, passLaw_invalidateAll h.2.1, workingLaw_of (wkeep_invalidateAll (wkeep.rfl' _)) h.2.2⟩
theorem workInv_collide (h : workInv s) : workInv (collide s) := ⟨engagedLaw_collide h.1, passLaw_collide h.2.1, h.2.2⟩
theorem workInv_startPhase (ch : ChannelId) (h : workInv s) : workInv (startPhase ch s) := ⟨engagedLaw_startPhase _ h.1, passLaw_startPhase _ h.2.1, workingLaw_of (wkeep_startPhase _ (wkeep.rfl' _)) h.2.2⟩
theorem workInv_enterArm (h : workInv s) : workInv (enterArm s) := ⟨engagedLaw_enterArm h.1, passLaw_enterArm h.2.1, workingLaw_of (wkeep_enterArm (wkeep.rfl' _)) h.2.2⟩
theorem workInv_enterSettle (h : workInv s) : workInv (enterSettle s) := ⟨engagedLaw_enterSettle h.1, passLaw_enterSettle h.2.1, workingLaw_of (wkeep_enterSettle (wkeep.rfl' _)) h.2.2⟩
theorem workInv_startSample (h : workInv s) : workInv (startSample s) := ⟨engagedLaw_startSample h.1, passLaw_startSample h.2.1, workingLaw_of (wkeep_startSample (wkeep.rfl' _)) h.2.2⟩
theorem workInv_retakeOffer (h : workInv s) : workInv (retakeOffer s) := ⟨engagedLaw_retakeOffer h.1, passLaw_retakeOffer h.2.1, workingLaw_of (wkeep_retakeOffer (wkeep.rfl' _)) h.2.2⟩
theorem workInv_retake (h : workInv s) : workInv (retake s) := ⟨engagedLaw_retake h.1, passLaw_retake h.2.1, workingLaw_of (wkeep_retake (wkeep.rfl' _)) h.2.2⟩
theorem workInv_select (h : workInv s) : workInv (select s) := ⟨engagedLaw_select h.1, passLaw_select h.2.1, workingLaw_of (wkeep_select (wkeep.rfl' _)) h.2.2⟩
theorem workInv_retry (h : workInv s) : workInv (retry s) := ⟨engagedLaw_retry h.1, passLaw_retry h.2.1, workingLaw_of (wkeep_retry (wkeep.rfl' _)) h.2.2⟩
theorem workInv_cursorMove (h : workInv s) : workInv (cursorMove s) := ⟨engagedLaw_cursorMove h.1, passLaw_cursorMove h.2.1, workingLaw_of (wkeep_cursorMove (wkeep.rfl' _)) h.2.2⟩
theorem workInv_overrun (h : workInv s) : workInv (overrun s) := ⟨engagedLaw_overrun h.1, passLaw_overrun h.2.1, workingLaw_of (wkeep_overrun (wkeep.rfl' _)) h.2.2⟩
theorem workInv_passDue (h : workInv s) : workInv (passDue s) := ⟨engagedLaw_passDue h.1, passLaw_passDue h.2.1, workingLaw_of (wkeep_passDue (wkeep.rfl' _)) h.2.2⟩
theorem workInv_expiry (h : workInv s) : workInv (expiry s) := ⟨engagedLaw_expiry h.1, passLaw_expiry h.2.1, workingLaw_of (wkeep_expiry (wkeep.rfl' _)) h.2.2⟩
theorem workInv_timerTick (h : workInv s) : workInv (timerTick s) := ⟨engagedLaw_timerTick h.1, passLaw_timerTick h.2.1, workingLaw_of (wkeep_timerTick (wkeep.rfl' _)) h.2.2⟩
theorem workInv_qualifiedEdge (l : Bool) (h : workInv s) : workInv (qualifiedEdge l s) := ⟨engagedLaw_qualifiedEdge _ h.1, passLaw_qualifiedEdge _ h.2.1, workingLaw_of (wkeep_qualifiedEdge _ (wkeep.rfl' _)) h.2.2⟩
theorem workInv_trigSample (h : workInv s) : workInv (trigSample s) := ⟨engagedLaw_trigSample h.1, passLaw_trigSample h.2.1, workingLaw_of (wkeep_trigSample (wkeep.rfl' _)) h.2.2⟩
theorem workInv_clearStallIfEmpty (h : workInv s) : workInv (clearStallIfEmpty s) := ⟨engagedLaw_clearStallIfEmpty h.1, passLaw_clearStallIfEmpty h.2.1, workingLaw_of (wkeep_clearStallIfEmpty (wkeep.rfl' _)) h.2.2⟩
theorem workInv_removeJobs (p : QueuedJob → Bool) (h : workInv s) : workInv (removeJobs p s).1 := ⟨engagedLaw_removeJobs _ h.1, passLaw_removeJobs _ h.2.1, workingLaw_of (wkeep_removeJobs _ (wkeep.rfl' _)) h.2.2⟩
theorem workInv_relink (ch : ChannelId) (a b : Descriptor) (h : workInv s) : workInv (relink ch a b s) := ⟨engagedLaw_relink _ _ _ h.1, passLaw_relink _ _ _ h.2.1, workingLaw_of (wkeep_relink _ _ _ (wkeep.rfl' _)) h.2.2⟩
theorem workInv_removeAlert (ch : ChannelId) (h : workInv s) : workInv (removeAlert ch s) := ⟨engagedLaw_removeAlert _ h.1, passLaw_removeAlert _ h.2.1, workingLaw_of (wkeep_removeAlert _ (wkeep.rfl' _)) h.2.2⟩
theorem workInv_withdrawOffer (ch : ChannelId) (h : workInv s) : workInv (withdrawOffer ch s) := ⟨engagedLaw_withdrawOffer _ h.1, passLaw_withdrawOffer _ h.2.1, workingLaw_of (wkeep_withdrawOffer _ (wkeep.rfl' _)) h.2.2⟩
theorem workInv_jobEnd (st : JobStatus) (h : workInv s) : workInv (jobEnd st s) := by
  refine ⟨engagedLaw_jobEnd st h.1, passLaw_jobEnd st h.2.1, ?_⟩
  unfold jobEnd
  split
  · exact h.2.2
  · rename_i j hj
    unfold offerSequencer
    refine workingLaw_calm (calm_keep (wkeep_select (wkeep.rfl' _)) ?_)
    have hc : calm (announceTo (announce st j s) (quietSequencer j st s)) := by
      apply announceTo_calm
      · intro hd hs
        simp only [quietSequencer_keeps] at hd hs
        rw [(h.2.2.2.1 hs).1] at hd
        cases hd
      · simpa using h.2.2.1
      · intro hs
        simp only [quietSequencer_keeps] at hs ⊢
        obtain ⟨p1, p2, _⟩ := stopping_spec h.2.1 hs
        exact ⟨p1, by simpa [scanInFlight, hj, announce] using p2⟩
    exact hc
theorem workInv_abortJob (h : workInv s) : workInv (abortJob s).1 := by
  unfold abortJob
  try simp only []
  repeat' split
  all_goals with_reducible repeat (first | exact h | apply workInv_jobEnd)
theorem workInv_phaseEnd (pe : PhaseEnd) (h : workInv s) : workInv (phaseEnd pe s) := by
  have hx : ∀ u : State, u.cmd = s.cmd → u.deferred = s.deferred → u.scan = s.scan →
      (∀ ch : ChannelId, u.channels[ch.val].engaged = s.channels[ch.val].engaged) → workingLaw u := by
    intro u h1 h2 h3 h4
    exact workingLaw_of ⟨by rw [h1], h2, by rw [h3], fun ch hc => by rw [h4]; exact hc⟩ h.2.2
  unfold phaseEnd
  simp only []
  split
  · exact h
  · rename_i j hj
    have hi : s.seq.state ≠ .idle := fun h0 => by rw [h.1.1 h0] at hj; cases hj
    have h1 : workInv (onChannel j.measured (fun c => { c with rangeStep := stepAfter pe s.seq.work c.rangeStep }) s) := by
      refine ⟨engagedLaw_onChannel _ _ h.1 (fun _ => rfl), passLaw_onChannel _ _ h.2.1, hx _ (by simp) (by simp) (by simp) ?_⟩
      intro ch
      rw [onChannel_get]
      split
      · rename_i hq; subst hq; rfl
      · rfl
    repeat' split
    · exact workInv_jobEnd _ h1
    · have h2 := workInv_onSlot j.measured
        (RefSlot.measured s.seq.work.cTotal s.seq.work.gTotal s.seq.work.method) h1
      refine workInv_startPhase _ ⟨engagedLaw_withSeq h2.1 ?_ ?_, passLaw_withSeq h2.2.1 ?_ ?_, h2.2.2⟩
      · intro h0; exact absurd h0 hi
      · intro ch; simp [hj, engagedBy, InFlight.engages]
      · intro h0; exact absurd h0 hi
      · simp [scanInFlight, hj]
    all_goals exact workInv_jobEnd _ (workInv_onSlot _ _ h1)
theorem workInv_sampleComplete (h : workInv s) : workInv (sampleComplete s) := by
  unfold sampleComplete
  simp only []
  repeat' split
  all_goals first
    | exact workInv_phaseEnd _ h
    | exact workInv_phaseEnd _ (workInv_withWork _ h)
    | exact workInv_enterArm (workInv_withWork _ h)
theorem workInv_overflowed (h : workInv s) : workInv (overflowed s) := by
  unfold overflowed
  simp only []
  split
  · refine workInv_enterArm (workInv_runRequest _ ⟨engagedLaw_withSeq h.1 ?_ ?_, passLaw_withSeq h.2.1 ?_ ?_, h.2.2⟩)
    · intro h0; simp only [h.1.1 h0, Option.map_none]
    · intro ch; cases hj : s.seq.job <;> simp [engagedBy, InFlight.engages]
    · intro h0; simp only [h.1.1 h0, Option.map_none]
    · cases hj : s.seq.job <;> simp [scanInFlight, hj]
  · exact workInv_phaseEnd _ h
theorem workInv_sequencerTb (h : workInv s) : workInv (sequencerTb s) := by
  unfold sequencerTb
  simp only []
  repeat' split
  all_goals first
    | exact h
    | exact workInv_withWork _ h
    | exact workInv_startSample h
    | exact workInv_enterSettle (workInv_withWork _ h)
    | exact workInv_enterArm (workInv_withWork _ h)
    | exact workInv_phaseEnd _ (workInv_withWork _ h)
    | exact workInv_sampleComplete (workInv_withWork _ h)
    | exact workInv_overflowed h
theorem workInv_sequencerSlow (h : workInv s) : workInv (sequencerSlow s) := by
  unfold sequencerSlow
  simp only []
  repeat' split
  all_goals first
    | exact h
    | exact workInv_withWork _ h
    | exact workInv_startSample h
    | exact workInv_enterSettle (workInv_withWork _ h)
    | exact workInv_enterArm (workInv_withWork _ h)
    | exact workInv_phaseEnd _ (workInv_withWork _ h)
    | exact workInv_sampleComplete (workInv_withWork _ h)
    | exact workInv_overflowed h
theorem workInv_sequencerEdge (h : workInv s) : workInv (sequencerEdge s) := by
  unfold sequencerEdge
  simp only []
  repeat' split
  all_goals first
    | exact h
    | exact workInv_withWork _ h
    | exact workInv_startSample h
    | exact workInv_enterSettle (workInv_withWork _ h)
    | exact workInv_enterArm (workInv_withWork _ h)
    | exact workInv_phaseEnd _ (workInv_withWork _ h)
    | exact workInv_sampleComplete (workInv_withWork _ h)
    | exact workInv_overflowed h
theorem workInv_deliverEdge (c : Bool) (h : workInv s) : workInv (deliverEdge c s) := by
  unfold deliverEdge
  try simp only []
  repeat' split
  all_goals with_reducible repeat (first | exact h | apply workInv_withFreeIndex | apply workInv_sequencerEdge)
theorem workInv_oscillatorEdge (c : Bool) (h : workInv s) : workInv (oscillatorEdge c s) := by
  rw [oscillatorEdge_spec]
  try simp only []
  repeat' split
  all_goals with_reducible repeat (first | exact h | apply workInv_withFrontEnd | apply workInv_deliverEdge)
theorem workInv_nodeMoves (h : workInv s) : workInv (nodeMoves s) := ⟨engagedLaw_nodeMoves h.1, passLaw_nodeMoves h.2.1, workingLaw_of (wkeep_nodeMoves (wkeep.rfl' _)) h.2.2⟩
theorem workInv_stampTick (h : workInv s) : workInv (stampTick s) := ⟨engagedLaw_stampTick h.1, passLaw_stampTick h.2.1, workingLaw_of (wkeep_stampTick (wkeep.rfl' _)) h.2.2⟩
theorem workInv_ageTick (h : workInv s) : workInv (ageTick s) := ⟨engagedLaw_ageTick h.1, passLaw_ageTick h.2.1, workingLaw_of (wkeep_ageTick (wkeep.rfl' _)) h.2.2⟩
theorem workInv_scanSlow (h : workInv s) : workInv (scanSlow s) := by
  unfold scanSlow
  try simp only []
  repeat' split
  all_goals with_reducible repeat (first | exact h | apply workInv_timerTick | apply workInv_trigSample)
theorem workInv_slowShare (h : workInv s) : workInv (slowShare s) := 
  eitherOrder_ind (fun _ n h => workInv_withFreeIndex n h) (workInv_scanSlow (workInv_ageTick (workInv_stampTick h)))
    (workInv_ageTick (workInv_scanSlow (workInv_stampTick h)))
theorem workInv_sequencerShare (b : SeqState) (w : Bool) (h : workInv s) : workInv (sequencerShare b w s) := by
  unfold sequencerShare
  try simp only []
  repeat' split
  all_goals with_reducible repeat (first | exact h | apply workInv_sequencerTb | apply workInv_sequencerSlow)
theorem workInv_cursorShare (b : Cursor) (h : workInv s) : workInv (cursorShare b s) := by
  unfold cursorShare
  try simp only []
  repeat' split
  all_goals with_reducible repeat (first | exact h | apply workInv_cursorMove)
theorem workInv_tbTick (l : Bool) (h : workInv s) : workInv (tbTick l s) := by
  unfold tbTick
  split
  · exact anyOrder_ind (fun _ n h => workInv_withFreeIndex n h) (fun _ h => workInv_sequencerShare _ _ h)
      (fun _ h => workInv_cursorShare _ h) (fun _ h => by split; exacts [workInv_slowShare h, h])
      (workInv_withPins _ (workInv_withTimebase _ h))
  · exact h
theorem workInv_slowTick (l : Bool) (h : workInv s) : workInv (slowTick l s) := by
  unfold slowTick
  try simp only []
  repeat' split
  all_goals with_reducible repeat (first | exact h | apply workInv_withTimebase | apply workInv_withPins | apply workInv_sequencerSlow | apply workInv_slowShare)

/-- R173: a decoded command that leaves nothing waiting. -/
theorem workInv_issue (c : Byte) (f : State → State × Reply) (h : workInv s) (h1 : engagedLaw (f s).1) (h2 : passLaw (f s).1)
    (hf : calm s → workingLaw (recordOutcome c (f s).2 (f s).1)) : workInv (issue c f s) := by
  unfold issue
  split
  · exact workInv_collide h
  · rename_i hw
    exact ⟨engagedLaw_recordOutcome _ _ h1, passLaw_recordOutcome _ _ h2, hf (calm_of h.2.2 hw)⟩

theorem workingLaw_record {t : State} {r : Reply} (c : Byte) (hk : wkeep s t) (hr : r.state ≠ .working) (h : calm s) :
    workingLaw (recordOutcome c r t) := by
  have := calm_keep hk h
  exact workingLaw_calm ⟨by simpa [recordOutcome] using hr, this.2.1, this.2.2⟩

theorem measureNow_wkeep (s : State) : wkeep s (measureNow s).1 ∧ (measureNow s).2.state ≠ .working := by
  have key : ∀ ch, wkeep s (admitDirect ch s).1 ∧ (admitDirect ch s).2.state ≠ .working := by
    intro ch
    unfold admitDirect
    simp only []
    repeat' split
    all_goals first
      | exact ⟨wkeep.rfl' s, by simp [refuse, Reply.refused]⟩
      | exact ⟨wkeep_select (wkeep_withQueue _ (wkeep.rfl' s)), by simp [Reply.done]⟩
  unfold measureNow
  repeat' split
  all_goals first
    | exact ⟨wkeep.rfl' s, by simp [refuse, Reply.refused]⟩
    | exact key _

theorem workInv_measureNow (c : Byte) (h : workInv s) : workInv (issue c measureNow s) :=
  workInv_issue c measureNow h (engagedLaw_measureNow h.1) (passLaw_measureNow h.2.1)
    (workingLaw_record c (measureNow_wkeep s).1 (measureNow_wkeep s).2)

theorem flushQueue_wkeep (s : State) : wkeep s (flushQueue s).1 ∧ (flushQueue s).2.state ≠ .working := by
  unfold flushQueue
  split
  · exact ⟨wkeep.rfl' s, by simp [refuse, Reply.refused]⟩
  · exact ⟨wkeep_removeJobs _ (wkeep.rfl' s), by simp [Reply.done]⟩

theorem workInv_flushQueue (c : Byte) (h : workInv s) : workInv (issue c flushQueue s) :=
  workInv_issue c flushQueue h (engagedLaw_flushQueue h.1) (passLaw_flushQueue h.2.1)
    (workingLaw_record c (flushQueue_wkeep s).1 (flushQueue_wkeep s).2)

theorem scanStart_wkeep (s : State) : wkeep s (scanStart s).1 ∧ (scanStart s).2.state ≠ .working := by
  unfold scanStart
  split
  · exact ⟨wkeep.rfl' s, by simp [refuse, Reply.refused]⟩
  refine iteInduction (motive := fun r : State × Reply => wkeep s r.1 ∧ r.2.state ≠ .working)
    (fun _ => ⟨wkeep.rfl' s, by simp [refuse, Reply.refused]⟩) (fun _ => ?_)
  refine iteInduction (motive := fun r : State × Reply => wkeep s r.1 ∧ r.2.state ≠ .working)
    (fun _ => ⟨wkeep.rfl' s, by simp [refuse, Reply.refused]⟩) (fun hs => ?_)
  simp only [ne_eq, Decidable.not_not] at hs
  exact ⟨wkeep_passStart (wkeep_withScan _ Iff.rfl (wkeep.rfl' s)) (.inl hs), by simp [Reply.done]⟩

theorem workInv_scanStart (c : Byte) (h : workInv s) : workInv (issue c scanStart s) :=
  workInv_issue c scanStart h (engagedLaw_scanStart h.1) (passLaw_scanStart h.2.1)
    (workingLaw_record c (scanStart_wkeep s).1 (scanStart_wkeep s).2)

theorem scanOnce_wkeep (s : State) : wkeep s (scanOnce s).1 ∧ (scanOnce s).2.state ≠ .working := by
  unfold scanOnce
  split
  · exact ⟨wkeep.rfl' s, by simp [refuse, Reply.refused]⟩
  · split
    · rename_i hs
      exact ⟨wkeep_passStart (wkeep_withScan _ Iff.rfl (wkeep.rfl' s)) (.inl hs), by simp [Reply.done]⟩
    · rename_i hs
      exact ⟨wkeep_passStart (wkeep.rfl' s) (.inr hs), by simp [Reply.done]⟩
    all_goals exact ⟨wkeep.rfl' s, by simp [refuse, Reply.refused]⟩

theorem workInv_scanOnce (c : Byte) (h : workInv s) : workInv (issue c scanOnce s) :=
  workInv_issue c scanOnce h (engagedLaw_scanOnce h.1) (passLaw_scanOnce h.2.1)
    (workingLaw_record c (scanOnce_wkeep s).1 (scanOnce_wkeep s).2)

theorem swapBanks_wkeep (s : State) : wkeep s (swapBanks s).1 ∧ (swapBanks s).2.state ≠ .working := by
  unfold swapBanks
  simp only []
  repeat' split
  all_goals first
    | exact ⟨wkeep.rfl' s, fun hx => by cases hx⟩
    | exact ⟨wkeep_withScan _ Iff.rfl (wkeep.rfl' s), fun hx => by cases hx⟩

theorem workInv_swapBanks (c : Byte) (h : workInv s) : workInv (issue c swapBanks s) :=
  workInv_issue c swapBanks h (engagedLaw_swapBanks h.1) (passLaw_swapBanks h.2.1)
    (workingLaw_record c (swapBanks_wkeep s).1 (swapBanks_wkeep s).2)

theorem fetchChannel_wkeep (s : State) : wkeep s (fetchChannel s).1 ∧ (fetchChannel s).2.state ≠ .working := by
  unfold fetchChannel
  try simp only []
  repeat' split
  all_goals first
    | exact ⟨wkeep.rfl' s, by simp [refuse, Reply.refused, Reply.done]⟩
    | exact ⟨⟨by simp [refuse], by simp [refuse], by simp [refuse], by simp [refuse]⟩, by simp [refuse, Reply.refused, Reply.done]⟩

theorem workInv_fetchChannel (c : Byte) (h : workInv s) : workInv (issue c fetchChannel s) :=
  workInv_issue c fetchChannel h (engagedLaw_fetchChannel h.1) (passLaw_fetchChannel h.2.1)
    (workingLaw_record c (fetchChannel_wkeep s).1 (fetchChannel_wkeep s).2)

theorem invalidateReference_wkeep (s : State) : wkeep s (invalidateReference s).1 ∧ (invalidateReference s).2.state ≠ .working := by
  unfold invalidateReference
  try simp only []
  repeat' split
  all_goals first
    | exact ⟨wkeep.rfl' s, by simp [refuse, Reply.refused, Reply.done]⟩
    | exact ⟨⟨by simp [refuse], by simp [refuse], by simp [refuse], by simp [refuse]⟩, by simp [refuse, Reply.refused, Reply.done]⟩

theorem workInv_invalidateReference (c : Byte) (h : workInv s) : workInv (issue c invalidateReference s) :=
  workInv_issue c invalidateReference h (engagedLaw_invalidateReference h.1) (passLaw_invalidateReference h.2.1)
    (workingLaw_record c (invalidateReference_wkeep s).1 (invalidateReference_wkeep s).2)

theorem clearZone_wkeep (s : State) : wkeep s (clearZone s).1 ∧ (clearZone s).2.state ≠ .working := by
  unfold clearZone
  repeat' split
  · exact ⟨⟨by simp, by simp, by simp, by simp⟩, by simp [Reply.done]⟩
  · exact ⟨wkeep.rfl' s, by simp [refuse, Reply.refused]⟩
  · refine ⟨⟨by simp, by simp, by simp, fun ch hc => ?_⟩, by simp [Reply.done]⟩
    simp only [removeAlert_keeps]
    rw [onChannel_get]
    split
    · rename_i hq; subst hq; exact hc
    · exact hc

theorem workInv_clearZone (c : Byte) (h : workInv s) : workInv (issue c clearZone s) :=
  workInv_issue c clearZone h (engagedLaw_clearZone h.1) (passLaw_clearZone h.2.1)
    (workingLaw_record c (clearZone_wkeep s).1 (clearZone_wkeep s).2)

theorem clearAlerts_wkeep (s : State) : wkeep s (clearAlerts s).1 ∧ (clearAlerts s).2.state ≠ .working := by
  unfold clearAlerts
  try simp only []
  repeat' split
  all_goals first
    | exact ⟨wkeep.rfl' s, by simp [refuse, Reply.refused, Reply.done]⟩
    | exact ⟨⟨by simp [refuse], by simp [refuse], by simp [refuse], by simp [refuse]⟩, by simp [refuse, Reply.refused, Reply.done]⟩

theorem workInv_clearAlerts (c : Byte) (h : workInv s) : workInv (issue c clearAlerts s) :=
  workInv_issue c clearAlerts h (engagedLaw_clearAlerts h.1) (passLaw_clearAlerts h.2.1)
    (workingLaw_record c (clearAlerts_wkeep s).1 (clearAlerts_wkeep s).2)

theorem clearResults_wkeep (s : State) : wkeep s (clearResults s).1 ∧ (clearResults s).2.state ≠ .working := ⟨wkeep_retry (wkeep_withFifo _ (wkeep.rfl' s)), by simp [clearResults, Reply.done]⟩

theorem workInv_clearResults (c : Byte) (h : workInv s) : workInv (issue c clearResults s) :=
  workInv_issue c clearResults h (engagedLaw_clearResults h.1) (passLaw_clearResults h.2.1)
    (workingLaw_record c (clearResults_wkeep s).1 (clearResults_wkeep s).2)

theorem setTimebase_wkeep (s : State) : wkeep s (setTimebase s).1 ∧ (setTimebase s).2.state ≠ .working := by
  unfold setTimebase
  try simp only []
  repeat' split
  all_goals first
    | exact ⟨wkeep.rfl' s, by simp [refuse, Reply.refused, Reply.done]⟩
    | exact ⟨⟨by simp [refuse], by simp [refuse], by simp [refuse], by simp [refuse]⟩, by simp [refuse, Reply.refused, Reply.done]⟩

theorem workInv_setTimebase (c : Byte) (h : workInv s) : workInv (issue c setTimebase s) :=
  workInv_issue c setTimebase h (engagedLaw_setTimebase h.1) (passLaw_setTimebase h.2.1)
    (workingLaw_record c (setTimebase_wkeep s).1 (setTimebase_wkeep s).2)

theorem sleep_wkeep (s : State) : wkeep s (sleep s).1 ∧ (sleep s).2.state ≠ .working := by
  unfold sleep
  try simp only []
  repeat' split
  all_goals first
    | exact ⟨wkeep.rfl' s, by simp [refuse, Reply.refused, Reply.done]⟩
    | exact ⟨⟨by simp [refuse], by simp [refuse], by simp [refuse], by simp [refuse]⟩, by simp [refuse, Reply.refused, Reply.done]⟩

theorem workInv_sleep (c : Byte) (h : workInv s) : workInv (issue c sleep s) :=
  workInv_issue c sleep h (engagedLaw_sleep h.1) (passLaw_sleep h.2.1)
    (workingLaw_record c (sleep_wkeep s).1 (sleep_wkeep s).2)

theorem wake_wkeep (s : State) : wkeep s (wake s).1 ∧ (wake s).2.state ≠ .working := by
  unfold wake
  try simp only []
  repeat' split
  all_goals first
    | exact ⟨wkeep.rfl' s, by simp [refuse, Reply.refused, Reply.done]⟩
    | exact ⟨⟨by simp [refuse], by simp [refuse], by simp [refuse], by simp [refuse]⟩, by simp [refuse, Reply.refused, Reply.done]⟩

theorem workInv_wake (c : Byte) (h : workInv s) : workInv (issue c wake s) :=
  workInv_issue c wake h (engagedLaw_wake h.1) (passLaw_wake h.2.1)
    (workingLaw_record c (wake_wkeep s).1 (wake_wkeep s).2)

theorem unknownCommand_wkeep (s : State) : wkeep s (unknownCommand s).1 ∧ (unknownCommand s).2.state ≠ .working := by
  unfold unknownCommand
  try simp only []
  repeat' split
  all_goals first
    | exact ⟨wkeep.rfl' s, by simp [refuse, Reply.refused, Reply.done]⟩
    | exact ⟨⟨by simp [refuse], by simp [refuse], by simp [refuse], by simp [refuse]⟩, by simp [refuse, Reply.refused, Reply.done]⟩

theorem workInv_unknownCommand (c : Byte) (h : workInv s) : workInv (issue c unknownCommand s) :=
  workInv_issue c unknownCommand h (engagedLaw_unknownCommand h.1) (passLaw_unknownCommand h.2.1)
    (workingLaw_record c (unknownCommand_wkeep s).1 (unknownCommand_wkeep s).2)

/-- R36: a deferred commit is WORKING for as long as the channel is engaged. -/
theorem workInv_commitChannel (h : workInv s) : workInv (issue 0x20 commitChannel s) := by
  refine workInv_issue _ _ h (engagedLaw_commitChannel h.1) (passLaw_commitChannel h.2.1) (fun hc => ?_)
  unfold commitChannel
  split
  · exact workingLaw_record _ (wkeep.rfl' s) (by simp [refuse, Reply.refused]) hc
  · simp only []
    split
    · rename_i ch _ he
      refine ⟨by simp [recordOutcome, Reply.working], fun hs => absurd hs hc.2.2, fun dc hd => ?_⟩
      simp [recordOutcome] at hd ⊢
      rw [← hd]
      exact he
    · rename_i ch _ _
      have hd := decideCommit_stopping (s := s) ch (Image.ofStaging s.staging)
      refine workingLaw_calm ⟨by simpa [recordOutcome] using hd.2, by simpa using hc.2.1, ?_⟩
      simp only [recordOutcome_keeps]
      rw [Ne, hd.1]
      exact hc.2.2

/-- R113: a stop is WORKING for as long as a SCAN job is in flight. -/
theorem workInv_scanStop (h : workInv s) : workInv (issue 0x11 scanStop s) := by
  refine workInv_issue _ _ h (engagedLaw_scanStop h.1) (passLaw_scanStop h.2.1) (fun hc => ?_)
  unfold scanStop
  split
  · exact workingLaw_record _ (wkeep.rfl' s) (by simp [Reply.done]) hc
  · simp only []
    split
    · refine ⟨by simp [recordOutcome, Reply.working], fun _ => ⟨by simpa using hc.2.1, rfl⟩, fun dc hd => ?_⟩
      simp [hc.2.1] at hd
    · refine workingLaw_calm ⟨by simp [recordOutcome, Reply.done], by simpa using hc.2.1, by simp⟩

theorem workInv_issueAbort (h : workInv s) : workInv (issueAbort s) := by
  unfold issueAbort
  split
  · exact workInv_abortJob h
  · rename_i hw
    refine ⟨engagedLaw_recordOutcome _ _ (engagedLaw_abortJob h.1), passLaw_recordOutcome _ _ (passLaw_abortJob h.2.1), ?_⟩
    have hc := calm_of h.2.2 hw
    unfold abortJob
    split
    · exact workingLaw_record _ (wkeep.rfl' s) (by simp [Reply.done]) hc
    · have := workInv_jobEnd .aborted h
      have hcalm : calm (jobEnd .aborted s) := by
        unfold jobEnd
        split
        · exact hc
        · unfold offerSequencer
          refine calm_keep (wkeep_select (wkeep.rfl' _)) ?_
          have : ∀ a, calm (announceTo a (quietSequencer ‹InFlight› .aborted s)) := by
            intro a
            apply announceTo_calm
            · intro hd; simp [hc.2.1] at hd
            · simp [hc.1, hc.2.1, hc.2.2]
            · intro hs; simp only [quietSequencer_keeps] at hs; exact absurd hs hc.2.2
          exact this _
      exact workingLaw_calm ⟨by simp [recordOutcome, Reply.done], hcalm.2.1, hcalm.2.2⟩

theorem workInv_engineReset (h : workInv s) : workInv (engineReset s) := by
  refine ⟨engagedLaw_engineReset h.1, passLaw_engineReset h.2.1, workingLaw_calm ?_⟩
  unfold engineReset
  simp only []
  split <;> refine ⟨by simp [recordOutcome, Reply.done], by simp [quietEngine], by simp [quietEngine, ScanController.quiet]⟩

theorem workInv_powerOn (h : workInv s) : workInv (powerOn s) := ⟨engagedLaw_powerOn h.1, passLaw_powerOn h.2.1, workingLaw_calm ⟨by simp [powerOn, State.reset, OutcomeRecord.empty], rfl, by simp [powerOn, State.reset, ScanController.reset]⟩⟩
theorem workInv_endReset (l : Bool) (h : workInv s) : workInv (endReset l s) := by
  unfold endReset
  try simp only []
  repeat' split
  all_goals with_reducible repeat (first | exact h | apply workInv_withInReset | apply workInv_withFrontEnd | apply workInv_withPort | apply workInv_withPins)
theorem workInv_takeResult (h : workInv s) : workInv (takeResult s) := by
  unfold takeResult
  try simp only []
  repeat' split
  all_goals with_reducible repeat (first | exact h | apply workInv_withFifo)
theorem workInv_popResult (h : workInv s) : workInv (popResult s) := by
  unfold popResult
  try simp only []
  repeat' split
  all_goals with_reducible repeat (first | exact h | apply workInv_retry | apply workInv_takeResult)
theorem workInv_popAlert (h : workInv s) : workInv (popAlert s) := by
  unfold popAlert
  try simp only []
  repeat' split
  all_goals with_reducible repeat (first | exact h | apply workInv_withAlerts)
theorem workInv_readAction (a : Byte) (h : workInv s) : workInv (readAction a s) := by
  unfold readAction
  try simp only []
  repeat' split
  all_goals with_reducible repeat (first | exact h | apply workInv_popResult | apply workInv_popAlert)
theorem workInv_advancePointer (h : workInv s) : workInv (advancePointer s) := by
  unfold advancePointer
  try simp only []
  repeat' split
  all_goals with_reducible repeat (first | exact h | apply workInv_withPort)
theorem workInv_busStart (a : Byte) (h : workInv s) : workInv (busStart a s) := by
  unfold busStart
  try simp only []
  repeat' split
  all_goals with_reducible repeat (first | exact h | apply workInv_withPort)
theorem workInv_openWrite (h : workInv s) : workInv (openWrite s) := by
  unfold openWrite
  try simp only []
  repeat' split
  all_goals with_reducible repeat (first | exact h | apply workInv_busStart)
theorem workInv_copySnapshot (h : workInv s) : workInv (copySnapshot s) := by
  unfold copySnapshot
  try simp only []
  repeat' split
  all_goals with_reducible repeat (first | exact h | apply workInv_busStart)
theorem workInv_sendByte (a : State → State) (h : workInv s) (ha : workInv (a s)) : workInv (sendByte a s) := workInv_advancePointer (workInv_withPort _ ha)
theorem workInv_windowRead (a : Byte) (e : State → State) (h : workInv s) (he : ∀ t, workInv t → workInv (e t)) :
    workInv (windowRead a e s) := by
  unfold windowRead
  split
  · exact h
  · split
    · refine workInv_sendByte _ h ?_
      split
      · exact he _ h
      · exact workInv_readAction _ h
    all_goals exact h
theorem workInv_issueCode (c : Byte) (h : workInv s) : workInv (issueCode c s) := by
  unfold issueCode
  refine iteInduction (fun _ => ?_) (fun _ => ?_)
  · exact workInv_measureNow _ h
  refine iteInduction (fun _ => ?_) (fun _ => ?_)
  · exact workInv_issueAbort h
  refine iteInduction (fun _ => ?_) (fun _ => ?_)
  · exact workInv_flushQueue _ h
  refine iteInduction (fun _ => ?_) (fun _ => ?_)
  · exact workInv_scanStart _ h
  refine iteInduction (fun _ => ?_) (fun _ => ?_)
  · exact workInv_scanStop h
  refine iteInduction (fun _ => ?_) (fun _ => ?_)
  · exact workInv_scanOnce _ h
  refine iteInduction (fun _ => ?_) (fun _ => ?_)
  · exact workInv_swapBanks _ h
  refine iteInduction (fun _ => ?_) (fun _ => ?_)
  · exact workInv_commitChannel h
  refine iteInduction (fun _ => ?_) (fun _ => ?_)
  · exact workInv_fetchChannel _ h
  refine iteInduction (fun _ => ?_) (fun _ => ?_)
  · exact workInv_invalidateReference _ h
  refine iteInduction (fun _ => ?_) (fun _ => ?_)
  · exact workInv_clearZone _ h
  refine iteInduction (fun _ => ?_) (fun _ => ?_)
  · exact workInv_clearAlerts _ h
  refine iteInduction (fun _ => ?_) (fun _ => ?_)
  · exact workInv_clearResults _ h
  refine iteInduction (fun _ => ?_) (fun _ => ?_)
  · exact workInv_setTimebase _ h
  refine iteInduction (fun _ => ?_) (fun _ => ?_)
  · exact workInv_sleep _ h
  refine iteInduction (fun _ => ?_) (fun _ => ?_)
  · exact workInv_wake _ h
  refine iteInduction (fun _ => ?_) (fun _ => ?_)
  · exact workInv_engineReset h
  exact workInv_unknownCommand _ h
theorem workInv_clearFlags (v : Byte) (h : workInv s) : workInv (clearFlags v s) := by
  unfold clearFlags
  try simp only []
  repeat' split
  all_goals with_reducible repeat (first | exact h | apply workInv_withEvents)
theorem workInv_writeEnables (v : Byte) (h : workInv s) : workInv (writeEnables v s) := by
  unfold writeEnables
  try simp only []
  repeat' split
  all_goals with_reducible repeat (first | exact h | apply workInv_withEvents)
theorem workInv_writeBank (a v : Byte) (h : workInv s) : workInv (writeBank a v s) := by
  refine ⟨engagedLaw_writeBank _ _ h.1, passLaw_writeBank _ _ h.2.1, workingLaw_of ?_ h.2.2⟩
  unfold writeBank storeBank
  simp only []
  repeat' split
  all_goals exact ⟨rfl, rfl, Iff.rfl, fun _ hc => hc⟩
theorem workInv_writeOverrun (v : Byte) (h : workInv s) : workInv (writeOverrun v s) := by
  refine ⟨engagedLaw_writeOverrun _ h.1, passLaw_writeOverrun _ h.2.1, workingLaw_of ?_ h.2.2⟩
  unfold writeOverrun
  repeat' split
  all_goals exact ⟨rfl, rfl, Iff.rfl, fun _ hc => hc⟩
theorem workInv_writePolicy (v : Byte) (h : workInv s) : workInv (writePolicy v s) := workInv_retry h
theorem workInv_writePeriodLow (v : Byte) (h : workInv s) : workInv (writePeriodLow v s) := by
  refine ⟨engagedLaw_writePeriodLow _ h.1, passLaw_writePeriodLow _ h.2.1, workingLaw_of ?_ h.2.2⟩
  unfold writePeriodLow
  repeat' split
  all_goals exact ⟨rfl, rfl, Iff.rfl, fun _ hc => hc⟩
theorem workInv_writePeriodHigh (v : Byte) (h : workInv s) : workInv (writePeriodHigh v s) := by
  refine ⟨engagedLaw_writePeriodHigh _ h.1, passLaw_writePeriodHigh _ h.2.1, workingLaw_of ?_ h.2.2⟩
  unfold writePeriodHigh
  repeat' split
  all_goals exact ⟨rfl, rfl, Iff.rfl, fun _ hc => hc⟩
theorem workInv_writePlain (a v : Byte) (h : workInv s) : workInv (writePlain a v s) := by
  refine ⟨engagedLaw_writePlain _ _ h.1, passLaw_writePlain _ _ h.2.1, workingLaw_of ?_ h.2.2⟩
  unfold writePlain
  simp only []
  repeat' refine iteInduction (fun _ => ?_) (fun _ => ?_)
  all_goals exact ⟨rfl, rfl, Iff.rfl, fun _ hc => hc⟩
theorem workInv_registerWrite (a v : Byte) (h : workInv s) : workInv (registerWrite a v s) := by
  unfold registerWrite
  try simp only []
  repeat' split
  all_goals with_reducible repeat (first | exact h | apply workInv_issueCode | apply workInv_clearFlags | apply workInv_writeEnables | apply workInv_writeBank | apply workInv_writeOverrun | apply workInv_writePolicy | apply workInv_writePlain)
theorem workInv_takeByte (v : Byte) (e : State → State) (h : workInv s) (he : ∀ t, workInv t → workInv (e t)) :
    workInv (takeByte v e s) := by
  unfold takeByte
  split
  · exact h
  · split
    · exact workInv_withPort _ h
    · exact he _ (workInv_advancePointer h)
    all_goals exact h
theorem workInv_dataByte (a v : Byte) (e : State → State) (h : workInv s) (he : ∀ t, workInv t → workInv (e t)) :
    workInv (dataByte a v e s) := 
  workInv_takeByte _ _ h (fun t ht => by split; exacts [he t ht, workInv_registerWrite _ _ ht])
theorem workInv_loadPointer (v : Byte) (h : workInv s) : workInv (loadPointer v s) := workInv_takeByte _ _ h (fun _ ht => workInv_registerWrite _ _ ht)

end Sys2Proof.Machine
end

