-- ==== Sys2Proof/Tests/Slice0.lean ====
section
/-! SUPPORT. The model's own tests: well-formedness, one-step examples of the spec, and states that meet the hypotheses of the statements. -/

namespace Sys2Proof.Tests

open Sys2Proof Sys2Proof.Machine

/-! ### Small states -/

/-- A write transaction is open, with the pointer at `a`. -/
def writingAt (a : Byte) (s : State) : State := s.withPort { s.port with pointer := a, bus := .writing }

/-- A read transaction is open, with the pointer at `a`. -/
def readingAt (a : Byte) (s : State) : State := s.withPort { s.port with pointer := a, bus := .reading }

/-- Reset, with a write transaction open at COMMAND. -/
def ready : State := writingAt 0x18 State.reset

/-- The transaction in which a row of the bus arises, with the pointer at the address of its rule. -/
def onBus (c : Instr) (s : State) : State :=
  match c.busWrite with
  | some (address, _) => writingAt address s
  | none => if c = .resultWindowPop then readingAt 0x60 s else if c = .alertWindowPop then readingAt 0x80 s else s

/-- The state a command leads to; a row of the bus comes in its transaction. -/
def after (c : Instr) (s : State) : State :=
  match exec c (onBus c s) with
  | .next t => t
  | .fault _ => s
  | .refused _ => s

/-- Reset, with ARG0. -/
def withArg (a : Byte) (s : State) : State := s.withCmd { s.cmd with arg0 := a }

/-- An enabled ABSOLUTE channel on D0, WINDOW, with every exponent 0. -/
def absolute : Descriptor := { Descriptor.zero with role := .absolute, enabled := true }

def reference : Descriptor := { Descriptor.zero with role := .reference, enabled := true, pin := 7 }

def ratio (r : ChannelId) : Descriptor := { absolute with role := .ratio, refChannel := r, maxAge := 500 }

def withDesc (ch : ChannelId) (d : Descriptor) (s : State) : State := onChannel ch (fun c => { c with desc := d }) s

def withZone (ch : ChannelId) (z : Zone) (s : State) : State := onChannel ch (fun c => { c with zone := z }) s

def withPower (p : Power) (s : State) : State := s.withTimebase { s.timebase with power := p }

def withDivider (n : Nat) (s : State) : State := s.withTimebase { s.timebase with slowDivider := n }

def withSeqState (x : SeqState) (s : State) : State := s.withSeq { s.seq with state := x }

def withScanState (x : ScanState) (s : State) : State := s.withScan { s.scan with state := x }

def withJobs (l : List QueuedJob) (s : State) : State := s.withQueue { s.queue with jobs := l }

def withRecords (l : List ResultRecord) (s : State) : State := s.withFifo { s.fifo with records := l }

def withAlertList (l : List AlertEntry) (s : State) : State := s.withAlerts { s.alerts with entries := l }

def withWorking (code : Byte) (s : State) : State :=
  s.withCmd { s.cmd with outcome := { command := code, state := .working, reason := none, result := 0, collision := false } }

def scanJob (ch : ChannelId) : QueuedJob := { channel := ch, tag := .scan 7 }

def directJob (ch : ChannelId) (ticket : Byte) : QueuedJob := { channel := ch, tag := .direct ticket }

/-- A job in its primary phase. -/
def inFlight (ch : ChannelId) (tag : JobTag) : InFlight :=
  { channel := ch, tag := tag, refresh := none, phase := .primary, refCopy := none, refreshed := false,
    rangeChanged := false, stepAtStart := 0 }

/-- A job of `ch` in flight, in `state`, with working copy `w`, its reservation and its engaged mark. -/
def flying (j : InFlight) (x : SeqState) (w : Working) (s : State) : State :=
  markJob true j ((((s.withSeq { state := x, job := some j, work := w }).withQueue
    { s.queue with available := false }).withFifo { s.fifo with reserved := 1 }).withFrontEnd
      (if x = .discharge then .clamped else .running w.pin false))

/-- A record of channel 1. -/
def oldRecord : ResultRecord :=
  { sequence := 0, channel := 1, tag := .direct 1, status := .ok, samplesExp := 0, step := 0, gap := false,
    saturated := false, lowRes := false, refreshed := false, rangeChanged := false, zone := .unknown, cTotal := 1,
    value := some 1, refPart := none, timestamp := 0 }

def records (n : Nat) : List ResultRecord := List.replicate n oldRecord

def alertOf (ch : ChannelId) : AlertEntry := { channel := ch, fromZone := .inside, toZone := .fault, count := 1, stamp := 0 }

/-- A slot owned by `ch`. -/
def slotFor (ch : ChannelId) (users : Nat) : RefSlot := { RefSlot.free with owner := some ch, users := users }

/-- Channels 14 and 15 of 02, section 2.6, with channels 0 and 1 on channel 14. -/
def twoReferences : State :=
  withDesc 14 { reference with pin := 6 } (withDesc 15 reference (withDesc 0 (ratio 14) (withDesc 1 (ratio 14)
    (ready.withRefs #v[slotFor 14 2, slotFor 15 0, .free, .free]))))

/-- An image in staging, from the descriptor it spells. -/
def staged (d : Descriptor) (s : State) : State := s.withStaging (fetchedBytes 0 { Channel.zero with desc := d })

/-- The pointer, the bus and ARG0 after a row of the bus, taken where the port stands. -/
def onPort (c : Instr) (s : State) : Option (Byte × BusState × Byte) :=
  match exec c s with
  | .next t => some (t.port.pointer, t.port.bus, t.cmd.arg0)
  | .fault _ => none
  | .refused _ => none

/-- The byte sent, the pointer, and the records left, after a row of the bus taken where the port stands. -/
def sent (c : Instr) (s : State) : Option (Byte × Byte × Nat) :=
  match exec c s with
  | .next t => some (t.port.sent, t.port.pointer, t.fifo.records.length)
  | .fault _ => none
  | .refused _ => none

/-! ### Well-formedness: one ill-formed term for each check -/

theorem test_registerWrite_refuses_addresses_of_single_rows :
    [0x0B#8, 0x10#8, 0x11#8, 0x18#8, 0x24#8].map (fun a => (Instr.registerWrite a 0).wellFormed) =
      [false, false, false, false, false] := by decide

theorem test_registerWrite_refuses_scan_bank_addresses :
    [0x26#8, 0x27#8, 0x90#8, 0xBF#8, 0xC0#8, 0xEF#8].map (fun a => (Instr.registerWrite a 0).wellFormed) =
      [false, false, false, false, false, false] := by decide

theorem test_registerWrite_takes_the_rest :
    [0x00#8, 0x19#8, 0x25#8, 0x28#8, 0x40#8, 0x8F#8, 0xF0#8, 0xFF#8].all (fun a => (Instr.registerWrite a 0).wellFormed) =
      true := by decide

theorem test_scanBankWrite_refuses_other_addresses :
    [0x25#8, 0x28#8, 0x8F#8, 0xF0#8].map (fun a => (Instr.scanBankWrite a 0).wellFormed) =
      [false, false, false, false] := by decide

theorem test_unknownCommand_refuses_assigned_codes :
    [0x01#8, 0x02#8, 0x03#8, 0x10#8, 0x11#8, 0x12#8, 0x13#8, 0x20#8, 0x21#8, 0x30#8, 0x38#8, 0x39#8, 0x3A#8, 0x40#8,
      0x41#8, 0x42#8, 0x50#8].all (fun a => !(Instr.unknownCommand a).wellFormed) = true := by decide

theorem test_unknownCommand_takes_unassigned_codes :
    [0x00#8, 0x04#8, 0x14#8, 0x22#8, 0x3B#8, 0x51#8, 0xFF#8].all (fun a => (Instr.unknownCommand a).wellFormed) = true := by
  decide

/-! ### Examples of the spec -/

/-- 11, section 11.7: the record of the ratio job of section 3.10 in the window. -/
def exampleRecord : ResultRecord :=
  { sequence := 0, channel := 0, tag := .direct 1, status := .ok, samplesExp := 2, step := 0, gap := false,
    saturated := false, lowRes := false, refreshed := true, rangeChanged := false, zone := .unknown, cTotal := 7386,
    value := some 81924, refPart := some { cRef := 9233, step := 0, age := 0 }, timestamp := 1000 }

theorem test_record_bytes_of_section_11_7 :
    (List.range 24).map exampleRecord.byte =
      [0x00, 0x00, 0x00, 0x01, 0x01, 0x00, 0x02, 0x13, 0xDA, 0x1C, 0x00, 0x04, 0x40, 0x01, 0x00, 0x11, 0x24, 0x00,
       0x00, 0x00, 0xE8, 0x03, 0x00, 0x00] := by decide

theorem test_ratio_value_of_section_3_10 :
    jobValue .ratio { Working.cleared with cTotal := 7386, gTotal := 131072 }
      (some { cRef := 9233, gRef := 131072, step := 0, age := 0 }) = some 81924 := by decide

theorem test_period_value_of_section_3_11 :
    jobValue .absolute { Working.cleared with method := .period, cTotal := 1419562, gTotal := 64 } none =
      some 1453631488 := by decide

/-- 3.11: 128, 64 and 32 periods at steps 0, 1 and 2 of g = 7. -/
theorem test_period_gates_of_section_3_11 :
    [0, 1, 2].map (fun k => periodGate { Working.cleared with method := .period, g := 7, k := k }) = [128, 64, 32] := by
  decide

theorem test_outcome_bytes_of_chapter_11 :
    (List.range 3).map (OutcomeRecord.byte
        { command := 0x01, state := .refused, reason := some .queueFull, result := 0, collision := false }) =
      [0x01, 0x44, 0x00] ∧
    (List.range 3).map (OutcomeRecord.byte
        { command := 0x20, state := .working, reason := none, result := 0, collision := true }) = [0x20, 0x09, 0x00] ∧
    (List.range 3).map (OutcomeRecord.byte
        { command := 0x50, state := .done, reason := none, result := 0x11, collision := false }) = [0x50, 0x02, 0x11] := by
  decide

theorem test_free_slot_bytes : (List.range 4).map RefSlot.free.byte = [0xFF, 0x00, 0x00, 0x00] := by decide

theorem test_trig_setting_examples :
    storedTrig 0x12 = 0x12 ∧ filterLength 0x12 = 4 ∧ polarityLevel 0x12 = false ∧ storedTrig 0xFF = 0x13 ∧
      filterLength 0x13 = 16 := by decide

/-- 7.8: LOW_T 40,000, HIGH_T 80,000, HYST 2,000. -/
def zoned : Descriptor := { absolute with zoneMonitor := true, alert := true, lowT := 40000, highT := 80000, hyst := 2000 }

theorem test_zones_of_section_7_8 :
    [(Zone.unknown, 60000), (.inside, 81000), (.above, 79000), (.above, 78000), (.fault, 79500), (.inside, 39999),
      (.below, 41500), (.below, 85000)].map (fun p => classify p.1 p.2 zoned) =
      [.inside, .above, .above, .inside, .inside, .below, .below, .above] := by decide

/-- 7.8, stamps 13,000 to 14,000: a new entry, then its update in place. -/
theorem test_alert_entries_of_section_7_8 :
    alertEntries 0 .above .inside 13000 [] = [{ channel := 0, fromZone := .above, toZone := .inside, count := 1, stamp := 13000 }] ∧
    alertEntries 0 .inside .fault 14000 [{ channel := 0, fromZone := .above, toZone := .inside, count := 1, stamp := 13000 }] =
      [{ channel := 0, fromZone := .above, toZone := .fault, count := 2, stamp := 14000 }] := by decide

/-! 2.6: the commits of the table, each from the state the row before left. -/

/-- After the first commit of the table. -/
def afterFirstCommit : State := after .commitChannel (withArg 1 (staged (ratio 15) twoReferences))

theorem test_commit_moves_a_ratio_channel :
    afterFirstCommit.cmd.outcome = { command := 0x20, state := .done, reason := none, result := 0, collision := false } ∧
      afterFirstCommit.refs = #v[slotFor 14 1, slotFor 15 1, .free, .free] := by decide

theorem test_commit_refused_ref_in_use :
    validate 14 (Image.ofStaging (staged { reference with pin := 6, enabled := false } afterFirstCommit).staging)
      afterFirstCommit = some (.refInUse, 1) := by decide

theorem test_commit_refused_ref_mismatch :
    validate 0 (Image.ofStaging (staged { ratio 15 with method := .period } afterFirstCommit).staging)
      afterFirstCommit = some (.refMismatch, 15) := by decide

/-- The last row: the lowest-numbered free slot. -/
theorem test_commit_takes_the_lowest_free_slot :
    (after .commitChannel (withArg 9 (staged { reference with pin := 5 } (withDesc 14 .zero
      (withDesc 0 (ratio 15) (withDesc 1 (ratio 15) (ready.withRefs #v[.free, slotFor 15 2, .free, .free]))))))).refs =
      #v[slotFor 9 0, slotFor 15 2, .free, .free] := by decide

theorem test_fetch_shows_the_descriptor :
    (after .fetchChannel (withArg 15 twoReferences)).staging =
      #v[3, 1, 7, 0, 0, 0, 0, 0, 0, 0, 0, 0, 0, 0, 0, 0, 0, 0, 0, 0, 0, 0, 0, 0, 0, 0, 0, 0, 0, 0, 0, 15] := by
  decide

/-! 5.8: a DIRECT request against a stalled pass. -/

/-- The starting state: S1 in flight, S2 to S4 queued, 14 records, the next ticket 12, channel 9 disabled. -/
def stalledPass : State :=
  let s := withDesc 9 { absolute with enabled := false } (withDesc 5 absolute (withDesc 4 absolute (withDesc 3 absolute
    (withDesc 2 absolute (withDesc 1 absolute ready)))))
  let t := withRecords (records 14) (withJobs [scanJob 2, scanJob 3, scanJob 4]
    (s.withScan { s.scan with state := .running, passNumber := 7, cursor := .done, passCount := 4 }))
  flying (inFlight 1 (.scan 7)) .count { Working.cleared with count := 5 }
    (t.withQueue { t.queue with nextTicket := 12 })

def afterMeasure3 : State := after .measureNow (withArg 3 stalledPass)

theorem test_measureNow_admits :
    afterMeasure3.queue = { jobs := [scanJob 2, scanJob 3, scanJob 4, directJob 3 12], nextTicket := 13,
                            stalled := false, available := false } ∧
      afterMeasure3.cmd.outcome.state = .done ∧ afterMeasure3.cmd.outcome.result = 12 := by decide

theorem test_measureNow_merges :
    (after .measureNow afterMeasure3).cmd.outcome =
      { command := 0x01, state := .merged, reason := none, result := 12, collision := false } := by decide

theorem test_measureNow_refuses_a_disabled_channel :
    (after .measureNow (withArg 9 afterMeasure3)).cmd.outcome.reason = some .channelDisabled := by decide

/-- S1 ends OK, its record is written, and D3 is selected. -/
theorem test_gate_close_writes_and_selects :
    let t := after .windowGateClose afterMeasure3
    t.queue.jobs = [scanJob 2, scanJob 3, scanJob 4] ∧ t.seq.job.map (fun j => j.tag) = some (.direct 12) ∧
      t.fifo.records.length = 15 ∧ t.fifo.reserved = 1 ∧ t.scan.passCount = 3 := by decide

/-- Stalled over 16 records with S2 to S4 and D5 queued. -/
def stalledOver : State :=
  let s := withDesc 5 absolute (withDesc 2 absolute ready)
  let t := withRecords (records 16) (withJobs [scanJob 2, scanJob 3, scanJob 4, directJob 5 13]
    (s.withScan { s.scan with state := .running, passNumber := 7, cursor := .done, passCount := 3 }))
  t.withQueue { t.queue with stalled := true }

theorem test_pop_retries_the_stalled_arbiter :
    let t := after .resultWindowPop stalledOver
    t.seq.job.map (fun j => j.tag) = some (.direct 13) ∧ t.fifo.records.length = 15 ∧ t.fifo.reserved = 1 ∧
      t.queue.stalled = false ∧ t.queue.jobs = [scanJob 2, scanJob 3, scanJob 4] ∧ t.port.pointer = 0x61 := by
  decide

theorem test_flush_ends_the_pass :
    let t := after .flushQueue (withArg 0x02 (after .resultWindowPop stalledOver))
    t.queue.jobs = [] ∧ t.cmd.outcome.result = 3 ∧ t.scan.passCount = 0 ∧ t.scan.state = .waiting ∧
      t.scan.passNumber = 8 ∧ flagSet .pass t = true := by decide

/-! 6.7: the entries that make an offer in passes 0, 1 and 2. -/

def bankOfSection67 : State :=
  let s := withDesc 15 reference (withDesc 0 (ratio 15) (withDesc 1 (ratio 15) (withDesc 2 (ratio 15)
    (withDesc 3 absolute ready))))
  s.withScan { s.scan with
    lengthA := 6,
    bankA := (((((((((((s.scan.bankA.set 0 15).set 1 0x80).set 2 0).set 3 0x80).set 4 1).set 5 0x81).set 6 2).set 7
      0x82).set 8 3).set 9 0x00).set 10 4).set 11 0x80 }

theorem test_offers_of_section_6_7 :
    [0, 1, 2].map (fun n : Nat => (List.range 6).map
        (entryOffer (bankOfSection67.withScan { bankOfSection67.scan with passNumber := BitVec.ofNat 16 n }))) =
      [[some 15, some 0, some 1, some 2, none, none], [some 15, some 0, none, none, none, none],
       [some 15, some 0, some 1, none, none, none]] := by decide

theorem test_scanStart_offers_entry_0 :
    let t := after .scanStart (withArg 0x01 bankOfSection67)
    t.scan.state = .running ∧ t.scan.cursor = .settled 0 ∧ t.scan.passCount = 1 ∧ t.scan.latched = 1000 ∧
      t.seq.job.map (fun j => j.channel) = some 15 ∧ t.seq.work.dischargeLength = 64 := by decide

/-- Bank A of 24 entries, of which the last alone makes an offer. -/
def lastEntryBank : State :=
  let s := withDesc 3 absolute ready
  s.withScan { s.scan with lengthA := 24, bankA := (s.scan.bankA.set 46 3).set 47 0x80 }

theorem test_scanStart_walks_to_the_last_entry :
    let t := after .scanStart (withArg 0x02 lastEntryBank)
    t.scan.state = .running ∧ t.scan.cursor = .settled 23 ∧ t.seq.job.map (fun j => j.channel) = some 3 := by decide

/-- R92, R115: the offer of entry 0 with the Sequencer busy: into a queue with room, into a full one, and merged; and with
16 records under HOLD. -/
theorem test_scanStart_decides_the_offer :
    let start := fun s : State => let t := after .scanStart (withArg 0x01 s)
      (t.queue.jobs.length, t.queue.stalled, t.scan.passCount, t.scan.cursor)
    let busy := flying (inFlight 3 (.direct 1)) .arm .cleared bankOfSection67
    let direct := (List.range 7).map (fun n => directJob (Fin.ofNat 16 n) 1)
    [start busy, start (withJobs direct busy), start (withJobs (directJob 7 1 :: direct) busy),
      start (withJobs [scanJob 15] busy), start (withRecords (records 16) bankOfSection67)] =
      [(1, false, 1, .settled 0), (8, false, 1, .settled 0), (8, false, 0, .waiting 0 15), (1, false, 0, .settled 0),
       (1, true, 1, .settled 0)] := by decide

/-- R118: of 24 entries every one is passed over. -/
theorem test_scanStart_passes_every_entry_over :
    let t := after .scanStart (withArg 0x01 (withDesc 3 { absolute with enabled := false } lastEntryBank))
    t.scan.state = .waiting ∧ t.scan.passNumber = 1 ∧ t.scan.cursor = .cleared ∧ flagSet .pass t = true ∧
      t.seq.state = .idle := by decide

/-- R106: an entry of divisor 2^4 in passes 15 and 16; of an m above 4; not enabled; of an UNUSED and of no channel. -/
theorem test_entry_offers :
    let offers := fun (name fields : Byte) (pass : BitVec 16) => entryOffer (lastEntryBank.withScan
      { lastEntryBank.scan with passNumber := pass, bankA := (lastEntryBank.scan.bankA.set 46 name).set 47 fields }) 23
    [offers 3 0x84 15, offers 3 0x84 16, offers 3 0x85 0, offers 3 0x7F 0, offers 4 0x80 0, offers 0x13 0x80 0] =
      [none, some 3, none, none, none, none] := by decide

theorem test_cursorAdvance_offers_entry_1 :
    let t := after .cursorAdvance (after .scanStart (withArg 0x01 bankOfSection67))
    t.scan.cursor = .settled 1 ∧ t.queue.jobs = [{ channel := 0, tag := .scan 0 }] ∧ t.scan.passCount = 2 := by
  decide

/-! 8.9: OVERWRITE with a full FIFO. -/

def overwriteFull : State :=
  let s := withRecords (records 16) (withJobs [directJob 2 7] (withDesc 2 absolute ready))
  s.withFifo { s.fifo with policy := .overwrite, watermark := 8, nextSequence := 116 }

theorem test_selection_discards_under_overwrite :
    let t := after .arbiterSelection overwriteFull
    t.fifo.records.length = 15 ∧ t.fifo.reserved = 1 ∧ t.fifo.gapPending = true ∧ t.fifo.nextSequence = 116 ∧
      flagSet .drop t = true ∧ t.channels[2].engaged = true := by decide

/-! 9.13: commands around a deferred commit. -/

def deferredCommit : State :=
  after .commitChannel (withArg 4 (staged { absolute with settle := 9 } (flying (inFlight 4 (.scan 7)) .arm .cleared
    (let s := withDesc 4 absolute (withDesc 2 absolute ready)
     s.withScan { s.scan with state := .running, cursor := .settled 0, passCount := 1 }))))

theorem test_commit_of_an_engaged_channel_waits :
    deferredCommit.cmd.outcome = { command := 0x20, state := .working, reason := none, result := 0, collision := false } ∧
      deferredCommit.channels[4].desc.settle = 0 := by decide

theorem test_a_command_while_working_collides :
    (after .measureNow (withArg 2 deferredCommit)).cmd.outcome =
      { command := 0x20, state := .working, reason := none, result := 0, collision := true } := by decide

theorem test_abort_completes_the_deferred_commit :
    let t := after .abortJob deferredCommit
    t.cmd.outcome = { command := 0x20, state := .done, reason := none, result := 0, collision := false } ∧
      t.channels[4].desc.settle = 9 ∧ flagSet .command t = true ∧ t.deferred = none ∧
      t.channels[4].lastStatus = .aborted := by decide

theorem test_engineReset_cancels_a_stop :
    (after .engineReset (withWorking 0x11 ready)).cmd.outcome =
      { command := 0x50, state := .done, reason := none, result := 0x11, collision := false } := by decide

/-! Other one-step checks. -/

theorem test_engineReset_keeps_slots :
    (after .engineReset twoReferences).refs = #v[slotFor 14 2, slotFor 15 0, .free, .free] := by decide

theorem test_scanStop_waits_for_the_job_in_flight :
    let t := after .scanStop stalledPass
    t.scan.state = .stopping ∧ t.cmd.outcome.state = .working ∧ t.cmd.outcome.result = 3 ∧ t.queue.jobs = [] := by
  decide

theorem test_scanOnce_over_an_empty_bank :
    let t := after .scanOnce ready
    t.scan.state = .stopped ∧ t.scan.mode = .single ∧ t.scan.passNumber = 1 ∧ flagSet .pass t = true := by decide

theorem test_swapBanks_when_stopped :
    (after .swapBanks ready).scan.active = .b ∧ (after .swapBanks ready).cmd.outcome.result = 1 := by
  decide

theorem test_setTimebase_answers_the_old_exponent :
    (after .setTimebase (withArg 7 ready)).timebase.p = 7 ∧
      (after .setTimebase (withArg 7 ready)).cmd.outcome.result = 3 := by decide

theorem test_sleep_then_wake :
    (after .sleep ready).frontEnd = .held ∧ (after .wake (after .sleep ready)).frontEnd = .clamped ∧
      (after .measureNow (after .sleep ready)).cmd.outcome.reason = some .asleep := by decide

theorem test_unknownCommand_is_refused :
    (after (.unknownCommand 0x04) ready).cmd.outcome.reason = some .unknownCommand := by decide

theorem test_clearZone_of_a_channel :
    let t := after .clearZone (withArg 0 (withZone 0 .above (withAlertList [alertOf 0, alertOf 5] ready)))
    t.channels[0].zone = .unknown ∧ t.alerts.entries = [alertOf 5] ∧ t.cmd.outcome.result = 1 := by decide

theorem test_clearAlerts_counts :
    (after .clearAlerts (withAlertList [alertOf 0, alertOf 5] ready)).cmd.outcome.result = 2 := by decide

theorem test_alert_pop :
    (after .alertWindowPop (withAlertList [alertOf 0, alertOf 5] ready)).alerts =
      { entries := [alertOf 5], latch := some (alertOf 0) } := by decide

theorem test_invalidateReference_of_no_slot :
    (after .invalidateReference (withArg 3 twoReferences)).cmd.outcome.reason = some .refMissing := by decide

theorem test_period_write_of_two_zeros :
    let t := after (.registerWrite 0x21 0) (after (.registerWrite 0x20 0) ready)
    readByte t 0x20 = 1 ∧ readByte t 0x21 = 0 := by decide

theorem test_bank_length_above_24 : (after (.scanBankWrite 0x27 25) ready).scan.lengthB = 24 := by decide

theorem test_bank_write_ignored_while_active :
    (after (.scanBankWrite 0x90 7) (withScanState .waiting ready)).scan.bankA[0] = 0 ∧
      (after (.scanBankWrite 0xC0 7) (withScanState .waiting ready)).scan.bankB[0] = 7 := by decide

theorem test_overrun_counter_write :
    let s := ready.withScan { ready.scan with overrun := 9 }
    (after (.overrunCounterWrite 1) s).scan.overrun = 9 ∧ (after (.overrunCounterWrite 0) s).scan.overrun = 0 := by
  decide

theorem test_tbTick_of_discharge_end :
    let w := { Working.cleared with dischargeLength := 64, dischargeCount := 63, pin := 2 }
    let t := after (.tbTick false) (flying (inFlight 0 (.direct 1)) .discharge w ready)
    t.seq.state = .arm ∧ t.frontEnd = .running 2 false ∧ t.timebase.slowDivider = 1 := by decide

theorem test_tbTick_of_a_slow_tick :
    let s := ready.withTimebase { ready.timebase with slowDivider := 1023, stamp := 0xFFFFFFFF }
    (after (.tbTick false) s).timebase.stamp = 0 ∧ (after (.tbTick false) s).timebase.slowDivider = 0 := by
  decide

theorem test_trig_edge_starts_a_pass :
    let s := withScanState .waiting (ready.withScan { ready.scan with mode := .triggered })
    flagSet .pass (after .trigEdgeQualified s) = true ∧ (after .trigEdgeQualified s).scan.filtered = true := by
  decide

theorem test_pass_timer_overrun_saturates :
    let s := withScanState .running (ready.withScan { ready.scan with overrun := 255 })
    (after .passTimerExpiry s).scan.overrun = 255 ∧ flagSet .overrun (after .passTimerExpiry s) = true := by
  decide

theorem test_first_edge_starts_a_sample :
    (after (.oscillatorEdge false) (flying (inFlight 0 (.direct 1)) .arm .cleared ready)).seq.state = .count := by
  decide

theorem test_overflow_steps_up :
    let w := { Working.cleared with autoRange := true, g := 7, count := 1048575 }
    let t := after (.oscillatorEdge false) (flying (inFlight 0 (.direct 1)) .count w ready)
    t.seq.state = .arm ∧ t.seq.work.k = 1 ∧ t.seq.job.map (fun j => j.rangeChanged) = some true := by decide

theorem test_edge_timeout_is_open :
    let t := after .edgeTimeout (flying (inFlight 0 (.direct 1)) .arm .cleared (withDesc 0 absolute ready))
    t.channels[0].lastStatus = .openArm ∧ t.fifo.records.map (fun r => r.status) = [.openArm] ∧
      flagSet .fault t = true ∧ flagSet .results t = true ∧ t.frontEnd = .clamped := by decide

theorem test_reset_and_its_end :
    (after .powerOnReset twoReferences).inReset = true ∧ (after .powerOnReset twoReferences).frontEnd = .held ∧
      (after (.resetEnd true) (after .powerOnReset twoReferences)).port.address = 0x2D := by decide

theorem test_first_data_byte_is_the_pointer :
    onPort (.registerWrite 0x19 0x40) (openWrite ready) = some (0x40, .writing, 0) ∧
      onPort (.registerPointerLoad 0x90) (openWrite ready) = some (0x90, .writing, 0) := by decide

/-- R164: a later byte is written at the pointer, which rises by 1 and wraps; ARG0 is at 19h. -/
theorem test_later_data_bytes_go_to_the_pointer :
    onPort (.registerWrite 0x19 7) (writingAt 0x40 ready) = some (0x41, .writing, 0) ∧
      onPort (.registerWrite 0x40 7) (writingAt 0x19 ready) = some (0x1A, .writing, 7) ∧
      onPort (.registerPointerLoad 7) (writingAt 0x19 ready) = some (0x1A, .writing, 7) ∧
      onPort (.registerWrite 0x19 7) (writingAt 0xFF ready) = some (0x00, .writing, 0) := by decide

/-- R163, R170: a byte outside a write transaction is not taken: after a reset, and in a read. -/
theorem test_bytes_outside_a_write_transaction :
    onPort (.registerWrite 0x19 7) (after (.resetEnd false) (after .powerOnReset ready)) = some (0x00, .idle, 0) ∧
      onPort (.registerWrite 0x19 7) (readingAt 0x19 ready) = some (0x19, .reading, 0) := by decide

/-- R165: after the 24 bytes of a record the pointer is 78h; at 61h the byte is sent and nothing is popped. -/
theorem test_read_bytes_come_from_the_pointer :
    sent .resultWindowPop (readingAt 0x61 (withRecords (records 2) ready)) = some (0xFF, 0x62, 2) ∧
      sent .alertWindowPop (readingAt 0x60 (withRecords (records 2) ready)) = some (0x00, 0x61, 1) ∧
      sent .resultWindowPop (readingAt 0x77 (withRecords (records 2) ready)) = some (0x00, 0x78, 2) ∧
      sent .resultWindowPop (readingAt 0xFF (withRecords (records 2) ready)) = some (0x00, 0x00, 2) ∧
      sent .resultWindowPop (writingAt 0x60 (withRecords (records 2) ready)) = some (0x00, 0x60, 2) := by decide

/-- R163: 2Ch with either direction bit; no other target, no general call, no ten-bit address, none in reset. -/
theorem test_address_bytes :
    [0x58#8, 0x59, 0x5A, 0x5B, 0x00, 0xF0, 0xF7].map (fun b => acknowledges b ready) =
      [true, true, false, false, false, false, false] ∧
    acknowledges 0x58 (powerOn ready) = false := by decide

/-! ### States that meet the hypotheses of the statements, by statement and clause, at the boundaries -/

/-- A SCAN job of channel 0 in flight, in `x`, with working copy `w`. -/
def scanning (x : SeqState) (w : Working) : State :=
  flying (inFlight 0 (.scan 0)) x w (withDesc 0 absolute
    (ready.withScan { ready.scan with state := .running, cursor := .done, passCount := 1 }))

/-- A DIRECT job of channel 0 in flight. -/
def measuring (x : SeqState) (w : Working) : State := flying (inFlight 0 (.direct 1)) x w (withDesc 0 absolute ready)

/-- The SCAN job of `scanning`, with the scan stopping. -/
def stoppingIn (x : SeqState) (w : Working) : State := withWorking 0x11 (let s := scanning x w
  s.withScan { s.scan with state := .stopping, cursor := .cleared })

def stopping (w : Working) : State := stoppingIn .arm w

/-- The job in flight is in a refresh phase on channel 15, which owns slot 0. -/
def refreshing (x : SeqState) (w : Working) : State :=
  flying { inFlight 0 (.direct 1) with refresh := some 15, phase := .refresh } x w
    (withDesc 15 reference (withDesc 0 (ratio 15) (ready.withRefs #v[slotFor 15 1, .free, .free, .free])))

/-- A SCAN job of channel 0, its refresh phase over. -/
def busyJob : InFlight :=
  { inFlight 0 (.scan 0) with
    refresh := some 14, refreshed := true, refCopy := some { cRef := 9, gRef := 256, step := 0, age := 0 } }

/-- The job of `busyJob` with its last count, in a pass with a second job to come. -/
def ratioJob : State :=
  flying busyJob .count { Working.cleared with count := 1 } (ready.withScan
    { ready.scan with state := .running, cursor := .done, passCount := 2 } |>
      withDesc 0 (ratio 14) |> withDesc 14 reference)

/-- Eight SCAN jobs, of channels 8 to 15. -/
def fullQueue : List QueuedJob :=
  [scanJob 8, scanJob 9, scanJob 10, scanJob 11, scanJob 12, scanJob 13, scanJob 14, scanJob 15]

/-- Bank A of section 6.7, RUNNING, with a DIRECT job in flight and the cursor settled at entry `n`. -/
def runningAt (n : Nat) (jobs : List QueuedJob) : State :=
  flying (inFlight 3 (.direct 1)) .arm .cleared (withJobs jobs (bankOfSection67.withScan { bankOfSection67.scan with
    state := .running, cursor := .settled n, extent := 6 }))

/-- The output is high after an edge, and two commands wait. -/
def highAndWaiting : State :=
  (after (.oscillatorEdge false) (measuring .settle .cleared)).withPending [.wake, .sleep]

theorem witness_StepTakesFront :
    (let s := ready.withPending [.wake, .sleep]
     s.pending = .wake :: [.sleep] ∧ s.frontEnd.comparator = false) ∧
    highAndWaiting.pending = .wake :: [.sleep] ∧ highAndWaiting.frontEnd = .running 0 true := by decide

/-- R3: waiting commands do not hold the output high: it may have fallen before the one at the front is taken. -/
theorem test_output_falls_with_commands_waiting :
    ∃ falls : Bool,
      let moved := highAndWaiting.withFreeIndex (highAndWaiting.freeIndex + 1)
      step highAndWaiting =
        exec .wake ((if falls then comparatorTo false moved else moved).withPending [.sleep]) :=
  ⟨Config.comparatorFalls highAndWaiting.freeIndex, rfl⟩

theorem witness_NoStepStops :
    ready.pending = [] ∧ ready.frontEnd.comparator = false ∧
    (let s := after (.oscillatorEdge false) (measuring .settle .cleared)
     s.pending = [] ∧ s.frontEnd.comparator = true) := by decide

theorem witness_ResetEndState : (powerOn ready).inReset = true ∧ ready.inReset = false := by decide

theorem witness_HeldResetTakesNothing :
    (powerOn ready).inReset = true ∧ Instr.busWrite .engineReset = some (0x18#8, 0x50#8) ∧
      Instr.busWrite (.registerWrite 0xFF 1) = some (0xFF#8, 1) := by decide

/-- For the statements that ask for no more: EngineResetState, EventFlagsWriteClears, EventEnablesWriteStores. -/
theorem witness_takesWrite :
    takesWrite 0x18 ready ∧ takesWrite 0x18 (stopping .cleared) ∧ takesWrite 0x10 (writingAt 0x10 ready) ∧
      takesWrite 0x11 (writingAt 0x11 ready) := by
  unfold takesWrite; decide

theorem witness_EventUnitResets :
    takesWrite 0x18 (stopping .cleared) ∧ (stopping .cleared).cmd.outcome.state = .working ∧ ready.events.enables = 0 := by
  unfold takesWrite; decide

theorem witness_CommandsThatReachNoBlock :
    let s := stopping .cleared
    (takesWrite 0x18 s ∧ s.cmd.outcome.state = .working ∧ Instr.wellFormed (.unknownCommand 0xFF) = true ∧
      Instr.busWrite (.unknownCommand 0xFF) = some (0x18#8, 0xFF) ∧ Instr.busWrite .wake = some (0x18#8, 0x42)) ∧
    decodesCommand ready ∧ assignedCode 0x00 = false ∧ assignedCode 0x51 = false := by
  unfold decodesCommand takesWrite; decide

theorem witness_MeasureNowRefusesOrMerges :
    decodesCommand (withArg 16 ready) ∧ 16 ≤ (withArg 16 ready).cmd.arg0.toNat ∧
    (let s := withArg 15 (withPower .asleep ready)
     decodesCommand s ∧ s.cmd.arg0.toNat = (15 : ChannelId).val ∧ s.timebase.power = .asleep) ∧
    (let s := withArg 15 ready
     decodesCommand s ∧ s.timebase.power = .awake ∧ s.channels[15].desc.role = .unused) ∧
    (let s := withArg 15 (withDesc 15 { absolute with enabled := false } ready)
     decodesCommand s ∧ s.timebase.power = .awake ∧ s.channels[15].desc.role ≠ .unused ∧
       s.channels[15].desc.enabled = false) ∧
    (let s := withArg 0 (withJobs [scanJob 0, directJob 0 255] (withDesc 0 absolute ready))
     decodesCommand s ∧ s.channels[0].desc.enabled = true ∧ queueLaw s ∧
       { channel := 0, tag := .direct 255 } ∈ s.queue.jobs) ∧
    (let s := withArg 0 (withJobs fullQueue (withDesc 0 absolute ready))
     decodesCommand s ∧ s.channels[0].desc.enabled = true ∧
       (∀ j ∈ s.queue.jobs, j.channel = 0 → j.tag.isDirect = false) ∧ 8 ≤ s.queue.jobs.length) := by
  unfold decodesCommand takesWrite queueLaw; decide

theorem witness_MeasureNowAdmits :
    (let s := withArg 0 (withJobs (fullQueue.drop 1) (measuring .arm .cleared))
     decodesCommand s ∧ s.cmd.arg0.toNat = (0 : ChannelId).val ∧ s.timebase.power = .awake ∧
       s.channels[0].desc.role ≠ .unused ∧ s.channels[0].desc.enabled = true ∧
       (∀ j ∈ s.queue.jobs, j.channel = 0 → j.tag.isDirect = false) ∧ s.queue.jobs.length < 8 ∧ s.seq.state ≠ .idle) ∧
    (let s := withArg 15 (withRecords (records 15) (withDesc 15 absolute ready))
     decodesCommand s ∧ s.cmd.arg0.toNat = (15 : ChannelId).val ∧ s.channels[15].desc.enabled = true ∧
       s.seq.state = .idle ∧ s.queue.available = true ∧ s.queue.stalled = false ∧ s.queue.jobs = [] ∧
       s.fifo.records.length + s.fifo.reserved < 16) := by
  unfold decodesCommand takesWrite; decide

theorem witness_AbortJobEffect :
    (takesWrite 0x18 ready ∧ ready.cmd.outcome.state ≠ .working ∧ ready.seq.state = .idle) ∧
    (let s := measuring .discharge .cleared
     takesWrite 0x18 s ∧ s.seq.state ≠ .idle ∧ s.seq.job = some (inFlight 0 (.direct 1)) ∧ s.deferred = none ∧
       s.cmd.outcome.state ≠ .working ∧ s.queue.jobs = []) ∧
    (let s := stopping .cleared
     takesWrite 0x18 s ∧ s.seq.state ≠ .idle ∧ s.seq.job = some (inFlight 0 (.scan 0)) ∧ s.cmd.outcome.state = .working) := by
  unfold takesWrite; decide

theorem witness_FlushQueueEffect :
    decodesCommand (withArg 0x00 ready) ∧ decodesCommand (withArg 0x04 ready) ∧
    (withArg 0x04 ready).cmd.arg0 ≠ 0x03 ∧
    [0x01, 0x02, 0x03].map (fun a => (withArg a (withJobs fullQueue ready)).cmd.arg0) = [0x01, 0x02, 0x03] ∧
    decodesCommand (withArg 0x03 (withJobs fullQueue ready)) := by
  unfold decodesCommand takesWrite; decide

/-- R93, R98, R100: a flush of a full queue retakes the waiting offer; one of the SCAN jobs that leaves a SCAN job of its
channel nowhere admits it; and one that leaves a DIRECT job keeps the stalled mark. -/
theorem test_flush_retakes_the_offer :
    let s := (withJobs fullQueue bankOfSection67).withScan { bankOfSection67.scan with
      state := .running, cursor := .waiting 1 0, extent := 6, passNumber := 7, passCount := 8 }
    let t := after .flushQueue (withArg 0x03 s)
    t.queue.jobs = [{ channel := 0, tag := .scan 7 }] ∧ t.scan.cursor = .settled 1 ∧ t.scan.passCount = 1 ∧
      (after .flushQueue (withArg 0x02 stalledOver)).queue =
        { stalledOver.queue with jobs := [directJob 5 13], stalled := true } := by decide

theorem witness_ScanStart :
    decodesCommand (withArg 0x00 ready) ∧ decodesCommand (withArg 0x03 ready) ∧
    (let s := withArg 0x01 (withPower .asleep ready)
     decodesCommand s ∧ s.cmd.arg0 = 0x01 ∧ s.timebase.power = .asleep) ∧
    (let s := withArg 0x02 (withScanState .waiting ready)
     decodesCommand s ∧ s.cmd.arg0 = 0x02 ∧ s.timebase.power = .awake ∧ s.scan.state ≠ .stopped) ∧
    (let s := withArg 0x02 bankOfSection67
     decodesCommand s ∧ s.cmd.arg0 = 0x02 ∧ s.timebase.power = .awake ∧ s.scan.state = .stopped ∧
       0 < bankLength s.scan.active s.scan ∧ entryOffer (s.withScan { s.scan with passNumber := 0 }) 0 = some 15) ∧
    (bankLength lastEntryBank.scan.active lastEntryBank.scan = 24 ∧
      (∀ m, m < 23 → entryOffer lastEntryBank m = none) ∧ entryOffer lastEntryBank 23 = some 3) ∧
    (let s := withDesc 3 .zero lastEntryBank
     s.scan.passCount = 0 ∧ ∀ n, n < 24 → entryOffer s n = none) ∧
    ready.scan.passCount = 0 ∧ bankLength ready.scan.active ready.scan = 0 := by
  unfold decodesCommand takesWrite; decide

theorem witness_ScanOnce :
    decodesCommand (withPower .asleep ready) ∧
    (let s := withScanState .running ready
     decodesCommand s ∧ s.timebase.power = .awake ∧ s.scan.state = .running) ∧
    (let s := withScanState .waiting bankOfSection67
     decodesCommand s ∧ s.timebase.power = .awake ∧ s.scan.state = .waiting ∧ s.scan.mode ≠ .single ∧
       entryOffer (s.withScan { s.scan with passNumber := s.scan.passNumber }) 0 = some 15) := by
  unfold decodesCommand takesWrite; decide

theorem witness_ScanStopEffect :
    decodesCommand ready ∧ ready.scan.state = .stopped ∧
    (let s := withScanState .waiting ready
     decodesCommand s ∧ s.scan.state ≠ .stopped ∧ scanInFlight s = false) ∧
    (let s := scanning .arm .cleared
     decodesCommand s ∧ s.scan.state ≠ .stopped ∧ scanInFlight s = true) := by
  unfold decodesCommand takesWrite; decide

/-- A stop that waits for a SCAN job, which every kind of event can end. -/
theorem witness_stop_waits :
    let s := stoppingIn .count .cleared
    passLaw s ∧ workingLaw s ∧ s.scan.state = .stopping ∧ s.queue.jobs = [] :=
  ⟨⟨nofun, rfl, rfl, rfl, rfl, rfl⟩, ⟨⟨fun _ => .inr rfl, fun _ => rfl⟩, fun _ => ⟨rfl, rfl⟩, nofun⟩, rfl, rfl⟩

theorem witness_endsJob :
    let j := inFlight 0 (.scan 0)
    let at' := stoppingIn .count
    endsJob .abortJob j (stopping .cleared) ∧ endsJob .edgeTimeout j (stopping .cleared) ∧
    endsJob .edgeTimeout j (at' .cleared) ∧ endsJob .windowGateClose j (at' .cleared) ∧
    endsJob .windowGateClose j (at' { Working.cleared with count := 1, s := 4, samples := 15 }) ∧
    endsJob .periodGateClose j (at' { Working.cleared with count := 1, method := .period }) ∧
    endsJob .overflow j (at' .cleared) ∧
    endsJob .overflow j (at' { Working.cleared with autoRange := true, k := 3 }) := by
  dsimp only [endsJob, takesWrite]
  refine ⟨?_, ?_, ?_, ?_, ?_, ?_, ?_, ?_⟩ <;> decide

/-- R114: the last sample completes the stop, and a pending swap is applied. -/
theorem test_last_sample_completes_the_stop :
    let s := stoppingIn .count { Working.cleared with count := 300 }
    let t := after .windowGateClose (s.withScan { s.scan with swapPending := true })
    t.scan = { s.scan with state := .stopped, passCount := 0, active := .b } ∧ flagSet .command t = true ∧
      t.cmd.outcome = { s.cmd.outcome with state := .done } ∧ t.seq.state = .idle ∧
      t.fifo.records.map (fun r => r.status) = [.ok] := by decide

theorem witness_SwapBanksEffect :
    (let s := ready.withScan { ready.scan with state := .running, swapPending := true }
     decodesCommand s ∧ s.scan.swapPending = true) ∧
    [ScanState.stopped, .waiting, .running].map (fun x => (withScanState x ready).scan.swapPending) =
      [false, false, false] ∧
    decodesCommand (withScanState .running ready) := by
  unfold decodesCommand takesWrite; decide

theorem witness_CommitRefusedOrDeferred :
    (decodesCommand (withArg 16 ready) ∧ 16 ≤ (withArg 16 ready).cmd.arg0.toNat) ∧
    (let s := withArg 0 (measuring .arm .cleared)
     decodesCommand s ∧ s.cmd.arg0.toNat = (0 : ChannelId).val ∧ s.channels[0].engaged = true) ∧
    (let s := withArg 15 (staged (ratio 14) ready)
     decodesCommand s ∧ s.cmd.arg0.toNat = (15 : ChannelId).val ∧ s.channels[15].engaged = false ∧
       validate 15 (Image.ofStaging s.staging) s = some (.refMissing, 14)) := by
  unfold decodesCommand takesWrite; decide

/-- An image that passes check 1. -/
def goodImage : Image := Image.ofStaging (staged absolute ready).staging

/-- The checks at their bounds, and the images they accept, by role. -/
theorem witness_CommitChecks :
    [{ goodImage with role := 4, pin := 8 }, { goodImage with role := 3, pin := 8, method := 2 },
      { goodImage with pin := 7, method := 2 }, { goodImage with method := 1, g := 8 }, { goodImage with g := 7, s := 5 },
      { goodImage with s := 4, e := 8 }, { goodImage with e := 7, policy := 4 }, { goodImage with policy := 3 },
      { goodImage with role := 2, refChannel := 16, zoneMonitor := 1, lowT := 1 },
      { goodImage with zoneMonitor := 1, lowT := 1 }, { goodImage with zoneMonitor := 1, lowT := 2, hyst := 1, highT := 4 },
      { goodImage with role := 2, refChannel := 2 }, { goodImage with role := 2, refChannel := 0 },
      { goodImage with role := 2, refChannel := 15, method := 1 }, { goodImage with role := 2, refChannel := 15 },
      { goodImage with role := 3 }, { goodImage with role := 1 }].map (fun im => validate 2 im twoReferences) =
      [some (.badField, 0x00), some (.badField, 0x02), some (.badField, 0x03), some (.badField, 0x04),
       some (.badField, 0x05), some (.badField, 0x06), some (.badField, 0x19), none, some (.badField, 0x09),
       some (.badField, 0x15), none, some (.badField, 2), some (.refMissing, 0), some (.refMismatch, 15), none, none,
       none] ∧
    validate 0 { goodImage with role := 3 } (ready.withRefs #v[slotFor 12 0, slotFor 13 0, slotFor 14 0, slotFor 15 0]) =
      some (.noRefSlot, 0) ∧
    [{ goodImage with role := 3, enabled := 0 }, { goodImage with role := 3, method := 1 },
      { goodImage with role := 2, refChannel := 15 }, { goodImage with role := 1 }, { goodImage with role := 3 }].map
        (fun im => validate 14 im twoReferences) =
      [some (.refInUse, 2), some (.refInUse, 2), some (.refInUse, 2), some (.refInUse, 2), none] ∧
    [{ goodImage with role := 3, enabled := 0 }, { goodImage with role := 2, refChannel := 14 }, goodImage].map
        (fun im => validate 15 im twoReferences) = [none, none, none] := by decide

theorem witness_CommitApplies :
    (let s := withArg 15 (staged absolute ready)
     decodesCommand s ∧ s.cmd.arg0.toNat = (15 : ChannelId).val ∧ s.channels[15].engaged = false ∧
       validate 15 (Image.ofStaging s.staging) s = none) ∧
    (let s := withArg 0 (staged .zero (withJobs [scanJob 0, scanJob 1] (withDesc 0 absolute ready)))
     decodesCommand s ∧ validate 0 (Image.ofStaging s.staging) s = none ∧
       (Image.ofStaging s.staging).descriptor.role = .unused) := by
  unfold decodesCommand takesWrite; decide

/-- R35, R98: a channel switched off: its offer is withdrawn and its job removed, and an emptied queue is not stalled. -/
theorem test_commit_switches_a_channel_off :
    let s := (withJobs [scanJob 0] bankOfSection67).withScan { bankOfSection67.scan with
      state := .running, cursor := .waiting 1 0, extent := 6, passCount := 1 }
    let t := after .commitChannel (withArg 0 (staged .zero (s.withQueue { s.queue with stalled := true })))
    t.queue = { s.queue with jobs := [], stalled := false } ∧ t.cmd.outcome.result = 1 ∧
      t.scan = { s.scan with cursor := .settled 1, passCount := 0 } := by decide

/-- R31, R34, R69 to R71: of the slots, one kept, one invalidated, one freed, one taken, and one user moved. -/
theorem witness_CommitApplies_slots :
    let used := twoReferences.withRefs #v[slotFor 14 2, { slotFor 15 0 with valid := true, age := 9 }, .free, .free]
    let commit := fun (ch : ChannelId) (d : Descriptor) =>
      let s := withArg (BitVec.ofNat 8 ch.val) (staged d used)
      (validate ch (Image.ofStaging s.staging) s, (after .commitChannel s).refs)
    commit 15 { reference with settle := 9 } = (none, used.refs) ∧
    commit 15 { reference with pin := 6 } = (none, #v[slotFor 14 2, slotFor 15 0, .free, .free]) ∧
    commit 15 absolute = (none, #v[slotFor 14 2, .free, .free, .free]) ∧
    commit 9 reference = (none, #v[slotFor 14 2, used.refs[1], slotFor 9 0, .free]) ∧
    commit 1 (ratio 15) = (none, #v[slotFor 14 1, { used.refs[1] with users := 1 }, .free, .free]) := by decide

/-- R37: the commit of section 9.13 waits; the table has changed so that it is refused, or it has not. -/
theorem witness_deferred_decision :
    (let s := deferredCommit
     endsJob .abortJob (inFlight 4 (.scan 7)) (writingAt 0x18 s) ∧ endsJob .edgeTimeout (inFlight 4 (.scan 7)) s ∧
       endsJob .windowGateClose (inFlight 4 (.scan 7)) (withSeqState .count s) ∧
       s.cmd.outcome.state = .working ∧ s.scan.state ≠ .stopping ∧
       s.deferred = some { channel := 4, image := Image.ofStaging s.staging } ∧
       validate 4 (Image.ofStaging s.staging) s = none) ∧
    (let im := { goodImage with role := 2, refChannel := 9 }
     let t := after .edgeTimeout (deferredCommit.withDeferred (some { channel := 4, image := im }))
     validate 4 im deferredCommit = some (.refMissing, 9) ∧ t.cmd.outcome.reason = some .refMissing ∧
       t.deferred = none ∧ flagSet .command t = true ∧ t.channels[4].desc = absolute) := by
  dsimp only [endsJob, takesWrite]
  refine ⟨⟨?_, ?_, ?_, ?_⟩, ?_⟩ <;> decide

/-- R37: the last sample and a count of 0 decide it as well; the jobs of a channel switched off are counted. -/
theorem test_gate_close_decides_the_commit :
    let s := withSeqState .count deferredCommit
    let u := s.withDeferred (some { channel := 4, image := Image.ofStaging (staged .zero ready).staging })
    [after .windowGateClose s, after .windowGateClose (s.withSeq { s.seq with work := { s.seq.work with count := 9 } }),
      after .windowGateClose (withJobs [scanJob 4] u)].map
        (fun t => (t.cmd.outcome.state, t.cmd.outcome.result, t.channels[4].desc.settle, t.channels[4].lastStatus)) =
      [(.done, 0, 9, .under), (.done, 0, 9, .ok), (.done, 1, 0, .under)] := by decide

theorem witness_FetchChannelEffect :
    decodesCommand (withArg 16 ready) ∧ decodesCommand (withArg 15 ready) ∧
      (withArg 15 ready).cmd.arg0.toNat = (15 : ChannelId).val := by
  unfold decodesCommand takesWrite; decide

theorem witness_FetchedDescriptorCommitsBack :
    (Channel.zero.desc.role ≠ .ratio → Channel.zero.desc.refChannel = 0 ∧ Channel.zero.desc.maxAge = 0) ∧
      (ratio 15).role = .ratio := by decide

theorem witness_InvalidateReferenceEffect :
    decodesCommand (withArg 0xFF twoReferences) ∧ (withArg 0xFF twoReferences).cmd.arg0 = 0xFF ∧
    decodesCommand (withArg 0xFE twoReferences) ∧ decodesCommand (withArg 16 twoReferences) ∧
    (let s := withArg 13 twoReferences
     decodesCommand s ∧ s.cmd.arg0.toNat = (13 : ChannelId).val ∧ ∀ i : Fin 4, s.refs[i.val].owner ≠ some 13) ∧
    (let s := withArg 15 twoReferences
     decodesCommand s ∧ s.cmd.arg0.toNat = (15 : ChannelId).val ∧ s.refs[(1 : Fin 4).val].owner = some 15 ∧
       ∀ k : Fin 4, s.refs[k.val].owner = some 15 → k = 1) := by
  unfold decodesCommand takesWrite; decide

theorem witness_ClearZoneAndClearAlerts :
    decodesCommand (withArg 0xFF ready) ∧ decodesCommand (withArg 0xFE ready) ∧
    decodesCommand (withArg 16 ready) ∧ (withArg 15 ready).cmd.arg0.toNat = (15 : ChannelId).val ∧
    takesWrite 0x18 ready ∧ ready.cmd.outcome.state ≠ .working ∧
    takesWrite 0x18 (withWorking 0x20 ready) ∧ (withWorking 0x20 ready).cmd.outcome.state = .working ∧
    alertLaw (withAlertList [alertOf 0, alertOf 15] ready) ∧
    ∀ a ∈ [alertOf 0, alertOf 15], a.channel ≠ 7 := by
  unfold decodesCommand takesWrite alertLaw; decide

/-- R137: an entry in the middle of the list at a count of 254 and of 255, and a channel with no entry. -/
theorem test_alert_entries_of_any_list :
    let list := fun count : Nat => [alertOf 0, { alertOf 7 with count := count }, alertOf 15]
    let updated : AlertEntry := { channel := 7, fromZone := .inside, toZone := .above, count := 255, stamp := 9 }
    alertEntries 7 .fault .above 9 (list 254) = [alertOf 0, updated, alertOf 15] ∧
    alertEntries 7 .fault .above 9 (list 255) = [alertOf 0, updated, alertOf 15] ∧
    alertEntries 7 .fault .above 9 [alertOf 0, alertOf 15] =
      [alertOf 0, alertOf 15, { updated with fromZone := .fault, count := 1 }] := by decide

theorem witness_ClearResultsEffect :
    decodesCommand ready ∧ ready.queue.stalled = false ∧
    decodesCommand stalledOver ∧ stalledOver.queue.stalled = true ∧ arbiterReady stalledOver = true ∧
    stalledOver.queue.jobs ≠ [] ∧ stalledOver.fifo.reserved = 0 := by
  unfold decodesCommand takesWrite; decide

theorem witness_SetTimebase :
    decodesCommand (withArg 8 ready) ∧ 8 ≤ (withArg 8 ready).cmd.arg0.toNat ∧
    (let s := withArg 7 (withPower .asleep ready)
     decodesCommand s ∧ s.cmd.arg0.toNat = (7 : Fin 8).val ∧ s.timebase.power = .asleep) ∧
    (let s := withArg 7 (measuring .arm .cleared)
     decodesCommand s ∧ s.timebase.power = .awake ∧ s.seq.state ≠ .idle) ∧
    (let s := withArg 0 (withScanState .waiting ready)
     decodesCommand s ∧ s.timebase.power = .awake ∧ s.seq.state = .idle ∧ s.scan.state ≠ .stopped) ∧
    (let s := withArg 0 ready
     decodesCommand s ∧ s.cmd.arg0.toNat = (0 : Fin 8).val ∧ s.timebase.power = .awake ∧ s.seq.state = .idle ∧
       s.scan.state = .stopped) := by
  unfold decodesCommand takesWrite; decide

theorem witness_SleepWake :
    decodesCommand (withPower .asleep ready) ∧ (withPower .asleep ready).timebase.power = .asleep ∧
    (let s := withJobs [directJob 0 1] ready
     decodesCommand s ∧ s.timebase.power = .awake ∧ s.seq.state = .idle ∧ s.scan.state = .stopped ∧ s.queue.jobs ≠ []) ∧
    ready.queue.jobs = [] := by
  unfold decodesCommand takesWrite; decide

/-- R184: the end of a stall by FLUSH_QUEUE, by SCAN_STOP, by a commit that switches the channel off, by a write of the
policy: STALL stays set. -/
theorem test_stall_flag_outlives_the_stall :
    let full := withRecords (records 16) (withJobs [scanJob 2] (withDesc 2 absolute ready))
    let s := withScanState .running (after .arbiterSelection full)
    [after .flushQueue (withArg 0x03 s), after .scanStop s, after .commitChannel (withArg 2 (staged .zero s)),
      after (.fullPolicyWrite 1) s].map (fun t => (t.queue.stalled, flagSet .stall t)) =
      [(false, true), (false, true), (false, true), (false, true)] ∧
    s.queue.stalled = true ∧ flagSet .stall s = true := by decide

/-- A byte of COMMAND that is no ENGINE_RESET, and a row that is no byte. -/
theorem witness_no_flag_cleared :
    (∀ value, (∃ address, Instr.busWrite .flushQueue = some (address, value)) ∨
        Instr.flushQueue = .registerPointerLoad value →
      ¬takesWrite 0x10 ready ∧ ¬(takesWrite 0x18 ready ∧ value = 0x50)) ∧
    (∀ value, (∃ address, Instr.busWrite .overflow = some (address, value)) ∨ Instr.overflow = .registerPointerLoad value →
      ¬takesWrite 0x10 ready ∧ ¬(takesWrite 0x18 ready ∧ value = 0x50)) := by
  refine ⟨fun value h => ?_, fun value h => ?_⟩
  · rcases h with ⟨address, h⟩ | h
    · obtain ⟨_, rfl⟩ := Prod.mk.inj (Option.some.inj h)
      unfold takesWrite
      decide
    · cases h
  · rcases h with ⟨address, h⟩ | h <;> cases h

/-- The end of a stall by a pop. -/
theorem witness_flags_kept : jobLaw stalledOver ∧ ∃ t, exec .resultWindowPop stalledOver = .next t :=
  ⟨by unfold jobLaw; decide, _, rfl⟩

theorem witness_FullPolicyWriteStores :
    let s := writingAt 0x24 ready
    let t := writingAt 0x24 stalledOver
    takesWrite 0x24 s ∧ s.queue.stalled = false ∧
    takesWrite 0x24 t ∧ t.queue.stalled = true ∧ t.fifo.records.length = 16 ∧ arbiterReady t = true ∧
    t.queue.jobs ≠ [] := by
  unfold takesWrite; decide

theorem witness_ScanBankWriteStores :
    (∀ a ∈ [0x26#8, 0x27, 0x90, 0xBF, 0xC0, 0xEF], takesWrite a (writingAt a ready)) ∧
    (let s := writingAt 0x90 (withScanState .running ready)
     takesWrite 0x90 s ∧ ¬(s.scan.active = .b ∨ s.scan.state = .stopped) ∧ (s.scan.active = .a ∨ s.scan.state = .stopped)) ∧
    (let s := writingAt 0xEF (ready.withScan { ready.scan with active := .b, state := .waiting })
     takesWrite 0xEF s ∧ ¬(s.scan.active = .a ∨ s.scan.state = .stopped) ∧
       (s.scan.active = .b ∨ s.scan.state = .stopped)) := by
  unfold takesWrite; decide

theorem witness_PlainRegisterWrites :
    (∀ a ∈ [0x00#8, 0x0A, 0x0B, 0x0F, 0x17, 0x19, 0x1C, 0x1D, 0x20, 0x23, 0x28, 0x3F, 0x40, 0x5F, 0x60, 0x8F, 0xF0, 0xFF],
      takesWrite a (writingAt a ready)) ∧
    (let s := writingAt 0x21 (ready.withScan { ready.scan with periodLow := 0 })
     takesWrite 0x21 s ∧ s.scan.periodLow = 0 ∧ ¬((1 : Byte) = 0 ∧ s.scan.periodLow = 0)) ∧
    (let s := writingAt 0x20 (ready.withScan { ready.scan with periodHigh := 0 })
     takesWrite 0x20 s ∧ s.scan.periodHigh = 0) := by
  unfold takesWrite; decide

/-- A completion of channel 0. -/
def completed (status : JobStatus) (value : Option Nat) : Completion :=
  { channel := 0, tag := .direct 1, status := status, samplesExp := 0, step := 0, cTotal := 1, gTotal := 1,
    method := .window, value := value, saturated := false, lowRes := true, refPart := none, refreshed := false,
    rangeChanged := false, timestamp := 0 }

/-- Seven records and then the eighth, at a watermark of 8. -/
theorem witness_WatermarkByte :
    takesWrite 0x25 (writingAt 0x25 ready) ∧
    writesRecord (completed .ok (some 1)) false .never = true ∧ flagSet .results ready = false ∧
    [6, 7].map (fun n => flagSet .results (fifoShare (completed .ok (some 1)) .unknown false .never
      (withRecords (records n) (ready.withFifo { ready.fifo with watermark := 8 })))) = [false, true] := by
  unfold takesWrite; decide

theorem witness_TransactionBytes :
    ready.inReset = false ∧ (openWrite ready).inReset = false ∧ (openWrite ready).port.bus = .awaitPointer ∧
    Instr.busWrite (.eventFlagsWrite 3) = some (0x10#8, 3) ∧ Instr.wellFormed (.eventFlagsWrite 3) = true ∧
    (writingAt 0xFF ready).port.bus = .writing ∧ State.reset.port.bus = .idle ∧ (readingAt 0 ready).port.bus = .reading ∧
    ready.port.address = 0x2C ∧ ready.port.address ≠ 0x00 ∧ ready.port.address ≠ 0x2D := by
  decide

theorem witness_WindowPops :
    (let s := readingAt 0x60 ready
     sendsFrom 0x60 s ∧ s.queue.stalled = false ∧ s.fifo.records = []) ∧
    (withRecords (records 1) (readingAt 0x60 ready)).fifo.records = oldRecord :: [] ∧
    (let s := readingAt 0x60 stalledOver
     sendsFrom 0x60 s ∧ s.queue.stalled = true ∧ arbiterReady s = true ∧ s.queue.jobs ≠ [] ∧
       s.fifo.records = oldRecord :: records 15 ∧ (records 15).length = 15 ∧ s.fifo.reserved = 0) ∧
    (let s := withAlertList [alertOf 15] (readingAt 0x80 ready)
     sendsFrom 0x80 s ∧ s.alerts.entries = alertOf 15 :: []) ∧ (readingAt 0x80 ready).alerts.entries = [] ∧
    ∀ a ∈ [0x00#8, 0x5F, 0x61, 0x7F, 0x81, 0xFF], sendsFrom a (readingAt a ready) ∧ a ≠ 0x60 ∧ a ≠ 0x80 := by
  unfold sendsFrom; decide

theorem witness_WindowBytes :
    ready.fifo.latch = none ∧ ready.alerts.latch = none ∧
    (after .resultWindowPop (withRecords [exampleRecord] ready)).fifo.latch = some exampleRecord ∧
    (after .alertWindowPop (withAlertList [alertOf 0] ready)).alerts.latch = some (alertOf 0) ∧
    exampleRecord.value = some 81924 ∧ exampleRecord.refPart = some { cRef := 9233, step := 0, age := 0 } ∧
    { exampleRecord with value := none, refPart := none }.value = none ∧ oldRecord.refPart = none ∧
    ready.cmd.outcome.reason = none ∧
    (after .invalidateReference ready).cmd.outcome.reason = some .refMissing ∧
    ready.refs[(3 : Fin 4).val].owner = none ∧ twoReferences.refs[(0 : Fin 4).val].owner = some 14 := by
  decide

theorem witness_WriteRowsRoundTrip :
    Instr.wellFormed (.registerWrite 0xFF 7) = true ∧ Instr.busWrite (.registerWrite 0xFF 7) = some (0xFF, 7) ∧
    Instr.wellFormed (.scanBankWrite 0xEF 7) = true ∧ Instr.busWrite (.scanBankWrite 0xEF 7) = some (0xEF, 7) := by decide

/-- Each clause at the last count before its bound and at the bound. -/
theorem witness_TbTickEffect :
    clocked ready = true ∧ clocked (powerOn ready) = false ∧ clocked (withPower .asleep ready) = false ∧
    (let s := ready.withTimebase { ready.timebase with slowDivider := 1022 }
     clocked s = true ∧ s.timebase.slowDivider + 1 < 1024) ∧
    (let s := measuring .discharge { Working.cleared with dischargeLength := 16, dischargeCount := 14 }
     clocked s = true ∧ s.seq.state = .discharge ∧ s.seq.work.dischargeCount + 1 < s.seq.work.dischargeLength) ∧
    (let s := measuring .arm { Working.cleared with timeout := 1023 }
     s.seq.state = .arm ∧ 1024 * 2 ^ s.seq.work.e.val ≤ s.seq.work.timeout + 1) ∧
    (let s := measuring .count { Working.cleared with gate := 255, timeout := 1023 }
     s.seq.work.method = .window ∧ windowGate s.seq.work ≤ s.seq.work.gate + 1) ∧
    (let s := measuring .count { Working.cleared with gate := 254, timeout := 1023 }
     s.seq.work.gate + 1 < windowGate s.seq.work ∧ 1024 * 2 ^ s.seq.work.e.val ≤ s.seq.work.timeout + 1) ∧
    (let s := measuring .count { Working.cleared with method := .period, count := 1048575 }
     s.seq.work.method = .period ∧ 1048576 ≤ s.seq.work.count + 1) ∧
    (let s := measuring .count { Working.cleared with method := .period, count := 1048574, timeout := 1023 }
     s.seq.work.count + 1 < 1048576 ∧ 1024 * 2 ^ s.seq.work.e.val ≤ s.seq.work.timeout + 1) := by decide

/-- R7, R8: a TB tick that is no slow tick and one that is, no count complete, each at its last count; with the cursor at
rest, and settled. -/
theorem witness_tick_goes_on :
    (let s := withDivider 1022 (measuring .settle .cleared)
     clocked s = true ∧ s.seq.state = .settle ∧ s.timebase.slowDivider + 1 < 1024 ∧ s.scan.cursor = .cleared) ∧
    (let s := withDivider 1023 (bankOfSection67.withScan { bankOfSection67.scan with cursor := .waiting 1 0 })
     clocked s = true ∧ s.seq.state = .idle ∧ 1024 ≤ s.timebase.slowDivider + 1) ∧
    (let w := (measuring .discharge { Working.cleared with dischargeLength := 16, dischargeCount := 14 }).seq.work
     w.dischargeCount + 1 < w.dischargeLength) ∧
    (let s := runningAt 0 []
     s.seq.state = .arm ∧ s.seq.work.timeout + 1 < 1024 * 2 ^ s.seq.work.e.val ∧ s.scan.cursor = .settled 0) ∧
    (let w := (measuring .count { Working.cleared with gate := 254, timeout := 1022 }).seq.work
     w.gate + 1 < windowGate w ∧ w.timeout + 1 < 1024 * 2 ^ w.e.val) ∧
    (let w := (measuring .count { Working.cleared with method := .period, count := 1048574, timeout := 1022 }).seq.work
     w.method = .period ∧ w.count + 1 < 1048576 ∧ w.timeout + 1 < 1024 * 2 ^ w.e.val) := by decide

/-- R7, R116: a TB tick moves a settled cursor on, which offers channel 0 at entry 1. -/
theorem test_tbTick_moves_the_cursor :
    let t := after (.tbTick false) (runningAt 0 [])
    t.scan.cursor = .settled 1 ∧ t.queue.jobs = [{ channel := 0, tag := .scan 0 }] ∧ t.seq.work.timeout = 1 := by decide

/-- R8, R46, R72, R121: the 1,024th TB tick is counted by SETTLE, by a valid entry and by the pass timer. -/
theorem test_tbTick_delivers_the_slow_tick :
    let s := measuring .settle { Working.cleared with settle := 2, settleCount := 1 }
    let running := s.withScan { s.scan with state := .running, cursor := .done, passCount := 1, timer := 3, latched := 9 }
    let t := after (.tbTick false) (withDivider 1023
      (running.withRefs #v[{ slotFor 15 0 with valid := true, age := 6 }, .free, .free, .free]))
    t.seq.state = .arm ∧ t.scan.timer = 4 ∧ t.refs[0].age = 7 ∧ t.timebase.stamp = 1 := by decide

theorem witness_cursor_rests : ∀ n, (measuring .count .cleared).scan.cursor ≠ .settled n := by
  intro n h; cases h

/-- TRIGGERED in `x`, with the filter length 4, `stable` samples taken and a rising edge under way. -/
def edgeComing (x : ScanState) (stable : Nat) : State :=
  withScanState x (bankOfSection67.withScan
    { bankOfSection67.scan with mode := .triggered, trigSetting := 0x02, stable := stable })

/-- What a slow tick shows of the scan. -/
def ticked (s : State) : ScanState × Nat × Bool × Nat × Byte :=
  let sc := (after (.slowTick true) s).scan
  (sc.state, sc.timer, sc.filtered, sc.stable, sc.overrun)

/-- The edge at the last sample before it qualifies, and at it, in each state. -/
theorem test_slow_ticks_of_an_edge :
    [ScanState.stopped, .waiting, .running, .stopping].map (fun x => ticked (edgeComing x 3)) =
      [(.stopped, 0, false, 4, 0), (.waiting, 0, false, 4, 0), (.running, 0, false, 4, 0), (.stopping, 0, false, 4, 0)] ∧
    [ScanState.stopped, .waiting, .running, .stopping].map (fun x => ticked (edgeComing x 4)) =
      [(.stopped, 0, true, 0, 0), (.running, 0, true, 0, 0), (.running, 0, true, 0, 1), (.stopping, 0, true, 0, 0)] := by
  decide

/-- The pass timer at the last count before its latched interval and at it, in each state. -/
theorem test_slow_ticks_of_the_pass_timer :
    let s := fun n x =>
      withScanState x (bankOfSection67.withScan { bankOfSection67.scan with timer := n, latched := 1000 })
    [ScanState.stopped, .waiting, .running, .stopping].map (fun x => ticked (s 998 x)) =
      [(.stopped, 998, true, 0, 0), (.waiting, 999, true, 0, 0), (.running, 999, true, 0, 0),
       (.stopping, 998, true, 0, 0)] ∧
    [ScanState.stopped, .waiting, .running, .stopping].map (fun x => ticked (s 999 x)) =
      [(.stopped, 999, true, 0, 0), (.running, 0, true, 0, 0), (.running, 0, true, 0, 1),
       (.stopping, 999, true, 0, 0)] := by
  decide

theorem witness_SlowTickEffect :
    clocked ready = true ∧ clocked (edgeComing .waiting 4) = true ∧
    (let s := measuring .settle { Working.cleared with settle := 2, settleCount := 1 }
     clocked s = true ∧ s.seq.state = .settle ∧ s.seq.work.settle.toNat ≤ s.seq.work.settleCount + 1) ∧
    (let s := measuring .settle { Working.cleared with settle := 3, settleCount := 1 }
     ¬(s.seq.work.settle.toNat ≤ s.seq.work.settleCount + 1)) := by decide

theorem test_slow_tick_expiry_starts_a_pass :
    let s := withScanState .waiting (ready.withScan { ready.scan with timer := 999, latched := 1000 })
    flagSet .pass (after (.slowTick false) s) = true ∧ (after (.slowTick false) s).scan.timer = 0 := by decide

theorem witness_OscillatorEdgeCounts :
    (let s := measuring .arm .cleared
     s.frontEnd = .running 0 false ∧ s.seq.state = .arm) ∧
    (let s := measuring .count { Working.cleared with count := 1048574 }
     s.frontEnd = .running 0 false ∧ s.seq.state = .count ∧ s.seq.work.method = .window ∧ s.seq.work.count + 1 < 1048576) ∧
    (let s := measuring .count { Working.cleared with count := 1048575 }
     s.seq.work.method = .window ∧ 1048576 ≤ s.seq.work.count + 1) ∧
    (let s := measuring .count { Working.cleared with method := .period, g := 7, k := 3, gate := 14 }
     s.seq.work.method = .period ∧ s.seq.work.gate + 1 < 2 ^ (s.seq.work.g.val - s.seq.work.k)) ∧
    (let s := measuring .count { Working.cleared with method := .period, g := 7, k := 3, gate := 15 }
     2 ^ (s.seq.work.g.val - s.seq.work.k) ≤ s.seq.work.gate + 1) ∧
    (let s := measuring .settle .cleared
     s.frontEnd = .running 0 false ∧ s.seq.state ≠ .arm ∧ s.seq.state ≠ .count) ∧
    (let s := after (.oscillatorEdge false) (measuring .arm .cleared)
     s.frontEnd = .running 0 true ∧ s.pending = []) ∧ (measuring .arm .cleared).pending = [] := by decide

/-- R2, R3: an edge that finds the output high is its fall and its rise. -/
theorem test_edge_on_a_high_output :
    let s := measuring .arm .cleared
    after (.oscillatorEdge false) (s.withFrontEnd (.running 0 true)) = after (.oscillatorEdge false) s := by decide

/-- R2, R3: the pin follows the inverse of the comparator output. -/
theorem test_pin_levels :
    let s := measuring .arm .cleared
    [pinLevel 0 s, pinLevel 1 s, pinLevel 0 (after (.oscillatorEdge false) s), pinLevel 0 ready] =
      [some true, none, some false, none] := by decide

theorem witness_no_oscillation : ∀ pin high, ready.frontEnd ≠ .running pin high := by
  intro pin high h; cases h

theorem witness_DischargeAndSettleEnd :
    (let s := measuring .discharge { Working.cleared with settle := 1 }
     s.seq.state = .discharge ∧ s.seq.work.settle ≠ 0) ∧
    (measuring .discharge .cleared).seq.work.settle = 0 ∧ (measuring .settle .cleared).seq.state = .settle ∧
    ready.seq.state ≠ .discharge ∧ ready.seq.state ≠ .settle ∧ ready.frontEnd = .clamped ∧
    (measuring .settle .cleared).frontEnd = .running 0 false := by decide

theorem witness_GateCloseAddsSample :
    (let s := measuring .count { Working.cleared with s := 1, count := 1 }
     s.seq.state = .count ∧ 0 < s.seq.work.count ∧ s.seq.work.samples + 1 < 2 ^ s.seq.work.s.val ∧
       s.seq.work.method = .window) ∧
    (let s := measuring .count { Working.cleared with s := 4, samples := 14, count := 1, method := .period }
     s.seq.work.samples + 1 < 2 ^ s.seq.work.s.val ∧ s.seq.work.method = .period) := by decide

theorem witness_FailedPhaseEndsTheJob :
    (let s := measuring .arm .cleared
     s.seq.state = .arm ∧ s.seq.job = some (inFlight 0 (.direct 1)) ∧ (inFlight 0 (.direct 1)).phase = .primary ∧
       s.queue.jobs = [] ∧ s.deferred = none) ∧
    (let s := measuring .count .cleared
     s.seq.state = .count ∧ s.seq.work.method = .window ∧ s.seq.work.count = 0 ∧ s.seq.work.autoRange = false) ∧
    (let s := measuring .count { Working.cleared with method := .period, autoRange := true }
     s.seq.work.method = .period ∧ s.seq.work.count = 0 ∧ stepLimit s.seq.work ≤ s.seq.work.k) ∧
    (let s := stopping .cleared
     s.seq.state = .arm ∧ s.seq.job = some (inFlight 0 (.scan 0)) ∧ s.deferred = none ∧ s.queue.jobs = []) ∧
    (let s := refreshing .count .cleared
     s.seq.state = .count ∧ s.deferred = none ∧ s.queue.jobs = [] ∧
       s.seq.job = some { inFlight 0 (.direct 1) with refresh := some 15, phase := .refresh }) := by decide

/-- R53, R54, R132, R137: OVER at the limit of the step, on a channel with its zone monitor on. -/
theorem test_over_at_the_limit :
    let w := { Working.cleared with autoRange := true, k := 3, count := 5, cTotal := 7 }
    let s := measuring .count w
    let t := after .overflow (withDesc 0 { zoned with autoRange := true } s)
    t.fifo.records = [failedRecord .over .fault (inFlight 0 (.direct 1)) s] ∧ t.channels[0].rangeStep = 3 ∧
      t.alerts.entries = [{ channel := 0, fromZone := .unknown, toZone := .fault, count := 1, stamp := 0 }] ∧
      flagSet .alert t = true ∧ t.seq.job = none ∧ t.channels[0].engaged = false := by decide

/-- R117, R118: a failed SCAN job is counted out of its pass, which ends with it. -/
theorem test_failed_job_ends_its_pass :
    let s := scanning .arm .cleared
    let t := after .edgeTimeout s
    t.scan = passClosed { s.scan with passCount := 0 } ∧ t.scan.state = .waiting ∧ flagSet .pass t = true := by decide

/-- R60, R77: an OPEN of the refresh phase. -/
theorem test_failed_refresh :
    let s := refreshing .arm { Working.cleared with cTotal := 7, k := 2 }
    let t := after .edgeTimeout s
    t.fifo.records.map (fun r => (r.status, r.step, r.cTotal)) = [(.refFault, 0, 0)] ∧
      t.refs = #v[{ slotFor 15 1 with fault := .openArm }, .free, .free, .free] ∧ t.channels[15].engaged = false := by
  decide

theorem witness_OverflowStepsUp :
    let s := measuring .count { Working.cleared with autoRange := true, k := 2 }
    s.seq.state = .count ∧ s.seq.job = some (inFlight 0 (.direct 1)) ∧ s.seq.work.autoRange = true ∧
      s.seq.work.k < stepLimit s.seq.work := by decide

theorem witness_RefreshPhaseContinues :
    let s := refreshing .count { Working.cleared with count := 1 }
    s.seq.work.method = .window ∧ s.seq.state = .count ∧
      s.seq.job = some { inFlight 0 (.direct 1) with refresh := some 15, phase := .refresh } ∧
      0 < s.seq.work.count ∧ 2 ^ s.seq.work.s.val ≤ s.seq.work.samples + 1 := by decide

/-- R21, R45: the primary phase starts with a new working copy of the settings of the job's own channel. -/
theorem test_primary_phase_copy :
    let d := { ratio 15 with pin := 3, settle := 9, s := 2, e := 1, g := 4 }
    let s := withDesc 0 d (refreshing .count { Working.cleared with count := 1, k := 2, pin := 7, timeout := 40 })
    (after .windowGateClose s).seq.work = { Working.cleared with
      pin := 3, settle := 9, s := 2, e := 1, g := 4, dischargeLength := 64 } := by decide

/-- A DIRECT job on an ABSOLUTE channel, a SCAN job that ends its pass and one that does not, a job on a REFERENCE
channel, and a RATIO job with its copy. -/
theorem witness_PrimaryPhaseEndsOk :
    (let s := measuring .count { Working.cleared with count := 1 }
     s.seq.work.method = .window ∧ s.seq.state = .count ∧ s.seq.job = some (inFlight 0 (.direct 1)) ∧
       s.channels[0].desc.role = .absolute ∧ (inFlight 0 (.direct 1)).phase = .primary ∧ 0 < s.seq.work.count ∧
       2 ^ s.seq.work.s.val ≤ s.seq.work.samples + 1 ∧ s.queue.jobs = [] ∧ s.deferred = none) ∧
    (measuring .count { Working.cleared with count := 1, method := .period }).seq.work.method = .period ∧
    (let s := scanning .count { Working.cleared with count := 1 }
     s.seq.job = some (inFlight 0 (.scan 0)) ∧ s.queue.jobs = [] ∧ s.scan.state = .running ∧ s.scan.cursor = .done ∧
       s.scan.passCount = 1) ∧
    (withDesc 0 reference (measuring .count .cleared)).channels[0].desc.role = .reference ∧
    ratioJob.seq.job = some busyJob ∧ ratioJob.channels[0].desc.role = .ratio ∧ busyJob.phase = .primary ∧
    busyJob.refCopy = some { cRef := 9, gRef := 256, step := 0, age := 0 } ∧ 0 < ratioJob.seq.work.count := by
  decide

/-- R58, R59, R117, R151, R155: the RATIO job ends, with more of its pass to come. -/
theorem test_ratio_job_ends :
    let t := after .windowGateClose ratioJob
    t.fifo.records.map (fun r => (r.value, r.refPart, r.refreshed, r.lowRes)) =
      [(some 589824, some { cRef := 9, step := 0, age := 0 }, true, true)] ∧
      t.scan = { ratioJob.scan with passCount := 1 } ∧ t.refs = ratioJob.refs ∧ t.seq.job = none := by decide

/-- R76, R118, R151: a SCAN job of policy NEVER on a REFERENCE channel ends, and its pass with it. -/
theorem test_reference_job_ends_its_pass :
    let s := withDesc 0 { reference with policy := .never } (scanning .count { Working.cleared with count := 300 })
    let t := after .windowGateClose (s.withRefs #v[slotFor 0 0, .free, .free, .free])
    t.refs = #v[{ slotFor 0 0 with valid := true, cRef := 300, gRef := 256 }, .free, .free, .free] ∧
      t.fifo.records = [] ∧ t.fifo.reserved = 0 ∧ t.scan.state = .waiting ∧ t.scan.passNumber = 1 ∧
      flagSet .pass t = true := by decide

/-- Table 7-2 at the values where its rows meet, for thresholds at the limit of R130. -/
theorem witness_ZoneTransitions :
    let d := { absolute with zoneMonitor := true, lowT := 10, highT := 14, hyst := 2 }
    let zone := fun (z : Zone) (v : Nat) =>
      zoneAfter (completed .ok (some v)) { Channel.zero with desc := d, zone := z }
    (completed .ok (some 9)).status = .ok ∧ d.lowT.toNat + 2 * d.hyst.toNat ≤ d.highT.toNat ∧
    [9, 10, 14, 15].map (zone .unknown) = [.below, .inside, .inside, .above] ∧
    [9, 10, 14, 15].map (zone .fault) = [.below, .inside, .inside, .above] ∧
    [11, 12, 14, 15].map (zone .below) = [.below, .inside, .inside, .above] ∧
    [9, 10, 14, 15].map (zone .inside) = [.below, .inside, .inside, .above] ∧
    [9, 10, 12, 13].map (zone .above) = [.below, .inside, .inside, .above] := by decide

theorem witness_ArbiterSelects :
    arbiterReady (measuring .arm .cleared) = false ∧ ready.queue.jobs = [] ∧
    (let s := withRecords (records 15) (withJobs [scanJob 2, directJob 5 13, scanJob 3] ready)
     arbiterReady s = true ∧ s.queue.stalled = false ∧ s.queue.jobs = [scanJob 2] ++ directJob 5 13 :: [scanJob 3] ∧
       (directJob 5 13).tag.isDirect = true ∧ (∀ b ∈ [scanJob 2], b.tag.isDirect = false) ∧
       s.fifo.records.length + s.fifo.reserved < 16) ∧
    (arbiterReady overwriteFull = true ∧ overwriteFull.queue.jobs = [] ++ directJob 2 7 :: [] ∧
      overwriteFull.fifo.policy = .overwrite) ∧
    (let s := withRecords (records 16) (withJobs [scanJob 2] ready)
     arbiterReady s = true ∧ s.queue.jobs = [] ++ scanJob 2 :: [] ∧
       (∀ b ∈ scanJob 2 :: [], b.tag.isDirect = false) ∧ 16 ≤ s.fifo.records.length + s.fifo.reserved ∧
       s.fifo.policy = .hold) := by decide

/-- Two jobs queued behind a DIRECT job of channel 0, with `n` records. -/
def nextBehind (n : Nat) (x : SeqState) (w : Working) : State :=
  withRecords (records n) (withJobs [scanJob 2, directJob 5 13] (measuring x w))

/-- The job ends by each kind of event. -/
theorem witness_job_ends :
    let j := inFlight 0 (.direct 1)
    let s := nextBehind 14 .count .cleared
    endsJob .abortJob j s ∧ endsJob .edgeTimeout j s ∧ endsJob .windowGateClose j s ∧ endsJob .overflow j s ∧
      endsJob .periodGateClose j (nextBehind 15 .count { Working.cleared with count := 1, method := .period }) := by
  dsimp only [endsJob, takesWrite]
  refine ⟨?_, ?_, ?_, ?_, ?_⟩ <;> decide

theorem witness_job_end_selects :
    (let s := nextBehind 14 .count .cleared
     clocked s = true ∧ s.deferred = none ∧ s.queue.stalled = false ∧ s.fifo.records.length < 15 ∧
       s.queue.jobs = [scanJob 2] ++ directJob 5 13 :: []) ∧
    (∀ b ∈ [scanJob 2], b.tag.isDirect = false) ∧
    (let s := nextBehind 15 .count .cleared
     s.fifo.records.length = 15 ∧ s.fifo.policy = .hold ∧ (inFlight 0 (.direct 1)).tag.isDirect = true) := by decide

/-- R63, R94, R97: the job ends, and the DIRECT job starts in the same event, or finds no slot. -/
theorem test_job_end_selects :
    (let t := after .edgeTimeout (nextBehind 14 .arm .cleared)
     t.seq.state = .discharge ∧ t.seq.job.map (fun j => j.tag) = some (.direct 13) ∧ t.queue.jobs = [scanJob 2] ∧
       t.fifo.records.length = 15 ∧ t.fifo.reserved = 1) ∧
    (let t := after .edgeTimeout (nextBehind 15 .arm .cleared)
     t.seq.state = .idle ∧ t.queue.jobs = [scanJob 2, directJob 5 13] ∧ t.queue.stalled = true ∧
       t.fifo.records.length = 16) := by decide

theorem witness_no_offer_waits : ∀ n ch, (withJobs [scanJob 2] ready).scan.cursor ≠ .waiting n ch := by
  intro n ch h; cases h

/-- Slot 0 of channel 15, measured, of an age at the maximum age of channel 0. -/
def freshSlot : RefSlot := { slotFor 15 1 with valid := true, cRef := 9, gRef := 256, age := 500 }

theorem witness_RatioJobsAndValues :
    (let s := withDesc 15 reference (withDesc 0 (ratio 15) (ready.withRefs #v[freshSlot, .free, .free, .free]))
     s.channels[0].desc.role = .ratio ∧ slotOf s.channels[0].desc.refChannel s = some freshSlot ∧
       freshSlot.valid = true ∧ s.channels[0].desc.maxAge ≠ 0 ∧ freshSlot.age ≤ s.channels[0].desc.maxAge.toNat ∧
       freshSlot.method = s.channels[0].desc.method) ∧
    (let stale : RefSlot := { freshSlot with age := 501 }
     let s := withDesc 15 reference (withDesc 0 (ratio 15) (ready.withRefs #v[stale, .free, .free, .free]))
     slotOf s.channels[0].desc.refChannel s = some stale ∧ ¬(stale.age ≤ s.channels[0].desc.maxAge.toNat)) := by
  decide

/-- The clauses of the walk: bank A of section 6.7, and the first entry of a stretch at its last place and past it. -/
theorem witness_walk :
    (bankOfSection67.scan.active = .a ∧ bankOfSection67.scan.bankA[2 * (0 : Fin 24).val] = 15) ∧
    lastEntryBank.scan.bankA[2 * (23 : Fin 24).val] = 3 ∧ lastEntryBank.scan.bankA[2 * (23 : Fin 24).val + 1] = 0x80 ∧
    nextOffer lastEntryBank 24 0 = some (23, 3) ∧ nextOffer lastEntryBank 23 0 = none ∧
    nextOffer lastEntryBank 1 23 = some (23, 3) := by decide

theorem witness_CursorAndRetake :
    (let s := (runningAt 3 []).withScan { (runningAt 3 []).scan with passCount := 1 }
     arbiterReady s = false ∧ clocked s = true ∧ s.scan.cursor = .settled 3 ∧
       nextOffer s (s.scan.extent - 4) 4 = none ∧ s.scan.state = .running ∧ 0 < s.scan.passCount) ∧
    (let s := runningAt 0 (fullQueue.drop 1)
     arbiterReady s = false ∧ clocked s = true ∧ nextOffer s (s.scan.extent - 1) 1 = some (1, 0) ∧
       s.queue.jobs.length < 8 ∧ ∀ j ∈ s.queue.jobs, j.channel = 0 → j.tag.isScan = false) ∧
    (let s := runningAt 0 [scanJob 0]
     nextOffer s (s.scan.extent - 1) 1 = some (1, 0) ∧ ∃ j ∈ s.queue.jobs, j.channel = 0 ∧ j.tag.isScan = true) ∧
    (let s := runningAt 0 fullQueue
     nextOffer s (s.scan.extent - 1) 1 = some (1, 0) ∧ 8 ≤ s.queue.jobs.length ∧
       ∀ j ∈ s.queue.jobs, j.channel = 0 → j.tag.isScan = false) ∧
    (let s := (runningAt 0 (fullQueue.drop 1)).withScan { (runningAt 0 (fullQueue.drop 1)).scan with cursor := .waiting 1 0 }
     arbiterReady s = false ∧ clocked s = true ∧ s.scan.cursor = .waiting 1 0 ∧ s.queue.jobs.length < 8) ∧
    clocked (powerOn ready) = false ∧ clocked (withPower .asleep ready) = false := by decide

/-- Bank A of section 6.7, RUNNING over an idle Sequencer and an empty queue, with `n` records. -/
def emptyQueueAt (c : Cursor) (n : Nat) : State :=
  withRecords (records n) (bankOfSection67.withScan { bankOfSection67.scan with
    state := .running, cursor := c, extent := 6 })

theorem witness_offer_starts :
    (let s := emptyQueueAt (.settled 0) 15
     arbiterReady s = true ∧ s.queue.stalled = false ∧ s.queue.jobs = [] ∧ s.scan.cursor = .settled 0 ∧
       nextOffer s (s.scan.extent - 1) 1 = some (1, 0) ∧ s.fifo.records.length + s.fifo.reserved < 16) ∧
    (let s := emptyQueueAt (.waiting 1 0) 16
     arbiterReady s = true ∧ s.queue.stalled = false ∧ s.queue.jobs = [] ∧ s.scan.cursor = .waiting 1 0 ∧
       ¬(s.fifo.records.length + s.fifo.reserved < 16) ∧ s.fifo.policy = .hold) := by decide

/-- R94, R97: the offer admitted into an empty queue starts, and with 16 records under HOLD it stalls. -/
theorem test_offer_starts :
    (let t := after .cursorAdvance (emptyQueueAt (.settled 0) 15)
     t.seq.job.map (fun j => j.tag) = some (.scan 0) ∧ t.queue.jobs = [] ∧ t.scan.passCount = 1) ∧
    (let t := after .offerRetake (emptyQueueAt (.waiting 1 0) 16)
     t.seq.state = .idle ∧ t.queue.jobs = [{ channel := 0, tag := .scan 0 }] ∧ t.queue.stalled = true ∧
       t.scan.cursor = .settled 1) := by decide

/-- Eight jobs queued, an idle Sequencer, and the offer of channel 0 waiting at entry 1. -/
def offerWaits : State :=
  withJobs fullQueue (bankOfSection67.withScan { bankOfSection67.scan with
    state := .running, cursor := .waiting 1 0, extent := 6 })

def jobsAndCursor (a : Answer) : Option (Nat × Cursor) :=
  match a with
  | .next t => some (t.queue.jobs.length, t.scan.cursor)
  | .fault _ => none
  | .refused _ => none

theorem witness_offer_waits :
    arbiterReady offerWaits = true ∧ offerWaits.queue.stalled = false ∧ offerWaits.scan.cursor = .waiting 1 0 ∧
      offerWaits.queue.jobs = [] ++ scanJob 8 :: fullQueue.drop 1 ∧ offerWaits.pending = [] ∧
      offerWaits.channels[8].desc.role ≠ .ratio := by decide

/-- R93: the offer is retaken first. -/
theorem test_retake_first : jobsAndCursor (exec .arbiterSelection offerWaits) = some (8, .settled 1) := by decide

/-- R93: the MEASURE_NOW is taken first (log 18). -/
theorem test_measureNow_first :
    jobsAndCursor (exec .arbiterSelection (offerWaits.withPending [.measureNow, .offerRetake])) =
      some (7, .waiting 1 0) := by decide

theorem witness_PassEnds :
    let s := runningAt 3 []
    clocked s = true ∧ s.scan.state = .running ∧ s.scan.cursor = .settled 3 ∧ s.scan.passCount = 0 ∧
      nextOffer s (s.scan.extent - 4) 4 = none := by decide

theorem witness_ExpiryAndEdge :
    clocked (powerOn ready) = false ∧ clocked (withPower .asleep ready) = false ∧
    (let s := withScanState .running ready
     clocked s = true ∧ s.scan.mode = .periodic ∧ s.scan.state = .running) ∧
    (let s := withScanState .waiting bankOfSection67
     clocked s = true ∧ s.scan.mode = .periodic ∧ s.scan.state = .waiting) ∧
    (let s := withScanState .waiting (bankOfSection67.withScan { bankOfSection67.scan with mode := .triggered })
     clocked s = true ∧ s.scan.mode = .triggered ∧ (!s.scan.filtered) = polarityLevel s.scan.trigSetting ∧
       s.scan.state = .waiting) ∧
    (let s := withScanState .running (ready.withScan { ready.scan with mode := .triggered })
     (!s.scan.filtered) = polarityLevel s.scan.trigSetting ∧ s.scan.state = .running) ∧
    (let s := ready.withScan { ready.scan with mode := .triggered, filtered := true }
     s.scan.filtered = polarityLevel s.scan.trigSetting) ∧
    ready.scan.mode ≠ .triggered ∧ ready.scan.state = .stopped ∧
    [ScanState.stopped, .stopping].map (fun x =>
      let s := withScanState x (ready.withScan { ready.scan with mode := .triggered })
      (s.scan.mode, (!s.scan.filtered) == polarityLevel s.scan.trigSetting, s.scan.state)) =
      [(.triggered, true, .stopped), (.triggered, true, .stopping)] := by decide

/-- R126: a matching edge in STOPPED and in STOPPING moves the filtered level and nothing else. -/
theorem test_matching_edge_when_no_pass_can_start :
    [ScanState.stopped, .stopping].map (fun x =>
      let s := withScanState x (ready.withScan { ready.scan with mode := .triggered, stable := 3 })
      decide ((after .trigEdgeQualified s).scan = { s.scan with filtered := true, stable := 0 } ∧
        (after .trigEdgeQualified s).events = s.events)) = [true, true] := by decide

theorem witness_Frames :
    (∃ t, exec .edgeTimeout (measuring .arm .cleared) = .next t) ∧ takesWrite 0x18 ready ∧
      Instr.busWrite .wake = some (0x18#8, 0x42) ∧ ∃ t, exec .wake ready = .next t := by
  refine ⟨⟨_, rfl⟩, ?_, by decide, _, rfl⟩
  unfold takesWrite; decide

/-! The laws, in a state with a ratio job of channel 0 in flight, its refresh phase over, a DIRECT job queued, a record
and an alert waiting, and a command to take. -/

def busy : State :=
  let s := withDesc 2 absolute (withJobs [directJob 2 1, scanJob 1] (withAlertList [alertOf 5] (withRecords [oldRecord] twoReferences)))
  flying busyJob .arm .cleared (((s.withFifo { s.fifo with nextSequence := 1 }).withScan
    { s.scan with state := .running, cursor := .done, passCount := 2 }).withPending [.tbTick false])

theorem witness_step_of_busy : ∃ t, step busy = .next t := ⟨_, rfl⟩

theorem witness_small_laws :
    configLaw busy ∧ queueLaw busy ∧ alertLaw busy ∧ sequenceLaw busy ∧ jobLaw busy := by
  unfold configLaw queueLaw alertLaw sequenceLaw jobLaw; decide

theorem witness_stallLaw : stallLaw busy ∧ stallLaw stalledOver ∧ ¬stallLaw (stalledOver.withQueue
    { stalledOver.queue with stalled := false }) := by
  unfold stallLaw; decide

theorem witness_nodeLaw : nodeLaw busy :=
  And.intro (by decide) (And.intro (by decide : drivenPin busy = some busy.seq.work.pin) (by decide))

theorem witness_engagedLaw : engagedLaw busy := by unfold engagedLaw; decide

theorem witness_rangeLaw : rangeLaw busy := by
  refine ⟨by unfold Channel.stepLaw; decide, fun j h => ?_⟩
  obtain rfl : busyJob = j := Option.some.inj h
  unfold Working.agrees; decide

theorem witness_passLaw : passLaw busy :=
  And.intro (by decide) (And.intro (by decide)
    (by decide : busy.scan.cursor ≠ .cleared ∧ ¬(busy.scan.cursor = .done ∧ busy.scan.passCount = 0)))

theorem witness_slotLaw : slotLaw busy := by unfold slotLaw; decide

theorem witness_workingLaw : workingLaw busy :=
  ⟨by decide, by decide, fun _ h => nomatch h⟩

end Sys2Proof.Tests
end

section
/-! R133, Table 7-2: the zone of an OK result, for each row of the table. -/

namespace Sys2Proof.Machine

section TableRows

variable {a : Completion} {c : Channel} {d : Descriptor} {old : Zone} {value : Nat}

/-- R133: with the zone monitor on, an OK result is classified by its value. -/
theorem zoneAfter_ok (hok : a.status = .ok) (hvalue : a.value = some value) (hon : c.desc.zoneMonitor = true) :
    zoneAfter a c = classify c.zone value c.desc := by
  simp [zoneAfter, hok, hvalue, hon]

/-- Table 7-2: from UNKNOWN, FAULT and INSIDE the thresholds are applied with no hysteresis. -/
theorem classify_plain (hold : old = .unknown ∨ old = .fault ∨ old = .inside) :
    classify old value d =
      if value < d.lowT.toNat then .below else if d.highT.toNat < value then .above else .inside := by
  obtain rfl | rfl | rfl := hold <;> rfl

theorem classify_plain_rows (hold : old = .unknown ∨ old = .fault ∨ old = .inside) :
    (value < d.lowT.toNat → classify old value d = .below) ∧
    (d.lowT.toNat ≤ value → d.highT.toNat < value → classify old value d = .above) ∧
    (d.lowT.toNat ≤ value → value ≤ d.highT.toNat → classify old value d = .inside) := by
  rw [classify_plain hold]
  refine ⟨fun hlow => if_pos hlow, fun hlow hhigh => ?_, fun hlow hhigh => ?_⟩
  · rw [if_neg hlow.not_gt, if_pos hhigh]
  · rw [if_neg hlow.not_gt, if_neg hhigh.not_gt]

/-- Table 7-2, old zone BELOW. The row of ABOVE is tested first; by R130 it takes no value under the return level. -/
theorem classify_below_rows (hband : d.lowT.toNat + 2 * d.hyst.toNat ≤ d.highT.toNat) :
    (d.highT.toNat < value → classify .below value d = .above) ∧
    (value ≤ d.highT.toNat → d.lowT.toNat + d.hyst.toNat ≤ value → classify .below value d = .inside) ∧
    (value < d.lowT.toNat + d.hyst.toNat → classify .below value d = .below) := by
  simp only [classify]
  refine ⟨fun hhigh => if_pos hhigh, fun hhigh hreturn => ?_, fun hreturn => ?_⟩
  · rw [if_neg hhigh.not_gt, if_pos hreturn]
  · have hhigh : ¬d.highT.toNat < value := by omega
    rw [if_neg hhigh, if_neg hreturn.not_ge]

/-- Table 7-2, old zone ABOVE. By R130 the hysteresis is at most HIGH_T, so HIGH_T − HYST loses nothing at 0. -/
theorem classify_above_rows (hband : d.lowT.toNat + 2 * d.hyst.toNat ≤ d.highT.toNat) :
    (value < d.lowT.toNat → classify .above value d = .below) ∧
    (d.lowT.toNat ≤ value → value + d.hyst.toNat ≤ d.highT.toNat → classify .above value d = .inside) ∧
    (d.lowT.toNat ≤ value → d.highT.toNat < value + d.hyst.toNat → classify .above value d = .above) := by
  have hreturn : value ≤ d.highT.toNat - d.hyst.toNat ↔ value + d.hyst.toNat ≤ d.highT.toNat :=
    Nat.le_sub_iff_add_le (by omega)
  simp only [classify, hreturn]
  refine ⟨fun hlow => if_pos hlow, fun hlow hin => ?_, fun hlow hout => ?_⟩
  · rw [if_neg hlow.not_gt, if_pos hin]
  · rw [if_neg hlow.not_gt, if_neg hout.not_ge]

end TableRows

/-- Settles O44: the rows of Table 7-2 for each old zone; R130 leaves the INSIDE band a value. -/
theorem zoneTransitions : Obligations.ZoneTransitions := by
  intro a value c hok hvalue hon hband
  simp only [zoneAfter_ok hok hvalue hon]
  refine ⟨fun hold => ?_, fun hold => ?_, fun hold => ?_, fun hold => ?_, by omega⟩
  · exact classify_plain_rows (hold.imp_right Or.inl)
  · rw [hold]
    exact classify_below_rows hband
  · exact classify_plain_rows (.inr (.inr hold))
  · rw [hold]
    exact classify_above_rows hband

end Sys2Proof.Machine
end

section
/-! R153: the watermark byte. What a write stores, what ENGINE_RESET keeps, and when a record written sets RESULTS. -/

namespace Sys2Proof.Machine

section Watermark

variable {s : State}

/-- R164: the row of a register write at the pointer is the write at its own address, with the pointer past it. -/
theorem exec_registerWrite_taken {a v : Byte} (h : takesWrite a s) :
    exec (.registerWrite a v) s = .next (registerWrite a v (pointerPast a s)) :=
  congrArg Host.Outcome.next (dataByte_taken h)

/-- R153: a write of 25h changes the watermark alone. -/
theorem registerWrite_watermark (v : Byte) (s : State) :
    registerWrite 0x25 v s = s.withFifo { s.fifo with watermark := storedWatermark v } := rfl

/-- R153: the rows of its table, with the bound as 16 from below. -/
theorem storedWatermark_rows (v : Byte) :
    storedWatermark v = if v = 0 then 1 else if v.toNat ≤ 16 then v else 16 := by
  unfold storedWatermark
  by_cases hv : v.toNat ≤ 16
  · rw [if_neg (show ¬16 < v.toNat from hv.not_gt), if_pos hv]
  · rw [if_pos (show 16 < v.toNat from not_le.mp hv), if_neg hv]

/-- R168: a register read of 25h returns the watermark as stored. -/
theorem readByte_watermark (s : State) : readByte s 0x25 = s.fifo.watermark := rfl

/-- R162: the Result FIFO after ENGINE_RESET, whether or not the reset cancels a command. -/
theorem engineReset_fifo (s : State) : (engineReset s).fifo = s.fifo.quiet := by
  have hquiet : (quietEngine s).fifo = s.fifo.quiet := by simp [quietEngine]
  unfold engineReset
  by_cases hworking : s.cmd.outcome.state = .working
  · simp [hworking, hquiet]
  · simp [hworking, hquiet]

/-- R171, R178: the row of ENGINE_RESET at COMMAND is that reset, with the pointer past 18h. -/
theorem exec_engineReset_taken (h : takesWrite 0x18 s) :
    exec .engineReset s = .next (engineReset (pointerPast 0x18 s)) :=
  congrArg Host.Outcome.next (dataByte_taken h)

/-- R154: from RESULTS clear, a record written leaves RESULTS as the occupancy it reaches stands to the watermark. -/
theorem fifoShare_results {a : Completion} {changed : Bool} {policy : ReportPolicy} (zone : Zone)
    (hwrites : writesRecord a changed policy = true) (hclear : flagSet .results s = false) :
    flagSet .results (fifoShare a zone changed policy s) =
      decide (s.fifo.watermark.toNat ≤ s.fifo.records.length + 1) := by
  rw [fifoShare_flag, hwrites, hclear]
  simp only [decide_true, Bool.true_and, Bool.false_or]

end Watermark

/-- Settles O30: the write stores by R153's table and reads back, Power-on leaves 1, ENGINE_RESET keeps the byte with the
rest of R162's kept settings, and a record written compares the occupancy it reaches with the watermark in force. -/
theorem watermarkByte : Obligations.WatermarkByte := by
  refine ⟨fun value s h => ?_, fun s => ⟨powerOn s, rfl, rfl⟩, fun s h => ?_, ?_⟩
  · have hwrite := exec_registerWrite_taken (v := value) h
    rw [registerWrite_watermark] at hwrite
    exact ⟨_, hwrite, rfl, storedWatermark_rows value, readByte_watermark _⟩
  · refine ⟨_, exec_engineReset_taken h, ?_⟩
    rw [engineReset_fifo]
    rfl
  · exact fun _ zone _ _ _ hwrites hclear => fifoShare_results zone hwrites hclear

end Sys2Proof.Machine
end

section
/-! R184: the event flags. Which of them a write of 10h clears, and that neither another event nor an owner clears one. -/

namespace Sys2Proof.Machine

section EventFlags

variable {s : State}

/-! ### The write of 10h -/

/-- R183: the position of a flag's bit at 10h. -/
def Flag.bit : Flag → Nat
  | .results => 0 | .alert => 1 | .fault => 2 | .overrun => 3 | .pass => 4 | .drop => 5 | .command => 6 | .stall => 7

/-- A flag's mask tests one bit, so that masks of combined bytes are combined bits. -/
theorem Flag.test_mask (f : Flag) (b : Byte) : (b &&& f.mask != 0) = b.getLsbD f.bit := by
  cases f <;> (revert b; decide)

theorem Flag.bit_lt (f : Flag) : f.bit < 8 := by cases f <;> decide

/-- R184: after a write of 10h a flag is set exactly if it was and its bit in the byte is 0. -/
theorem flagSet_clearFlags (f : Flag) (value : Byte) (s : State) :
    flagSet f (clearFlags value s) = (flagSet f s && (value &&& f.mask == 0)) := by
  have hclear : (value &&& f.mask == 0) = !value.getLsbD f.bit := by
    rw [← f.test_mask value, bne, Bool.not_not]
  rw [hclear, flagSet, flagSet, f.test_mask, f.test_mask]
  simp [clearFlags, f.bit_lt]

/-- R164, R184: the row of a write of 10h at the pointer clears the flags, with the pointer past it. -/
theorem exec_eventFlagsWrite_taken {value : Byte} (h : takesWrite 0x10 s) :
    exec (.eventFlagsWrite value) s = .next (clearFlags value (pointerPast 0x10 s)) :=
  congrArg Host.Outcome.next (dataByte_taken h)

/-- R187: outside a reset IRQ is low exactly if a set flag is enabled. -/
theorem irqLow_running (h : s.inReset = false) : irqLow s = (s.events.flags &&& s.events.enables != 0) := by
  rw [irqLow, h, Bool.not_false, Bool.true_and]

/-! ### The events that leave a set flag set -/

/-- R164, R168: the data byte of a register write's own row does what its byte does in the row of the pointer load. -/
theorem dataByte_registerWrite (address value : Byte) (s : State) :
    dataByte address value (registerWrite address value) s = loadPointer value s := by
  unfold dataByte loadPointer
  by_cases hp : s.port.pointer = address
  · rw [if_pos hp, hp]
  · rw [if_neg hp]

/-- R107, R168: a write of a bank entry or a bank length is the register write at its address. -/
theorem registerWrite_scanBank {address : Byte} (hbank : scanBankAddress address = true) (value : Byte) (s : State) :
    registerWrite address value s = writeBank address value s := by
  have hown : address ≠ 0x18#8 ∧ address ≠ 0x0B#8 ∧ address ≠ 0x10#8 ∧ address ≠ 0x11#8 ∧ address ≠ 0x24#8 := by
    refine ⟨?_, ?_, ?_, ?_, ?_⟩ <;> (rintro rfl; exact absurd hbank (by decide))
  obtain ⟨h18, h0B, h10, h11, h24⟩ := hown
  rw [registerWrite, if_neg h18, if_neg h0B, if_neg h10, if_neg h11, if_neg h24, if_pos hbank]

/-- R164, R168: every row that is a register write is the data byte with that write's effect. -/
theorem exec_busWrite {c : Instr} {address value : Byte} (h : c.busWrite = some (address, value)) (s : State) :
    exec c s = .next (dataByte address value (registerWrite address value) s) := by
  cases c with
  | scanBankWrite =>
    cases h
    refine congrArg (fun effect => Host.Outcome.next (dataByte address value effect s)) (funext fun t => ?_)
    by_cases hbank : scanBankAddress address = true
    · rw [if_pos hbank, registerWrite_scanBank hbank]
    · rw [if_neg hbank]
  | _ =>
    cases h <;> rfl

/-- R184: of the rows that put no data byte on the bus, the power-on reset alone clears a flag. -/
theorem exec_internal_keeps_setFlag {c : Instr} {f : Flag} (hrow : c.busWrite = none)
    (hload : ∀ value, c ≠ .registerPointerLoad value) (hpower : c ≠ .powerOnReset) (h : flagLaw f s) :
    ∃ t, exec c s = .next t ∧ flagLaw f t := by
  cases c with
  | powerOnReset => exact absurd rfl hpower
  | registerPointerLoad value => exact absurd rfl (hload value)
  | resultWindowPop => exact ⟨_, rfl, flagLaw_windowRead _ _ h fun _ => flagLaw_popResult⟩
  | alertWindowPop => exact ⟨_, rfl, flagLaw_windowRead _ _ h fun _ => flagLaw_popAlert⟩
  | statusSnapshotCopy => exact ⟨_, rfl, flagLaw_copySnapshot h⟩
  | writeTransactionStart => exact ⟨_, rfl, flagLaw_openWrite h⟩
  | resetEnd addrHigh => exact ⟨_, rfl, flagLaw_endReset addrHigh h⟩
  | tbTick trigHigh => exact ⟨_, rfl, flagLaw_tbTick trigHigh h⟩
  | slowTick trigHigh => exact ⟨_, rfl, flagLaw_slowTick trigHigh h⟩
  | oscillatorEdge close => exact ⟨_, rfl, flagLaw_oscillatorEdge close h⟩
  | dischargeEnd => exact ⟨_, rfl, iteInduction (fun _ => flagLaw_enterSettle h) (fun _ => h)⟩
  | settleEnd => exact ⟨_, rfl, iteInduction (fun _ => flagLaw_enterArm h) (fun _ => h)⟩
  | edgeTimeout => exact ⟨_, rfl, iteInduction (fun _ => flagLaw_phaseEnd _ h) (fun _ => h)⟩
  | windowGateClose => exact ⟨_, rfl, iteInduction (fun _ => flagLaw_sampleComplete h) (fun _ => h)⟩
  | periodGateClose => exact ⟨_, rfl, iteInduction (fun _ => flagLaw_sampleComplete h) (fun _ => h)⟩
  | overflow => exact ⟨_, rfl, iteInduction (fun _ => flagLaw_overflowed h) (fun _ => h)⟩
  | passTimerExpiry => exact ⟨_, rfl, iteInduction (fun _ => flagLaw_expiry h) (fun _ => h)⟩
  | trigEdgeQualified =>
    exact ⟨_, rfl, iteInduction (fun _ => flagLaw_qualifiedEdge _ (flagLaw_withPins _ h)) (fun _ => h)⟩
  | arbiterSelection => exact ⟨_, rfl, flagLaw_select h⟩
  | cursorAdvance => exact ⟨_, rfl, iteInduction (fun _ => flagLaw_cursorMove h) (fun _ => h)⟩
  | offerRetake => exact ⟨_, rfl, iteInduction (fun _ => flagLaw_select (flagLaw_retakeOffer h)) (fun _ => h)⟩
  | _ => cases hrow

/-- R184, R188, R189: what a command must not be, so as to leave every set flag set: its byte is no write of 10h and no
ENGINE_RESET. -/
def sparesFlags (c : Instr) (s : State) : Prop :=
  ∀ value, (∃ address, c.busWrite = some (address, value)) ∨ c = .registerPointerLoad value →
    ¬takesWrite 0x10 s ∧ ¬(takesWrite 0x18 s ∧ value = 0x50)

/-- R184: beside the resets and the write of 10h, every command leaves a set flag set. -/
theorem exec_keeps_setFlag {c : Instr} {f : Flag} (hpower : c ≠ .powerOnReset) (hspares : sparesFlags c s)
    (h : flagLaw f s) : ∃ t, exec c s = .next t ∧ flagLaw f t := by
  rcases hrow : c.busWrite with _ | ⟨address, value⟩
  · by_cases hload : ∃ value, c = .registerPointerLoad value
    · obtain ⟨value, rfl⟩ := hload
      exact ⟨_, rfl, flagLaw_loadPointer (hspares value (.inr rfl)) h⟩
    · exact exec_internal_keeps_setFlag hrow (fun value hc => hload ⟨value, hc⟩) hpower h
  · refine ⟨_, exec_busWrite hrow s, ?_⟩
    rw [dataByte_registerWrite]
    exact flagLaw_loadPointer (hspares value (.inl ⟨address, hrow⟩)) h

/-! ### The owners' own actions -/

/-- R41, R147: under the law of the job in flight nothing is reserved at an Arbiter that can select. -/
theorem jobLaw_ready_reserved (h : jobLaw s) (hready : arbiterReady s = true) : s.fifo.reserved = 0 := by
  obtain ⟨hidle, -, hreserved, -⟩ := h
  have hstate : s.seq.state = .idle := by
    simp only [arbiterReady, Bool.and_eq_true, beq_iff_eq] at hready
    exact hready.1.1
  rw [hreserved, hidle.mp hstate]
  rfl

/-- R96, R98: a retry with room in the FIFO ends the stall with no event: it discards no record, and a stalled Arbiter
does not stall again. -/
theorem retry_events (hroom : arbiterReady s = true → s.fifo.records.length + s.fifo.reserved < 16) :
    (retry s).events = s.events := by
  by_cases hmade : arbiterReady s = true ∧ s.queue.stalled = true
  · obtain ⟨hready, hstalled⟩ := hmade
    rw [retry_made hready hstalled]
    by_cases hjobs : s.queue.jobs = []
    · rw [arbitrate_empty hjobs]
    · obtain ⟨q, rest, hselect⟩ := selectJob_some hjobs
      rw [arbitrate_granted hselect (hroom hready)]
      simp
  · rw [retry_none]
    simpa only [not_and_or, Bool.not_eq_true] using hmade

theorem takeResult_ready (s : State) : arbiterReady (takeResult s) = arbiterReady s := by
  unfold takeResult
  split <;> rfl

theorem takeResult_reserved (s : State) : (takeResult s).fifo.reserved = s.fifo.reserved := by
  unfold takeResult
  split <;> rfl

theorem takeResult_events (s : State) : (takeResult s).events = s.events := by
  unfold takeResult
  split <;> rfl

/-- R157: a pop leaves one record less, or none. -/
theorem takeResult_length (s : State) : (takeResult s).fifo.records.length = s.fifo.records.length - 1 := by
  unfold takeResult
  split <;> simp [*]

/-- R157, R184: a pop makes room, so that the retry behind it sets no flag. -/
theorem popResult_events (h : jobLaw s) : (popResult s).events = s.events := by
  refine (retry_events fun hready => ?_).trans (takeResult_events s)
  rw [takeResult_ready] at hready
  have hreserved := jobLaw_ready_reserved h hready
  obtain ⟨-, -, -, hfits⟩ := h
  rw [takeResult_length, takeResult_reserved]
  omega

theorem popAlert_events (s : State) : (popAlert s).events = s.events := by
  unfold popAlert
  split <;> rfl

theorem readAction_events (address : Byte) (h : jobLaw s) : (readAction address s).events = s.events :=
  iteInduction (motive := fun t => State.events t = s.events) (fun _ => popResult_events h)
    (fun _ => iteInduction (motive := fun t => State.events t = s.events) (fun _ => popAlert_events s) (fun _ => rfl))

/-- R165, R184: a byte of a read transaction leaves the flags as they stand, whatever address it is sent from. -/
theorem windowRead_events {address : Byte} {pop : State → State} (h : jobLaw s) (hpop : (pop s).events = s.events) :
    (windowRead address pop s).events = s.events := by
  unfold windowRead
  split
  · rfl
  · split
    · by_cases hp : s.port.pointer = address
      · rw [if_pos hp]
        exact hpop
      · rw [if_neg hp]
        exact readAction_events _ h
    all_goals rfl

/-- R159, R184: CLEAR_RESULTS empties the FIFO, so that the retry behind it sets no flag. -/
theorem clearResults_events (h : jobLaw s) : (clearResults s).1.events = s.events := by
  refine retry_events (s := s.withFifo { s.fifo with records := [] }) fun hready => ?_
  have hreserved : s.fifo.reserved = 0 := jobLaw_ready_reserved h hready
  simp [hreserved]

/-- R173, R175: issuing a command touches no flag but those its effect touches. -/
theorem issue_events {code : Byte} {effect : State → State × Reply} (heffect : (effect s).1.events = s.events) :
    (issue code effect s).events = s.events := by
  unfold issue
  split
  · simp
  · simpa using heffect

/-- R139, R141, R157, R159, R184: the owners' actions, each with the flags it leaves as they stand. -/
theorem exec_owner_keeps_flags {c : Instr} (h : jobLaw s)
    (hc : c = .resultWindowPop ∨ c = .alertWindowPop ∨ (c = .clearResults ∨ c = .clearAlerts) ∧ takesWrite 0x18 s) :
    ∃ t, exec c s = .next t ∧ t.events = s.events := by
  obtain rfl | rfl | ⟨rfl | rfl, htakes⟩ := hc
  · exact ⟨_, rfl, windowRead_events h (popResult_events h)⟩
  · exact ⟨_, rfl, windowRead_events h (popAlert_events s)⟩
  · refine ⟨_, congrArg Host.Outcome.next (dataByte_taken htakes), ?_⟩
    exact issue_events (clearResults_events (jobLaw_withPort _ h))
  · refine ⟨_, congrArg Host.Outcome.next (dataByte_taken htakes), ?_⟩
    exact issue_events (effect := clearAlerts) rfl

end EventFlags

/-- Settles O25: the write of 10h clears by its byte and IRQ follows; the events and the other commands keep a set flag
set; and the owners' actions make room before any retry, which then sets no flag. -/
theorem eventFlagsWriteClears : Obligations.EventFlagsWriteClears := by
  refine ⟨fun value s h => ?_, fun c s t hpower hspares hexec f hset => ?_, fun c s t h hc hexec => ?_⟩
  · refine ⟨_, exec_eventFlagsWrite_taken h, rfl, fun f => flagSet_clearFlags f value _, ?_⟩
    exact irqLow_running h.1
  · obtain ⟨u, hu, hkept⟩ := exec_keeps_setFlag hpower hspares (f := f) hset
    obtain rfl : u = t := Host.Outcome.next.inj (hu.symm.trans hexec)
    exact hkept
  · obtain ⟨u, hu, hevents⟩ := exec_owner_keeps_flags h hc
    obtain rfl : u = t := Host.Outcome.next.inj (hu.symm.trans hexec)
    rw [hevents]

end Sys2Proof.Machine
end

section
/-! Log 11: what a step can do, said once; and the laws that every step keeps, by the rules of the Laws files. -/

namespace Sys2Proof.Machine

/-! ### What a step can do -/

section StepRule

variable {P : State → Prop} {s t : State}

/-- What every action that a command can bring does to a property of the state `s` it finds: one field for each action,
with what its row waits for. Every row of a register write is one data byte, by `exec_busWrite`. -/
structure ActionsKeep (P : State → Prop) (s : State) : Prop where
  byte : ∀ value, P (loadPointer value s)
  resultPop : P (windowRead 0x60 popResult s)
  alertPop : P (windowRead 0x80 popAlert s)
  openWrite : P (openWrite s)
  copySnapshot : P (copySnapshot s)
  powerOn : P (powerOn s)
  endReset : ∀ level, P (endReset level s)
  tbTick : ∀ level, P (tbTick level s)
  slowTick : ∀ level, P (slowTick level s)
  edge : ∀ close, P (oscillatorEdge close s)
  dischargeEnd : s.seq.state = .discharge → P (enterSettle s)
  settleEnd : s.seq.state = .settle → P (enterArm s)
  timeout : s.seq.state = .arm ∨ s.seq.state = .count → P (phaseEnd .openArm s)
  gate : s.seq.state = .count → P (sampleComplete s)
  overflow : s.seq.state = .count → P (overflowed s)
  expiry : clocked s = true → P (expiry s)
  trigEdge : clocked s = true →
    P (qualifiedEdge (!s.scan.filtered) (s.withPins { s.pins with trig := !s.scan.filtered }))
  selection : P (select s)
  cursor : clocked s = true → P (cursorMove s)
  retake : clocked s = true → P (select (retakeOffer s))

/-- A row whose event may not arise in the state does its effect or nothing. -/
theorem guarded {q : Prop} [Decidable q] {u : State} (h : P s) (hu : q → P u) : P (if q then u else s) :=
  iteInduction (motive := P) hu fun _ => h

/-- Every command is one of the actions, or changes nothing. -/
theorem exec_keeps (h : P s) (keep : ActionsKeep P s) (c : Instr) : ∃ t, exec c s = .next t ∧ P t := by
  rcases hrow : c.busWrite with _ | ⟨address, value⟩
  · cases c with
    | registerPointerLoad value => exact ⟨_, rfl, keep.byte value⟩
    | resultWindowPop => exact ⟨_, rfl, keep.resultPop⟩
    | alertWindowPop => exact ⟨_, rfl, keep.alertPop⟩
    | statusSnapshotCopy => exact ⟨_, rfl, keep.copySnapshot⟩
    | writeTransactionStart => exact ⟨_, rfl, keep.openWrite⟩
    | powerOnReset => exact ⟨_, rfl, keep.powerOn⟩
    | resetEnd addrHigh => exact ⟨_, rfl, keep.endReset addrHigh⟩
    | tbTick trigHigh => exact ⟨_, rfl, keep.tbTick trigHigh⟩
    | slowTick trigHigh => exact ⟨_, rfl, keep.slowTick trigHigh⟩
    | oscillatorEdge close => exact ⟨_, rfl, keep.edge close⟩
    | dischargeEnd => exact ⟨_, rfl, guarded h keep.dischargeEnd⟩
    | settleEnd => exact ⟨_, rfl, guarded h keep.settleEnd⟩
    | edgeTimeout => exact ⟨_, rfl, guarded h keep.timeout⟩
    | windowGateClose => exact ⟨_, rfl, guarded h fun hgate => keep.gate hgate.1⟩
    | periodGateClose => exact ⟨_, rfl, guarded h fun hgate => keep.gate hgate.1⟩
    | overflow => exact ⟨_, rfl, guarded h keep.overflow⟩
    | passTimerExpiry => exact ⟨_, rfl, guarded h fun hdue => keep.expiry (Bool.and_eq_true_iff.mp hdue).1⟩
    | trigEdgeQualified => exact ⟨_, rfl, guarded h keep.trigEdge⟩
    | arbiterSelection => exact ⟨_, rfl, keep.selection⟩
    | cursorAdvance => exact ⟨_, rfl, guarded h keep.cursor⟩
    | offerRetake => exact ⟨_, rfl, guarded h keep.retake⟩
    | _ => cases hrow
  · refine ⟨_, exec_busWrite hrow s, ?_⟩
    rw [dataByte_registerWrite]
    exact keep.byte value

/-- A step is the fall of the comparator output, where it comes, and then the command at the front, if one waits. -/
theorem step_keeps (hmoves : ∀ u, P u → P (nodeMoves u)) (hpending : ∀ u rest, P u → P (u.withPending rest))
    (hexec : ∀ u, P u → ActionsKeep P u) (h : P s) (hstep : step s = .next t) : P t := by
  unfold step at hstep
  split at hstep
  · exact Host.Outcome.next.inj hstep ▸ hmoves s h
  · next c rest _ =>
    have hfound := hpending _ rest (hmoves s h)
    obtain ⟨u, hu, hkept⟩ := exec_keeps hfound (hexec _ hfound) c
    exact Host.Outcome.next.inj (hu.symm.trans hstep) ▸ hkept

end StepRule

/-! ### What each law's rules give for every action -/

section LawRules

variable {s : State}

theorem queueLaw_actions (h : queueLaw s) : ActionsKeep queueLaw s where
  byte value := queueLaw_loadPointer value h
  resultPop := queueLaw_windowRead _ _ h fun _ => queueLaw_popResult
  alertPop := queueLaw_windowRead _ _ h fun _ => queueLaw_popAlert
  openWrite := queueLaw_openWrite h
  copySnapshot := queueLaw_copySnapshot h
  powerOn := queueLaw_powerOn h
  endReset level := queueLaw_endReset level h
  tbTick level := queueLaw_tbTick level h
  slowTick level := queueLaw_slowTick level h
  edge close := queueLaw_oscillatorEdge close h
  dischargeEnd _ := queueLaw_enterSettle h
  settleEnd _ := queueLaw_enterArm h
  timeout _ := queueLaw_phaseEnd _ h
  gate _ := queueLaw_sampleComplete h
  overflow _ := queueLaw_overflowed h
  expiry _ := queueLaw_expiry h
  trigEdge _ := queueLaw_qualifiedEdge _ (queueLaw_withPins _ h)
  selection := queueLaw_select h
  cursor _ := queueLaw_cursorMove h
  retake _ := queueLaw_select (queueLaw_retakeOffer h)

theorem alertLaw_actions (h : alertLaw s) : ActionsKeep alertLaw s where
  byte value := alertLaw_loadPointer value h
  resultPop := alertLaw_windowRead _ _ h fun _ => alertLaw_popResult
  alertPop := alertLaw_windowRead _ _ h fun _ => alertLaw_popAlert
  openWrite := alertLaw_openWrite h
  copySnapshot := alertLaw_copySnapshot h
  powerOn := alertLaw_powerOn h
  endReset level := alertLaw_endReset level h
  tbTick level := alertLaw_tbTick level h
  slowTick level := alertLaw_slowTick level h
  edge close := alertLaw_oscillatorEdge close h
  dischargeEnd _ := alertLaw_enterSettle h
  settleEnd _ := alertLaw_enterArm h
  timeout _ := alertLaw_phaseEnd _ h
  gate _ := alertLaw_sampleComplete h
  overflow _ := alertLaw_overflowed h
  expiry _ := alertLaw_expiry h
  trigEdge _ := alertLaw_qualifiedEdge _ (alertLaw_withPins _ h)
  selection := alertLaw_select h
  cursor _ := alertLaw_cursorMove h
  retake _ := alertLaw_select (alertLaw_retakeOffer h)

theorem sequenceLaw_actions (h : sequenceLaw s) : ActionsKeep sequenceLaw s where
  byte value := sequenceLaw_loadPointer value h
  resultPop := sequenceLaw_windowRead _ _ h fun _ => sequenceLaw_popResult
  alertPop := sequenceLaw_windowRead _ _ h fun _ => sequenceLaw_popAlert
  openWrite := sequenceLaw_openWrite h
  copySnapshot := sequenceLaw_copySnapshot h
  powerOn := sequenceLaw_powerOn h
  endReset level := sequenceLaw_endReset level h
  tbTick level := sequenceLaw_tbTick level h
  slowTick level := sequenceLaw_slowTick level h
  edge close := sequenceLaw_oscillatorEdge close h
  dischargeEnd _ := sequenceLaw_enterSettle h
  settleEnd _ := sequenceLaw_enterArm h
  timeout _ := sequenceLaw_phaseEnd _ h
  gate _ := sequenceLaw_sampleComplete h
  overflow _ := sequenceLaw_overflowed h
  expiry _ := sequenceLaw_expiry h
  trigEdge _ := sequenceLaw_qualifiedEdge _ (sequenceLaw_withPins _ h)
  selection := sequenceLaw_select h
  cursor _ := sequenceLaw_cursorMove h
  retake _ := sequenceLaw_select (sequenceLaw_retakeOffer h)

theorem jobLaw_actions (h : jobLaw s) : ActionsKeep jobLaw s where
  byte value := jobLaw_loadPointer value h
  resultPop := jobLaw_windowRead _ _ h fun _ => jobLaw_popResult
  alertPop := jobLaw_windowRead _ _ h fun _ => jobLaw_popAlert
  openWrite := jobLaw_openWrite h
  copySnapshot := jobLaw_copySnapshot h
  powerOn := jobLaw_powerOn h
  endReset level := jobLaw_endReset level h
  tbTick level := jobLaw_tbTick level h
  slowTick level := jobLaw_slowTick level h
  edge close := jobLaw_oscillatorEdge close h
  dischargeEnd hs := jobLaw_enterSettle h (jobLaw_isSome h (by rw [hs]; decide))
  settleEnd hs := jobLaw_enterArm h (jobLaw_isSome h (by rw [hs]; decide))
  timeout _ := jobLaw_phaseEnd _ h
  gate hs := jobLaw_sampleComplete h (by rw [hs]; decide)
  overflow hs := jobLaw_overflowed h (by rw [hs]; decide)
  expiry _ := jobLaw_expiry h
  trigEdge _ := jobLaw_qualifiedEdge _ (jobLaw_withPins _ h)
  selection := jobLaw_select h
  cursor _ := jobLaw_cursorMove h
  retake _ := jobLaw_select (jobLaw_retakeOffer h)

/-- R1, R46: in SETTLE the node runs on the pin of the phase. -/
theorem nodeLaw_settle_pin (h : nodeLaw s) (hs : s.seq.state = .settle) :
    s.frontEnd.selected = some s.seq.work.pin := by
  obtain ⟨-, hnode⟩ := h
  rw [hs] at hnode
  exact hnode.1

theorem nodeLaw_actions (h : nodeLaw s) : ActionsKeep nodeLaw s where
  byte value := nodeLaw_loadPointer value h
  resultPop := nodeLaw_windowRead _ _ h fun _ => nodeLaw_popResult
  alertPop := nodeLaw_windowRead _ _ h fun _ => nodeLaw_popAlert
  openWrite := nodeLaw_openWrite h
  copySnapshot := nodeLaw_copySnapshot h
  powerOn := nodeLaw_powerOn h
  endReset level := nodeLaw_endReset level h
  tbTick level := nodeLaw_tbTick level h
  slowTick level := nodeLaw_slowTick level h
  edge close := nodeLaw_oscillatorEdge close h
  dischargeEnd hs := nodeLaw_enterSettle h (nodeLaw_clocked h (by rw [hs]; decide))
  settleEnd hs := nodeLaw_enterArm h (nodeLaw_settle_pin h hs) (nodeLaw_clocked h (by rw [hs]; decide))
  timeout hs := nodeLaw_phaseEnd _ h (nodeLaw_clocked h (by rcases hs with hs | hs <;> rw [hs] <;> decide))
  gate hs := nodeLaw_sampleComplete h hs
  overflow hs := nodeLaw_overflowed h hs
  expiry _ := nodeLaw_expiry h
  trigEdge _ := nodeLaw_qualifiedEdge _ (nodeLaw_withPins _ h)
  selection := nodeLaw_select h
  cursor _ := nodeLaw_cursorMove h
  retake _ := nodeLaw_select (nodeLaw_retakeOffer h)

theorem engagedLaw_actions (h : engagedLaw s) : ActionsKeep engagedLaw s where
  byte value := engagedLaw_loadPointer value h
  resultPop := engagedLaw_windowRead _ _ h fun _ => engagedLaw_popResult
  alertPop := engagedLaw_windowRead _ _ h fun _ => engagedLaw_popAlert
  openWrite := engagedLaw_openWrite h
  copySnapshot := engagedLaw_copySnapshot h
  powerOn := engagedLaw_powerOn h
  endReset level := engagedLaw_endReset level h
  tbTick level := engagedLaw_tbTick level h
  slowTick level := engagedLaw_slowTick level h
  edge close := engagedLaw_oscillatorEdge close h
  dischargeEnd _ := engagedLaw_enterSettle h
  settleEnd _ := engagedLaw_enterArm h
  timeout _ := engagedLaw_phaseEnd _ h
  gate _ := engagedLaw_sampleComplete h
  overflow _ := engagedLaw_overflowed h
  expiry _ := engagedLaw_expiry h
  trigEdge _ := engagedLaw_qualifiedEdge _ (engagedLaw_withPins _ h)
  selection := engagedLaw_select h
  cursor _ := engagedLaw_cursorMove h
  retake _ := engagedLaw_select (engagedLaw_retakeOffer h)

theorem rangeInv_actions (h : rangeInv s) : ActionsKeep rangeInv s where
  byte value := rangeInv_loadPointer value h
  resultPop := rangeInv_windowRead _ _ h fun _ => rangeInv_popResult
  alertPop := rangeInv_windowRead _ _ h fun _ => rangeInv_popAlert
  openWrite := rangeInv_openWrite h
  copySnapshot := rangeInv_copySnapshot h
  powerOn := rangeInv_powerOn h
  endReset level := rangeInv_endReset level h
  tbTick level := rangeInv_tbTick level h
  slowTick level := rangeInv_slowTick level h
  edge close := rangeInv_oscillatorEdge close h
  dischargeEnd _ := rangeInv_enterSettle h
  settleEnd _ := rangeInv_enterArm h
  timeout _ := rangeInv_phaseEnd _ h
  gate _ := rangeInv_sampleComplete h
  overflow _ := rangeInv_overflowed h
  expiry _ := rangeInv_expiry h
  trigEdge _ := rangeInv_qualifiedEdge _ (rangeInv_withPins _ h)
  selection := rangeInv_select h
  cursor _ := rangeInv_cursorMove h
  retake _ := rangeInv_select (rangeInv_retakeOffer h)

theorem passLaw_actions (h : passLaw s) : ActionsKeep passLaw s where
  byte value := passLaw_loadPointer value h
  resultPop := passLaw_windowRead _ _ h fun _ => passLaw_popResult
  alertPop := passLaw_windowRead _ _ h fun _ => passLaw_popAlert
  openWrite := passLaw_openWrite h
  copySnapshot := passLaw_copySnapshot h
  powerOn := passLaw_powerOn h
  endReset level := passLaw_endReset level h
  tbTick level := passLaw_tbTick level h
  slowTick level := passLaw_slowTick level h
  edge close := passLaw_oscillatorEdge close h
  dischargeEnd _ := passLaw_enterSettle h
  settleEnd _ := passLaw_enterArm h
  timeout _ := passLaw_phaseEnd _ h
  gate _ := passLaw_sampleComplete h
  overflow _ := passLaw_overflowed h
  expiry _ := passLaw_expiry h
  trigEdge _ := passLaw_qualifiedEdge _ (passLaw_withPins _ h)
  selection := passLaw_select h
  cursor _ := passLaw_cursorMove h
  retake _ := passLaw_select (passLaw_retakeOffer h)

theorem slotLaw_actions (h : slotLaw s) : ActionsKeep slotLaw s where
  byte value := slotLaw_loadPointer value h
  resultPop := slotLaw_windowRead _ _ h fun _ => slotLaw_popResult
  alertPop := slotLaw_windowRead _ _ h fun _ => slotLaw_popAlert
  openWrite := slotLaw_openWrite h
  copySnapshot := slotLaw_copySnapshot h
  powerOn := slotLaw_powerOn h
  endReset level := slotLaw_endReset level h
  tbTick level := slotLaw_tbTick level h
  slowTick level := slotLaw_slowTick level h
  edge close := slotLaw_oscillatorEdge close h
  dischargeEnd _ := slotLaw_enterSettle h
  settleEnd _ := slotLaw_enterArm h
  timeout _ := slotLaw_phaseEnd _ h
  gate _ := slotLaw_sampleComplete h
  overflow _ := slotLaw_overflowed h
  expiry _ := slotLaw_expiry h
  trigEdge _ := slotLaw_qualifiedEdge _ (slotLaw_withPins _ h)
  selection := slotLaw_select h
  cursor _ := slotLaw_cursorMove h
  retake _ := slotLaw_select (slotLaw_retakeOffer h)

theorem workInv_actions (h : workInv s) : ActionsKeep workInv s where
  byte value := workInv_loadPointer value h
  resultPop := workInv_windowRead _ _ h fun _ => workInv_popResult
  alertPop := workInv_windowRead _ _ h fun _ => workInv_popAlert
  openWrite := workInv_openWrite h
  copySnapshot := workInv_copySnapshot h
  powerOn := workInv_powerOn h
  endReset level := workInv_endReset level h
  tbTick level := workInv_tbTick level h
  slowTick level := workInv_slowTick level h
  edge close := workInv_oscillatorEdge close h
  dischargeEnd _ := workInv_enterSettle h
  settleEnd _ := workInv_enterArm h
  timeout _ := workInv_phaseEnd _ h
  gate _ := workInv_sampleComplete h
  overflow _ := workInv_overflowed h
  expiry _ := workInv_expiry h
  trigEdge _ := workInv_qualifiedEdge _ (workInv_withPins _ h)
  selection := workInv_select h
  cursor _ := workInv_cursorMove h
  retake _ := workInv_select (workInv_retakeOffer h)

/-- R94: while the part is not clocked no selection is made, and while it is the law holds after one. -/
theorem stallLaw_selection (h : stallLaw s) : stallLaw (select s) := by
  by_cases hc : clocked s = true
  · exact stallLaw_select hc
  · rw [select_none (.inl (by simp [arbiterReady, hc]))]
    exact h

/-- R103: with the law of the node, which says where ticks arrive, every action keeps the law of the stall. -/
theorem stallLaw_actions (hn : nodeLaw s) (h : stallLaw s) : ActionsKeep stallLaw s where
  byte value := stallLaw_loadPointer value (nodeLaw_clocked hn) h
  resultPop := stallLaw_windowRead _ h fun _ => stallLaw_popResult
  alertPop := stallLaw_windowRead _ h fun _ => stallLaw_popAlert
  openWrite := stallLaw_busStart _ h
  copySnapshot := stallLaw_busStart _ h
  powerOn := stallLaw_empty rfl
  endReset level := iteInduction (motive := stallLaw) (fun _ => h) (fun _ => h)
  tbTick level := stallLaw_tbTick level h
  slowTick level := stallLaw_slowTick level h
  edge close := stallLaw_oscillatorEdge close (nodeLaw_clocked hn) h
  dischargeEnd _ := stallLaw_enterSettle
  settleEnd _ := stallLaw_busy (by simp [enterArm])
  timeout hs := stallLaw_phaseEnd _ (nodeLaw_clocked hn (by rcases hs with hs | hs <;> rw [hs] <;> decide)) h
  gate hs := stallLaw_sampleComplete (nodeLaw_clocked hn (by rw [hs]; decide)) h
  overflow hs := stallLaw_overflowed (nodeLaw_clocked hn (by rw [hs]; decide)) h
  expiry hc := stallLaw_expiry hc h
  trigEdge hc := stallLaw_qualifiedEdge _ hc h
  selection := stallLaw_selection h
  cursor hc := stallLaw_cursorMove hc h
  retake hc := stallLaw_select (by simpa [clocked] using hc)

/-- Two laws kept action by action are kept together. -/
theorem ActionsKeep.both {P Q : State → Prop} (hp : ActionsKeep P s) (hq : ActionsKeep Q s) :
    ActionsKeep (fun u => P u ∧ Q u) s where
  byte value := ⟨hp.byte value, hq.byte value⟩
  resultPop := ⟨hp.resultPop, hq.resultPop⟩
  alertPop := ⟨hp.alertPop, hq.alertPop⟩
  openWrite := ⟨hp.openWrite, hq.openWrite⟩
  copySnapshot := ⟨hp.copySnapshot, hq.copySnapshot⟩
  powerOn := ⟨hp.powerOn, hq.powerOn⟩
  endReset level := ⟨hp.endReset level, hq.endReset level⟩
  tbTick level := ⟨hp.tbTick level, hq.tbTick level⟩
  slowTick level := ⟨hp.slowTick level, hq.slowTick level⟩
  edge close := ⟨hp.edge close, hq.edge close⟩
  dischargeEnd hs := ⟨hp.dischargeEnd hs, hq.dischargeEnd hs⟩
  settleEnd hs := ⟨hp.settleEnd hs, hq.settleEnd hs⟩
  timeout hs := ⟨hp.timeout hs, hq.timeout hs⟩
  gate hs := ⟨hp.gate hs, hq.gate hs⟩
  overflow hs := ⟨hp.overflow hs, hq.overflow hs⟩
  expiry hc := ⟨hp.expiry hc, hq.expiry hc⟩
  trigEdge hc := ⟨hp.trigEdge hc, hq.trigEdge hc⟩
  selection := ⟨hp.selection, hq.selection⟩
  cursor hc := ⟨hp.cursor hc, hq.cursor hc⟩
  retake hc := ⟨hp.retake hc, hq.retake hc⟩

end LawRules

/-- Settles O53: each of the three laws is kept by the fall of the output and by every action. -/
theorem collectionLawsKept : Obligations.CollectionLawsKept := by
  refine ⟨fun s t hqueue halert hstep => ?_, fun s t h hstep => ?_⟩
  · exact ⟨step_keeps (fun _ => queueLaw_nodeMoves) (fun _ rest => queueLaw_withPending rest)
        (fun _ => queueLaw_actions) hqueue hstep,
      step_keeps (fun _ => alertLaw_nodeMoves) (fun _ rest => alertLaw_withPending rest)
        (fun _ => alertLaw_actions) halert hstep⟩
  · exact step_keeps (fun _ => sequenceLaw_nodeMoves) (fun _ rest => sequenceLaw_withPending rest)
      (fun _ => sequenceLaw_actions) h hstep

/-- Settles O54: the law of the job by itself; the law of the stall together with that of the node, which says where the
Sequencer is clocked. -/
theorem jobLawKept : Obligations.JobLawKept := by
  refine ⟨fun s t h hstep => ?_, fun s t hnode hstall hstep => ?_⟩
  · exact step_keeps (fun _ => jobLaw_nodeMoves) (fun _ rest => jobLaw_withPending rest)
      (fun _ => jobLaw_actions) h hstep
  · have hboth : nodeLaw t ∧ stallLaw t :=
      step_keeps (P := fun u => nodeLaw u ∧ stallLaw u)
        (fun _ ⟨hn, hs⟩ => ⟨nodeLaw_nodeMoves hn, stallLaw_nodeMoves hs⟩)
        (fun _ rest ⟨hn, hs⟩ => ⟨nodeLaw_withPending rest hn, hs⟩)
        (fun _ ⟨hn, hs⟩ => (nodeLaw_actions hn).both (stallLaw_actions hn hs)) ⟨hnode, hstall⟩ hstep
    exact hboth.2

/-- Settles O55, by the rules of the node's law for every action. -/
theorem nodeLawKept : Obligations.NodeLawKept := fun _ _ h hstep =>
  step_keeps (fun _ => nodeLaw_nodeMoves) (fun _ rest => nodeLaw_withPending rest) (fun _ => nodeLaw_actions) h hstep

/-- Settles O56, by the rules of the engaged marks for every action. -/
theorem engagedLawKept : Obligations.EngagedLawKept := fun _ _ h hstep =>
  step_keeps (fun _ => engagedLaw_nodeMoves) (fun _ rest => engagedLaw_withPending rest) (fun _ => engagedLaw_actions)
    h hstep

/-- Settles O57: the range steps are kept together with the engaged marks, which say whose descriptor cannot change. -/
theorem rangeLawKept : Obligations.RangeLawKept := fun _ _ hengaged hrange hstep =>
  (step_keeps (P := rangeInv) (fun _ => rangeInv_nodeMoves) (fun _ rest => rangeInv_withPending rest)
    (fun _ => rangeInv_actions) ⟨hengaged, hrange⟩ hstep).2

/-- Settles O58, by the rules of the pass count for every action. -/
theorem passLawKept : Obligations.PassLawKept := fun _ _ h hstep =>
  step_keeps (fun _ => passLaw_nodeMoves) (fun _ rest => passLaw_withPending rest) (fun _ => passLaw_actions) h hstep

/-- Settles O59, by the rules of the slots for every action. -/
theorem slotLawKept : Obligations.SlotLawKept := fun _ _ h hstep =>
  step_keeps (fun _ => slotLaw_nodeMoves) (fun _ rest => slotLaw_withPending rest) (fun _ => slotLaw_actions) h hstep

/-- Settles O60: the law of WORKING is kept together with those of the engaged marks and of the pass. -/
theorem workingLawKept : Obligations.WorkingLawKept := fun _ _ hengaged hpass hworking hstep =>
  (step_keeps (P := workInv) (fun _ => workInv_nodeMoves) (fun _ rest => workInv_withPending rest)
    (fun _ => workInv_actions) ⟨hengaged, hpass, hworking⟩ hstep).2.2

end Sys2Proof.Machine
end

section
/-! The frames: what no internal event and no command changes; and the bounds of the configuration bytes. -/

namespace Sys2Proof.Machine

section Frames

variable {s t : State}

/-! ### What no command changes -/

theorem hostView_select (s : State) : hostView (select s) = hostView s := hostView_quiet s (quietView_select s)

theorem hostView_retry (s : State) : hostView (retry s) = hostView s := hostView_quiet s (quietView_retry s)

theorem hostView_removeJobs (p : QueuedJob → Bool) (s : State) : hostView (removeJobs p s).1 = hostView s :=
  hostView_quiet s (quietView_removeJobs s p)

theorem hostView_admitDirect (ch : ChannelId) (s : State) : hostView (admitDirect ch s).1 = hostView s := by
  unfold admitDirect
  dsimp only
  split
  · rfl
  split
  · rfl
  split
  · rfl
  split
  · rfl
  · exact hostView_select _

theorem hostView_measureNow (s : State) : hostView (measureNow s).1 = hostView s := by
  unfold measureNow
  split
  · rfl
  split
  · rfl
  · exact hostView_admitDirect _ s

theorem hostView_flushQueue (s : State) : hostView (flushQueue s).1 = hostView s := by
  unfold flushQueue
  split
  · rfl
  · exact hostView_removeJobs _ s

theorem hostView_scanStart (s : State) : hostView (scanStart s).1 = hostView s := by
  unfold scanStart
  split
  · rfl
  split
  · rfl
  split
  · rfl
  · exact hostView_passStart _

theorem hostView_scanOnce (s : State) : hostView (scanOnce s).1 = hostView s := by
  unfold scanOnce
  split
  · rfl
  split
  · exact hostView_passStart _
  · exact hostView_passStart _
  · rfl
  · rfl

theorem hostView_scanStop (s : State) : hostView (scanStop s).1 = hostView s := by
  unfold scanStop
  repeat' split
  case isFalse.isTrue => exact hostView_removeJobs _ _
  case isFalse.isFalse =>
    exact (hostView_quiet _ (quietView_applySwap _)).trans (hostView_removeJobs _ _)
  all_goals rfl

theorem hostView_swapBanks (s : State) : hostView (swapBanks s).1 = hostView s := by
  unfold swapBanks
  repeat' split
  all_goals rfl

theorem hostView_commitChannel (s : State) : hostView (commitChannel s).1 = hostView s := by
  unfold commitChannel
  repeat' split
  case h_2.isFalse => exact hostView_quiet s (quietView_decideCommit s _ _)
  all_goals rfl

theorem hostView_fetchChannel (s : State) : hostView (fetchChannel s).1 = hostView s := by
  unfold fetchChannel
  split <;> rfl

theorem hostView_invalidateReference (s : State) : hostView (invalidateReference s).1 = hostView s := by
  unfold invalidateReference
  repeat' split
  all_goals rfl

theorem hostView_clearZone (s : State) : hostView (clearZone s).1 = hostView s := by
  unfold clearZone
  repeat' split
  all_goals rfl

theorem hostView_setTimebase (s : State) : hostView (setTimebase s).1 = hostView s := by
  unfold setTimebase
  repeat' split
  all_goals rfl

theorem hostView_sleep (s : State) : hostView (sleep s).1 = hostView s := by
  unfold sleep
  repeat' split
  all_goals rfl

theorem hostView_wake (s : State) : hostView (wake s).1 = hostView s := by
  unfold wake
  split <;> rfl

theorem hostView_quietEngine (s : State) : hostView (quietEngine s) = hostView s := by
  unfold quietEngine
  rw [hostView_quiet _ (quietView_clampRequest _)]
  simp [hostView, ScanController.quiet, ResultFifo.quiet]

theorem hostView_engineReset (s : State) : hostView (engineReset s) = hostView s := by
  unfold engineReset
  split <;> exact hostView_quietEngine s

theorem hostView_abortJob (s : State) : hostView (abortJob s).1 = hostView s := hostView_quiet s (quietView_abortJob s)

theorem hostView_issue {code : Byte} {effect : State → State × Reply} (h : hostView (effect s).1 = hostView s) :
    hostView (issue code effect s) = hostView s :=
  iteInduction (motive := fun u => hostView u = hostView s) (fun _ => rfl) (fun _ => h)

/-- The effects of Table 9-1 that are issued alike, all but ABORT_JOB and ENGINE_RESET; and that of an unassigned
code. -/
def issuedEffects : List (State → State × Reply) :=
  [measureNow, flushQueue, scanStart, scanStop, scanOnce, swapBanks, commitChannel, fetchChannel, invalidateReference,
    clearZone, clearAlerts, clearResults, setTimebase, sleep, wake, unknownCommand]

/-- R173, R177, R178: what a byte written to COMMAND does is ABORT_JOB, ENGINE_RESET, or one of the issued effects. -/
theorem issueCode_ind {P : State → Prop} (habort : P (issueAbort s)) (hreset : P (engineReset s))
    (hissue : ∀ code, ∀ effect ∈ issuedEffects, P (issue code effect s)) (code : Byte) :
    P (issueCode code s) := by
  unfold issuedEffects at hissue
  unfold issueCode
  refine iteInduction (fun _ => hissue _ _ (by simp)) (fun _ => ?_)
  refine iteInduction (fun _ => habort) (fun _ => ?_)
  refine iteInduction (fun _ => hissue _ _ (by simp)) (fun _ => ?_)
  refine iteInduction (fun _ => hissue _ _ (by simp)) (fun _ => ?_)
  refine iteInduction (fun _ => hissue _ _ (by simp)) (fun _ => ?_)
  refine iteInduction (fun _ => hissue _ _ (by simp)) (fun _ => ?_)
  refine iteInduction (fun _ => hissue _ _ (by simp)) (fun _ => ?_)
  refine iteInduction (fun _ => hissue _ _ (by simp)) (fun _ => ?_)
  refine iteInduction (fun _ => hissue _ _ (by simp)) (fun _ => ?_)
  refine iteInduction (fun _ => hissue _ _ (by simp)) (fun _ => ?_)
  refine iteInduction (fun _ => hissue _ _ (by simp)) (fun _ => ?_)
  refine iteInduction (fun _ => hissue _ _ (by simp)) (fun _ => ?_)
  refine iteInduction (fun _ => hissue _ _ (by simp)) (fun _ => ?_)
  refine iteInduction (fun _ => hissue _ _ (by simp)) (fun _ => ?_)
  refine iteInduction (fun _ => hissue _ _ (by simp)) (fun _ => ?_)
  refine iteInduction (fun _ => hissue _ _ (by simp)) (fun _ => ?_)
  exact iteInduction (fun _ => hreset) (fun _ => hissue _ _ (by simp))

theorem hostView_issueAbort (s : State) : hostView (issueAbort s) = hostView s := by
  unfold issueAbort
  split <;> exact hostView_abortJob s

/-- R173: no command changes what only the host writes. -/
theorem hostView_issueCode (code : Byte) (s : State) : hostView (issueCode code s) = hostView s := by
  refine issueCode_ind (P := fun u => hostView u = hostView s) (hostView_issueAbort s) (hostView_engineReset s)
    (fun code effect heffect => hostView_issue ?_) code
  simp only [issuedEffects, List.mem_cons, List.not_mem_nil, or_false] at heffect
  rcases heffect with rfl | rfl | rfl | rfl | rfl | rfl | rfl | rfl | rfl | rfl | rfl | rfl | rfl | rfl | rfl | rfl
  · exact hostView_measureNow s
  · exact hostView_flushQueue s
  · exact hostView_scanStart s
  · exact hostView_scanStop s
  · exact hostView_scanOnce s
  · exact hostView_swapBanks s
  · exact hostView_commitChannel s
  · exact hostView_fetchChannel s
  · exact hostView_invalidateReference s
  · exact hostView_clearZone s
  · rfl
  · exact hostView_retry _
  · exact hostView_setTimebase s
  · exact hostView_sleep s
  · exact hostView_wake s
  · rfl

/-- R171, R173: a row whose byte is written to COMMAND issues the code of that byte. -/
theorem exec_command {c : Instr} {code : Byte} (h : takesWrite 0x18 s) (hrow : c.busWrite = some (0x18#8, code)) :
    exec c s = .next (issueCode code (pointerPast 0x18 s)) := by
  rw [exec_busWrite hrow]
  exact congrArg Host.Outcome.next (dataByte_taken h)

/-! ### What no internal event changes -/

/-- The rows of the Sequencer's, the Arbiter's and the cursor's events. -/
def Instr.isEngineEvent (c : Instr) : Prop :=
  (∃ close, c = .oscillatorEdge close) ∨ c = .dischargeEnd ∨ c = .settleEnd ∨ c = .edgeTimeout ∨
    c = .windowGateClose ∨ c = .periodGateClose ∨ c = .overflow ∨ c = .arbiterSelection ∨ c = .cursorAdvance ∨
    c = .offerRetake

theorem quietView_guarded {q : Prop} [Decidable q] (h : quietView t = quietView s) :
    quietView (if q then t else s) = quietView s :=
  iteInduction (motive := fun u => quietView u = quietView s) (fun _ => h) (fun _ => rfl)

theorem quietView_engineEvent {c : Instr} (hc : Instr.isEngineEvent c) (s : State) :
    ∃ t, exec c s = .next t ∧ quietView t = quietView s := by
  obtain ⟨close, rfl⟩ | rfl | rfl | rfl | rfl | rfl | rfl | rfl | rfl | rfl := hc
  · exact ⟨_, rfl, quietView_oscillatorEdge s close⟩
  · exact ⟨_, rfl, quietView_guarded (quietView_enterSettle s)⟩
  · exact ⟨_, rfl, quietView_guarded (quietView_enterArm s)⟩
  · exact ⟨_, rfl, quietView_guarded (quietView_phaseEnd s _)⟩
  · exact ⟨_, rfl, quietView_guarded (quietView_sampleComplete s)⟩
  · exact ⟨_, rfl, quietView_guarded (quietView_sampleComplete s)⟩
  · exact ⟨_, rfl, quietView_guarded (quietView_overflowed s)⟩
  · exact ⟨_, rfl, quietView_select s⟩
  · exact ⟨_, rfl, quietView_guarded (quietView_cursorMove s)⟩
  · exact ⟨_, rfl, quietView_guarded ((quietView_select _).trans (quietView_retakeOffer s))⟩

/-! ### The bounds of the configuration bytes -/

/-- The configuration bytes are the host's: what leaves its view leaves their bounds. -/
theorem configLaw_of_hostView (hview : hostView t = hostView s) (h : configLaw s) : configLaw t := by
  simp only [hostView, HostView.mk.injEq, Prod.mk.injEq] at hview
  obtain ⟨-, -, -, -, -, -, hdischarge, -, -, ⟨hlengthA, hlengthB⟩, ⟨hlow, hhigh⟩, htrig, -, hmark⟩ := hview
  unfold configLaw passPeriod
  rw [hdischarge, hmark, hlengthA, hlengthB, hlow, hhigh, htrig]
  exact h

theorem storedDischarge_pos (value : Byte) : 1 ≤ (storedDischarge value).toNat := by
  unfold storedDischarge
  split
  · decide
  · next h =>
    have : value.toNat ≠ 0 := fun h0 => h (BitVec.eq_of_toNat_eq h0)
    omega

theorem storedWatermark_bounds (value : Byte) :
    1 ≤ (storedWatermark value).toNat ∧ (storedWatermark value).toNat ≤ 16 := by
  unfold storedWatermark
  split
  · decide
  · next h =>
    have : value.toNat ≠ 0 := fun h0 => h (BitVec.eq_of_toNat_eq h0)
    split
    · decide
    · omega

theorem storedLength_le (value : Byte) : (storedLength value).toNat ≤ 24 := by
  unfold storedLength
  split
  · decide
  · omega

/-- R120: a period is 0 exactly if both its bytes are. -/
theorem word16_pos (low high : Byte) : 1 ≤ (word16 low high).toNat ↔ low ≠ 0 ∨ high ≠ 0 := by
  have hvalue : (word16 low high).toNat = 256 * high.toNat + low.toNat := by
    unfold word16
    rw [BitVec.toNat_append, ← Nat.shiftLeft_add_eq_or_of_lt low.isLt, Nat.shiftLeft_eq]
    omega
  have hlow : low = 0 ↔ low.toNat = 0 := BitVec.toNat_inj.symm
  have hhigh : high = 0 ↔ high.toNat = 0 := BitVec.toNat_inj.symm
  rw [hvalue, ne_eq, ne_eq, hlow, hhigh]
  omega

/-- R120: of two period bytes one is not 0, where a 0 beside a 0 is stored as 1. -/
theorem storedPeriod_pos (value other : Byte) :
    (if value = 0 ∧ other = 0 then (1 : Byte) else value) ≠ 0 ∨ other ≠ 0 := by
  by_cases hv : value = 0 ∧ other = 0
  · exact .inl (by simp [hv])
  · rw [if_neg hv]
    exact not_and_or.mp hv

theorem configLaw_writePeriodLow (value : Byte) (h : configLaw s) : configLaw (writePeriodLow value s) := by
  obtain ⟨hdischarge, hmark, hmark', hA, hB, -, htrig⟩ := h
  exact ⟨hdischarge, hmark, hmark', hA, hB, (word16_pos _ _).mpr (storedPeriod_pos value s.scan.periodHigh), htrig⟩

theorem configLaw_writePeriodHigh (value : Byte) (h : configLaw s) : configLaw (writePeriodHigh value s) := by
  obtain ⟨hdischarge, hmark, hmark', hA, hB, -, htrig⟩ := h
  refine ⟨hdischarge, hmark, hmark', hA, hB, (word16_pos _ _).mpr ?_, htrig⟩
  rw [writePeriodHigh, State.withScan_scan]
  simpa [and_comm] using storedPeriod_pos s.scan.periodLow value

theorem configLaw_writePlain (address value : Byte) (h : configLaw s) : configLaw (writePlain address value s) := by
  have ⟨hdischarge, hmark, hmark', hA, hB, hperiod, htrig⟩ := h
  unfold writePlain
  refine iteInduction (fun _ => h) (fun _ => ?_)
  refine iteInduction (fun _ => h) (fun _ => ?_)
  refine iteInduction (fun _ => h) (fun _ => ?_)
  refine iteInduction (fun _ => h) (fun _ => ?_)
  refine iteInduction (fun _ => configLaw_writePeriodLow value h) (fun _ => ?_)
  refine iteInduction (fun _ => configLaw_writePeriodHigh value h) (fun _ => ?_)
  refine iteInduction (fun _ => ?_) (fun _ => ?_)
  · exact ⟨hdischarge, hmark, hmark', hA, hB, hperiod, by simp [storedTrig, BitVec.and_assoc]⟩
  refine iteInduction (fun _ => ?_) (fun _ => ?_)
  · exact ⟨storedDischarge_pos value, hmark, hmark', hA, hB, hperiod, htrig⟩
  refine iteInduction (fun _ => ?_) (fun _ => guarded h fun _ => h)
  exact ⟨hdischarge, (storedWatermark_bounds value).1, (storedWatermark_bounds value).2, hA, hB, hperiod, htrig⟩

theorem configLaw_writeBank (address value : Byte) (h : configLaw s) : configLaw (writeBank address value s) := by
  have ⟨hdischarge, hmark, hmark', hA, hB, hperiod, htrig⟩ := h
  refine guarded h fun _ => ?_
  unfold storeBank
  dsimp only
  split
  · exact ⟨hdischarge, hmark, hmark', storedLength_le value, hB, hperiod, htrig⟩
  split
  · exact ⟨hdischarge, hmark, hmark', hA, storedLength_le value, hperiod, htrig⟩
  split <;> exact h

theorem configLaw_retry (h : configLaw s) : configLaw (retry s) := configLaw_of_hostView (hostView_retry s) h

theorem configLaw_registerWrite (address value : Byte) (h : configLaw s) :
    configLaw (registerWrite address value s) := by
  unfold registerWrite
  refine iteInduction (fun _ => configLaw_of_hostView (hostView_issueCode value s) h) (fun _ => ?_)
  refine iteInduction (fun _ => guarded h fun _ => h) (fun _ => ?_)
  refine iteInduction (fun _ => h) (fun _ => ?_)
  refine iteInduction (fun _ => h) (fun _ => ?_)
  refine iteInduction (fun _ => configLaw_retry h) (fun _ => ?_)
  exact iteInduction (fun _ => configLaw_writeBank address value h) (fun _ => configLaw_writePlain address value h)

theorem configLaw_loadPointer (value : Byte) (h : configLaw s) : configLaw (loadPointer value s) := by
  unfold loadPointer takeByte
  split
  · exact h
  split
  · exact h
  · exact configLaw_registerWrite _ value h
  · exact h
  · exact h

theorem configLaw_popResult (h : configLaw s) : configLaw (popResult s) := by
  have htaken : configLaw (takeResult s) := by
    unfold takeResult
    split <;> exact h
  exact configLaw_retry htaken

theorem configLaw_popAlert (h : configLaw s) : configLaw (popAlert s) := by
  unfold popAlert
  split <;> exact h

theorem configLaw_windowRead (address : Byte) {pop : State → State} (h : configLaw s)
    (hpop : ∀ u, configLaw u → configLaw (pop u)) : configLaw (windowRead address pop s) := by
  have hread : configLaw ((if s.port.pointer = address then pop else readAction s.port.pointer) s) := by
    by_cases hp : s.port.pointer = address
    · rw [if_pos hp]
      exact hpop s h
    · rw [if_neg hp]
      exact guarded (guarded h fun _ => configLaw_popAlert h) fun _ => configLaw_popResult h
  unfold windowRead
  split
  · exact h
  split
  · exact hread
  all_goals exact h

theorem configLaw_busStart (address : Byte) (h : configLaw s) : configLaw (busStart address s) := by
  unfold busStart
  repeat' split
  all_goals exact h

theorem configLaw_tbTick (level : Bool) (h : configLaw s) : configLaw (tbTick level s) := by
  have hview := hostView_tbTick s level
  by_cases hc : clocked s = true
  · rw [if_pos hc] at hview
    exact configLaw_of_hostView (s := s.withPins { s.pins with trig := level }) hview h
  · rw [if_neg hc] at hview
    exact configLaw_of_hostView hview h

theorem configLaw_slowTick (level : Bool) (h : configLaw s) : configLaw (slowTick level s) := by
  have hview := hostView_slowTick s level
  by_cases hc : clocked s = true
  · rw [if_pos hc] at hview
    exact configLaw_of_hostView (s := s.withPins { s.pins with trig := level }) hview h
  · rw [if_neg hc] at hview
    exact configLaw_of_hostView hview h

theorem configLaw_of_quietView (hview : quietView t = quietView s) : configLaw s → configLaw t :=
  configLaw_of_hostView (hostView_quiet s hview)

theorem configLaw_powerOn (s : State) : configLaw (powerOn s) := by
  have hreset : configLaw State.reset := by
    unfold configLaw
    decide
  exact hreset

theorem configLaw_actions (h : configLaw s) : ActionsKeep configLaw s where
  byte value := configLaw_loadPointer value h
  resultPop := configLaw_windowRead _ h fun _ => configLaw_popResult
  alertPop := configLaw_windowRead _ h fun _ => configLaw_popAlert
  openWrite := configLaw_busStart _ h
  copySnapshot := configLaw_busStart _ h
  powerOn := configLaw_powerOn s
  endReset _ := guarded h fun _ => h
  tbTick level := configLaw_tbTick level h
  slowTick level := configLaw_slowTick level h
  edge close := configLaw_of_quietView (quietView_oscillatorEdge s close) h
  dischargeEnd _ := configLaw_of_quietView (quietView_enterSettle s) h
  settleEnd _ := h
  timeout _ := configLaw_of_quietView (quietView_phaseEnd s _) h
  gate _ := configLaw_of_quietView (quietView_sampleComplete s) h
  overflow _ := configLaw_of_quietView (quietView_overflowed s) h
  expiry _ := configLaw_of_hostView (hostView_expiry s) h
  trigEdge _ := configLaw_of_hostView (s := s.withPins _) (hostView_qualifiedEdge _ _) h
  selection := configLaw_of_quietView (quietView_select s) h
  cursor _ := configLaw_of_quietView (quietView_cursorMove s) h
  retake _ := configLaw_of_quietView ((quietView_select _).trans (quietView_retakeOffer s)) h

end Frames

/-- Settles O50: the events by the quiet view of the operation each one runs, the commands by the host's view. -/
theorem frames : Obligations.Frames := by
  refine ⟨fun c s t hc hexec => ?_, fun c code s t htakes hrow _ hexec => ?_⟩
  · obtain ⟨u, hu, hview⟩ := quietView_engineEvent hc s
    exact Host.Outcome.next.inj (hu.symm.trans hexec) ▸ hview
  · exact Host.Outcome.next.inj ((exec_command htakes hrow).symm.trans hexec) ▸ hostView_issueCode code _

/-- Settles O52: the bytes are the host's, so a step changes them by a register write or a power-on reset alone, and
these store them within their bounds. -/
theorem configLawKept : Obligations.ConfigLawKept := fun _ _ h hstep =>
  step_keeps (fun s => configLaw_of_quietView (quietView_nodeMoves s)) (fun _ _ h => h) (fun _ => configLaw_actions)
    h hstep

end Sys2Proof.Machine
end

section
/-! The step, the resets, and the laws at reset. -/

namespace Sys2Proof.Machine

section StepAndResets

variable {s : State}

/-! ### The fall of the comparator output, and the step -/

theorem nodeMoves_low (h : s.frontEnd.comparator = false) : nodeMoves s = s := by
  rw [nodeMoves, if_neg (by simp [h])]

/-- R3: a high output keeps its level or falls, by a free value (log 19). -/
theorem nodeMoves_high {pin : PinId} (h : s.frontEnd = .running pin true) :
    nodeMoves s = s.withFreeIndex (s.freeIndex + 1) ∨
      nodeMoves s = (s.withFrontEnd (.running pin false)).withFreeIndex (s.freeIndex + 1) := by
  have hhigh : s.frontEnd.comparator = true := by rw [h]; rfl
  rw [nodeMoves, if_pos hhigh]
  by_cases hfalls : Config.comparatorFalls s.freeIndex = true
  · refine .inr ?_
    rw [if_pos hfalls]
    unfold comparatorTo
    rw [State.withFreeIndex_frontEnd, h]
    rfl
  · exact .inl (if_neg hfalls)

theorem step_cons {c : Instr} {rest : List Instr} (h : s.pending = c :: rest) :
    step s = exec c ((nodeMoves s).withPending rest) := by
  simp only [step, h]

theorem step_nil (h : s.pending = []) : step s = .next (nodeMoves s) := by
  simp only [step, h]

/-- R3: the fall leaves the selected pin. -/
theorem nodeMoves_selected (s : State) : (nodeMoves s).frontEnd.selected = s.frontEnd.selected := by
  rcases nodeMoves_spec s with h | h | ⟨pin, hfe, h⟩ <;> rw [h]
  · rfl
  · rw [State.withFreeIndex_frontEnd, State.withFrontEnd_frontEnd, hfe]
    rfl

/-- The fall changes the front end and the free counter alone. -/
theorem nodeMoves_frame (s : State) :
    nodeMoves s = (s.withFrontEnd (nodeMoves s).frontEnd).withFreeIndex (nodeMoves s).freeIndex := by
  rcases nodeMoves_spec s with h | h | ⟨pin, -, h⟩ <;> rw [h] <;> rfl

/-! ### Resets -/

theorem powerOn_channel (s : State) (ch : ChannelId) : (powerOn s).channels[ch.val] = .zero := by
  simp [powerOn, State.reset]

theorem powerOn_staging (s : State) (i : Fin 32) : (powerOn s).staging[i.val] = 0 := by
  simp [powerOn, State.reset]

theorem powerOn_slot (s : State) (i : Fin 4) : (powerOn s).refs[i.val] = .free := by
  simp [powerOn, State.reset]

theorem powerOn_banks (s : State) (i : Fin 48) :
    (powerOn s).scan.bankA[i.val] = 0 ∧ (powerOn s).scan.bankB[i.val] = 0 := by
  simp [powerOn, State.reset, ScanController.reset]

/-- R19: the end of a reset that is held. -/
theorem endReset_held (level : Bool) (h : s.inReset = true) :
    endReset level s = (((s.withInReset false).withFrontEnd .clamped).withPins { s.pins with addr := level }).withPort
      { s.port with address := if level then 0x2D else 0x2C } := if_pos h

/-- R163: outside a reset an address byte is acknowledged exactly if it carries the port's address. -/
theorem acknowledges_target (h : s.inReset = false) (target : BitVec 7) (read : Bool) :
    acknowledges (target ++ BitVec.ofBool read) s = (target == s.port.address) := by
  rw [acknowledges, addressByte_target, h, Bool.not_false, Bool.true_and, Bool.eq_iff_iff, beq_iff_eq, beq_iff_eq]
  constructor
  · intro heq
    bv_omega
  · exact fun heq => heq ▸ rfl

theorem windowRead_inReset {address : Byte} {pop : State → State} (h : s.inReset = true) :
    windowRead address pop s = s := if_pos h

theorem clocked_inReset (h : s.inReset = true) : clocked s = false := by simp [clocked, h]

theorem tbTick_stopped (level : Bool) (h : clocked s = false) : tbTick level s = s := if_neg (by simp [h])

theorem slowTick_stopped (level : Bool) (h : clocked s = false) : slowTick level s = s := if_neg (by simp [h])

/-- R4: a clamp request leaves the node clamped, unless it is held. -/
theorem clampRequest_frontEnd (s : State) :
    (clampRequest s).frontEnd = if s.frontEnd = .held then .held else .clamped := by
  unfold clampRequest
  split <;> simp [*]

/-- R187: with no flag enabled IRQ is released. -/
theorem irqLow_disabled (h : s.events.enables = 0) : irqLow s = false := by simp [irqLow, h]

/-- R178: ENGINE_RESET is the quiet state of every block, with its outcome; a cancelled command sets COMMAND. -/
theorem engineReset_eq (s : State) : engineReset s =
    ((quietEngine s).withEvents
      { s.events with flags := if s.cmd.outcome.state = .working then 0x40 else 0 }).withCmd
        { s.cmd with outcome := {
          command := 0x50, state := .done, reason := none, collision := false,
          result := if s.cmd.outcome.state = .working then s.cmd.outcome.command else 0 } } := by
  have hcmd : (quietEngine s).cmd = s.cmd := by simp [quietEngine]
  have hevents : (quietEngine s).events = { s.events with flags := 0 } := by
    unfold quietEngine clampRequest
    split <;> rfl
  unfold engineReset
  split
  · simp only [recordOutcome, raise, hevents, State.withEvents_cmd, hcmd]
    rfl
  · simp only [recordOutcome, hcmd]
    rw [← hevents]
    rfl

/-- R40, R67, R86, R105, R128, R145, R162: the blocks in their ENGINE_RESET state. -/
theorem quietEngine_blocks (s : State) :
    (quietEngine s).frontEnd = (if s.frontEnd = .held then .held else .clamped) ∧
      (quietEngine s).timebase = s.timebase ∧ (quietEngine s).staging = s.staging ∧ (quietEngine s).deferred = none ∧
      (∀ ch : ChannelId, (quietEngine s).channels[ch.val] = s.channels[ch.val].quiet) ∧
      (quietEngine s).seq = .quiet ∧ (∀ i : Fin 4, (quietEngine s).refs[i.val] = s.refs[i.val].invalidate) ∧
      (quietEngine s).queue = .quiet ∧ (quietEngine s).scan = s.scan.quiet ∧
      (quietEngine s).alerts = { entries := [], latch := none } ∧ (quietEngine s).fifo = s.fifo.quiet := by
  unfold quietEngine
  refine ⟨?_, by simp [invalidateAll]⟩
  rw [clampRequest_frontEnd]
  by_cases hheld : s.frontEnd = .held <;> simp [hheld]

end StepAndResets

/-- Settles O1, by the two things a high output can do between two commands. -/
theorem stepTakesFront : Obligations.StepTakesFront := by
  intro c rest s hpending found
  rw [step_cons hpending]
  refine ⟨fun hlow => by rw [nodeMoves_low hlow], fun pin hhigh => ?_⟩
  obtain h | h := nodeMoves_high hhigh <;> rw [h]
  · exact .inl rfl
  · exact .inr rfl

/-- Settles O2: an idle step is the fall alone, and every arm of exec answers a next state. -/
theorem noStepStops : Obligations.NoStepStops := by
  refine ⟨fun s hpending => ⟨_, step_nil hpending, nodeMoves_frame s, nodeMoves_selected s, nodeMoves_low⟩, ?_⟩
  intro c s
  cases c <;> exact ⟨_, rfl⟩

/-- Settles O3, by the reset value of each table. -/
theorem powerOnResetState : Obligations.PowerOnResetState := by
  intro s
  refine ⟨powerOn s, rfl, rfl, rfl, rfl, rfl, fun ch => ?_, powerOn_staging s, rfl, rfl, powerOn_slot s, rfl,
    powerOn_banks s, rfl, rfl, rfl, rfl, rfl, rfl, rfl, rfl, rfl, rfl, rfl, rfl, rfl, rfl, rfl, rfl, rfl, rfl, rfl, rfl,
    rfl, rfl, rfl, rfl, rfl, rfl, rfl⟩
  rw [powerOn_channel]
  exact ⟨rfl, rfl, rfl, rfl, rfl, rfl⟩

/-- Settles O4. -/
theorem resetEndState : Obligations.ResetEndState := by
  intro level s
  refine ⟨fun hheld => ?_, fun hnone => congrArg Host.Outcome.next (if_neg (by simp [hnone]))⟩
  refine ⟨_, congrArg Host.Outcome.next (endReset_held level hheld), rfl, rfl, rfl, rfl, rfl, rfl, rfl, rfl, rfl, rfl,
    rfl, rfl, rfl, rfl, fun target read => ?_⟩
  exact acknowledges_target rfl target read

/-- Settles O5: a data byte, a read, a start and a tick each find the reset first. -/
theorem heldResetTakesNothing : Obligations.HeldResetTakesNothing := by
  intro s h
  have hclock := clocked_inReset h
  refine ⟨fun c address value hrow => ?_, congrArg Host.Outcome.next (windowRead_inReset h),
    congrArg Host.Outcome.next (windowRead_inReset h), congrArg Host.Outcome.next (busStart_inReset _ h),
    congrArg Host.Outcome.next (busStart_inReset _ h), fun value => congrArg Host.Outcome.next (takeByte_none (.inl h)),
    fun addressByte => ⟨by simp [acknowledges, h], busStart_inReset _ h⟩,
    fun level => congrArg Host.Outcome.next (tbTick_stopped level hclock),
    fun level => congrArg Host.Outcome.next (slowTick_stopped level hclock)⟩
  rw [exec_busWrite hrow, dataByte_inReset h]

/-- Settles O6, block by block. -/
theorem engineResetState : Obligations.EngineResetState := by
  intro s h
  obtain ⟨hfront, htime, hstaging, hdeferred, hchannels, hseq, hrefs, hqueue, hscan, halerts, hfifo⟩ :=
    quietEngine_blocks (pointerPast 0x18 s)
  refine ⟨_, exec_engineReset_taken h, hostView_engineReset _, ?_⟩
  rw [engineReset_eq]
  exact ⟨hfront, htime, hstaging, hdeferred, hchannels, hseq, hrefs, hqueue, hscan, halerts, hfifo, rfl, rfl, rfl⟩

/-- Settles O7. -/
theorem eventUnitResets : Obligations.EventUnitResets := by
  refine ⟨fun s => ⟨_, rfl, rfl, rfl, rfl, fun level => ⟨_, rfl, rfl, rfl, irqLow_disabled rfl⟩⟩, fun s h => ?_,
    fun u h => irqLow_disabled h, fun f u => ⟨?_, rfl, rfl⟩⟩
  · refine ⟨_, exec_engineReset_taken h, ?_, ?_, ?_⟩
    · rw [engineReset_eq]
      rfl
    · rw [engineReset_eq]
      rfl
    · rw [irqLow_running, engineReset_eq]
      · rfl
      · have hview := congrArg HostView.inReset (hostView_engineReset (pointerPast 0x18 s))
        exact hview.trans h.1
  · simp [flagSet_raise]

/-- Settles O51: in the reset state each law is a closed fact, or speaks of a job or a record that is not there. -/
theorem lawsHoldAtReset : Obligations.LawsHoldAtReset := by
  refine ⟨?config, ?queue, ?alert, ?sequence, ?job, ?stall, ?node, ?engaged, ?range, ?pass, ?slot, ?working⟩
  case config => unfold configLaw; decide
  case queue => unfold queueLaw; decide
  case alert => unfold alertLaw; decide
  case sequence => exact fun i h => absurd h (Nat.not_lt_zero i)
  case job => unfold jobLaw; decide
  case stall => exact fun _ _ h => absurd rfl h
  case node => exact ⟨fun _ => rfl, rfl⟩
  case engaged => unfold engagedLaw; decide
  case range => exact ⟨by unfold Channel.stepLaw; decide, fun j h => nomatch h⟩
  case pass => exact ⟨fun _ => rfl, rfl, rfl, rfl, rfl, rfl⟩
  case slot => unfold slotLaw; decide
  case working => exact ⟨by decide, fun h => absurd h (by decide), fun dc h => absurd h.symm (Option.some_ne_none dc)⟩

end Sys2Proof.Machine
end

section
/-! The commands of the Command Port that touch the queue, the slots, the zones, the results and the timebase. -/

namespace Sys2Proof.Machine

section CommandEffects

variable {s : State} {ch : ChannelId}

/-! ### Decoding -/

/-- R173: a decoded command is recorded with what its effect answers in the state behind the pointer's advance. -/
theorem exec_decoded {c : Instr} {code v : Byte} {effect : State → State × Reply} {t : State} {r : Reply}
    (h : decodesCommand s) (hrow : exec c s = .next (dataByte 0x18 v (issue code effect) s))
    (heffect : effect (pointerPast 0x18 s) = (t, r)) : exec c s = .next (recordOutcome code r t) := by
  rw [hrow, issue_decoded h, heffect]

/-- R175: while a command is WORKING every code but those of the two priority commands only collides. -/
theorem issueCode_working {code : Byte} (hworking : s.cmd.outcome.state = .working) (habort : code ≠ 0x02#8)
    (hreset : code ≠ 0x50#8) : issueCode code s = collide s := by
  have hissue : ∀ c effect, issue c effect s = collide s := fun c effect => if_pos hworking
  simp only [issueCode, hissue, if_neg habort, if_neg hreset, ite_self]

theorem issueCode_unassigned {code : Byte} (h : assignedCode code = false) :
    issueCode code s = issue code unknownCommand s := by
  simp [assignedCode] at h
  simp [issueCode, h]

/-- R164, R168, R195: a well-formed row is named by its address and byte. -/
theorem ofRegisterWrite_busWrite {c : Instr} {address value : Byte} (hformed : c.wellFormed = true)
    (hrow : c.busWrite = some (address, value)) : Instr.ofRegisterWrite address value = c := by
  cases c with
  | unknownCommand code => exact Sys2Proof.Laws.WriteRow.unknownCommand code hformed _ _ hrow
  | scanBankWrite a v => exact Sys2Proof.Laws.WriteRow.scanBankWrite a v hformed _ _ hrow
  | registerWrite a v => exact Sys2Proof.Laws.WriteRow.registerWrite a v hformed _ _ hrow
  | _ => cases hrow <;> rfl

/-- R171, R195: a well-formed row written to COMMAND is the row of its code. -/
theorem ofCode_busWrite {c : Instr} {code : Byte} (hformed : c.wellFormed = true)
    (hrow : c.busWrite = some (0x18#8, code)) : Instr.ofCode code = c :=
  ofRegisterWrite_busWrite hformed hrow

/-! ### MEASURE_NOW -/

theorem measureNow_badArg (h : 16 ≤ s.cmd.arg0.toNat) : measureNow s = refuse .badArg s := by
  rw [measureNow, channelOf_none h]

theorem measureNow_asleep (harg : s.cmd.arg0.toNat = ch.val) (h : s.timebase.power = .asleep) :
    measureNow s = refuse .asleep s := by
  rw [measureNow, channelOf_some harg]
  exact if_pos h

theorem measureNow_awake (harg : s.cmd.arg0.toNat = ch.val) (h : s.timebase.power = .awake) :
    measureNow s = admitDirect ch s := by
  rw [measureNow, channelOf_some harg]
  exact if_neg (by simp [h])

theorem admitDirect_unused (h : s.channels[ch.val].desc.role = .unused) :
    admitDirect ch s = refuse .channelUnused s := if_pos h

theorem admitDirect_disabled (hrole : s.channels[ch.val].desc.role ≠ .unused)
    (h : s.channels[ch.val].desc.enabled = false) : admitDirect ch s = refuse .channelDisabled s :=
  (if_neg hrole).trans (if_pos h)

/-- R90: past its checks the channel's queued DIRECT job takes the request. -/
theorem admitDirect_merges {j : QueuedJob} (hrole : s.channels[ch.val].desc.role ≠ .unused)
    (henabled : s.channels[ch.val].desc.enabled = true)
    (h : s.queue.jobs.find? (QueuedJob.isDirectFor ch) = some j) :
    admitDirect ch s = (s, { state := .merged, reason := none, result := BitVec.ofNat 8 j.tag.number.toNat }) := by
  simp only [admitDirect, if_neg hrole, henabled, Bool.true_eq_false, ↓reduceIte, h]

theorem admitDirect_full (hrole : s.channels[ch.val].desc.role ≠ .unused)
    (henabled : s.channels[ch.val].desc.enabled = true)
    (h : s.queue.jobs.find? (QueuedJob.isDirectFor ch) = none) (hfull : 8 ≤ s.queue.jobs.length) :
    admitDirect ch s = refuse .queueFull s := by
  simp only [admitDirect, if_neg hrole, henabled, Bool.true_eq_false, ↓reduceIte, h]
  exact if_pos hfull

/-- R89, R90: with no DIRECT job of its channel and room in the queue, the job joins the tail with the next ticket. -/
theorem admitDirect_admits (hrole : s.channels[ch.val].desc.role ≠ .unused)
    (henabled : s.channels[ch.val].desc.enabled = true)
    (h : s.queue.jobs.find? (QueuedJob.isDirectFor ch) = none) (hroom : s.queue.jobs.length < 8) :
    admitDirect ch s =
      (select (s.withQueue { s.queue with
          jobs := s.queue.jobs ++ [{ channel := ch, tag := .direct s.queue.nextTicket }],
          nextTicket := ticketAfter s.queue.nextTicket }),
        .done s.queue.nextTicket.toNat) := by
  simp only [admitDirect, if_neg hrole, henabled, Bool.true_eq_false, ↓reduceIte, h]
  exact if_neg (not_le.mpr hroom)

/-- R88: with one DIRECT job to a channel, the queued one is the one a search finds. -/
theorem find_direct {ticket : Byte} (hlaw : queueLaw s)
    (hmem : ({ channel := ch, tag := .direct ticket } : QueuedJob) ∈ s.queue.jobs) :
    s.queue.jobs.find? (QueuedJob.isDirectFor ch) = some { channel := ch, tag := .direct ticket } := by
  rcases hfind : s.queue.jobs.find? (QueuedJob.isDirectFor ch) with _ | j
  · exact absurd (List.find?_eq_none.mp hfind _ hmem) (by simp [QueuedJob.isDirectFor, JobTag.isDirect])
  · have hj := List.find?_some hfind
    simp only [QueuedJob.isDirectFor, Bool.and_eq_true, beq_iff_eq] at hj
    have hkey : j.key = QueuedJob.key { channel := ch, tag := .direct ticket } :=
       Prod.ext hj.1 hj.2
    rw [List.inj_on_of_nodup_map hlaw.2 (List.mem_of_find?_eq_some hfind) hmem hkey]

theorem find_direct_none (h : ∀ j ∈ s.queue.jobs, j.channel = ch → j.tag.isDirect = false) :
    s.queue.jobs.find? (QueuedJob.isDirectFor ch) = none := by
  refine List.find?_eq_none.mpr fun j hj => ?_
  by_cases hch : j.channel = ch
  · simp [QueuedJob.isDirectFor, h j hj hch]
  · simp [QueuedJob.isDirectFor, hch]

/-- R94 to R96: a job alone in the queue of an idle Sequencer, with a free slot, is in flight at once. -/
theorem select_alone {q : QueuedJob} (hready : arbiterReady s = true) (hstalled : s.queue.stalled = false)
    (hjobs : s.queue.jobs = [q]) (hroom : s.fifo.records.length + s.fifo.reserved < 16) :
    (select s).seq.state = .discharge ∧ (select s).fifo.reserved = 1 ∧
      (select s).channels[q.channel.val].engaged = true ∧
      ∃ j, (select s).seq.job = some j ∧ j.channel = q.channel ∧ j.tag = q.tag := by
  have hq : selectJob s.queue.jobs = some (q, []) := by
    rw [hjobs]
    cases htag : q.tag <;> simp [selectJob, htag, JobTag.isDirect]
  rw [select_made hready hstalled, arbitrate_granted hq hroom]
  simp only [retake_keeps, jobStart_state, jobStart_job]
  exact ⟨trivial, by simp [jobStart], jobStart_engaged q _, _, rfl, jobRecord_spec _ q⟩

/-! ### FLUSH_QUEUE -/

/-- R101: the masks that name a class, and what they name. -/
theorem classMask_named {mask : Byte} (h : mask = 0x01 ∨ mask = 0x02 ∨ mask = 0x03) :
    classMask mask = some (fun j => if j.tag.isDirect then mask.getLsbD 0 else mask.getLsbD 1) := by
  obtain rfl | rfl | rfl := h
  all_goals
    refine congrArg some (funext fun j => ?_)
    cases j.tag <;> rfl

theorem removeJobs_count (p : QueuedJob → Bool) (s : State) :
    (removeJobs p s).2 = (s.queue.jobs.filter p).length := by
  unfold removeJobs
  split
  · next h => rw [List.isEmpty_iff.mp h]; rfl
  · rfl

/-! ### COMMIT_CHANNEL -/

theorem commitChannel_badArg (h : 16 ≤ s.cmd.arg0.toNat) : commitChannel s = refuse .badArg s := by
  rw [commitChannel, channelOf_none h]

theorem commitChannel_engaged (harg : s.cmd.arg0.toNat = ch.val) (h : s.channels[ch.val].engaged = true) :
    commitChannel s =
      (s.withDeferred (some { channel := ch, image := Image.ofStaging s.staging }), .working 0) := by
  rw [commitChannel, channelOf_some harg]
  exact if_pos h

theorem commitChannel_free (harg : s.cmd.arg0.toNat = ch.val) (h : s.channels[ch.val].engaged = false) :
    commitChannel s = decideCommit ch (Image.ofStaging s.staging) s := by
  rw [commitChannel, channelOf_some harg]
  exact if_neg (by simp [h])

theorem decideCommit_refused {im : Image} {reason : Reason} {result : Byte}
    (h : validate ch im s = some (reason, result)) : decideCommit ch im s = (s, .refused reason result) := by
  simp only [decideCommit, h]

/-! ### Slots -/

theorem slotOf_none (h : ∀ i : Fin 4, s.refs[i.val].owner ≠ some ch) : slotOf ch s = none := by
  obtain ⟨hnone, -⟩ | ⟨i, -, hi⟩ := slotOf_spec ch s
  · exact hnone
  · exact absurd hi (h i)

theorem slotOf_owned {i : Fin 4} (hi : s.refs[i.val].owner = some ch)
    (honly : ∀ k : Fin 4, s.refs[k.val].owner = some ch → k = i) : slotOf ch s = some s.refs[i.val] := by
  obtain ⟨-, hnone⟩ | ⟨k, hk, hown⟩ := slotOf_spec ch s
  · exact absurd hi (hnone i)
  · rw [hk, honly k hown]

theorem invalidateReference_badArg (h : 16 ≤ s.cmd.arg0.toNat) (hall : s.cmd.arg0 ≠ 0xFF) :
    invalidateReference s = refuse .badArg s := by
  rw [invalidateReference, if_neg hall, channelOf_none h]

/-- FFh, the argument for all, names no channel. -/
theorem channel_not_all {b : Byte} (h : b.toNat = ch.val) : b ≠ 0xFF := by
  rintro rfl
  have := ch.isLt
  simp at h
  omega

theorem invalidateReference_unowned (harg : s.cmd.arg0.toNat = ch.val) (h : slotOf ch s = none) :
    invalidateReference s = refuse .refMissing s := by
  rw [invalidateReference, if_neg (channel_not_all harg), channelOf_some harg]
  simp only [h]

theorem invalidateReference_owned {sl : RefSlot} (harg : s.cmd.arg0.toNat = ch.val) (h : slotOf ch s = some sl) :
    invalidateReference s = (onSlot ch RefSlot.invalidate s, .done (if sl.valid then 1 else 0)) := by
  rw [invalidateReference, if_neg (channel_not_all harg), channelOf_some harg]
  simp only [h]

/-! ### CLEAR_ZONE -/

theorem clearZone_badArg (h : 16 ≤ s.cmd.arg0.toNat) (hall : s.cmd.arg0 ≠ 0xFF) :
    clearZone s = refuse .badArg s := by
  rw [clearZone, if_neg hall, channelOf_none h]

theorem clearZone_channel (harg : s.cmd.arg0.toNat = ch.val) : clearZone s =
    (removeAlert ch (onChannel ch (fun c => { c with zone := .unknown }) s),
      .done (s.alerts.entries.countP (fun a => a.channel == ch))) := by
  rw [clearZone, if_neg (channel_not_all harg), channelOf_some harg]

/-! ### The alert entries of a zone change -/

theorem alertEntries_new {old new : Zone} {stamp : BitVec 32} {l : List AlertEntry} (h : ∀ a ∈ l, a.channel ≠ ch) :
    alertEntries ch old new stamp l =
      l ++ [{ channel := ch, fromZone := old, toZone := new, count := 1, stamp := stamp }] := by
  have hnone : l.any (fun a => a.channel == ch) = false := by simpa using h
  rw [alertEntries, if_neg (by simp [hnone])]

theorem alertEntries_update {old new : Zone} {stamp : BitVec 32} {before after : List AlertEntry} {a : AlertEntry}
    (hbefore : ∀ b ∈ before, b.channel ≠ ch) (hafter : ∀ b ∈ after, b.channel ≠ ch) (ha : a.channel = ch) :
    alertEntries ch old new stamp (before ++ a :: after) =
      before ++
        { a with toZone := new, stamp := stamp, count := if a.count < 255 then a.count + 1 else 255 } :: after := by
  have hany : (before ++ a :: after).any (fun a => a.channel == ch) = true := by simp [ha]
  have hkept : ∀ l : List AlertEntry, (∀ b ∈ l, b.channel ≠ ch) →
      l.map (fun b => if b.channel = ch then { b with toZone := new, count := min (b.count + 1) 255, stamp := stamp }
        else b) = l := fun l hl =>
    (List.map_congr_left fun b hb => if_neg (hl b hb)).trans (List.map_id' l)
  have hcount : min (a.count + 1) 255 = if a.count < 255 then a.count + 1 else 255 := by split <;> omega
  rw [alertEntries, if_pos hany, List.map_append, List.map_cons, hkept _ hbefore, hkept _ hafter, if_pos ha, hcount]

/-! ### A retry that is granted -/

/-- R98: with a free slot a stalled Arbiter's retry reserves it, clears the mark and starts a job. -/
theorem retry_granted (hready : arbiterReady s = true) (hstalled : s.queue.stalled = true) (hjobs : s.queue.jobs ≠ [])
    (hroom : s.fifo.records.length + s.fifo.reserved < 16) :
    (retry s).fifo = { s.fifo with reserved := 1 } ∧ (retry s).queue.stalled = false ∧
      (retry s).seq.state = .discharge := by
  obtain ⟨q, rest, hq⟩ := selectJob_some hjobs
  rw [retry_made hready hstalled, arbitrate_granted hq hroom]
  simp [jobStart]

end CommandEffects
end Sys2Proof.Machine
end

section
/-! The statements about the commands that touch the queue, the slots, the zones, the results and the timebase. -/

namespace Sys2Proof.Machine

/-- Settles O34. -/
theorem writeRowsRoundTrip : Obligations.WriteRowsRoundTrip := fun _ _ _ hformed hrow =>
  ofRegisterWrite_busWrite hformed hrow

/-- Settles O8: a code that is neither priority command's collides; an unassigned one is refused with no effect. -/
theorem commandsThatReachNoBlock : Obligations.CommandsThatReachNoBlock := by
  refine ⟨fun c code s h hworking hformed hrow habort hreset => ?_, fun code s h hcode => ?_⟩
  · have hname : Instr.ofCode code = c := ofCode_busWrite hformed hrow
    have hnot : code ≠ 0x02#8 ∧ code ≠ 0x50#8 :=
      ⟨fun hc => habort (by rw [← hname, hc]; rfl), fun hc => hreset (by rw [← hname, hc]; rfl)⟩
    rw [exec_command h hrow, issueCode_working (s := pointerPast 0x18 s) hworking hnot.1 hnot.2]
    rfl
  · rw [exec_command h.1 (rfl : (Instr.unknownCommand code).busWrite = _), issueCode_unassigned hcode]
    exact congrArg Host.Outcome.next (if_neg h.2)

/-- Settles O9: the checks in order, each by the equation of MEASURE_NOW where it is the first to fail. -/
theorem measureNowRefusesOrMerges : Obligations.MeasureNowRefusesOrMerges := by
  intro s h refused
  refine ⟨fun harg => exec_decoded h rfl (measureNow_badArg harg), fun ch harg => ⟨fun hpower => ?_, fun hpower => ?_⟩⟩
  · exact exec_decoded h rfl (measureNow_asleep harg hpower)
  have hdirect : measureNow (pointerPast 0x18 s) = admitDirect ch (pointerPast 0x18 s) := measureNow_awake harg hpower
  refine ⟨fun hrole => ?_, fun hrole henabled => ?_, fun hrole henabled => ⟨fun ticket hlaw hmem => ?_, ?_⟩⟩
  · exact exec_decoded h rfl (hdirect.trans (admitDirect_unused hrole))
  · exact exec_decoded h rfl (hdirect.trans (admitDirect_disabled hrole henabled))
  · refine exec_decoded h rfl ?_
    rw [hdirect, admitDirect_merges (s := pointerPast 0x18 s) hrole henabled
      (find_direct (s := pointerPast 0x18 s) hlaw hmem)]
    have hticket : BitVec.ofNat 8 (JobTag.direct ticket).number.toNat = ticket := by
      apply BitVec.eq_of_toNat_eq
      simp [JobTag.number]
      omega
    simp only [hticket]
  · intro hnone hfull
    exact exec_decoded h rfl (hdirect.trans (admitDirect_full (s := pointerPast 0x18 s) hrole henabled
      (find_direct_none (s := pointerPast 0x18 s) hnone) hfull))

/-- Settles O10: past the checks the job joins the tail, and the selection that follows finds the Arbiter not ready, or
the job alone in the queue. -/
theorem measureNowAdmits : Obligations.MeasureNowAdmits := by
  intro ch s h harg hpower hrole henabled hnone hroom
  have heffect : measureNow (pointerPast 0x18 s) =
      (select ((pointerPast 0x18 s).withQueue { s.queue with
          jobs := s.queue.jobs ++ [{ channel := ch, tag := .direct s.queue.nextTicket }],
          nextTicket := ticketAfter s.queue.nextTicket }),
        .done s.queue.nextTicket.toNat) := by
    rw [measureNow_awake (s := pointerPast 0x18 s) harg hpower]
    exact admitDirect_admits (s := pointerPast 0x18 s) hrole henabled
      (find_direct_none (s := pointerPast 0x18 s) hnone) hroom
  refine ⟨_, exec_decoded h rfl heffect, hostView_select _, ?_, congrArg QuietView.nextTicket (quietView_select _),
    fun hbusy => ?_, fun hidle havailable hstalled hjobs hslot => ?_⟩
  · simp [recordOutcome, Reply.done]
  · rw [select_none]
    · exact ⟨rfl, rfl⟩
    · obtain hbusy | hbusy | hbusy := hbusy
      · exact .inl (by simp [arbiterReady, hbusy])
      · exact .inl (by simp [arbiterReady, hbusy])
      · exact .inr hbusy
  · have hclocked : clocked s = true := clocked_awake h.1.1 (by simp [hpower])
    have hready : arbiterReady s = true := by simp [arbiterReady, hidle, havailable, hclocked]
    exact select_alone (s := (pointerPast 0x18 s).withQueue _)
      (q := { channel := ch, tag := .direct s.queue.nextTicket }) hready hstalled (by simp [hjobs]) hslot

/-- Settles O12, by what a removal leaves. -/
theorem flushQueueEffect : Obligations.FlushQueueEffect := by
  intro s h
  refine ⟨fun h1 h2 h3 => ?_, ?_⟩
  · refine exec_decoded h rfl ?_
    have hnone : classMask (pointerPast 0x18 s).cmd.arg0 = none :=
      (if_neg h1).trans ((if_neg h2).trans (if_neg h3))
    rw [flushQueue, hnone]
    rfl
  · intro hmask named
    have heffect : flushQueue (pointerPast 0x18 s) =
        ((removeJobs named (pointerPast 0x18 s)).1, .done (removeJobs named (pointerPast 0x18 s)).2) := by
      have hnamed : classMask (pointerPast 0x18 s).cmd.arg0 = some named := classMask_named hmask
      rw [flushQueue, hnamed]
    refine ⟨_, exec_decoded h rfl heffect, hostView_removeJobs _ _, ?_, removeJobs_spec named (pointerPast 0x18 s), ?_⟩
    · simp only [recordOutcome, State.withCmd_cmd, Reply.done, removeJobs_count]
      rfl
    · simp

/-- Settles O15. -/
theorem swapBanksEffect : Obligations.SwapBanksEffect := by
  intro s h
  refine ⟨fun hpending => ?_, fun hpending hstate => ?_, fun hpending hstate => ?_⟩
  · exact exec_decoded h rfl (if_pos hpending)
  · refine exec_decoded h rfl ((if_neg (by simp [hpending])).trans ?_)
    obtain hstate | hstate := hstate <;> simp only [pointerPast_keeps, hstate]
  · refine exec_decoded h rfl ((if_neg (by simp [hpending])).trans ?_)
    simp only [pointerPast_keeps, hstate]

/-- Settles O16. -/
theorem commitRefusedOrDeferred : Obligations.CommitRefusedOrDeferred := by
  intro s h
  refine ⟨fun harg => exec_decoded h rfl ?_, fun ch harg => ⟨fun hengaged => ?_, fun reason result hfree hcheck => ?_⟩⟩
  · exact commitChannel_badArg harg
  · exact exec_decoded h rfl (commitChannel_engaged (s := pointerPast 0x18 s) harg hengaged)
  · have hsame : validate ch (Image.ofStaging s.staging) (pointerPast 0x18 s) = some (reason, result) :=
      (validate_congr (fun _ => rfl) (fun _ => ⟨rfl, rfl⟩) ch _).trans hcheck
    exact exec_decoded h rfl ((commitChannel_free (s := pointerPast 0x18 s) harg hfree).trans
      (decideCommit_refused hsame))

/-- Settles O21: every slot, no slot, or the one slot that the channel owns. -/
theorem invalidateReferenceEffect : Obligations.InvalidateReferenceEffect := by
  intro s h cleared
  refine ⟨fun harg => ?_, fun harg hall => ?_, fun ch harg => ⟨fun hnone => ?_, fun i hi honly => ?_⟩⟩
  · refine ⟨_, exec_decoded h rfl (if_pos harg), rfl, fun i => ?_⟩
    simp [invalidateAll, RefSlot.invalidate, cleared]
  · exact exec_decoded h rfl (invalidateReference_badArg harg hall)
  · exact exec_decoded h rfl (invalidateReference_unowned (s := pointerPast 0x18 s) harg
      (slotOf_none (s := pointerPast 0x18 s) hnone))
  · refine ⟨_, exec_decoded h rfl (invalidateReference_owned (s := pointerPast 0x18 s) harg
      (slotOf_owned (s := pointerPast 0x18 s) hi honly)), rfl, ?_, fun k hk => ?_⟩
    · exact (onSlot_get ch _ i).trans (if_pos hi)
    · exact (onSlot_get ch _ k).trans (if_neg fun hown => hk (honly k hown))

/-- Settles O22: the two commands by their equations, the list by its law, and a zone change by its two cases. -/
theorem clearZoneAndClearAlerts : Obligations.ClearZoneAndClearAlerts := by
  refine ⟨fun s h => ⟨fun harg => ?_, fun harg hall => ?_, fun ch harg => ?_⟩, fun s h => ⟨fun hdecoded => ?_,
    fun hworking => ?_, fun hlaw => entriesLaw_length hlaw⟩, fun ch old new stamp others hothers =>
      ⟨alertEntries_new hothers, fun before after a hsplit ha => ?_⟩⟩
  · refine ⟨_, exec_decoded h rfl (if_pos harg), rfl, fun ch => ?_⟩
    simp
  · exact exec_decoded h rfl (clearZone_badArg harg hall)
  · refine ⟨_, exec_decoded h rfl (clearZone_channel (s := pointerPast 0x18 s) harg), rfl, ?_, fun c hc => ?_⟩
    · exact (onChannel_channel ch ch (fun c => { c with zone := .unknown }) (pointerPast 0x18 s)).trans (if_pos rfl)
    · exact (onChannel_channel ch c (fun c => { c with zone := .unknown }) (pointerPast 0x18 s)).trans
        (if_neg (Ne.symm hc))
  · exact exec_decoded ⟨h, hdecoded⟩ rfl rfl
  · rw [exec_command h (rfl : Instr.clearAlerts.busWrite = _),
      issueCode_working (s := pointerPast 0x18 s) hworking (by decide) (by decide)]
  · subst hsplit
    exact alertEntries_update (fun b hb => hothers b (List.mem_append_left _ hb))
      (fun b hb => hothers b (List.mem_append_right _ hb)) ha

/-- Settles O23: the emptied FIFO has room for the retry of a stalled Arbiter. -/
theorem clearResultsEffect : Obligations.ClearResultsEffect := by
  intro s h
  refine ⟨fun hstalled => ?_, fun hstalled hready hjobs hreserved => ?_⟩
  · refine exec_decoded h rfl ?_
    rw [clearResults, retry_none]
    · rfl
    · exact .inr hstalled
  · obtain ⟨hfifo, hclear, hstate⟩ := retry_granted
      (s := (pointerPast 0x18 s).withFifo { s.fifo with records := [] }) hready hstalled hjobs (by simp [hreserved])
    exact ⟨_, exec_decoded h rfl rfl, hfifo, hclear, hstate, rfl⟩

/-- Settles O24: the checks in order, each where it is the first to fail. -/
theorem setTimebaseSleepWake : Obligations.SetTimebaseSleepWake := by
  refine ⟨fun s h => ?_, fun s h => ?_⟩
  · intro refused
    refine ⟨fun harg => ?_, fun p harg => ⟨fun hpower => ?_, fun hpower hseq => ?_, fun hpower hseq hscan => ?_,
      fun hpower hseq hscan => ?_⟩⟩
    · exact exec_decoded h rfl (if_pos harg)
    all_goals have hp : ¬7 < s.cmd.arg0.toNat := by have := p.isLt; omega
    · exact exec_decoded h rfl ((if_neg hp).trans (if_pos hpower))
    all_goals have hawake : ¬s.timebase.power = .asleep := by simp [hpower]
    · exact exec_decoded h rfl ((if_neg hp).trans ((if_neg hawake).trans (if_pos hseq)))
    all_goals have hidle : ¬s.seq.state ≠ .idle := by simp [hseq]
    · exact exec_decoded h rfl ((if_neg hp).trans ((if_neg hawake).trans ((if_neg hidle).trans (if_pos hscan))))
    have hstopped : ¬s.scan.state ≠ .stopped := by simp [hscan]
    refine ⟨_, exec_decoded h rfl ((if_neg hp).trans ((if_neg hawake).trans ((if_neg hidle).trans (if_neg hstopped)))),
      ?_, fun i => ?_⟩
    · have hvalue : Fin.ofNat 8 s.cmd.arg0.toNat = p := by
        ext
        simp [harg, Fin.ofNat, Nat.mod_eq_of_lt p.isLt]
      simp only [pointerPast_keeps, hvalue]
      rfl
    · simp [invalidateAll, RefSlot.invalidate]
  · intro refused
    refine ⟨fun hpower => exec_decoded h rfl (if_pos hpower), fun hpower => ?_,
      fun hpower => exec_decoded h rfl (if_pos hpower), fun hpower => exec_decoded h rfl (if_neg (by simp [hpower]))⟩
    have hawake : ¬s.timebase.power = .asleep := by simp [hpower]
    refine ⟨fun hseq => ?_, fun hseq hscan => ?_, fun hseq hscan hjobs => ?_, fun hseq hscan hjobs => ?_⟩
    · exact exec_decoded h rfl ((if_neg hawake).trans (if_pos hseq))
    all_goals have hidle : ¬s.seq.state ≠ .idle := by simp [hseq]
    · exact exec_decoded h rfl ((if_neg hawake).trans ((if_neg hidle).trans (if_pos hscan)))
    all_goals have hstopped : ¬s.scan.state ≠ .stopped := by simp [hscan]
    · exact exec_decoded h rfl ((if_neg hawake).trans ((if_neg hidle).trans ((if_neg hstopped).trans (if_pos hjobs))))
    · refine ⟨_, exec_decoded h rfl
        ((if_neg hawake).trans ((if_neg hidle).trans ((if_neg hstopped).trans (if_neg (by simp [hjobs]))))),
        rfl, fun i => ?_⟩
      simp [invalidateAll, RefSlot.invalidate]

end Sys2Proof.Machine
end

section
/-! The register window byte by byte, and the fetch of a descriptor and its commit back. -/

namespace Sys2Proof.Machine

section Numbers

/-! ### Numbers and their bytes -/

theorem toNat_byteOfNat (x n : Nat) : (byteOfNat x n).toNat = x / 256 ^ n % 256 := rfl

theorem toNat_word16 (low high : Byte) : (word16 low high).toNat = low.toNat + 256 * high.toNat := by
  unfold word16
  rw [BitVec.toNat_append, ← Nat.shiftLeft_add_eq_or_of_lt low.isLt, Nat.shiftLeft_eq]
  omega

theorem toNat_word32 (b0 b1 b2 b3 : Byte) :
    (word32 b0 b1 b2 b3).toNat = b0.toNat + 256 * b1.toNat + 65536 * b2.toNat + 16777216 * b3.toNat := by
  unfold word32
  rw [BitVec.toNat_append, ← Nat.shiftLeft_add_eq_or_of_lt b0.isLt, BitVec.toNat_append,
    ← Nat.shiftLeft_add_eq_or_of_lt b1.isLt, BitVec.toNat_append, ← Nat.shiftLeft_add_eq_or_of_lt b2.isLt]
  simp only [Nat.shiftLeft_eq]
  omega

/-- R190: the two bytes of a number, together again. -/
theorem word16_bytes (x : Nat) : word16 (byteOfNat x 0) (byteOfNat x 1) = BitVec.ofNat 16 x := by
  apply BitVec.eq_of_toNat_eq
  rw [toNat_word16, toNat_byteOfNat, toNat_byteOfNat, BitVec.toNat_ofNat]
  omega

/-- R190: the four bytes of a number, together again. -/
theorem word32_bytes (x : Nat) :
    word32 (byteOfNat x 0) (byteOfNat x 1) (byteOfNat x 2) (byteOfNat x 3) = BitVec.ofNat 32 x := by
  apply BitVec.eq_of_toNat_eq
  simp only [toNat_word32, toNat_byteOfNat, BitVec.toNat_ofNat]
  omega

theorem word16_toNat (w : BitVec 16) : word16 (byteOfNat w.toNat 0) (byteOfNat w.toNat 1) = w :=
  (word16_bytes _).trans (by simp)

theorem word32_toNat (w : BitVec 32) : word32 (byteOfNat w.toNat 0) (byteOfNat w.toNat 1) (byteOfNat w.toNat 2)
    (byteOfNat w.toNat 3) = w :=
  (word32_bytes _).trans (by simp)

/-- R190: three bytes hold a number modulo 2^24. -/
theorem three_bytes (x : Nat) : (byteOfNat x 0).toNat + 256 * (byteOfNat x 1).toNat + 65536 * (byteOfNat x 2).toNat =
    x % 16777216 := by
  simp only [toNat_byteOfNat]
  omega

end Numbers

section Codes

/-! ### Codes and what they are read as -/

theorem role_ofCode_code (r : Role) : Role.ofCode r.code = r := by cases r <;> rfl

theorem method_ofCode_code (m : Method) : Method.ofCode m.code = m := by cases m <;> rfl

theorem policy_ofCode_code (p : ReportPolicy) : ReportPolicy.ofCode p.code = p := by cases p <;> rfl

theorem byteBool_boolByte (b : Bool) : byteBool (boolByte b) = b := by cases b <;> rfl

/-- An exponent, pin or channel number, put in a byte and read from it. -/
theorem fin_ofByte {n : Nat} [NeZero n] (h : n ≤ 256) (i : Fin n) :
    Fin.ofNat n (BitVec.ofNat 8 i.val).toNat = i := by
  have hi := i.isLt
  apply Fin.ext
  rw [Fin.val_ofNat, BitVec.toNat_ofNat, Nat.mod_eq_of_lt (by omega : i.val < 2 ^ 8), Nat.mod_eq_of_lt hi]

/-- R29, Table 2-4, check 1: an image whose fields are all in range. -/
theorem Image.badField_none {im : Image} (hrole : im.role.toNat ≤ 3) (hpin : im.pin.toNat ≤ 7)
    (hmethod : im.method.toNat ≤ 1) (hg : im.g.toNat ≤ 7) (hs : im.s.toNat ≤ 4) (he : im.e.toNat ≤ 7)
    (hpolicy : im.policy.toNat ≤ 3) : im.badField = none := by
  rw [Image.badField, if_neg (by omega), if_neg (by omega), if_neg (by omega), if_neg (by omega), if_neg (by omega),
    if_neg (by omega), if_neg (by omega)]

end Codes

section Fetch

theorem fetchChannel_badArg {s : State} (h : 16 ≤ s.cmd.arg0.toNat) : fetchChannel s = refuse .badArg s := by
  simp only [fetchChannel, channelOf_none h]

theorem fetchChannel_channel {s : State} {ch : ChannelId} (h : s.cmd.arg0.toNat = ch.val) : fetchChannel s =
    (s.withStaging (fetchedBytes ch s.channels[ch.val]), .done (if s.channels[ch.val].engaged then 1 else 0)) := by
  simp only [fetchChannel, channelOf_some h]

variable (ch : ChannelId) (c : Channel)

/-! ### The image of a fetched channel -/

/-- R27, Table 11-4: the fields of staging after a fetch. -/
theorem ofStaging_fetchedBytes : Image.ofStaging (fetchedBytes ch c) =
    { role := c.desc.role.code, enabled := boolByte c.desc.enabled, pin := BitVec.ofNat 8 c.desc.pin.val,
      method := c.desc.method.code, g := BitVec.ofNat 8 c.desc.g.val, s := BitVec.ofNat 8 c.desc.s.val,
      e := BitVec.ofNat 8 c.desc.e.val, settle := c.desc.settle, autoRange := boolByte c.desc.autoRange,
      refChannel := BitVec.ofNat 8 c.desc.refChannel.val, maxAge := c.desc.maxAge,
      zoneMonitor := boolByte c.desc.zoneMonitor, lowT := c.desc.lowT, highT := c.desc.highT, hyst := c.desc.hyst,
      policy := c.desc.policy.code, alert := boolByte c.desc.alert } := by
  rw [Image.mk.injEq]
  exact ⟨rfl, rfl, rfl, rfl, rfl, rfl, rfl, rfl, rfl, rfl, word16_toNat _, rfl, word32_toNat _, word32_toNat _,
    word32_toNat _, rfl, rfl⟩

theorem descriptor_fetchedBytes (h : c.desc.role ≠ .ratio → c.desc.refChannel = 0 ∧ c.desc.maxAge = 0) :
    (Image.ofStaging (fetchedBytes ch c)).descriptor = c.desc := by
  obtain ⟨⟨role, enabled, pin, method, g, s, e, settle, autoRange, refChannel, maxAge, zoneMonitor, lowT, highT, hyst,
    policy, alert⟩, zone, rangeStep, lastStatus, engaged⟩ := c
  rw [ofStaging_fetchedBytes]
  simp only [Image.descriptor, role_ofCode_code, method_ofCode_code, policy_ofCode_code, byteBool_boolByte, fin_ofByte,
    Nat.reduceLeDiff, Descriptor.mk.injEq, true_and, and_true]
  by_cases hratio : role = .ratio
  · simp [hratio]
  · obtain ⟨href, hage⟩ := h hratio
    exact ⟨(if_neg hratio).trans href.symm, (if_neg hratio).trans hage.symm⟩

theorem badField_fetchedBytes : (Image.ofStaging (fetchedBytes ch c)).badField = none := by
  have hrole : c.desc.role.code.toNat ≤ 3 := by cases c.desc.role <;> decide
  have hmethod : c.desc.method.code.toNat ≤ 1 := by cases c.desc.method <;> decide
  have hpolicy : c.desc.policy.code.toNat ≤ 3 := by cases c.desc.policy <;> decide
  have hbyte : ∀ {n : Nat} (i : Fin n), n ≤ 256 → (BitVec.ofNat 8 i.val).toNat < n := fun i hn => by
    rw [BitVec.toNat_ofNat]
    have hi := i.isLt
    omega
  have hpin := hbyte c.desc.pin (by decide)
  have hg := hbyte c.desc.g (by decide)
  have hs := hbyte c.desc.s (by decide)
  have he := hbyte c.desc.e (by decide)
  rw [ofStaging_fetchedBytes]
  exact Image.badField_none hrole (Nat.le_of_lt_succ hpin) hmethod (Nat.le_of_lt_succ hg) (Nat.le_of_lt_succ hs)
    (Nat.le_of_lt_succ he) hpolicy

end Fetch

section Packed

/-! ### Packed fields -/

/-- R190: a field put above the bits of another in one byte. -/
theorem toNat_packed {x y : Byte} {k : Nat} (hx : x.toNat < 2 ^ k) (hy : y.toNat * 2 ^ k < 256) :
    (x ||| (y <<< k)).toNat = x.toNat + 2 ^ k * y.toNat := by
  rw [BitVec.toNat_or, BitVec.toNat_shiftLeft, Nat.shiftLeft_eq, Nat.mod_eq_of_lt hy, Nat.or_comm, Nat.mul_comm,
    ← Nat.two_pow_add_eq_or_of_lt hx, Nat.add_comm]

theorem toNat_boolByte (b : Bool) : (boolByte b).toNat = b.toNat := by cases b <;> rfl

theorem seqState_code_lt (x : ScanState) : x.code.toNat < 4 := by cases x <;> decide

theorem scanMode_code_lt (x : ScanMode) : x.code.toNat < 4 := by cases x <;> decide

theorem bank_code_lt (x : Bank) : x.code.toNat < 2 := by cases x <;> decide

theorem power_code_lt (x : Power) : x.code.toNat < 2 := by cases x <;> decide

theorem jobStatus_code_lt (x : JobStatus) : x.code.toNat < 8 := by cases x <;> decide

theorem zone_code_lt (x : Zone) : x.code.toNat < 16 := by cases x <;> decide

theorem faultReason_code_lt (x : FaultReason) : x.code.toNat < 8 := by cases x <;> decide

theorem outcomeState_code_lt (x : OutcomeState) : x.code.toNat < 8 := by cases x <;> decide

theorem reasonCode_lt (x : Option Reason) : (reasonCode x).toNat < 16 := by
  cases x with
  | none => decide
  | some r => cases r <;> decide

theorem toNat_originCode (t : JobTag) : t.originCode.toNat = t.isScan.toNat := by cases t <;> rfl

theorem toNat_small {n : Nat} (h : n < 256) : (BitVec.ofNat 8 n).toNat = n := by
  rw [BitVec.toNat_ofNat]
  omega

/-- Table 11-2, 03h. -/
theorem toNat_snapshot_scan (n : Snapshot) :
    (n.byte 0x03).toNat = n.scanState.code.toNat + 16 * n.scanMode.code.toNat := by
  have hstate := seqState_code_lt n.scanState
  have hmode := scanMode_code_lt n.scanMode
  exact toNat_packed (k := 4) (by omega) (by omega)

/-- Table 11-2, 04h. -/
theorem toNat_snapshot_marks (n : Snapshot) : (n.byte 0x04).toNat = n.active.code.toNat + 2 * n.swapPending.toNat +
    4 * n.power.code.toNat + 8 * n.filtered.toNat := by
  have hactive := bank_code_lt n.active
  have hpower := power_code_lt n.power
  have hswap := toNat_boolByte n.swapPending
  have hfiltered := toNat_boolByte n.filtered
  have hswap' := n.swapPending.toNat_le
  have hfiltered' := n.filtered.toNat_le
  have h1 := toNat_packed (x := n.active.code) (y := boolByte n.swapPending) (k := 1) (by omega) (by omega)
  have h2 := toNat_packed (x := n.active.code ||| (boolByte n.swapPending <<< 1)) (y := n.power.code) (k := 2)
    (by omega) (by omega)
  refine (toNat_packed (k := 3) (by omega) (by omega)).trans ?_
  omega

/-- Table 11-6, byte 3. -/
theorem toNat_record_status (r : ResultRecord) :
    (r.byte 0x03).toNat = r.status.code.toNat + 8 * r.tag.isScan.toNat + 16 * r.zone.code.toNat := by
  have hstatus := jobStatus_code_lt r.status
  have hzone := zone_code_lt r.zone
  have horigin := toNat_originCode r.tag
  have horigin' := r.tag.isScan.toNat_le
  have h1 := toNat_packed (x := r.status.code) (y := r.tag.originCode) (k := 3) (by omega) (by omega)
  refine (toNat_packed (k := 4) (by omega) (by omega)).trans ?_
  omega

/-- Table 11-6, byte 6. -/
theorem toNat_record_steps (r : ResultRecord) : (r.byte 0x06).toNat = r.samplesExp.val + 8 * (r.step % 4) +
    32 * ((r.refPart.getD { cRef := 0, step := 0, age := 0 }).step % 4) := by
  have hexp := r.samplesExp.isLt
  have hexp' := toNat_small (show r.samplesExp.val < 256 by omega)
  have hstep := toNat_small (show r.step % 4 < 256 by omega)
  have hpart := toNat_small (show (r.refPart.getD { cRef := 0, step := 0, age := 0 }).step % 4 < 256 by omega)
  have h1 := toNat_packed (x := BitVec.ofNat 8 r.samplesExp.val) (y := BitVec.ofNat 8 (r.step % 4)) (k := 3)
    (by omega) (by omega)
  refine (toNat_packed (k := 5) (by omega) (by omega)).trans ?_
  omega

theorem toNat_sevenBits : ∀ b₀ b₁ b₂ b₃ b₄ b₅ b₆ : Bool, (boolByte b₀ ||| (boolByte b₁ <<< 1) |||
    (boolByte b₂ <<< 2) ||| (boolByte b₃ <<< 3) ||| (boolByte b₄ <<< 4) ||| (boolByte b₅ <<< 5) |||
    (boolByte b₆ <<< 6)).toNat = b₀.toNat + 2 * b₁.toNat + 4 * b₂.toNat + 8 * b₃.toNat + 16 * b₄.toNat +
    32 * b₅.toNat + 64 * b₆.toNat := by decide

/-- Table 11-6, byte 7. -/
theorem toNat_record_flags (r : ResultRecord) : (r.byte 0x07).toNat = r.value.isSome.toNat +
    2 * r.refPart.isSome.toNat + 4 * r.saturated.toNat + 8 * r.lowRes.toNat + 16 * r.refreshed.toNat +
    32 * r.rangeChanged.toNat + 64 * r.gap.toNat := by
  exact toNat_sevenBits _ _ _ _ _ _ _

/-- R156: the value bytes of a record with no value. -/
theorem record_value_absent {r : ResultRecord} (h : r.value = none) : ∀ i : Fin 4, r.byte (0x0B + i.val) = 0 := by
  simp [Fin.forall_fin_succ, ResultRecord.byte, h, byteOfNat]

/-- R156: the reference bytes of a record with no reference part. -/
theorem record_refPart_absent {r : ResultRecord} (h : r.refPart = none) :
    ∀ i : Fin 5, r.byte (0x0F + i.val) = 0 := by
  simp [Fin.forall_fin_succ, ResultRecord.byte, h, byteOfNat]

/-- Table 11-8, 1Eh. -/
theorem toNat_outcome_state (o : OutcomeRecord) :
    (o.byte 1).toNat = o.state.code.toNat + 8 * o.collision.toNat + 16 * (reasonCode o.reason).toNat := by
  have hstate := outcomeState_code_lt o.state
  have hreason := reasonCode_lt o.reason
  have hcollision := toNat_boolByte o.collision
  have hcollision' := o.collision.toNat_le
  have h1 := toNat_packed (x := o.state.code) (y := boolByte o.collision) (k := 3) (by omega) (by omega)
  refine (toNat_packed (k := 4) (by omega) (by omega)).trans ?_
  omega

/-- Table 11-9, byte 1. -/
theorem toNat_slot_state (sl : RefSlot) :
    (sl.byte 1).toNat = sl.users % 16 + 16 * sl.valid.toNat + 32 * sl.fault.code.toNat := by
  have hfault := faultReason_code_lt sl.fault
  have husers := toNat_small (show sl.users % 16 < 256 by omega)
  have hvalid := toNat_boolByte sl.valid
  have hvalid' := sl.valid.toNat_le
  have h1 := toNat_packed (x := BitVec.ofNat 8 (sl.users % 16)) (y := boolByte sl.valid) (k := 4) (by omega) (by omega)
  refine (toNat_packed (k := 5) (by omega) (by omega)).trans ?_
  omega

end Packed

section WindowReads

variable {s : State}

/-! ### Where a read of the window goes -/

/-- R168: a read above the configuration bytes. -/
theorem readByte_above {a : Nat} (hlow : 0x28 ≤ a) (hhigh : a < 256) : readByte s (BitVec.ofNat 8 a) =
    if 0x40 ≤ a ∧ a ≤ 0x5F then stagedByte s.staging (a - 0x40)
    else if 0x60 ≤ a ∧ a ≤ 0x77 then resultLatchByte s.fifo.latch (a - 0x60)
    else if 0x80 ≤ a ∧ a ≤ 0x87 then alertLatchByte s.alerts.latch (a - 0x80)
    else if 0x90 ≤ a ∧ a ≤ 0xBF then bankByte .a s.scan (a - 0x90)
    else if 0xC0 ≤ a ∧ a ≤ 0xEF then bankByte .b s.scan (a - 0xC0)
    else if 0xF0 ≤ a then ((s.refs[(a - 0xF0) / 4]?).getD .free).byte ((a - 0xF0) % 4)
    else 0 := by
  simp only [readByte, toNat_small hhigh]
  rw [if_neg (by omega), if_neg (by omega), if_neg (by omega), if_neg (by omega), if_neg (by omega), if_neg (by omega),
    if_neg (by omega), if_neg (by omega), if_neg (by omega), if_neg (by omega), if_neg (by omega)]

theorem readByte_staging (i : Fin 32) : readByte s (BitVec.ofNat 8 (0x40 + i.val)) = s.staging[i.val] := by
  have hi := i.isLt
  rw [readByte_above (by omega) (by omega), if_pos (by omega), Nat.add_sub_cancel_left]
  simp [stagedByte]

theorem readByte_resultLatch {n a : Nat} (hn : n < 24) (ha : a = 0x60 + n) :
    readByte s (BitVec.ofNat 8 a) = resultLatchByte s.fifo.latch n := by
  subst ha
  rw [readByte_above (by omega) (by omega), if_neg (by omega), if_pos (by omega), Nat.add_sub_cancel_left]

theorem readByte_alertLatch {n a : Nat} (hn : n < 8) (ha : a = 0x80 + n) :
    readByte s (BitVec.ofNat 8 a) = alertLatchByte s.alerts.latch n := by
  subst ha
  rw [readByte_above (by omega) (by omega), if_neg (by omega), if_neg (by omega), if_pos (by omega),
    Nat.add_sub_cancel_left]

theorem readByte_bankA (i : Fin 48) : readByte s (BitVec.ofNat 8 (0x90 + i.val)) = s.scan.bankA[i.val] := by
  have hi := i.isLt
  rw [readByte_above (by omega) (by omega), if_neg (by omega), if_neg (by omega), if_neg (by omega), if_pos (by omega),
    Nat.add_sub_cancel_left]
  simp [bankByte]

theorem readByte_bankB (i : Fin 48) : readByte s (BitVec.ofNat 8 (0xC0 + i.val)) = s.scan.bankB[i.val] := by
  have hi := i.isLt
  rw [readByte_above (by omega) (by omega), if_neg (by omega), if_neg (by omega), if_neg (by omega), if_neg (by omega),
    if_pos (by omega), Nat.add_sub_cancel_left]
  simp [bankByte]

theorem readByte_slot (i : Fin 4) {n a : Nat} (hn : n < 4) (ha : a = 0xF0 + 4 * i.val + n) :
    readByte s (BitVec.ofNat 8 a) = (s.refs[i.val]).byte n := by
  have hi := i.isLt
  rw [readByte_above (by omega) (by omega), if_neg (by omega), if_neg (by omega), if_neg (by omega), if_neg (by omega),
    if_neg (by omega), if_pos (by omega), show (a - 0xF0) / 4 = i.val by omega, show (a - 0xF0) % 4 = n by omega]
  simp

/-- R168: the unassigned addresses read 0. -/
theorem readByte_unassigned {a : Nat} (h : (0x12 ≤ a ∧ a ≤ 0x17) ∨ (0x28 ≤ a ∧ a ≤ 0x3F) ∨ (0x78 ≤ a ∧ a ≤ 0x7F) ∨
    (0x88 ≤ a ∧ a ≤ 0x8F)) : readByte s (BitVec.ofNat 8 a) = 0 := by
  obtain hlow | hhigh : (0x12 ≤ a ∧ a ≤ 0x17) ∨ 0x28 ≤ a := by omega
  · simp only [readByte, toNat_small (show a < 256 by omega)]
    rw [if_neg (by omega), if_neg (by omega), if_neg (by omega), if_neg (by omega), if_neg (by omega),
      if_neg (by omega), if_neg (by omega), if_neg (by omega), if_neg (by omega), if_neg (by omega), if_neg (by omega),
      if_neg (by omega), if_neg (by omega), if_neg (by omega), if_neg (by omega), if_neg (by omega), if_neg (by omega)]
  · rw [readByte_above hhigh (by omega), if_neg (by omega), if_neg (by omega), if_neg (by omega), if_neg (by omega),
      if_neg (by omega), if_neg (by omega)]

end WindowReads

/-- Settles O33. -/
theorem windowBytes : Obligations.WindowBytes := by
  intro s n o at' bits three
  have hscan : (at' 0x03).toNat = _ := toNat_snapshot_scan n
  have hmarks : (at' 0x04).toNat = _ := toNat_snapshot_marks n
  have hstate : (at' 0x1E).toNat = _ := toNat_outcome_state o
  have hlatch : ∀ a n, n < 24 → a = 0x60 + n → at' a = resultLatchByte s.fifo.latch n :=
    fun a n => readByte_resultLatch
  have halert : ∀ a n, n < 8 → a = 0x80 + n → at' a = alertLatchByte s.alerts.latch n := fun a n => readByte_alertLatch
  refine ⟨⟨rfl, rfl, rfl, rfl, rfl⟩, ?_, ⟨rfl, rfl, rfl, rfl⟩, ?_, ⟨rfl, rfl, rfl, rfl, rfl, rfl, rfl⟩,
    readByte_staging, fun i => ⟨readByte_bankA i, readByte_bankB i⟩, fun hnone => ?_, fun r hr => ?_, fun hnone => ?_,
    fun a ha => ?_, fun i => ?_, fun a ha => readByte_unassigned ha⟩
  · have h1 := seqState_code_lt n.scanState
    have h2 := scanMode_code_lt n.scanMode
    have h3 := bank_code_lt n.active
    have h4 := power_code_lt n.power
    have h5 := n.swapPending.toNat_le
    have h6 := n.filtered.toNat_le
    simp only [bits, hscan, hmarks]
    refine ⟨rfl, ?_, ?_, ?_, ?_, ?_, ?_, ?_, ?_, ?_, rfl, rfl, rfl, rfl, word16_toNat _, rfl, word32_toNat _⟩ <;> omega
  · have h1 := outcomeState_code_lt o.state
    have h2 := reasonCode_lt o.reason
    have h3 := o.collision.toNat_le
    simp only [bits, hstate]
    refine ⟨rfl, by omega, by omega, fun hnone => ?_, fun r hr => ?_, rfl⟩
    · have h0 : (reasonCode o.reason).toNat = 0 := by rw [hnone]; rfl
      omega
    · have hcode : (reasonCode o.reason).toNat = r.code.toNat := by rw [hr]; rfl
      omega
  · rw [hnone] at hlatch
    refine ⟨hlatch 0x60 0 (by decide) rfl, hlatch 0x61 1 (by decide) rfl, fun i => ?_⟩
    exact (hlatch _ (2 + i.val) (by omega) (by omega)).trans (if_neg (by omega))
  · have hbyte : ∀ a n, n < 24 → a = 0x60 + n → at' a = r.byte n := by
      rw [hr] at hlatch
      exact hlatch
    have h63 : (at' 0x63).toNat = _ :=
      (congrArg BitVec.toNat (hbyte 0x63 3 (by decide) rfl)).trans (toNat_record_status r)
    have h66 : (at' 0x66).toNat = _ :=
      (congrArg BitVec.toNat (hbyte 0x66 6 (by decide) rfl)).trans (toNat_record_steps r)
    have h67 : (at' 0x67).toNat = _ :=
      (congrArg BitVec.toNat (hbyte 0x67 7 (by decide) rfl)).trans (toNat_record_flags r)
    have h1 := jobStatus_code_lt r.status
    have h2 := zone_code_lt r.zone
    have h3 := r.tag.isScan.toNat_le
    have h4 := r.samplesExp.isLt
    have h5 := r.value.isSome.toNat_le
    have h6 := r.refPart.isSome.toNat_le
    have h7 := r.saturated.toNat_le
    have h8 := r.lowRes.toNat_le
    have h9 := r.refreshed.toNat_le
    have h10 := r.rangeChanged.toNat_le
    have h11 := r.gap.toNat_le
    simp only [bits, three, h63, h66, h67]
    refine ⟨?_, hbyte 0x62 2 (by decide) rfl, by omega, by omega, by omega, ?_, by omega, by omega, by omega, by omega,
      by omega, by omega, by omega, by omega, by omega, by omega, by omega, ?_, fun hvalue i => ?_, fun v hvalue => ?_,
      fun hpart => ⟨?_, fun i => ?_⟩, fun p hpart => ⟨?_, ?_, ?_⟩, ?_⟩
    · rw [hbyte 0x60 0 (by decide) rfl, hbyte 0x61 1 (by decide) rfl]
      exact word16_toNat _
    · rw [hbyte 0x64 4 (by decide) rfl, hbyte 0x65 5 (by decide) rfl]
      exact word16_toNat _
    · rw [hbyte _ 8 (by decide) rfl, hbyte _ 9 (by decide) rfl, hbyte _ 10 (by decide) rfl]
      exact three_bytes _
    · exact (hbyte _ (0x0B + i.val) (by omega) (by omega)).trans (record_value_absent hvalue i)
    · rw [hbyte _ 11 (by decide) rfl, hbyte _ 12 (by decide) rfl, hbyte _ 13 (by decide) rfl,
        hbyte _ 14 (by decide) rfl]
      simp only [ResultRecord.byte, hvalue]
      exact word32_bytes v
    · have hstep : (r.refPart.getD { cRef := 0, step := 0, age := 0 }).step = 0 := by rw [hpart]; rfl
      omega
    · exact (hbyte _ (0x0F + i.val) (by omega) (by omega)).trans (record_refPart_absent hpart i)
    · have hstep : (r.refPart.getD { cRef := 0, step := 0, age := 0 }).step = p.step := by rw [hpart]; rfl
      omega
    · rw [hbyte _ 15 (by decide) rfl, hbyte _ 16 (by decide) rfl, hbyte _ 17 (by decide) rfl]
      simp only [ResultRecord.byte, hpart]
      exact three_bytes p.cRef
    · rw [hbyte _ 18 (by decide) rfl, hbyte _ 19 (by decide) rfl]
      simp only [ResultRecord.byte, hpart]
      exact word16_bytes p.age
    · rw [hbyte _ 20 (by decide) rfl, hbyte _ 21 (by decide) rfl, hbyte _ 22 (by decide) rfl,
        hbyte _ 23 (by decide) rfl]
      exact word32_toNat _
  · rw [hnone] at halert
    refine ⟨halert 0x80 0 (by decide) rfl, fun i => ?_⟩
    exact (halert _ (1 + i.val) (by omega) (by omega)).trans (if_neg (by omega))
  · rw [ha] at halert
    refine ⟨halert 0x80 0 (by decide) rfl, halert 0x81 1 (by decide) rfl, halert 0x82 2 (by decide) rfl,
      halert 0x83 3 (by decide) rfl, ?_⟩
    rw [halert 0x84 4 (by decide) rfl, halert 0x85 5 (by decide) rfl, halert 0x86 6 (by decide) rfl,
      halert 0x87 7 (by decide) rfl]
    exact word32_toNat _
  · intro sl
    have hslot : ∀ a n, n < 4 → a = 0xF0 + 4 * i.val + n → at' a = sl.byte n := fun a n => readByte_slot i
    have h1 : (at' (0xF1 + 4 * i.val)).toNat = _ :=
      (congrArg BitVec.toNat (hslot _ 1 (by decide) (by omega))).trans (toNat_slot_state sl)
    have h2 := sl.valid.toNat_le
    have h3 := faultReason_code_lt sl.fault
    simp only [bits, h1]
    refine ⟨fun hnone => ?_, fun ch hch => ?_, by omega, by omega, by omega, ?_⟩
    · exact (hslot _ 0 (by decide) rfl).trans (by simp only [RefSlot.byte, hnone])
    · exact (hslot _ 0 (by decide) rfl).trans (by simp only [RefSlot.byte, hch])
    · rw [hslot _ 2 (by decide) (by omega), hslot _ 3 (by decide) (by omega)]
      exact word16_bytes _

/-- Settles O19: the effect by its argument, and the bytes by their places. -/
theorem fetchChannelEffect : Obligations.FetchChannelEffect := by
  intro s h
  refine ⟨fun hnone => exec_decoded h rfl ?_, fun ch hch => ?_⟩
  · exact fetchChannel_badArg (s := pointerPast 0x18 s) hnone
  intro c d flag written
  refine ⟨exec_decoded h rfl ?_, ?_⟩
  · exact fetchChannel_channel (s := pointerPast 0x18 s) hch
  · rintro v rfl
    refine ⟨rfl, rfl, rfl, rfl, rfl, rfl, rfl, rfl, rfl, rfl, word16_toNat _, rfl, word32_toNat _, word32_toNat _,
      word32_toNat _, rfl, rfl, rfl, rfl, rfl, rfl, ?_⟩
    exact (congrArg (BitVec.ofNat 8) hch.symm).trans (by simp)

/-- Settles O20. -/
theorem fetchedDescriptorCommitsBack : Obligations.FetchedDescriptorCommitsBack := fun ch c h =>
  ⟨descriptor_fetchedBytes ch c h, badField_fetchedBytes ch c⟩

end Sys2Proof.Machine
end

section
/-! The register writes, the bytes of a transaction, and the two pops. -/

namespace Sys2Proof.Machine

section RegisterWrites

variable {s : State} {a v : Byte}

/-! ### A retry that is refused, or that discards -/

/-- R97, R98: over a full FIFO under HOLD a stalled Arbiter's retry changes nothing. -/
theorem retry_refused (hstalled : s.queue.stalled = true) (hfull : 16 ≤ s.fifo.records.length + s.fifo.reserved)
    (hpolicy : s.fifo.policy = .hold) : retry s = s := by
  by_cases hready : arbiterReady s = true
  · rw [retry_made hready hstalled]
    by_cases hjobs : s.queue.jobs = []
    · exact arbitrate_empty hjobs
    · obtain ⟨q, rest, hq⟩ := selectJob_some hjobs
      rw [arbitrate_refused hq hfull hpolicy, if_pos hstalled]
  · exact retry_none (.inl (by simpa using hready))

/-- R98, R149: over a full FIFO under OVERWRITE the retry discards the oldest record and starts a job. -/
theorem retry_discards (hready : arbiterReady s = true) (hstalled : s.queue.stalled = true) (hjobs : s.queue.jobs ≠ [])
    (hfull : 16 ≤ s.fifo.records.length + s.fifo.reserved) (hpolicy : s.fifo.policy = .overwrite) :
    (retry s).queue.stalled = false ∧ (retry s).seq.state = .discharge ∧
      (retry s).fifo = { s.fifo with records := s.fifo.records.drop 1, gapPending := true, reserved := 1 } ∧
      flagSet .drop (retry s) = true := by
  obtain ⟨q, rest, hq⟩ := selectJob_some hjobs
  have hflag : ∀ u : State, u.events = (raise .drop s).events → flagSet .drop u = true := fun u hu => by
    rw [flagSet_of_events hu, flagSet_raise]
    rfl
  rw [retry_made hready hstalled, arbitrate_discards hq hfull hpolicy]
  refine ⟨by simp [jobStart], by simp, by simp [jobStart], hflag _ ?_⟩
  simp [jobStart]
  rfl

/-! ### Bank writes -/

theorem exec_scanBankWrite_taken (h : takesWrite a s) (hbank : scanBankAddress a = true) :
    exec (.scanBankWrite a v) s = .next (writeBank a v (pointerPast a s)) :=
  congrArg Host.Outcome.next ((dataByte_taken h).trans (if_pos hbank))

theorem writeBank_taken (h : bankWritable (bankOf a) s = true) : writeBank a v s = s.withScan (storeBank a v s.scan) :=
  if_pos h

theorem writeBank_ignored (h : bankWritable (bankOf a) s = false) : writeBank a v s = s := if_neg (by simp [h])

/-- R107: bank A takes writes while B is active or the scan is STOPPED, and bank B while A is. -/
theorem bankWritable_iff (bank : Bank) (s : State) :
    bankWritable bank s = true ↔ s.scan.active = bank.other ∨ s.scan.state = .stopped := by
  cases bank <;> cases hactive : s.scan.active <;> simp [bankWritable, hactive, Bank.other]

theorem storedLength_rows (v : Byte) : storedLength v = if v.toNat ≤ 24 then v else 24 := by
  unfold storedLength
  by_cases hv : v.toNat ≤ 24
  · rw [if_neg (not_lt.mpr hv), if_pos hv]
  · rw [if_pos (not_le.mp hv), if_neg hv]

/-- Table 11-5: the addresses of bank A's entries. -/
theorem bankA_address : ∀ i : Fin 48, scanBankAddress (BitVec.ofNat 8 (0x90 + i.val)) = true ∧
    bankOf (BitVec.ofNat 8 (0x90 + i.val)) = .a ∧ BitVec.ofNat 8 (0x90 + i.val) ≠ 0x26#8 ∧
    BitVec.ofNat 8 (0x90 + i.val) ≠ 0x27#8 ∧ (BitVec.ofNat 8 (0x90 + i.val)).toNat = 0x90 + i.val := by decide

/-- Table 11-5: the addresses of bank B's entries. -/
theorem bankB_address : ∀ i : Fin 48, scanBankAddress (BitVec.ofNat 8 (0xC0 + i.val)) = true ∧
    bankOf (BitVec.ofNat 8 (0xC0 + i.val)) = .b ∧ BitVec.ofNat 8 (0xC0 + i.val) ≠ 0x26#8 ∧
    BitVec.ofNat 8 (0xC0 + i.val) ≠ 0x27#8 ∧ (BitVec.ofNat 8 (0xC0 + i.val)).toNat = 0xC0 + i.val := by decide

/-- Table 11-5: every address that belongs to bank A. -/
theorem bankOf_a : ∀ a : Byte, a = 0x26 ∨ (0x90 ≤ a.toNat ∧ a.toNat ≤ 0xBF) →
    scanBankAddress a = true ∧ bankOf a = .a := by decide

/-- Table 11-5: every address that belongs to bank B. -/
theorem bankOf_b : ∀ a : Byte, a = 0x27 ∨ (0xC0 ≤ a.toNat ∧ a.toNat ≤ 0xEF) →
    scanBankAddress a = true ∧ bankOf a = .b := by decide

theorem setIfInBounds_of_lt {n i : Nat} (h : i < n) (bytes : Vector Byte n) (v : Byte) :
    bytes.setIfInBounds i v = bytes.set i v := by
  ext j hj
  simp [Vector.getElem_set, Vector.getElem_setIfInBounds]

theorem storeBank_entryA (i : Fin 48) (v : Byte) (sc : ScanController) :
    storeBank (BitVec.ofNat 8 (0x90 + i.val)) v sc = { sc with bankA := sc.bankA.set i.val v } := by
  obtain ⟨-, -, h26, h27, hvalue⟩ := bankA_address i
  rw [storeBank, if_neg h26, if_neg h27, hvalue, if_pos (by omega), Nat.add_sub_cancel_left,
    setIfInBounds_of_lt i.isLt]

theorem storeBank_entryB (i : Fin 48) (v : Byte) (sc : ScanController) :
    storeBank (BitVec.ofNat 8 (0xC0 + i.val)) v sc = { sc with bankB := sc.bankB.set i.val v } := by
  obtain ⟨-, -, h26, h27, hvalue⟩ := bankB_address i
  rw [storeBank, if_neg h26, if_neg h27, hvalue, if_neg (by omega), Nat.add_sub_cancel_left,
    setIfInBounds_of_lt i.isLt]

/-! ### Writes with no row of their own -/

theorem registerWrite_plain (hbank : scanBankAddress a = false) (hsingle : singleRowAddress a = false) :
    registerWrite a v s = writePlain a v s := by
  simp only [singleRowAddress, List.contains_cons, List.contains_nil, Bool.or_false, Bool.or_eq_false_iff,
    beq_eq_false_iff_ne] at hsingle
  obtain ⟨h0B, h10, h11, h18, h24⟩ := hsingle
  rw [registerWrite, if_neg h18, if_neg h0B, if_neg h10, if_neg h11, if_neg h24, if_neg (by simp [hbank])]

/-- R168: the addresses that ignore writes belong to no row and hold no byte of the host's. -/
theorem ignored_address : ∀ a : Byte, (a.toNat ≤ 0x0A ∨ (0x0C ≤ a.toNat ∧ a.toNat ≤ 0x0F) ∨
    (0x12 ≤ a.toNat ∧ a.toNat ≤ 0x17) ∨ (0x1D ≤ a.toNat ∧ a.toNat ≤ 0x1F) ∨ (0x28 ≤ a.toNat ∧ a.toNat ≤ 0x3F) ∨
    (0x60 ≤ a.toNat ∧ a.toNat ≤ 0x8F) ∨ 0xF0 ≤ a.toNat) →
    scanBankAddress a = false ∧ singleRowAddress a = false := by decide

theorem registerWrite_ignored (h : a.toNat ≤ 0x0A ∨ (0x0C ≤ a.toNat ∧ a.toNat ≤ 0x0F) ∨
    (0x12 ≤ a.toNat ∧ a.toNat ≤ 0x17) ∨ (0x1D ≤ a.toNat ∧ a.toNat ≤ 0x1F) ∨ (0x28 ≤ a.toNat ∧ a.toNat ≤ 0x3F) ∨
    (0x60 ≤ a.toNat ∧ a.toNat ≤ 0x8F) ∨ 0xF0 ≤ a.toNat) : registerWrite a v s = s := by
  obtain ⟨hbank, hsingle⟩ := ignored_address a h
  rw [registerWrite_plain hbank hsingle, writePlain]
  rw [if_neg (by omega), if_neg (by omega), if_neg (by omega), if_neg (by omega), if_neg (by omega), if_neg (by omega),
    if_neg (by omega), if_neg (by omega), if_neg (by omega), if_neg (by omega)]

theorem staging_address : ∀ i : Fin 32, scanBankAddress (BitVec.ofNat 8 (0x40 + i.val)) = false ∧
    singleRowAddress (BitVec.ofNat 8 (0x40 + i.val)) = false ∧
    (BitVec.ofNat 8 (0x40 + i.val)).toNat = 0x40 + i.val := by
  decide

theorem registerWrite_staging (i : Fin 32) (v : Byte) (s : State) :
    registerWrite (BitVec.ofNat 8 (0x40 + i.val)) v s = s.withStaging (s.staging.set i.val v) := by
  obtain ⟨hbank, hsingle, hvalue⟩ := staging_address i
  rw [registerWrite_plain hbank hsingle, writePlain, hvalue]
  rw [if_neg (by omega), if_neg (by omega), if_neg (by omega), if_neg (by omega), if_neg (by omega), if_neg (by omega),
    if_neg (by omega), if_neg (by omega), if_neg (by omega), if_pos (by omega), Nat.add_sub_cancel_left,
    setIfInBounds_of_lt i.isLt]

/-! ### Bytes sent -/

/-- R165: a byte sent from the pointer, after an action that leaves the port. -/
theorem sendByte_eq {action : State → State} (hptr : s.port.pointer = a) (hport : (action s).port = s.port) :
    sendByte action s =
      (action s).withPort { s.port with pointer := a + 1, sent := readByte (action s) a } := by
  unfold sendByte advancePointer
  simp only [State.withPort_port, hport, hptr]
  rfl

theorem byteOfNat_zero (n : Nat) : byteOfNat n 0 = BitVec.ofNat 8 n := by simp [byteOfNat]

/-- R165: outside a read transaction no byte is sent. -/
theorem windowRead_none {pop : State → State} (h : s.port.bus ≠ .reading) : windowRead a pop s = s := by
  unfold windowRead
  cases hbus : s.port.bus <;> simp_all

theorem busStart_other (hreset : s.inReset = false) (h : acknowledges a s = false) :
    busStart a s = s.withPort { s.port with bus := .idle } := by
  rw [busStart, if_neg (by simp [h]), if_neg (by simp [hreset])]

theorem popResult_port (s : State) : (popResult s).port = s.port := by
  have htaken : (takeResult s).port = s.port := by
    unfold takeResult
    split <;> rfl
  simp [popResult, htaken]

theorem popAlert_port (s : State) : (popAlert s).port = s.port := by
  unfold popAlert
  split <;> rfl

/-- R157: the pop of an Arbiter that is not stalled, or of a Sequencer at work, is the pop alone. -/
theorem popResult_plain (h : s.queue.stalled = false ∨ s.seq.state ≠ .idle) : popResult s = takeResult s := by
  refine retry_none ?_
  rw [takeResult_ready]
  obtain h | h := h
  · refine .inr ?_
    unfold takeResult
    split <;> exact h
  · exact .inl (by simp [arbiterReady, h])

theorem takeResult_empty (h : s.fifo.records = []) : takeResult s = s.withFifo { s.fifo with latch := none } := by
  simp only [takeResult, h]

theorem takeResult_oldest {r : ResultRecord} {rest : List ResultRecord} (h : s.fifo.records = r :: rest) :
    takeResult s = s.withFifo { s.fifo with records := rest, latch := some r } := by
  simp only [takeResult, h]

theorem popAlert_empty (h : s.alerts.entries = []) : popAlert s = s.withAlerts { s.alerts with latch := none } := by
  simp only [popAlert, h]

theorem popAlert_oldest {e : AlertEntry} {rest : List AlertEntry} (h : s.alerts.entries = e :: rest) :
    popAlert s = s.withAlerts { entries := rest, latch := some e } := by
  simp only [popAlert, h]

end RegisterWrites

/-- Settles O26. -/
theorem eventEnablesWriteStores : Obligations.EventEnablesWriteStores := by
  intro value s h
  exact ⟨_, congrArg Host.Outcome.next (dataByte_taken h), rfl, rfl, rfl, irqLow_running h.1⟩

/-- Settles O27: a retry not made, refused, or made with a discard. -/
theorem fullPolicyWriteStores : Obligations.FullPolicyWriteStores := by
  intro value s h stored
  have hwrite : exec (.fullPolicyWrite value) s = .next (retry stored) := congrArg Host.Outcome.next (dataByte_taken h)
  rw [hwrite]
  refine ⟨fun hstalled => ?_, fun hstalled hfull hvalue => ?_, fun hstalled hready hjobs hfull hvalue => ?_⟩
  · exact congrArg Host.Outcome.next (retry_none (s := stored) (.inr hstalled))
  · have hpolicy : stored.fifo.policy = .hold := if_pos hvalue
    exact congrArg Host.Outcome.next
      (retry_refused (s := stored) hstalled (Nat.le_add_right_of_le hfull.ge) hpolicy)
  · have hpolicy : stored.fifo.policy = .overwrite := if_neg hvalue
    obtain ⟨hclear, hstate, hfifo, hdrop⟩ :=
      retry_discards (s := stored) hready hstalled hjobs (Nat.le_add_right_of_le hfull.ge) hpolicy
    exact ⟨_, rfl, hclear, hstate, hfifo.trans (congrArg (fun policy => { s.fifo with
      policy := policy, records := s.fifo.records.drop 1, gapPending := true, reserved := 1 }) hpolicy), hdrop⟩

/-- Settles O28, by the bank that an address belongs to. -/
theorem scanBankWriteStores : Obligations.ScanBankWriteStores := by
  intro value s takenA takenB length wrote
  have hlength : storedLength value = length := storedLength_rows value
  have hwritten : ∀ a, scanBankAddress a = true → bankWritable (bankOf a) s = true →
      wrote a ((pointerPast a s).withScan (storeBank a value s.scan)) := fun a ha hbank h =>
    (exec_scanBankWrite_taken h ha).trans (congrArg Host.Outcome.next (writeBank_taken (s := pointerPast a s) hbank))
  have hignored : ∀ a, scanBankAddress a = true → ¬bankWritable (bankOf a) s = true → wrote a (pointerPast a s) :=
    fun a ha hbank h => (exec_scanBankWrite_taken h ha).trans
      (congrArg Host.Outcome.next (writeBank_ignored (s := pointerPast a s) (Bool.eq_false_iff.mpr hbank)))
  have hA : bankWritable .a s = true ↔ takenA := bankWritable_iff .a s
  have hB : bankWritable .b s = true ↔ takenB := bankWritable_iff .b s
  refine ⟨fun htaken => ?_, fun htaken => ?_, fun i htaken => ?_, fun i htaken => ?_, fun htaken a ha => ?_,
    fun htaken a ha => ?_⟩
  · rw [← hlength]
    exact hwritten 0x26 rfl (hA.mpr htaken)
  · rw [← hlength]
    exact hwritten 0x27 rfl (hB.mpr htaken)
  · obtain ⟨ha, hbank, -⟩ := bankA_address i
    rw [← storeBank_entryA]
    exact hwritten _ ha (by rw [hbank]; exact hA.mpr htaken)
  · obtain ⟨ha, hbank, -⟩ := bankB_address i
    rw [← storeBank_entryB]
    exact hwritten _ ha (by rw [hbank]; exact hB.mpr htaken)
  · obtain ⟨hbank, hof⟩ := bankOf_a a ha
    exact hignored a hbank (by rw [hof]; exact fun h => htaken (hA.mp h))
  · obtain ⟨hbank, hof⟩ := bankOf_b a ha
    exact hignored a hbank (by rw [hof]; exact fun h => htaken (hB.mp h))

/-- Settles O29, address by address. -/
theorem plainRegisterWrites : Obligations.PlainRegisterWrites := by
  refine ⟨fun value s => ?_, fun value s h => ⟨fun hvalue => ?_, fun hvalue => ?_⟩⟩
  · intro wrote
    have hwritten : ∀ (a : Byte) (t : State), registerWrite a value (pointerPast a s) = t → wrote a t :=
      fun a t ht h => (exec_registerWrite_taken h).trans (congrArg Host.Outcome.next ht)
    refine ⟨hwritten _ _ rfl, hwritten _ _ rfl, hwritten _ _ rfl, hwritten _ _ rfl, fun hnot => hwritten _ _ ?_,
      fun hvalue hother => hwritten _ _ ?_, fun hnot => hwritten _ _ ?_, fun hvalue hother => hwritten _ _ ?_,
      hwritten _ _ rfl, hwritten _ _ rfl, fun i => hwritten _ _ (registerWrite_staging i value _),
      fun a ha => hwritten _ _ (registerWrite_ignored ha)⟩
    · exact congrArg (fun low => (pointerPast 0x20 s).withScan { s.scan with periodLow := low }) (if_neg hnot)
    · exact congrArg (fun low => (pointerPast 0x20 s).withScan { s.scan with periodLow := low })
        (if_pos ⟨hvalue, hother⟩)
    · exact congrArg (fun low => (pointerPast 0x21 s).withScan { s.scan with periodHigh := value, periodLow := low })
        (if_neg hnot)
    · subst hvalue
      exact congrArg (fun low => (pointerPast 0x21 s).withScan { s.scan with periodHigh := 0, periodLow := low })
        (if_pos ⟨rfl, hother⟩)
  · exact congrArg Host.Outcome.next ((dataByte_taken h).trans (if_pos hvalue))
  · exact congrArg Host.Outcome.next ((dataByte_taken h).trans (if_neg hvalue))

/-- Settles O31: by where the port stands in a transaction. -/
theorem transactionBytes : Obligations.TransactionBytes := by
  intro s h
  have hopens := openWrite_opens h
  have hcopies := copySnapshot_opens h
  refine ⟨congrArg Host.Outcome.next hopens, fun value hbus => congrArg Host.Outcome.next (takeByte_first h hbus),
    fun c address value hbus hrow => ?_, fun c address value hbus hformed hrow => ?_, fun value hbus => ?_,
    fun hbus => ⟨fun c address value hrow => ?_, fun value => congrArg Host.Outcome.next (takeByte_none (.inr hbus))⟩,
    fun hbus => ?_, ?_, congrArg Host.Outcome.next hcopies⟩
  · rw [exec_busWrite hrow]
    exact congrArg Host.Outcome.next (takeByte_first h hbus)
  · rw [exec_busWrite hrow, dataByte_registerWrite, exec_ofRegisterWrite ⟨h, hbus, rfl⟩]
    exact congrArg Host.Outcome.next (takeByte_written ⟨h, hbus, rfl⟩)
  · rw [exec_ofRegisterWrite ⟨h, hbus, rfl⟩]
    exact congrArg Host.Outcome.next (takeByte_written ⟨h, hbus, rfl⟩)
  · rw [exec_busWrite hrow]
    exact congrArg Host.Outcome.next (takeByte_none (.inr hbus))
  · exact ⟨congrArg Host.Outcome.next (windowRead_none hbus), congrArg Host.Outcome.next (windowRead_none hbus)⟩
  · intro target read addressByte
    have hanswer : acknowledges addressByte s = (target == s.port.address) := acknowledges_target h target read
    refine ⟨fun heq => ⟨by simp [hanswer, heq], fun hread => ?_, fun hread => ?_⟩,
      fun hne => ⟨by simp [hanswer, hne], ?_⟩⟩
    · subst heq hread
      rfl
    · subst heq hread
      rfl
    · exact busStart_other h (by simp [hanswer, hne])

/-- Settles O32: the pop by what the pointer names, and by whether a retry follows it. -/
theorem windowPops : Obligations.WindowPops := by
  intro s readAt
  refine ⟨fun h => ?_, fun h => ?_, fun p h h60 h80 => ?_⟩
  · have hresult : windowRead 0x60 popResult s = sendByte popResult s := windowRead_sent h
    have hsent : sendByte popResult s = readAt 0x60 (readByte (popResult s) 0x60) (popResult s) :=
      sendByte_eq h.2.2 (popResult_port s)
    refine ⟨fun hquiet => ⟨fun hempty => ?_, fun r rest hrecords => ?_⟩,
      fun r rest hstalled hready hjobs hrecords hlength hreserved => ?_,
      congrArg Host.Outcome.next ((windowRead_elsewhere h (by decide)).trans hresult.symm)⟩
    · have hpop : popResult s = s.withFifo { s.fifo with latch := none } :=
        (popResult_plain hquiet).trans (takeResult_empty hempty)
      exact congrArg Host.Outcome.next (by rw [hresult, hsent, hpop]; rfl)
    · have hpop : popResult s = s.withFifo { s.fifo with records := rest, latch := some r } :=
        (popResult_plain hquiet).trans (takeResult_oldest hrecords)
      refine congrArg Host.Outcome.next ?_
      rw [hresult, hsent, hpop]
      exact congrArg (fun sent => readAt 0x60 sent _) (byteOfNat_zero _)
    · have htaken := takeResult_oldest hrecords
      obtain ⟨hfifo, hclear, hstate⟩ := retry_granted (s := takeResult s) ((takeResult_ready s).trans hready)
        (by rw [htaken]; exact hstalled) (by rw [htaken]; exact hjobs)
        (by rw [htaken]; change rest.length + s.fifo.reserved < 16; omega)
      refine ⟨_, congrArg Host.Outcome.next (hresult.trans hsent), hfifo.trans ?_, hclear, hstate⟩
      rw [htaken]
      rfl
  · have halert : windowRead 0x80 popAlert s = sendByte popAlert s := windowRead_sent h
    have hsent : sendByte popAlert s = readAt 0x80 (readByte (popAlert s) 0x80) (popAlert s) :=
      sendByte_eq h.2.2 (popAlert_port s)
    refine ⟨fun hempty => congrArg Host.Outcome.next ?_, fun a rest hentries => congrArg Host.Outcome.next ?_,
      congrArg Host.Outcome.next ((windowRead_elsewhere h (by decide)).trans halert.symm)⟩
    · rw [halert, hsent, popAlert_empty hempty]
      exact congrArg (fun sent => readAt 0x80 sent _) (readByte_alertLatch (n := 0) (by decide) rfl)
    · rw [halert, hsent, popAlert_oldest hentries]
      rfl
  · have hsent : sendByte (readAction p) s = readAt p (readByte s p) s := by
      have haction : readAction p s = s := by rw [readAction, if_neg h60, if_neg h80]
      rw [sendByte_eq h.2.2 (by rw [haction]), haction]
    exact ⟨congrArg Host.Outcome.next ((windowRead_elsewhere h h60).trans hsent),
      congrArg Host.Outcome.next ((windowRead_elsewhere h h80).trans hsent)⟩

end Sys2Proof.Machine
end

section
/-! The Sequencer: the ends of its states, the samples, the edges, and the reference of a RATIO job. -/

namespace Sys2Proof.Machine

section Sequencing

variable {s : State}

/-! ### Samples -/

/-- R50: the working copy with the sample of a closed gate added. -/
def Working.sampled (w : Working) : Working :=
  { w with cTotal := w.cTotal + w.count, gTotal := w.gTotal + gateLength w, largest := max w.largest w.count,
           samples := w.samples + 1 }

theorem sampleComplete_empty (h : s.seq.work.count = 0) : sampleComplete s = phaseEnd .under s := if_pos h

theorem sampleComplete_last (hcount : 0 < s.seq.work.count) (h : 2 ^ s.seq.work.s.val ≤ s.seq.work.samples + 1) :
    sampleComplete s = phaseEnd .ok (s.withSeq { s.seq with work := s.seq.work.sampled }) :=
  (if_neg hcount.ne').trans (if_pos h)

theorem sampleComplete_more (hcount : 0 < s.seq.work.count) (h : s.seq.work.samples + 1 < 2 ^ s.seq.work.s.val) :
    sampleComplete s = enterArm (s.withSeq { s.seq with work := s.seq.work.sampled }) :=
  (if_neg hcount.ne').trans (if_neg h.not_ge)

theorem exec_gateClose {c : Instr} (h : (c = .windowGateClose ∧ s.seq.work.method = .window) ∨
    (c = .periodGateClose ∧ s.seq.work.method = .period)) (hs : s.seq.state = .count) :
    exec c s = .next (sampleComplete s) := by
  obtain ⟨rfl, hm⟩ | ⟨rfl, hm⟩ := h
  · exact congrArg Host.Outcome.next (if_pos ⟨hs, hm⟩)
  · exact congrArg Host.Outcome.next (if_pos ⟨hs, hm⟩)

theorem gateLength_window {w : Working} (h : w.method = .window) : gateLength w = 256 * 2 ^ w.g.val / 2 ^ w.k := by
  simp only [gateLength, h, windowGate]

theorem gateLength_period {w : Working} (h : w.method = .period) : gateLength w = 2 ^ (w.g.val - w.k) := by
  simp only [gateLength, h, periodGate]

/-! ### Overflows -/

theorem overflowed_steps {j : InFlight} (hj : s.seq.job = some j) (ha : s.seq.work.autoRange = true)
    (hk : s.seq.work.k < stepLimit s.seq.work) : overflowed s = enterArm (runRequest s.seq.work.pin (s.withSeq
      { s.seq with
        job := some { j with rangeChanged := true },
        work := { s.seq.work with
          k := s.seq.work.k + 1, cTotal := 0, gTotal := 0, samples := 0, largest := 0, count := 0,
          steppedUp := true } })) := by
  unfold overflowed
  simp only [ha, hk, hj, and_self, if_true, Option.map_some]

theorem overflowed_fails (h : s.seq.work.autoRange = false ∨ stepLimit s.seq.work ≤ s.seq.work.k) :
    overflowed s = phaseEnd .over s := by
  refine if_neg fun hsteps => ?_
  obtain ⟨hauto, hk⟩ := hsteps
  obtain h | h := h
  · simp [h] at hauto
  · exact absurd hk h.not_gt

/-! ### Edges -/

theorem oscillatorEdge_running {pin : PinId} {high : Bool} (close : Bool) (h : s.frontEnd = .running pin high) :
    oscillatorEdge close s = deliverEdge close (s.withFrontEnd (.running pin true)) := by
  rw [oscillatorEdge_spec]
  simp only [h]

theorem oscillatorEdge_stopped (close : Bool) (h : ∀ pin high, s.frontEnd ≠ .running pin high) :
    oscillatorEdge close s = s := by
  rw [oscillatorEdge_spec]
  cases hfront : s.frontEnd with
  | clamped => rfl
  | held => rfl
  | running pin high => exact absurd hfront (h pin high)

theorem sequencerEdge_quiet (harm : s.seq.state ≠ .arm) (hcount : s.seq.state ≠ .count) : sequencerEdge s = s := by
  unfold sequencerEdge
  cases hstate : s.seq.state with
  | idle => rfl
  | discharge => rfl
  | settle => rfl
  | arm => exact absurd hstate harm
  | count => exact absurd hstate hcount

theorem sequencerEdge_arm (h : s.seq.state = .arm) : sequencerEdge s = startSample s := by
  simp only [sequencerEdge, h]

theorem sequencerEdge_window (h : s.seq.state = .count) (hm : s.seq.work.method = .window) : sequencerEdge s =
    if Config.overflowCount ≤ s.seq.work.count + 1 then overflowed s
    else s.withSeq { s.seq with work := { s.seq.work with count := s.seq.work.count + 1, timeout := 0 } } := by
  simp only [sequencerEdge, h, hm]

theorem sequencerEdge_period (h : s.seq.state = .count) (hm : s.seq.work.method = .period) : sequencerEdge s =
    if periodGate s.seq.work ≤ s.seq.work.gate + 1 then
      sampleComplete (s.withSeq { s.seq with work := { s.seq.work with gate := s.seq.work.gate + 1, timeout := 0 } })
    else s.withSeq { s.seq with work := { s.seq.work with gate := s.seq.work.gate + 1, timeout := 0 } } := by
  simp only [sequencerEdge, h, hm]

/-! ### The node -/

theorem comparator_stopped (h : ∀ pin high, s.frontEnd ≠ .running pin high) :
    s.frontEnd.comparator = false ∧ s.frontEnd.selected = none := by
  cases hfront : s.frontEnd with
  | clamped => exact ⟨rfl, rfl⟩
  | held => exact ⟨rfl, rfl⟩
  | running pin high => exact absurd hfront (h pin high)

/-! ### The reference of a RATIO job -/

theorem jobRecord_fresh {q : QueuedJob} {sl : RefSlot} (hrole : s.channels[q.channel.val].desc.role = .ratio)
    (hslot : slotOf s.channels[q.channel.val].desc.refChannel s = some sl)
    (hfresh : sl.valid = true ∧ s.channels[q.channel.val].desc.maxAge ≠ 0 ∧
      sl.age ≤ s.channels[q.channel.val].desc.maxAge.toNat ∧ sl.method = s.channels[q.channel.val].desc.method) :
    jobRecord q s =
      { channel := q.channel, tag := q.tag, refresh := none, phase := .primary, refreshed := false,
        rangeChanged := false, stepAtStart := s.channels[q.channel.val].rangeStep,
        refCopy := some { cRef := sl.cRef, gRef := sl.gRef, age := sl.age,
                          step := s.channels[s.channels[q.channel.val].desc.refChannel.val].rangeStep } } := by
  obtain ⟨hvalid, hmax, hage, hmethod⟩ := hfresh
  have hcopy : freshCopy s.channels[q.channel.val].desc s = some
      { cRef := sl.cRef, gRef := sl.gRef, age := sl.age,
        step := s.channels[s.channels[q.channel.val].desc.refChannel.val].rangeStep } := by
    simpa [freshCopy, hslot, hvalid, hage, hmethod] using hmax
  simp only [jobRecord, hrole, if_true, hcopy]

theorem jobRecord_stale {q : QueuedJob} {sl : RefSlot} (hrole : s.channels[q.channel.val].desc.role = .ratio)
    (hslot : slotOf s.channels[q.channel.val].desc.refChannel s = some sl)
    (hstale : ¬(sl.valid = true ∧ s.channels[q.channel.val].desc.maxAge ≠ 0 ∧
      sl.age ≤ s.channels[q.channel.val].desc.maxAge.toNat ∧ sl.method = s.channels[q.channel.val].desc.method)) :
    jobRecord q s =
      { channel := q.channel, tag := q.tag, refresh := some s.channels[q.channel.val].desc.refChannel,
        phase := .refresh, refreshed := false, rangeChanged := false,
        stepAtStart := s.channels[q.channel.val].rangeStep, refCopy := none } := by
  have hcopy : freshCopy s.channels[q.channel.val].desc s = none := by
    simp only [freshCopy, hslot]
    refine if_neg fun hfresh => hstale ?_
    simpa [and_assoc] using hfresh
  simp only [jobRecord, hrole, if_true, hcopy]

theorem jobRecord_plain {q : QueuedJob} (hrole : s.channels[q.channel.val].desc.role ≠ .ratio) :
    jobRecord q s =
      { channel := q.channel, tag := q.tag, refresh := none, phase := .primary, refCopy := none,
        refreshed := false, rangeChanged := false, stepAtStart := s.channels[q.channel.val].rangeStep } :=
  if_neg hrole

theorem jobStart_refresh_engaged {q : QueuedJob} {r : ChannelId} (h : (jobRecord q s).refresh = some r) :
    (jobStart q s).channels[r.val].engaged = true := by
  unfold jobStart
  simp only [startPhase_keeps]
  exact markJob_refresh_engaged _ _ h

end Sequencing

/-- Settles O38, by the state the event finds. -/
theorem dischargeAndSettleEnd : Obligations.DischargeAndSettleEnd := by
  intro s w running
  refine ⟨fun hstate hsettle => ?_, fun hstate hsettle => ?_, fun hstate => ?_, fun hstate => ?_, fun hstate => ?_,
    fun hclamped => ?_, fun high hrunning => ?_⟩
  · exact congrArg Host.Outcome.next ((if_pos hstate).trans (if_neg hsettle))
  · exact congrArg Host.Outcome.next ((if_pos hstate).trans (if_pos hsettle))
  · exact congrArg Host.Outcome.next (if_pos hstate)
  · exact congrArg Host.Outcome.next (if_neg hstate)
  · exact congrArg Host.Outcome.next (if_neg hstate)
  · simp [running, hclamped, FrontEnd.selected]
  · simp [running, hrunning, FrontEnd.selected, FrontEnd.comparator]

/-- Settles O39. -/
theorem gateCloseAddsSample : Obligations.GateCloseAddsSample := by
  intro s hstate hcount hsamples w next
  have hadds : Host.Outcome.next (sampleComplete s) = next (gateLength w) :=
    congrArg Host.Outcome.next (sampleComplete_more hcount hsamples)
  refine ⟨fun hmethod => ⟨?_, ?_⟩, fun hmethod => ⟨?_, ?_⟩⟩
  · rw [exec_gateClose (.inl ⟨rfl, hmethod⟩) hstate, hadds, gateLength_window hmethod]
  · exact congrArg Host.Outcome.next (if_neg (by simp [hmethod, w]))
  · rw [exec_gateClose (.inr ⟨rfl, hmethod⟩) hstate, hadds, gateLength_period hmethod]
  · exact congrArg Host.Outcome.next (if_neg (by simp [hmethod, w]))

/-- Settles O41. -/
theorem overflowStepsUp : Obligations.OverflowStepsUp := by
  intro j s hstate hj hauto hstep
  refine congrArg Host.Outcome.next ((if_pos hstate).trans ((overflowed_steps hj hauto hstep).trans ?_))
  rfl

/-- Settles O46. -/
theorem ratioJobsAndValues : Obligations.RatioJobsAndValues := by
  refine ⟨fun q sl s => ?_, fun w r => ⟨rfl, rfl, fun hmethod => ?_, fun hmethod => ?_⟩⟩
  · intro d hrole hslot
    have hseq := jobStart_seq (x := s) q rfl rfl rfl
    refine ⟨fun hfresh => ?_, fun hstale => ?_⟩
    · rw [hseq, jobRecord_fresh hrole hslot hfresh]
      exact ⟨rfl, rfl⟩
    · have hrecord := jobRecord_stale hrole hslot hstale
      refine ⟨?_, ?_, jobStart_refresh_engaged (by rw [hrecord])⟩
      · rw [hseq, hrecord]
      · rw [hseq, hrecord]
        rfl
  · simp only [jobValue, hmethod]
  · simp only [jobValue, hmethod]

/-- Settles O37: the edge by the state of the Sequencer, and the output between two edges. -/
theorem oscillatorEdgeCounts : Obligations.OscillatorEdgeCounts := by
  refine ⟨fun s => ?_, fun s pin high h => ?_, fun s => ⟨fun h => ?_, fun pin high h => ?_⟩⟩
  · intro w edge
    refine ⟨fun h => congrArg Host.Outcome.next (oscillatorEdge_stopped false h), fun pin high h => ?_⟩
    intro risen
    have hedge : edge = .next (sequencerEdge risen) := congrArg Host.Outcome.next (oscillatorEdge_running false h)
    have hlow : oscillatorEdge false (s.withFrontEnd (.running pin false)) = sequencerEdge risen :=
      oscillatorEdge_running false (s := s.withFrontEnd (.running pin false)) rfl
    refine ⟨hedge.trans (congrArg Host.Outcome.next hlow.symm), fun harm hcount => ?_, fun harm => ?_,
      fun hcount hmethod => ?_, fun hcount hmethod => ?_⟩
    · exact hedge.trans (congrArg Host.Outcome.next (sequencerEdge_quiet (s := risen) harm hcount))
    · exact hedge.trans (congrArg Host.Outcome.next (sequencerEdge_arm (s := risen) harm))
    · have hwindow := hedge.trans (congrArg Host.Outcome.next (sequencerEdge_window (s := risen) hcount hmethod))
      refine ⟨fun hless => ?_, fun hfull => ?_⟩
      · exact hwindow.trans (congrArg Host.Outcome.next (if_neg hless.not_ge))
      · refine hwindow.trans (congrArg Host.Outcome.next ((if_pos hfull).trans (if_pos hcount).symm))
    · have hperiod := hedge.trans (congrArg Host.Outcome.next (sequencerEdge_period (s := risen) hcount hmethod))
      refine ⟨fun hless => ?_, fun hfull => ?_⟩
      · exact hperiod.trans (congrArg Host.Outcome.next (if_neg hless.not_ge))
      · refine hperiod.trans (congrArg Host.Outcome.next ((if_pos hfull).trans ?_))
        exact (if_pos ⟨hcount, hmethod⟩).symm
  · intro risen
    have hedge : exec (.oscillatorEdge true) s = .next (deliverEdge true risen) :=
      congrArg Host.Outcome.next (oscillatorEdge_running true h)
    by_cases htaken : Config.closeEdgeTaken s.freeIndex = true
    · refine .inr (hedge.trans (congrArg Host.Outcome.next ?_))
      exact (if_pos htaken).trans (oscillatorEdge_running false (s := s.withFreeIndex (s.freeIndex + 1)) h).symm
    · exact .inl (hedge.trans (congrArg Host.Outcome.next (if_neg htaken)))
  · obtain ⟨hlow, hselected⟩ := comparator_stopped h
    refine ⟨hlow, fun n => if_neg (by simp [drivenPin, hselected]), by simp [clampClosed, hselected],
      fun hpending => ?_⟩
    rw [step_nil hpending, nodeMoves_low hlow]
  · have hcomparator : s.frontEnd.comparator = high := by rw [h]; rfl
    have hselected : s.frontEnd.selected = some pin := by rw [h]; rfl
    refine ⟨hcomparator, ?_, fun n hn => if_neg ?_, by simp [clampClosed, hselected], fun hpending hlow => ?_,
      fun hpending hhigh => ?_⟩
    · rw [pinLevel, drivenPin, hselected, if_pos rfl, hcomparator]
    · simpa [drivenPin, hselected] using hn.symm
    · rw [step_nil hpending, nodeMoves_low (hcomparator.trans hlow)]
    · subst hhigh
      rw [step_nil hpending]
      exact (nodeMoves_high h).imp (congrArg Host.Outcome.next) (congrArg Host.Outcome.next)

/-- Settles O42: the last sample ends the refresh phase OK. -/
theorem refreshPhaseContinues : Obligations.RefreshPhaseContinues := by
  intro c r j s w hgate hstate hj hphase hr hcount hlast
  let u := s.withSeq { s.seq with work := s.seq.work.sampled }
  have hexec : exec c s = .next (phaseEnd .ok u) :=
    (exec_gateClose hgate hstate).trans (congrArg Host.Outcome.next (sampleComplete_last hcount hlast))
  have hmeasured : j.measured = r := by simp [InFlight.measured, hphase, hr]
  obtain ⟨hseq, hchannels, hrefs, hqueue, hfifo, hscan⟩ := phaseEnd_refreshed (s := u) hj hphase hmeasured
  have hview : quietView (phaseEnd .ok u) = quietView s := (quietView_phaseEnd _ _).trans (quietView_withSeq _ _)
  have hchannel : ∀ b : ChannelId, (phaseEnd .ok u).channels[b.val] =
      if r = b then { s.channels[b.val] with rangeStep := stepAfter .ok w.sampled s.channels[b.val].rangeStep }
      else s.channels[b.val] := fun b => by
    rw [hchannels]
    exact onChannel_channel r b _ u
  have hr := hchannel r
  rw [if_pos rfl] at hr
  refine ⟨_, hexec, hview, hseq, fun i => ?_, ?_, ?_, fun b hb => ?_, hqueue, hfifo, hscan⟩
  · rw [hrefs]
    exact mapTable_get _ _ _ _
  · rw [hr]
    rfl
  · rw [hr]
  · rw [hchannel, if_neg hb.symm]

end Sys2Proof.Machine
end

section
/-! The cursor, the causes of a pass, the passes that a command starts. -/

namespace Sys2Proof.Machine

section Cursor

variable {s : State}

/-! ### Entries -/

/-- Table 11-5: the enable bit and the divisor of an entry. -/
theorem entry_fields : ∀ fields : Byte, fields.getLsbD 7 = decide (128 ≤ fields.toNat) ∧
    (fields &&& 0x07#8).toNat = fields.toNat % 8 := by decide

theorem channelOf_eq_some {b : Byte} {ch : ChannelId} : channelOf b = some ch ↔ b.toNat = ch.val := by
  refine ⟨fun h => ?_, channelOf_some⟩
  by_cases hb : 16 ≤ b.toNat
  · rw [channelOf_none hb] at h
    cases h
  · rw [channelOf, dif_pos (by omega), Option.some.injEq] at h
    exact congrArg Fin.val h

theorem bankByte_a {i : Nat} (h : i < 48) (sc : ScanController) : bankByte .a sc i = sc.bankA[i] := by
  simp only [bankByte, Vector.getElem?_eq_getElem h, Option.getD_some]

theorem bankByte_b {i : Nat} (h : i < 48) (sc : ScanController) : bankByte .b sc i = sc.bankB[i] := by
  simp only [bankByte, Vector.getElem?_eq_getElem h, Option.getD_some]

/-- R106: the offer of an entry with its two bytes named. -/
theorem entryOffer_eq_some {n : Nat} {name fields : Byte} {ch : ChannelId}
    (hname : bankByte s.scan.active s.scan (2 * n) = name)
    (hfields : bankByte s.scan.active s.scan (2 * n + 1) = fields) :
    entryOffer s n = some ch ↔ name.toNat = ch.val ∧ 128 ≤ fields.toNat ∧ fields.toNat % 8 ≤ 4 ∧
      s.channels[ch.val].desc.role ≠ .unused ∧ s.channels[ch.val].desc.enabled = true ∧
      s.scan.passNumber.toNat % 2 ^ (fields.toNat % 8) = 0 := by
  obtain ⟨henabled, hdivisor⟩ := entry_fields fields
  rw [← channelOf_eq_some, entryOffer, hname, hfields, henabled, hdivisor]
  cases hc : channelOf name with
  | none => simp
  | some c =>
    by_cases hch : c = ch
    · subst hch
      simp [and_assoc]
    · simp [hch]

/-! ### Offers -/

theorem decideOffer_ready (n : Nat) (ch : ChannelId) (s : State) :
    arbiterReady (decideOffer n ch s) = arbiterReady s := by
  simp [arbiterReady, clocked]

theorem decideOffer_merges {n : Nat} {ch : ChannelId} (h : ∃ j ∈ s.queue.jobs, j.channel = ch ∧ j.tag.isScan = true) :
    decideOffer n ch s = s.withScan { s.scan with cursor := .settled n } := by
  refine if_pos ?_
  obtain ⟨j, hj, hch, hscan⟩ := h
  exact List.any_eq_true.mpr ⟨j, hj, by simp [QueuedJob.isScanFor, hch, hscan]⟩

theorem no_scan_job {ch : ChannelId} (h : ∀ j ∈ s.queue.jobs, j.channel = ch → j.tag.isScan = false) :
    ¬s.queue.jobs.any (QueuedJob.isScanFor ch) = true := by
  intro hany
  obtain ⟨j, hj, hscan⟩ := List.any_eq_true.mp hany
  obtain ⟨hch, hscan⟩ : j.channel = ch ∧ j.tag.isScan = true := by simpa [QueuedJob.isScanFor] using hscan
  simp [h j hj hch] at hscan

theorem decideOffer_waits {n : Nat} {ch : ChannelId} (h : ∀ j ∈ s.queue.jobs, j.channel = ch → j.tag.isScan = false)
    (hfull : 8 ≤ s.queue.jobs.length) :
    decideOffer n ch s = s.withScan { s.scan with cursor := .waiting n ch } :=
  (if_neg (no_scan_job h)).trans (if_pos hfull)

theorem decideOffer_admits {n : Nat} {ch : ChannelId} (h : ∀ j ∈ s.queue.jobs, j.channel = ch → j.tag.isScan = false)
    (hroom : s.queue.jobs.length < 8) :
    decideOffer n ch s = (s.withQueue { s.queue with
      jobs := s.queue.jobs ++ [{ channel := ch, tag := .scan s.scan.passNumber }] }).withScan
        { s.scan with cursor := .settled n, passCount := s.scan.passCount + 1 } :=
  (if_neg (no_scan_job h)).trans (if_neg hroom.not_ge)

/-- R94: with the Sequencer busy an offer is decided and selects nothing. -/
theorem offer_busy (n : Nat) (ch : ChannelId) (h : arbiterReady s = false) : offer n ch s = decideOffer n ch s :=
  select_none (.inl ((decideOffer_ready n ch s).trans h))

/-! ### The cursor's move -/

theorem exec_cursorAdvance (hc : clocked s = true) : exec .cursorAdvance s = .next (cursorMove s) :=
  congrArg Host.Outcome.next (if_pos hc)

theorem cursorMove_offers {n entry : Nat} {ch : ChannelId} (h : s.scan.cursor = .settled n)
    (hnext : nextOffer s (s.scan.extent - (n + 1)) (n + 1) = some (entry, ch)) : cursorMove s = offer entry ch s := by
  simp only [cursorMove, h, moveOnto, hnext]

theorem cursorMove_done {n : Nat} (h : s.scan.cursor = .settled n)
    (hnext : nextOffer s (s.scan.extent - (n + 1)) (n + 1) = none) :
    cursorMove s = checkPassEnd (s.withScan { s.scan with cursor := .done }) := by
  simp only [cursorMove, h, moveOnto, hnext]

theorem cursorMove_waiting {n : Nat} {ch : ChannelId} (h : s.scan.cursor = .waiting n ch) : cursorMove s = s := by
  simp only [cursorMove, h]

theorem exec_offerRetake {n : Nat} {ch : ChannelId} (hc : clocked s = true) (h : s.scan.cursor = .waiting n ch) :
    exec .offerRetake s = .next (offer n ch s) := by
  refine congrArg Host.Outcome.next ((if_pos hc).trans ?_)
  simp only [retakeOffer, h, offer]

theorem clocked_of_ready (h : arbiterReady s = true) : clocked s = true := (arbiterReady_spec s h).2.2

/-! ### What is due -/

theorem passDue_waiting (h : s.scan.state = .waiting) : passDue s = passStart s := by simp only [passDue, h]

theorem passDue_running (h : s.scan.state = .running) : passDue s = overrun s := by simp only [passDue, h]

theorem passDue_rest (h : s.scan.state = .stopped ∨ s.scan.state = .stopping) : passDue s = s := by
  obtain h | h := h <;> simp only [passDue, h]

theorem qualifiedEdge_due {level : Bool} (hmode : s.scan.mode = .triggered)
    (hlevel : level = polarityLevel s.scan.trigSetting) :
    qualifiedEdge level s = passDue (s.withScan { s.scan with filtered := level, stable := 0 }) :=
  if_pos ⟨hmode, hlevel⟩

theorem qualifiedEdge_other {level : Bool}
    (h : s.scan.mode ≠ .triggered ∨ level ≠ polarityLevel s.scan.trigSetting) :
    qualifiedEdge level s = s.withScan { s.scan with filtered := level, stable := 0 } :=
  if_neg fun hboth => h.elim (fun hmode => hmode hboth.1) (fun hlevel => hlevel hboth.2)

/-! ### A pass that starts -/

theorem passStarted_congr {number : BitVec 16} {mode : ScanMode} {t u : State} (hscan : t.scan = u.scan)
    (hqueue : t.queue = u.queue) (hseq : t.seq = u.seq) (hevents : t.events = u.events)
    (h : passStarted number mode s u) : passStarted number mode s t := by
  unfold passStarted offerDecided offerStarted flagSet at h ⊢
  rw [hscan, hqueue, hseq, hevents]
  exact h

theorem passStart_mode (s : State) : (passStart s).scan.mode = s.scan.mode :=
  congrArg QuietView.mode (quietView_passStart s)

theorem passStart_latched (s : State) : (passStart s).scan.latched = s.scan.latched :=
  congrArg QuietView.latched (quietView_passStart s)

theorem startMode_none {b : Byte} (h1 : b ≠ 0x01) (h2 : b ≠ 0x02) : startMode b = none :=
  (if_neg h1).trans (if_neg h2)

theorem startMode_some {b : Byte} (h : b = 0x01 ∨ b = 0x02) :
    startMode b = some (if b = 0x01 then .periodic else .triggered) := by
  obtain rfl | rfl := h <;> rfl

theorem scanStart_badArg (h1 : s.cmd.arg0 ≠ 0x01) (h2 : s.cmd.arg0 ≠ 0x02) : scanStart s = refuse .badArg s := by
  simp only [scanStart, startMode_none h1 h2]

theorem scanStart_mode {mode : ScanMode} (h : startMode s.cmd.arg0 = some mode) : scanStart s =
    if s.timebase.power = .asleep then refuse .asleep s
    else if s.scan.state ≠ .stopped then refuse .notStopped s
    else
      (passStart (s.withScan { s.scan with
          mode := mode, passNumber := 0, timer := 0,
          latched := if mode = .periodic then passPeriod s.scan else s.scan.latched }),
        .done 0) := by
  simp only [scanStart, h]

theorem scanOnce_awake (h : s.timebase.power = .awake) :
    (s.scan.state = .running → scanOnce s = refuse .passActive s) ∧
    (s.scan.state = .stopped → scanOnce s =
      (passStart (s.withScan { s.scan with mode := .single, passNumber := 0 }), .done 0)) ∧
    (s.scan.state = .waiting → scanOnce s = (passStart s, .done 0)) := by
  refine ⟨fun hstate => ?_, fun hstate => ?_, fun hstate => ?_⟩ <;>
    simp [scanOnce, h, hstate]

end Cursor

/-- Settles O47: the walk over the entries, and the offer by what the queue holds. -/
theorem cursorAndRetake : Obligations.CursorAndRetake := by
  refine ⟨fun n ch name fields s => ?_,
    fun fuel n s => ⟨nextOffer_none s fuel n, fun entry ch => nextOffer_some s fuel n entry ch⟩,
    fun n ch s hbusy => ⟨fun hc hcursor => ⟨fun hnext hstate hcount => ?_, fun entry hnext hroom hnone => ?_,
      fun entry hnext hscan => ?_, fun entry hnext hfull hnone => ?_⟩,
      fun hcursor => ⟨?_, fun hc hroom hnone => ?_⟩⟩,
    fun s hc => ⟨congrArg Host.Outcome.next (if_neg (by simp [hc])),
      congrArg Host.Outcome.next (if_neg (by simp [hc]))⟩,
    fun n entry ch s hready hstalled hjobs => ⟨fun hcursor hnext => ?_, fun hcursor => ?_⟩⟩
  · intro d m hbytes
    have hn := n.isLt
    obtain ⟨hactive, hname, hfields⟩ | ⟨hactive, hname, hfields⟩ := hbytes
    · exact entryOffer_eq_some (by rw [hactive, hname, bankByte_a]) (by rw [hactive, hfields, bankByte_a])
    · exact entryOffer_eq_some (by rw [hactive, hname, bankByte_b]) (by rw [hactive, hfields, bankByte_b])
  · rw [exec_cursorAdvance hc, cursorMove_done hcursor hnext, checkPassEnd_none]
    exact fun hend => hcount.ne' hend.2.2
  · rw [exec_cursorAdvance hc, cursorMove_offers hcursor hnext, offer_busy _ _ hbusy, decideOffer_admits hnone hroom]
  · rw [exec_cursorAdvance hc, cursorMove_offers hcursor hnext, offer_busy _ _ hbusy, decideOffer_merges hscan]
  · rw [exec_cursorAdvance hc, cursorMove_offers hcursor hnext, offer_busy _ _ hbusy, decideOffer_waits hnone hfull]
  · exact congrArg Host.Outcome.next (by rw [cursorMove_waiting hcursor, ite_self])
  · rw [exec_offerRetake hc hcursor, offer_busy _ _ hbusy, decideOffer_admits hnone hroom]
  · refine ⟨_, ?_, quietView_offer s entry ch, offer_starts entry ch hready hstalled hjobs⟩
    rw [exec_cursorAdvance (clocked_of_ready hready), cursorMove_offers hcursor hnext]
  · exact ⟨_, exec_offerRetake (clocked_of_ready hready) hcursor, quietView_offer s entry ch,
      offer_starts entry ch hready hstalled hjobs⟩

/-- Settles O48. -/
theorem passEnds : Obligations.PassEnds := by
  intro n s hc hstate hcursor hcount hnext
  let u := s.withScan { s.scan with cursor := .done }
  have hmove : cursorMove s = passEnd u :=
    (cursorMove_done hcursor hnext).trans (checkPassEnd_ends ⟨hstate, rfl, hcount⟩)
  obtain ⟨hscan, hflag⟩ := passEnd_spec u
  have hview : quietView (passEnd u) = quietView s := hmove ▸ quietView_cursorMove s
  refine ⟨_, (exec_cursorAdvance hc).trans (congrArg Host.Outcome.next hmove), hview, hflag, ?_⟩
  rw [hscan]
  refine ⟨rfl, rfl, rfl, rfl, rfl, ?_⟩
  simp [u]

/-- Settles O49: by the cause, and by the state of the scan. -/
theorem expiryAndEdge : Obligations.ExpiryAndEdge := by
  intro s
  refine ⟨fun hc => ⟨congrArg Host.Outcome.next (if_neg (by simp [hc])),
      congrArg Host.Outcome.next (if_neg (by simp [hc]))⟩,
    fun hc => ?_⟩
  intro more
  let expired := s.withScan { s.scan with timer := 0, latched := passPeriod s.scan }
  let edge := s.withPins { s.pins with trig := !s.scan.filtered }
  let filtered := edge.withScan { s.scan with filtered := !s.scan.filtered, stable := 0 }
  have htimer : timerRuns s = true → exec .passTimerExpiry s = .next (passDue expired) := fun hruns =>
    congrArg Host.Outcome.next (if_pos (by rw [hc, hruns]; rfl))
  have hedge : exec .trigEdgeQualified s = .next (qualifiedEdge (!s.scan.filtered) edge) :=
    congrArg Host.Outcome.next (if_pos hc)
  have hdue : s.scan.mode = .triggered → (!s.scan.filtered) = polarityLevel s.scan.trigSetting →
      exec .trigEdgeQualified s = .next (passDue filtered) := fun hmode hlevel =>
    hedge.trans (congrArg Host.Outcome.next (qualifiedEdge_due (s := edge) hmode hlevel))
  refine ⟨fun hmode hstate => ?_, fun hmode hstate => ?_, fun hrest => ?_, fun hmode hlevel hstate => ?_,
    fun hmode hlevel hstate => ?_, fun hrest => ?_⟩
  · rw [htimer (by simp [timerRuns, hmode, hstate]), passDue_running (s := expired) hstate]
    rfl
  · refine ⟨_, (htimer (by simp [timerRuns, hmode, hstate])).trans
      (congrArg Host.Outcome.next (passDue_waiting (s := expired) hstate)), ?_, passStart_latched expired, ?_⟩
    · exact passStart_timer (s := expired) (by simp [expired, hmode])
    · exact passStart_started (u := expired) rfl hmode ⟨rfl, rfl, rfl, rfl, rfl, rfl⟩ rfl rfl rfl rfl rfl
  · refine congrArg Host.Outcome.next (if_neg ?_)
    obtain h | h | h := hrest <;> simp [timerRuns, h]
  · rw [hdue hmode hlevel, passDue_running (s := filtered) hstate]
    rfl
  · refine ⟨_, (hdue hmode hlevel).trans (congrArg Host.Outcome.next (passDue_waiting (s := filtered) hstate)),
      congrArg QuietView.filtered (quietView_passStart filtered),
      congrArg QuietView.stable (quietView_passStart filtered), ?_⟩
    exact passStart_started (u := filtered) rfl hmode ⟨rfl, rfl, rfl, rfl, rfl, rfl⟩ rfl rfl rfl rfl rfl
  · rw [hedge]
    by_cases hmatch : s.scan.mode = .triggered ∧ (!s.scan.filtered) = polarityLevel s.scan.trigSetting
    · obtain ⟨hmode, hlevel⟩ := hmatch
      have hstate : s.scan.state = .stopped ∨ s.scan.state = .stopping := by
        obtain h | h | h := hrest
        · exact absurd hmode h
        · rw [← h] at hlevel
          simp at hlevel
        · exact h
      exact congrArg Host.Outcome.next
        ((qualifiedEdge_due (s := edge) hmode hlevel).trans (passDue_rest (s := filtered) hstate))
    · exact congrArg Host.Outcome.next (qualifiedEdge_other (s := edge) (not_and_or.mp hmatch))

/-- Settles O13: the commands by the state of the scan. -/
theorem scanStartAndScanOnce : Obligations.ScanStartAndScanOnce := by
  refine ⟨fun s h => ?_, fun s h => ?_⟩
  · intro refused
    refine ⟨fun h1 h2 => exec_decoded h rfl (scanStart_badArg (s := pointerPast 0x18 s) h1 h2), fun harg => ?_⟩
    have hmode := scanStart_mode (s := pointerPast 0x18 s) (startMode_some harg)
    refine ⟨fun hpower => ?_, fun hpower hstate => ?_, fun hpower hstate => ?_⟩
    · exact exec_decoded h rfl (hmode.trans (if_pos hpower))
    · exact exec_decoded h rfl (hmode.trans ((if_neg (by simp [hpower])).trans (if_pos hstate)))
    · let u := (pointerPast 0x18 s).withScan { s.scan with
        mode := if s.cmd.arg0 = 0x01 then .periodic else .triggered, passNumber := 0, timer := 0,
        latched := if (if s.cmd.arg0 = 0x01 then ScanMode.periodic else .triggered) = .periodic then passPeriod s.scan
          else s.scan.latched }
      have heffect : scanStart (pointerPast 0x18 s) = (passStart u, .done 0) :=
        hmode.trans ((if_neg (by simp [hpower])).trans (if_neg (not_not.mpr hstate)))
      have hview : hostView (passStart u) = hostView (pointerPast 0x18 s) := hostView_passStart u
      refine ⟨_, exec_decoded h rfl heffect, (hostView_recordOutcome _ _ _).trans hview, rfl,
        passStart_mode u, ?_, ?_, ?_⟩
      · refine passStart_timer (s := u) ?_
        show (if s.cmd.arg0 = 0x01 then ScanMode.periodic else .triggered) ≠ .single
        split <;> simp
      · refine (passStart_latched u).trans ?_
        show (if (if s.cmd.arg0 = 0x01 then ScanMode.periodic else .triggered) = .periodic then _ else _) = _
        obtain h1 | h2 := harg
        · rw [if_pos (if_pos h1), if_pos h1]
        · rw [h2]
          rfl
      · refine passStarted_congr (u := passStart u) rfl rfl rfl rfl ?_
        exact passStart_started (u := u) rfl (passStart_mode u).symm ⟨rfl, rfl, rfl, rfl, rfl, rfl⟩ rfl rfl rfl rfl rfl
  · intro refused
    refine ⟨fun hpower => exec_decoded h rfl (if_pos hpower), fun hpower => ?_⟩
    obtain ⟨hrunning, hstopped, hwaiting⟩ := scanOnce_awake (s := pointerPast 0x18 s) hpower
    refine ⟨fun hstate => exec_decoded h rfl (hrunning hstate), fun hstate => ?_⟩
    obtain hstate | hstate := hstate
    · let u := (pointerPast 0x18 s).withScan { s.scan with mode := .single, passNumber := 0 }
      have hview : hostView (passStart u) = hostView (pointerPast 0x18 s) := hostView_passStart u
      refine ⟨_, exec_decoded h rfl (hstopped hstate), (hostView_recordOutcome _ _ _).trans hview, rfl, ?_, ?_, ?_⟩
      · rw [if_pos hstate]
        exact passStart_mode u
      · intro hother
        simp [hstate] at hother
      · rw [if_pos hstate]
        refine passStarted_congr (u := passStart u) rfl rfl rfl rfl ?_
        exact passStart_started (u := u) rfl (passStart_mode u).symm ⟨rfl, rfl, rfl, rfl, rfl, rfl⟩ rfl rfl rfl rfl rfl
    · have hnot : ¬s.scan.state = .stopped := by simp [hstate]
      let u := pointerPast 0x18 s
      refine ⟨_, exec_decoded h rfl (hwaiting hstate), (hostView_recordOutcome _ _ _).trans (hostView_passStart u), rfl,
        ?_, fun _ hmode => ⟨passStart_timer (s := u) hmode, passStart_latched u⟩, ?_⟩
      · rw [if_neg hnot]
        exact passStart_mode u
      · rw [if_neg hnot]
        refine passStarted_congr (u := passStart u) rfl rfl rfl rfl ?_
        exact passStart_started (u := u) rfl (passStart_mode u).symm ⟨rfl, rfl, rfl, rfl, rfl, rfl⟩ rfl rfl rfl rfl rfl

end Sys2Proof.Machine
end

section
/-! The checks of a commit. -/

namespace Sys2Proof.Machine

section Checks

variable {s : State} {ch : ChannelId} {im : Image}

theorem role_eq_ratio : im.descriptor.role = .ratio ↔ im.role = 2 := by
  show Role.ofCode im.role = .ratio ↔ _
  unfold Role.ofCode
  repeat' split
  all_goals simp_all

theorem role_eq_reference : im.descriptor.role = .reference ↔ im.role = 3 := by
  show Role.ofCode im.role = .reference ↔ _
  unfold Role.ofCode
  repeat' split
  all_goals simp_all

theorem zoneMonitor_iff : im.descriptor.zoneMonitor = true ↔ im.zoneMonitor ≠ 0 := bne_iff_ne

theorem enabled_iff : im.descriptor.enabled = true ↔ im.enabled ≠ 0 := bne_iff_ne

/-! ### Check 1 -/

theorem validate_badField {offset : Byte} (h : im.badField = some offset) :
    validate ch im s = some (.badField, offset) := by
  simp only [validate, h]

theorem badField_role (h : 4 ≤ im.role.toNat) : im.badField = some 0x00 := if_pos h

theorem badField_pin (hrole : im.role.toNat ≤ 3) (h : 8 ≤ im.pin.toNat) : im.badField = some 0x02 := by
  rw [Image.badField, if_neg (by omega), if_pos (by omega)]

theorem badField_method (hrole : im.role.toNat ≤ 3) (hpin : im.pin.toNat ≤ 7) (h : 2 ≤ im.method.toNat) :
    im.badField = some 0x03 := by
  rw [Image.badField, if_neg (by omega), if_neg (by omega), if_pos (by omega)]

theorem badField_g (hrole : im.role.toNat ≤ 3) (hpin : im.pin.toNat ≤ 7) (hmethod : im.method.toNat ≤ 1)
    (h : 8 ≤ im.g.toNat) : im.badField = some 0x04 := by
  rw [Image.badField, if_neg (by omega), if_neg (by omega), if_neg (by omega), if_pos (by omega)]

theorem badField_s (hrole : im.role.toNat ≤ 3) (hpin : im.pin.toNat ≤ 7) (hmethod : im.method.toNat ≤ 1)
    (hg : im.g.toNat ≤ 7) (h : 5 ≤ im.s.toNat) : im.badField = some 0x05 := by
  rw [Image.badField, if_neg (by omega), if_neg (by omega), if_neg (by omega), if_neg (by omega), if_pos (by omega)]

theorem badField_e (hrole : im.role.toNat ≤ 3) (hpin : im.pin.toNat ≤ 7) (hmethod : im.method.toNat ≤ 1)
    (hg : im.g.toNat ≤ 7) (hs : im.s.toNat ≤ 4) (h : 8 ≤ im.e.toNat) : im.badField = some 0x06 := by
  rw [Image.badField, if_neg (by omega), if_neg (by omega), if_neg (by omega), if_neg (by omega), if_neg (by omega),
    if_pos (by omega)]

theorem badField_policy (hrole : im.role.toNat ≤ 3) (hpin : im.pin.toNat ≤ 7) (hmethod : im.method.toNat ≤ 1)
    (hg : im.g.toNat ≤ 7) (hs : im.s.toNat ≤ 4) (he : im.e.toNat ≤ 7) (h : 4 ≤ im.policy.toNat) :
    im.badField = some 0x19 := by
  rw [Image.badField, if_neg (by omega), if_neg (by omega), if_neg (by omega), if_neg (by omega), if_neg (by omega),
    if_neg (by omega), if_pos (by omega)]

/-! ### The other checks -/

/-- Table 2-4: the checks behind check 1, on the staged bytes. -/
theorem validate_inRange (h : im.badField = none) : validate ch im s =
    if im.role = 2 ∧ 15 < im.refChannel.toNat then some (.badField, 0x09)
    else if im.zoneMonitor ≠ 0 ∧ im.highT.toNat < im.lowT.toNat + 2 * im.hyst.toNat then some (.badField, 0x15)
    else if im.role = 2 ∧ im.refChannel.toNat = ch.val then some (.badField, im.refChannel)
    else if im.role = 2 ∧ ¬((namedDescriptor im.refChannel s).role = .reference ∧
        (namedDescriptor im.refChannel s).enabled = true) then some (.refMissing, im.refChannel)
    else if im.role = 2 ∧ (namedDescriptor im.refChannel s).method ≠ Method.ofCode im.method then
      some (.refMismatch, im.refChannel)
    else if im.role = 3 ∧ slotOf ch s = none ∧ someSlotFree s = false then some (.noRefSlot, 0)
    else if 0 < usersOf ch s ∧
        ¬(im.role = 3 ∧ Method.ofCode im.method = s.channels[ch.val].desc.method ∧ im.enabled ≠ 0) then
      some (.refInUse, BitVec.ofNat 8 (usersOf ch s))
    else none := by
  simp only [validate, h, role_eq_ratio, role_eq_reference, zoneMonitor_iff, enabled_iff]
  rfl

/-- R30: the check of the users of the channel's slot, the last of Table 2-4. -/
theorem validate_users (h : im.badField = none)
    (hthreshold : im.zoneMonitor = 0 ∨ im.lowT.toNat + 2 * im.hyst.toNat ≤ im.highT.toNat)
    (hratio : im.role = 2 → im.refChannel.toNat ≤ 15 ∧ im.refChannel.toNat ≠ ch.val ∧
      (namedDescriptor im.refChannel s).role = .reference ∧ (namedDescriptor im.refChannel s).enabled = true ∧
      (namedDescriptor im.refChannel s).method = Method.ofCode im.method)
    (hslot : im.role = 3 → slotOf ch s = none → someSlotFree s = true) : validate ch im s =
    if 0 < usersOf ch s ∧
        ¬(im.role = 3 ∧ Method.ofCode im.method = s.channels[ch.val].desc.method ∧ im.enabled ≠ 0) then
      some (.refInUse, BitVec.ofNat 8 (usersOf ch s))
    else none := by
  rw [validate_inRange h, if_neg, if_neg, if_neg, if_neg, if_neg, if_neg]
  · rintro ⟨hrole, hnone, hfull⟩
    simp [hslot hrole hnone] at hfull
  · rintro ⟨hrole, hmethod⟩
    obtain ⟨-, -, -, -, hsame⟩ := hratio hrole
    exact hmethod hsame
  · rintro ⟨hrole, hnamed⟩
    obtain ⟨-, -, hreference, henabled, -⟩ := hratio hrole
    exact hnamed ⟨hreference, henabled⟩
  · rintro ⟨hrole, hself⟩
    exact (hratio hrole).2.1 hself
  · rintro ⟨hmonitor, hlow⟩
    exact hthreshold.elim hmonitor (fun hle => absurd hlow hle.not_gt)
  · rintro ⟨hrole, hrange⟩
    exact absurd (hratio hrole).1 hrange.not_ge

theorem usersOf_none (h : slotOf ch s = none) : usersOf ch s = 0 := by simp only [usersOf, h]

theorem usersOf_some {sl : RefSlot} (h : slotOf ch s = some sl) : usersOf ch s = sl.users := by simp only [usersOf, h]

theorem someSlotFree_iff : someSlotFree s = true ↔ ∃ i : Fin 4, s.refs[i.val].owner = none := by
  rw [someSlotFree, refs_toList]
  simp [Fin.exists_fin_succ]

end Checks

/-- Settles O17, check by check in the order of Table 2-4. -/
theorem commitChecks : Obligations.CommitChecks := by
  intro ch im s ratio named answer fields threshold
  have hbad : ∀ {offset}, im.badField = some offset → answer = some (.badField, offset) := validate_badField
  have hnone : fields → im.badField = none := fun ⟨hrole, hpin, hmethod, hg, hs, he, hpolicy⟩ =>
    Image.badField_none hrole hpin hmethod hg hs he hpolicy
  have hlow : threshold → ¬(im.zoneMonitor ≠ 0 ∧ im.highT.toNat < im.lowT.toNat + 2 * im.hyst.toNat) :=
    fun hthreshold hfails => hthreshold.elim hfails.1 (fun hle => absurd hfails.2 hle.not_gt)
  refine ⟨fun hrole => hbad (badField_role hrole), fun hrole => ⟨fun hpin => hbad (badField_pin hrole hpin),
    fun hpin => ⟨fun hmethod => hbad (badField_method hrole hpin hmethod), fun hmethod =>
    ⟨fun hg => hbad (badField_g hrole hpin hmethod hg), fun hg =>
    ⟨fun hs => hbad (badField_s hrole hpin hmethod hg hs), fun hs =>
    ⟨fun he => hbad (badField_e hrole hpin hmethod hg hs he), fun he hpolicy =>
      hbad (badField_policy hrole hpin hmethod hg hs he hpolicy)⟩⟩⟩⟩⟩, ?_, ?_, ?_, ?_, ?_, ?_⟩
  · intro hfields hratio href
    exact (validate_inRange (hnone hfields)).trans (if_pos ⟨hratio, href⟩)
  · intro hfields href hfails
    obtain ⟨hmonitor, hlow⟩ := not_or.mp hfails
    refine (validate_inRange (hnone hfields)).trans ((if_neg ?_).trans (if_pos ⟨hmonitor, not_le.mp hlow⟩))
    exact fun hrange => absurd (href hrange.1) hrange.2.not_ge
  · intro hfields hthreshold hratio hself
    have hch := ch.isLt
    refine (validate_inRange (hnone hfields)).trans ((if_neg ?_).trans ((if_neg (hlow hthreshold)).trans
      (if_pos ⟨hratio, hself⟩)))
    exact fun hrange => absurd hrange.2 (by omega)
  · intro hfields hthreshold hratio href hself
    have hrange : ¬(im.role = 2 ∧ 15 < im.refChannel.toNat) := fun h => absurd href h.2.not_ge
    have hother : ¬(im.role = 2 ∧ im.refChannel.toNat = ch.val) := fun h => hself h.2
    have hrow := validate_inRange (ch := ch) (s := s) (hnone hfields)
    rw [if_neg hrange, if_neg (hlow hthreshold), if_neg hother] at hrow
    refine ⟨fun hmissing => hrow.trans (if_pos ⟨hratio, hmissing⟩), fun hnamed henabled => ?_⟩
    rw [if_neg fun h => h.2 ⟨hnamed, henabled⟩] at hrow
    refine ⟨fun hmethod => hrow.trans (if_pos ⟨hratio, hmethod⟩), fun hmethod => ?_⟩
    have hnotref : im.role ≠ 3 := by rw [hratio]; decide
    have husers := validate_users (s := s) (hnone hfields) hthreshold
      (fun _ => ⟨href, hself, hnamed, henabled, hmethod⟩) (fun h => absurd h hnotref)
    refine ⟨fun hslot => ?_, fun sl hslot => ⟨fun hzero => ?_, fun hpos => ?_⟩⟩
    · exact husers.trans (if_neg (by simp [usersOf_none hslot]))
    · exact husers.trans (if_neg (by simp [usersOf_some hslot, hzero]))
    · rw [usersOf_some hslot] at husers
      exact husers.trans (if_pos ⟨hpos, fun h => hnotref h.1⟩)
  · intro hfields hthreshold hrole
    have hnotratio : im.role ≠ 2 := by rw [hrole]; decide
    refine ⟨fun hslot => ⟨fun hfull => ?_, fun i hfree => ?_⟩,
      fun sl hslot => ⟨fun hkeeps => ?_, fun hpos hchanges => ?_⟩⟩
    · have hnotfree : someSlotFree s = false := by
        rw [Bool.eq_false_iff, ne_eq, someSlotFree_iff]
        exact fun ⟨i, hi⟩ => hfull i hi
      have hrow := validate_inRange (ch := ch) (s := s) (hnone hfields)
      rw [if_neg fun h => hnotratio h.1, if_neg (hlow hthreshold), if_neg fun h => hnotratio h.1,
        if_neg fun h => hnotratio h.1, if_neg fun h => hnotratio h.1, if_pos ⟨hrole, hslot, hnotfree⟩] at hrow
      exact hrow
    · refine (validate_users (hnone hfields) hthreshold (fun h => absurd h hnotratio)
        (fun _ _ => someSlotFree_iff.mpr ⟨i, hfree⟩)).trans (if_neg ?_)
      simp [usersOf_none hslot]
    · refine (validate_users (hnone hfields) hthreshold (fun h => absurd h hnotratio)
        (fun _ h => absurd (hslot.symm.trans h) (by simp))).trans (if_neg ?_)
      rw [usersOf_some hslot]
      rintro ⟨hpos, hnot⟩
      exact hkeeps.elim hpos.ne' (fun h => hnot ⟨hrole, h⟩)
    · refine (validate_users (hnone hfields) hthreshold (fun h => absurd h hnotratio)
        (fun _ h => absurd (hslot.symm.trans h) (by simp))).trans ?_
      rw [usersOf_some hslot]
      exact if_pos ⟨hpos, fun h => hchanges.elim (fun hm => hm h.2.1) h.2.2⟩
  · intro hfields hthreshold hrole
    have hnotratio : im.role ≠ 2 := fun h => by simp [h] at hrole
    have hnotref : im.role ≠ 3 := fun h => by simp [h] at hrole
    have husers := validate_users (ch := ch) (s := s) (hnone hfields) hthreshold (fun h => absurd h hnotratio)
      (fun h => absurd h hnotref)
    refine ⟨fun hslot => ?_, fun sl hslot => ⟨fun hzero => ?_, fun hpos => ?_⟩⟩
    · exact husers.trans (if_neg (by simp [usersOf_none hslot]))
    · exact husers.trans (if_neg (by simp [usersOf_some hslot, hzero]))
    · rw [usersOf_some hslot] at husers
      exact husers.trans (if_pos ⟨hpos, fun h => hnotref h.1⟩)

end Sys2Proof.Machine
end

section
/-! The ends of jobs: failed phases, the last sample of a primary phase, aborts, and the stop of a scan. -/

namespace Sys2Proof.Machine

section JobEnding

variable {s : State} {st : JobStatus} {pe : PhaseEnd} {j : InFlight}

/-! ### What a job end leaves, by its status -/

/-- R132: the statuses that put a monitored channel in FAULT. -/
theorem zoneAfter_fault {a : Completion} (h : a.status.isFault = true) (c : Channel) :
    zoneAfter a c = if c.desc.zoneMonitor then .fault else c.zone := by
  unfold zoneAfter
  cases hs : a.status <;> simp_all [JobStatus.isFault]

/-- R135: an abort leaves the zone. -/
theorem zoneAfter_aborted {a : Completion} (h : a.status = .aborted) (c : Channel) : zoneAfter a c = c.zone := by
  unfold zoneAfter
  rw [h]
  exact ite_self _

theorem decide_zone_ne (a b : Zone) : decide (a ≠ b) = (a != b) := by
  rw [bne, decide_not]
  rfl

/-- R151, R152, R154: the record, and RESULTS, of a job that fails with nothing queued. -/
theorem jobEnd_failed_record (hst : st.isFault = true) (hj : s.seq.job = some j) (hq : s.queue.jobs = []) :
    let c := s.channels[j.channel.val]
    let zone := if c.desc.zoneMonitor then .fault else c.zone
    let written := j.tag.isDirect || c.desc.policy == .always || c.desc.policy == .onFault ||
      (c.desc.policy == .onZoneChange && zone != c.zone)
    (jobEnd st s).fifo = recordedIn written (failedRecord st zone j s) s.fifo ∧
      flagSet .results (jobEnd st s) = (flagSet .results s ||
        (written && decide (s.fifo.watermark.toNat ≤ s.fifo.records.length + 1))) := by
  intro c zone written
  have hok : st ≠ .ok := by rintro rfl; cases hst
  have hnone : st ≠ .none := by rintro rfl; cases hst
  have hzone : zoneAfter (announce st j s) c = zone := zoneAfter_fault hst c
  have hwritten : writesRecord (announce st j s) (decide (zone ≠ c.zone)) c.desc.policy = written := by
    rw [writesRecord_failed j hok hnone, decide_zone_ne]
  have hfifo := jobEnd_recorded st hj hq
  have hresults := jobEnd_results st hj hq
  simp only [show s.channels[j.channel.val] = c from rfl, hzone, hwritten, recordOf_failed j hok] at hfifo hresults
  exact ⟨hfifo, hresults⟩

/-- R151: when a job that ended OK writes its record. -/
theorem writesRecord_ok {a : Completion} (h : a.status = .ok) (changed : Bool) (p : ReportPolicy) :
    writesRecord a changed p = (a.tag.isDirect || p == .always || (p == .onZoneChange && changed)) := by
  unfold writesRecord
  rw [h]
  cases a.tag <;> cases p <;> rfl

/-- R77: the slots after a REFERENCE channel's own job that failed. -/
theorem referenceShare_failed {a : Completion} (h : a.status = pe.status) (hpe : pe ≠ .ok) (i : Fin 4) :
    (referenceShare a s).refs[i.val] =
      if s.channels[a.channel.val].desc.role = .reference ∧ s.refs[i.val].owner = some a.channel then
        RefSlot.faulted pe.status.reason s.refs[i.val]
      else s.refs[i.val] := by
  by_cases hrole : s.channels[a.channel.val].desc.role = .reference
  · have hslot : referenceShare a s = onSlot a.channel (RefSlot.faulted pe.status.reason) s := by
      rw [referenceShare, if_pos hrole, h]
      cases pe
      · exact absurd rfl hpe
      all_goals rfl
    rw [hslot]
    simp only [onSlot, State.withRefs_refs, mapTable_get, hrole, true_and]
  · rw [referenceShare, if_neg hrole, if_neg fun h => hrole h.1]

/-- R76: the slots after a REFERENCE channel's own job that ended OK. -/
theorem referenceShare_ok {a : Completion} (h : a.status = .ok) (i : Fin 4) :
    (referenceShare a s).refs[i.val] =
      if s.channels[a.channel.val].desc.role = .reference ∧ s.refs[i.val].owner = some a.channel then
        RefSlot.measured a.cTotal a.gTotal a.method s.refs[i.val]
      else s.refs[i.val] := by
  by_cases hrole : s.channels[a.channel.val].desc.role = .reference
  · simp only [referenceShare, hrole, if_true, h, onSlot, State.withRefs_refs, mapTable_get, true_and]
  · rw [referenceShare, if_neg hrole, if_neg fun h => hrole h.1]

theorem referenceShare_refFault {a : Completion} (h : a.status = .refFault) : referenceShare a s = s := by
  unfold referenceShare
  rw [h]
  exact ite_self _

theorem quietSequencer_refs (j : InFlight) (st : JobStatus) (s : State) : (quietSequencer j st s).refs = s.refs := by
  simp

/-! ### From the end of a phase to the end of its job -/

/-- R53: the committed range step a phase end leaves on the channel it measured. -/
def stepCommitted (pe : PhaseEnd) (j : InFlight) (s : State) : State :=
  onChannel j.measured (fun c => { c with rangeStep := stepAfter pe s.seq.work c.rangeStep }) s

/-- R56, R77: the state in which a failed phase ends its job: the step is committed, and a failed refresh has left its
reason in the slot. -/
def failedFrom (pe : PhaseEnd) (j : InFlight) (s : State) : State :=
  (stepCommitted pe j s).withRefs
    (if j.phase = .primary then s.refs else (onSlot j.measured (RefSlot.faulted pe.status.reason) s).refs)

theorem phaseEnd_primary (hj : s.seq.job = some j) (hphase : j.phase = .primary) :
    phaseEnd pe s = jobEnd pe.status (stepCommitted pe j s) := by
  simp only [phaseEnd, hj, hphase, stepCommitted]

theorem phaseEnd_fails (hj : s.seq.job = some j) (hpe : pe ≠ .ok) :
    phaseEnd pe s = jobEnd (if j.phase = .primary then pe.status else .refFault) (failedFrom pe j s) := by
  cases hphase : j.phase with
  | primary =>
    rw [phaseEnd_primary hj hphase, failedFrom, hphase]
    rfl
  | refresh =>
    simp only [phaseEnd, hj, hphase, failedFrom]
    cases pe
    · exact absurd rfl hpe
    all_goals rfl

/-- A committed range step leaves every other item of the channels. -/
theorem stepCommitted_channel (pe : PhaseEnd) (j : InFlight) (b : ChannelId) :
    (stepCommitted pe j s).channels[b.val] = if j.measured = b
      then { s.channels[b.val] with rangeStep := stepAfter pe s.seq.work s.channels[b.val].rangeStep }
      else s.channels[b.val] :=
  onChannel_channel j.measured b _ s

theorem stepCommitted_item {α : Type} (item : Channel → α)
    (h : ∀ (k : Nat) (c : Channel), item { c with rangeStep := k } = item c) (b : ChannelId) :
    item (stepCommitted pe j s).channels[b.val] = item s.channels[b.val] :=
  onChannel_item item (fun _ => h _ _) b s

/-- R53: only an overflow commits the working step of a phase that failed. -/
theorem stepAfter_failed (hpe : pe ≠ .ok) (w : Working) (committed : Nat) :
    stepAfter pe w committed = if pe.status = .over ∧ w.autoRange = true then w.k else committed := by
  unfold stepAfter
  cases pe <;> cases w.autoRange <;> simp_all [PhaseEnd.status]

/-- R50 to R52: the four events of a phase that fails. -/
theorem exec_failing {c : Instr} {reason : FaultReason}
    (h : (c = .edgeTimeout ∧ (s.seq.state = .arm ∨ s.seq.state = .count) ∧ st = .openArm ∧ reason = .openArm) ∨
      (c = .windowGateClose ∧ s.seq.state = .count ∧ s.seq.work.method = .window ∧ s.seq.work.count = 0 ∧ st = .under ∧
        reason = .under) ∨
      (c = .periodGateClose ∧ s.seq.state = .count ∧ s.seq.work.method = .period ∧ s.seq.work.count = 0 ∧ st = .under ∧
        reason = .under) ∨
      (c = .overflow ∧ s.seq.state = .count ∧ (s.seq.work.autoRange = false ∨ stepLimit s.seq.work ≤ s.seq.work.k) ∧
        st = .over ∧ reason = .over)) :
    ∃ pe : PhaseEnd, pe ≠ .ok ∧ pe.status = st ∧ pe.status.reason = reason ∧ exec c s = .next (phaseEnd pe s) := by
  obtain ⟨rfl, hs, rfl, rfl⟩ | ⟨rfl, hs, hm, hcount, rfl, rfl⟩ | ⟨rfl, hs, hm, hcount, rfl, rfl⟩ |
    ⟨rfl, hs, hstep, rfl, rfl⟩ := h
  · exact ⟨.openArm, by decide, rfl, rfl, congrArg Host.Outcome.next (if_pos hs)⟩
  · refine ⟨.under, by decide, rfl, rfl, (exec_gateClose (.inl ⟨rfl, hm⟩) hs).trans ?_⟩
    rw [sampleComplete_empty hcount]
  · refine ⟨.under, by decide, rfl, rfl, (exec_gateClose (.inr ⟨rfl, hm⟩) hs).trans ?_⟩
    rw [sampleComplete_empty hcount]
  · exact ⟨.over, by decide, rfl, rfl, congrArg Host.Outcome.next ((if_pos hs).trans (overflowed_fails hstep))⟩

end JobEnding

/-- Settles O40: the phase end is a job end from the state with the step committed. -/
theorem failedPhaseEndsTheJob : Obligations.FailedPhaseEndsTheJob := by
  intro c status reason j s w d old zone ended written faulted hfails hj
  obtain ⟨pe, hpe, rfl, rfl, hexec⟩ := exec_failing hfails
  let u := failedFrom pe j s
  have hview : quietView (phaseEnd pe s) = quietView s := quietView_phaseEnd _ _
  have hend : phaseEnd pe s = jobEnd ended u := phaseEnd_fails hj hpe
  rw [hend] at hexec hview
  have hfault : ended.isFault = true := by
    by_cases hphase : j.phase = .primary
    · simp only [ended, hphase, if_true]
      cases pe
      · exact absurd rfl hpe
      all_goals rfl
    · simp only [ended, hphase, if_false]
      rfl
  have hdesc : u.channels[j.channel.val].desc = d := stepCommitted_item Channel.desc (fun _ _ => rfl) j.channel
  have hold : u.channels[j.channel.val].zone = old := stepCommitted_item Channel.zone (fun _ _ => rfl) j.channel
  have hzone : zoneAfter (announce ended j u) u.channels[j.channel.val] = zone := by
    rw [zoneAfter_fault hfault, hdesc, hold]
  refine ⟨_, hexec, hview, ?_, jobEnd_lastStatus _ hj, fun hq => ⟨jobEnd_over _ hj hq, ?_⟩,
    fun hq hd => jobEnd_countedOut _ (s := u) hj hd hq, fun hd => ?_⟩
  · rw [jobEnd_fault (s := u) ended hj, hfault]
    rfl
  · have hrecord : failedRecord ended zone j u = failedRecord ended zone j s := by
      unfold failedRecord
      rw [hdesc]
      rfl
    have h := jobEnd_failed_record (s := u) hfault hj hq
    simp only [hdesc, hold] at h
    rw [← hrecord]
    exact h
  · obtain ⟨hz, halerts, hflag⟩ := jobEnd_zone (s := u) ended hj hd
    simp only [hzone, hdesc, hold] at hz halerts hflag
    refine ⟨?_, hz, halerts, hflag, fun hphase i => ?_, fun r hphase hr i => ?_⟩
    · rw [jobEnd_rangeStep (s := u) ended hj hd]
      have hstep := stepCommitted_channel (s := s) pe j j.measured
      rw [if_pos rfl] at hstep
      exact (congrArg Channel.rangeStep hstep).trans (stepAfter_failed hpe _ _)
    · have hended : (announce ended j u).status = pe.status := if_pos hphase
      have hquiet : (quietSequencer j ended u).refs = s.refs := (quietSequencer_refs j ended u).trans (if_pos hphase)
      rw [jobEnd_slots (s := u) ended hj hd, referenceShare_failed hended hpe,
        quietSequencer_item Channel.desc (fun _ _ => rfl),
        show (announce ended j u).channel = j.channel from rfl, hdesc, hquiet]
      rfl
    · have hnot : j.phase ≠ .primary := by simp [hphase]
      have hquiet : (quietSequencer j ended u).refs = (onSlot j.measured (RefSlot.faulted pe.status.reason) s).refs :=
        (quietSequencer_refs j ended u).trans (if_neg hnot)
      have hmeasured : j.measured = r := by simp [InFlight.measured, hphase, hr]
      rw [jobEnd_slots (s := u) ended hj hd, referenceShare_refFault (if_neg hnot), hquiet, hmeasured]
      exact mapTable_get _ _ _ _

/-- R57, R58: the value of a job by the role of its channel and the method of its phase. -/
theorem jobValue_eq {d : Descriptor} {w : Working} {copy : Option RefCopy} {raw : Nat} {part : Option RefPart}
    (h : ((d.role = .absolute ∨ d.role = .reference) ∧ raw = 65536 * w.cTotal / w.gTotal ∧ part = none) ∨
      (∃ r, d.role = .ratio ∧ copy = some r ∧
        raw = (if w.method = .window then 65536 * r.cRef * w.gTotal / (r.gRef * w.cTotal)
          else 65536 * w.cTotal * r.gRef / (w.gTotal * r.cRef)) ∧
        part = some { cRef := r.cRef, step := r.step, age := r.age })) :
    jobValue d.role w copy = some raw ∧ (if d.role = .ratio then
      copy.map (fun r => ({ cRef := r.cRef, step := r.step, age := r.age } : RefPart)) else none) = part := by
  obtain ⟨hrole, rfl, rfl⟩ | ⟨r, hrole, rfl, rfl, rfl⟩ := h
  · obtain hrole | hrole := hrole <;> rw [hrole] <;> exact ⟨rfl, rfl⟩
  · rw [hrole, if_pos rfl]
    refine ⟨?_, rfl⟩
    cases hmethod : w.method <;> simp [jobValue, hmethod]

/-- R57 to R59: the announcement of a job that ends OK in its primary phase. -/
theorem announce_ok {s : State} {j : InFlight} {raw : Nat} (hphase : j.phase = .primary)
    (hvalue : jobValue s.channels[j.channel.val].desc.role s.seq.work j.refCopy = some raw) :
    announce .ok j s =
      { channel := j.channel, tag := j.tag, status := .ok, samplesExp := s.channels[j.channel.val].desc.s,
        step := s.seq.work.k, cTotal := s.seq.work.cTotal, gTotal := s.seq.work.gTotal, method := s.seq.work.method,
        value := some (min raw 4294967295), saturated := decide (4294967295 < raw),
        lowRes := decide (s.seq.work.largest < 1024),
        refPart := if s.channels[j.channel.val].desc.role = .ratio then
          j.refCopy.map (fun r => { cRef := r.cRef, step := r.step, age := r.age }) else none,
        refreshed := j.refreshed, rangeChanged := j.rangeChanged, timestamp := s.timebase.stamp } := by
  simp only [announce, hphase, hvalue, if_true, Option.map_some, true_and]
  rfl

/-- Settles O43: the sample is added, the step committed, and the job ends OK. -/
theorem primaryPhaseEndsOk : Obligations.PrimaryPhaseEndsOk := by
  intro c raw part j s w chan d total gates largest announced zone written hgate hvalue hstate hj hphase hcount hlast hq
    hd
  let v := s.withSeq { s.seq with work := w.sampled }
  let u := stepCommitted .ok j v
  have hend : phaseEnd .ok v = jobEnd .ok u := phaseEnd_primary (s := v) hj hphase
  have hexec : exec c s = .next (jobEnd .ok u) := (exec_gateClose hgate hstate).trans
    (congrArg Host.Outcome.next ((sampleComplete_last hcount hlast).trans hend))
  have hview : quietView (jobEnd .ok u) = quietView s :=
    hend ▸ (quietView_phaseEnd _ _).trans (quietView_withSeq _ _)
  have hmeasured : j.measured = j.channel := by simp [InFlight.measured, hphase]
  have hdesc : u.channels[j.channel.val].desc = d :=
    stepCommitted_item (s := v) Channel.desc (fun _ _ => rfl) j.channel
  have hold : u.channels[j.channel.val].zone = chan.zone :=
    stepCommitted_item (s := v) Channel.zone (fun _ _ => rfl) j.channel
  obtain ⟨hraw, hpart⟩ := jobValue_eq (w := w.sampled) hvalue
  have hannounced : announce .ok j u = announced := by
    rw [announce_ok (s := u) hphase (by rw [hdesc]; exact hraw), hdesc, hpart]
    rfl
  have hzone : zoneAfter (announce .ok j u) u.channels[j.channel.val] = zone := by
    rw [hannounced]
    exact zoneAfter_congr announced hdesc hold
  have hwritten : writesRecord announced (decide (zone ≠ chan.zone)) d.policy = written := by
    rw [writesRecord_ok rfl, decide_zone_ne]
  obtain ⟨hz, halerts, halert⟩ := jobEnd_zone (s := u) .ok hj hd
  have hfifo := jobEnd_recorded (s := u) .ok hj hq
  have hresults := jobEnd_results (s := u) .ok hj hq
  simp only [hzone, hdesc, hold] at hz halerts halert hfifo hresults
  rw [hannounced, hwritten] at hfifo hresults
  refine ⟨_, hexec, hview, jobEnd_over (s := u) _ hj hq, jobEnd_lastStatus (s := u) _ hj, hz, ?_, fun i => ?_, halerts,
    hfifo, jobEnd_fault (s := u) .ok hj, halert, hresults, jobEnd_countedOut (s := u) _ hj hd hq⟩
  · rw [jobEnd_rangeStep (s := u) .ok hj hd]
    have hstep := stepCommitted_channel (s := v) .ok j j.channel
    rw [if_pos hmeasured] at hstep
    exact congrArg Channel.rangeStep hstep
  · rw [jobEnd_slots (s := u) .ok hj hd, referenceShare_ok rfl, quietSequencer_item Channel.desc (fun _ _ => rfl),
      hannounced, hdesc, quietSequencer_refs]
    rfl

section Abort

variable {s : State} {j : InFlight}

/-- R64, R177: ABORT_JOB with a job in flight: the record takes the command only while none is WORKING. -/
theorem exec_abortJob (h : takesWrite 0x18 s) (hbusy : s.seq.state ≠ .idle) :
    ∃ cmd : CommandPort, exec .abortJob s = .next ((jobEnd .aborted (pointerPast 0x18 s)).withCmd cmd) ∧
      hostView ((jobEnd .aborted (pointerPast 0x18 s)).withCmd cmd) = hostView (pointerPast 0x18 s) ∧
      (s.cmd.outcome.state ≠ .working → cmd.outcome =
        { command := 0x02, state := .done, reason := none, result := 1, collision := false }) ∧
      (s.cmd.outcome.state = .working → cmd = (jobEnd .aborted (pointerPast 0x18 s)).cmd) := by
  have habort : abortJob (pointerPast 0x18 s) = (jobEnd .aborted (pointerPast 0x18 s), .done 1) := if_neg hbusy
  have hview : hostView (jobEnd .aborted (pointerPast 0x18 s)) = hostView (pointerPast 0x18 s) :=
    hostView_quiet _ (quietView_jobEnd _ _)
  have hexec : exec .abortJob s = .next (issueAbort (pointerPast 0x18 s)) :=
    congrArg Host.Outcome.next (dataByte_taken h)
  by_cases hworking : s.cmd.outcome.state = .working
  · refine ⟨(jobEnd .aborted (pointerPast 0x18 s)).cmd, hexec.trans (congrArg Host.Outcome.next ?_), hview,
      fun h => absurd hworking h, fun _ => rfl⟩
    exact (if_pos hworking).trans (congrArg Prod.fst habort)
  · refine ⟨_, hexec.trans (congrArg Host.Outcome.next ?_), (hostView_recordOutcome 0x02 (.done 1) _).trans hview,
      fun _ => rfl, fun h => absurd h hworking⟩
    refine (if_neg hworking).trans ?_
    rw [habort]
    rfl

end Abort

/-- Settles O11: with a job in flight the abort is its end with ABORTED. -/
theorem abortJobEffect : Obligations.AbortJobEffect := by
  intro s h
  refine ⟨fun hworking hidle => ?_, fun j hbusy hj => ?_⟩
  · have habort : abortJob (pointerPast 0x18 s) = (pointerPast 0x18 s, .done 0) := if_pos hidle
    refine congrArg Host.Outcome.next ((dataByte_taken h).trans ((if_neg hworking).trans ?_))
    rw [habort]
  intro c
  let u := pointerPast 0x18 s
  let t := jobEnd .aborted u
  obtain ⟨cmd, hexec, hview, hdone, hkept⟩ := exec_abortJob h hbusy
  have hzone : zoneAfter (announce .aborted j u) c = c.zone := zoneAfter_aborted rfl c
  refine ⟨_, hexec, hview, jobEnd_lastStatus (s := u) .aborted hj, fun b hd => ⟨?_, ?_⟩,
    fun hd => jobEnd_refs (s := u) (.inl rfl) hd, jobEnd_fault (s := u) .aborted hj,
    fun hq => ⟨jobEnd_over (s := u) .aborted hj hq, ?_⟩, fun hq hd => ?_, hdone, fun hworking => ?_⟩
  · exact jobEnd_aborted_item (s := u) Channel.rangeStep (fun _ _ => rfl) (fun _ _ => rfl) hd b
  · exact jobEnd_aborted_item (s := u) Channel.zone (fun _ _ => rfl) (fun _ _ => rfl) hd b
  · have hfifo := jobEnd_recorded (s := u) .aborted hj hq
    have hok : JobStatus.aborted ≠ .ok := by decide
    have hwritten : writesRecord (announce .aborted j u) (decide (c.zone ≠ c.zone)) c.desc.policy =
        (j.tag.isDirect || c.desc.policy == .always || c.desc.policy == .onFault) := by
      rw [writesRecord_failed j hok (by decide)]
      simp
    simp only [show u.channels[j.channel.val] = c from rfl, hzone, hwritten, recordOf_failed j hok] at hfifo
    exact hfifo
  · obtain ⟨hdirect, hrunning, hstopping⟩ := jobEnd_countedOut (s := u) .aborted hj hd hq
    refine ⟨hdirect, hrunning, fun hscan hstate hone => ?_⟩
    obtain ⟨hend, hcommand, houtcome⟩ := hstopping hscan hstate hone
    exact ⟨hend, hcommand, fun hworking => (congrArg CommandPort.outcome (hkept hworking)).trans (houtcome hworking)⟩
  · have hquiet : quietView t = quietView u := quietView_jobEnd _ _
    have hcmd : ((jobEnd .aborted u).withCmd cmd).cmd.outcome = t.cmd.outcome :=
      congrArg CommandPort.outcome (hkept hworking)
    rw [hcmd]
    exact ⟨congrArg QuietView.lastCommand hquiet, congrArg QuietView.collision hquiet⟩

section Stop

variable {s : State}

/-- R100: the SCAN jobs removed where no offer waits and the cursor is not done. -/
theorem removeJobs_scan (hcursor : s.scan.cursor = .cleared) :
    let gone := s.queue.jobs.filter (fun j => j.tag.isScan)
    let left := s.queue.jobs.filter (fun j => !j.tag.isScan)
    (removeJobs (fun j => j.tag.isScan) s).1.queue = (if gone = [] then s.queue
      else { s.queue with jobs := left, stalled := s.queue.stalled && !left.isEmpty }) ∧
    (removeJobs (fun j => j.tag.isScan) s).1.scan = { s.scan with passCount := s.scan.passCount - gone.length } := by
  intro gone left
  obtain ⟨hnone, hsome, -⟩ := removeJobs_spec (fun j => j.tag.isScan) s
  have hcount : gone.countP (fun j => j.tag.isScan) = gone.length :=
    List.countP_eq_length.mpr fun j hj => (List.mem_filter.mp hj).2
  by_cases hgone : gone = []
  · obtain ⟨hqueue, hscan⟩ := hnone hgone
    rw [if_pos hgone]
    exact ⟨hqueue, hscan.trans (by rw [hgone]; rfl)⟩
  · obtain ⟨hqueue, -, hscan⟩ := hsome hgone (.inl fun n ch => by simp [hcursor])
    rw [if_neg hgone, ← hcount]
    exact ⟨hqueue, hscan fun h => by simp [hcursor] at h⟩

theorem applySwap_scan (s : State) : (applySwap s).scan =
    { s.scan with
      active := if s.scan.swapPending then s.scan.active.other else s.scan.active, swapPending := false } := by
  unfold applySwap
  cases hswap : s.scan.swapPending with
  | true => rfl
  | false => exact congrArg (fun swap => { s.scan with swapPending := swap }) hswap

theorem scanStop_active (h : s.scan.state ≠ .stopped) :
    let r := removeJobs (fun j => j.tag.isScan) (s.withScan { s.scan with cursor := .cleared, timer := 0 })
    scanStop s = if scanInFlight s then (r.1.withScan { r.1.scan with state := .stopping }, .working r.2)
      else ((applySwap r.1).withScan { (applySwap r.1).scan with state := .stopped }, .done r.2) := if_neg h

end Stop

/-- Settles O14: the stop by whether a SCAN job is in flight, and the job end that completes it. -/
theorem scanStopEffect : Obligations.ScanStopEffect := by
  refine ⟨fun s h => ?_, fun c j s hpass hworking hstate hends => ?_⟩
  · intro gone left flight
    refine ⟨fun hstopped => exec_decoded h rfl (if_pos hstopped), fun hactive => ?_⟩
    let u := (pointerPast 0x18 s).withScan { s.scan with cursor := .cleared, timer := 0 }
    let r := removeJobs (fun j => j.tag.isScan) u
    have hview := hostView_scanStop (pointerPast 0x18 s)
    have hcount : r.2 = gone.length := removeJobs_count _ u
    obtain ⟨hqueue, hscan⟩ := removeJobs_scan (s := u) rfl
    have hstop := scanStop_active (s := pointerPast 0x18 s) hactive
    have hseq : r.1.seq = s.seq := by simp [r, u]
    have hchannels : r.1.channels = s.channels := by simp [r, u]
    have hfifo : r.1.fifo = s.fifo := by simp [r, u]
    cases hflight : scanInFlight s with
    | true =>
      have heffect := hstop.trans (if_pos hflight)
      rw [heffect] at hview
      refine ⟨_, exec_decoded h rfl heffect, (hostView_recordOutcome _ _ _).trans hview, hqueue, ?_, ?_, hseq,
        hchannels, hfifo⟩
      · rw [show flight = true from hflight]
        exact congrArg (fun sc : ScanController => { sc with state := .stopping }) hscan
      · rw [show flight = true from hflight, ← hcount]
        rfl
    | false =>
      have heffect := hstop.trans (if_neg (Bool.eq_false_iff.mp hflight))
      rw [heffect] at hview
      let w := (applySwap r.1).withScan { (applySwap r.1).scan with state := .stopped }
      have hqueue' : w.queue = r.1.queue := by simp [w]
      have hseq' : w.seq = s.seq := by simp [w, hseq]
      have hchannels' : w.channels = s.channels := by simp [w, hchannels]
      have hfifo' : w.fifo = s.fifo := by simp [w, hfifo]
      refine ⟨recordOutcome 0x11 (.done r.2) w, exec_decoded h rfl heffect, (hostView_recordOutcome _ _ _).trans hview,
        hqueue'.trans hqueue, ?_, ?_, hseq', hchannels', hfifo'⟩
      · rw [show flight = false from hflight]
        exact congrArg (fun sc : ScanController => { sc with state := .stopped })
          ((applySwap_scan r.1).trans (by rw [hscan]))
      · rw [show flight = false from hflight, ← hcount]
        rfl
  · have hcmd : s.cmd.outcome.state = .working := hworking.1.mpr (.inr hstate)
    obtain ⟨hdeferred, -⟩ := hworking.2.1 hstate
    obtain ⟨-, hcount, hlaw⟩ := hpass
    rw [hstate] at hlaw
    obtain ⟨hone, hflight, hcursor, htimer⟩ := hlaw
    obtain ⟨st, u, hexec, hjob, hqueue, hscan, hdef, hport, hfifo, hfront, -, -⟩ := exec_endsJob hends hcmd
    have hj : u.seq.job = some j := hjob.trans hends.1
    have htag : j.tag.isScan = true := by
      rw [scanInFlight, hends.1] at hflight
      exact hflight
    obtain ⟨hstopped, houtcome, hcommand⟩ := jobEnd_stops st hj (hdef.trans hdeferred) htag (by rw [hscan, hstate])
      (by rw [hscan, hcursor]) (by rw [hscan, hcount, hone])
    rw [hscan] at hstopped
    rw [hport] at houtcome
    refine ⟨_, hexec, hstopped, houtcome, hcommand, fun hq => ?_⟩
    have hover := jobEnd_over st hj (by rw [hqueue, hq])
    unfold jobOver at hover ⊢
    rw [hqueue, hfront] at hover
    exact hover

end Sys2Proof.Machine
end

section
/-! The apply of a commit, block by block, and the decision of a deferred one. -/

namespace Sys2Proof.Machine

section Apply

variable {s : State} {ch : ChannelId} {im : Image}

/-! ### The slots -/

/-- R71: the users counted by an apply: one less at the old reference, one more at the new. -/
def relinkedUsers (old new : Descriptor) (s : State) : State :=
  let s1 := if old.role = .ratio then onSlot old.refChannel (fun sl => { sl with users := sl.users - 1 }) s else s
  if new.role = .ratio then onSlot new.refChannel (fun sl => { sl with users := sl.users + 1 }) s1 else s1

theorem relink_eq (ch : ChannelId) (old new : Descriptor) (s : State) : relink ch old new s =
    if old.role = .reference ∧ new.role ≠ .reference then onSlot ch (fun _ => .free) (relinkedUsers old new s)
    else if new.role = .reference ∧ slotOf ch (relinkedUsers old new s) = none then
      (relinkedUsers old new s).withRefs (allocateSlot ch (relinkedUsers old new s).refs)
    else if old.role = .reference ∧ new.role = .reference ∧
        (old.pin ≠ new.pin ∨ old.method ≠ new.method ∨ old.g ≠ new.g ∨ old.s ≠ new.s) then
      onSlot ch RefSlot.invalidate (relinkedUsers old new s)
    else relinkedUsers old new s := rfl

/-- R71: one reference's users changed, where the descriptor is a RATIO one. -/
theorem usersChanged_get {d : Descriptor} {f : Nat → Nat} (i : Fin 4) :
    (if d.role = .ratio then onSlot d.refChannel (fun sl => { sl with users := f sl.users }) s else s).refs[i.val] =
      { s.refs[i.val] with users :=
          if d.role = .ratio ∧ s.refs[i.val].owner = some d.refChannel then f s.refs[i.val].users
          else s.refs[i.val].users } := by
  by_cases hrole : d.role = .ratio
  · rw [if_pos hrole, onSlot_get]
    by_cases howner : s.refs[i.val].owner = some d.refChannel
    · rw [if_pos howner, if_pos ⟨hrole, howner⟩]
    · rw [if_neg howner, if_neg fun h => howner h.2]
  · rw [if_neg hrole, if_neg fun h => hrole h.1]

theorem relinkedUsers_get (old new : Descriptor) (i : Fin 4) : (relinkedUsers old new s).refs[i.val] =
    { s.refs[i.val] with users := s.refs[i.val].users -
        (if old.role = .ratio ∧ s.refs[i.val].owner = some old.refChannel then 1 else 0) +
        (if new.role = .ratio ∧ s.refs[i.val].owner = some new.refChannel then 1 else 0) } := by
  unfold relinkedUsers
  rw [usersChanged_get (f := (· + 1)), usersChanged_get (f := (· - 1))]
  split <;> split <;> simp

/-- R71: the slot of a reference, with the descriptors that name it counted. -/
theorem relinkedUsers_owned (old new : Descriptor) {i : Fin 4} {r : ChannelId} (hr : s.refs[i.val].owner = some r) :
    (relinkedUsers old new s).refs[i.val] = { s.refs[i.val] with users := s.refs[i.val].users -
        (if old.role = .ratio ∧ old.refChannel = r then 1 else 0) +
        (if new.role = .ratio ∧ new.refChannel = r then 1 else 0) } := by
  have hnames : ∀ d : Descriptor, (s.refs[i.val].owner = some d.refChannel) = (d.refChannel = r) := fun d => by
    rw [hr, Option.some.injEq]
    exact propext eq_comm
  simp only [relinkedUsers_get, hnames]

theorem relinkedUsers_owner (old new : Descriptor) (i : Fin 4) :
    (relinkedUsers old new s).refs[i.val].owner = s.refs[i.val].owner := by rw [relinkedUsers_get]

theorem relinkedUsers_free (old new : Descriptor) {i : Fin 4} (h : s.refs[i.val].owner = none) :
    (relinkedUsers old new s).refs[i.val] = s.refs[i.val] := by
  rw [relinkedUsers_get, h]
  simp

theorem relinkedUsers_reference {old new : Descriptor} (hold : old.role = .reference) (hnew : new.role = .reference)
    (i : Fin 4) : (relinkedUsers old new s).refs[i.val] = s.refs[i.val] := by
  rw [relinkedUsers_get, hold, hnew]
  simp

theorem slotOf_eq_none : slotOf ch s = none ↔ ∀ i : Fin 4, s.refs[i.val].owner ≠ some ch := by
  refine ⟨fun h i hi => ?_, slotOf_none⟩
  obtain ⟨-, hall⟩ | ⟨k, hk, -⟩ := slotOf_spec ch s
  · exact hall i hi
  · simp [h] at hk

theorem slotOf_relinkedUsers (old new : Descriptor) :
    slotOf ch (relinkedUsers old new s) = none ↔ slotOf ch s = none := by
  simp only [slotOf_eq_none, relinkedUsers_owner]

/-- R69: the lowest free slot is taken. -/
theorem allocateSlot_first {v : Vector RefSlot 4} {i : Fin 4} (hi : v[i.val].owner = none)
    (hbelow : ∀ k : Fin 4, k < i → v[k.val].owner ≠ none) :
    allocateSlot ch v = v.set i.val { RefSlot.free with owner := some ch } := by
  match i, hi, hbelow with
  | 0, hi, hbelow => exact if_pos hi
  | 1, hi, hbelow => exact (if_neg (hbelow 0 (by decide))).trans (if_pos hi)
  | 2, hi, hbelow =>
    exact (if_neg (hbelow 0 (by decide))).trans ((if_neg (hbelow 1 (by decide))).trans (if_pos hi))
  | 3, hi, hbelow =>
    exact (if_neg (hbelow 0 (by decide))).trans ((if_neg (hbelow 1 (by decide))).trans
      ((if_neg (hbelow 2 (by decide))).trans (if_pos hi)))

/-- R69: a slot that an allocation leaves: one that is owned, or free above another free one. -/
theorem allocateSlot_leaves {v : Vector RefSlot 4} {i : Fin 4}
    (h : v[i.val].owner ≠ none ∨ ∃ k : Fin 4, k < i ∧ v[k.val].owner = none) :
    (allocateSlot ch v)[i.val] = v[i.val] := by
  by_cases hfree : ∃ k : Fin 4, v[k.val].owner = none
  · obtain ⟨k, hk, hbelow⟩ : ∃ k : Fin 4, v[k.val].owner = none ∧ ∀ l : Fin 4, l < k → v[l.val].owner ≠ none :=
      ⟨_, Fin.find_spec hfree, fun l hl => Fin.find_min hfree hl⟩
    have hne : k ≠ i := by
      rintro rfl
      obtain h | ⟨l, hl, hnone⟩ := h
      · exact h hk
      · exact hbelow l hl hnone
    rw [allocateSlot_first hk hbelow, Vector.getElem_set, if_neg fun heq => hne (Fin.ext heq)]
  · have hnone : ∀ k : Fin 4, v[k.val].owner ≠ none := fun k hk => hfree ⟨k, hk⟩
    have hv : allocateSlot ch v = v :=
      (if_neg (hnone 0)).trans ((if_neg (hnone 1)).trans ((if_neg (hnone 2)).trans (if_neg (hnone 3))))
    rw [hv]

/-- R69 to R71: an apply leaves the slots of other owners but for their users. -/
theorem relink_other (old new : Descriptor) {i : Fin 4} {r : ChannelId} (hr : s.refs[i.val].owner = some r)
    (hne : r ≠ ch) : (relink ch old new s).refs[i.val] = (relinkedUsers old new s).refs[i.val] := by
  have howner : (relinkedUsers old new s).refs[i.val].owner = some r := (relinkedUsers_owner old new i).trans hr
  have hnot : ¬(relinkedUsers old new s).refs[i.val].owner = some ch := by
    rw [howner, Option.some.injEq]
    exact hne
  rw [relink_eq]
  split
  · rw [onSlot_get, if_neg hnot]
  split
  · exact allocateSlot_leaves (.inl (by simp [howner]))
  split
  · rw [onSlot_get, if_neg hnot]
  · rfl

/-- R69, R70: the slot of a REFERENCE channel is freed, kept or invalidated. -/
theorem relink_own {old new : Descriptor} {i : Fin 4} (hi : s.refs[i.val].owner = some ch)
    (hold : old.role = .reference) :
    (new.role ≠ .reference → (relink ch old new s).refs[i.val] = .free) ∧
    (new.role = .reference → (old.pin = new.pin ∧ old.method = new.method ∧ old.g = new.g ∧ old.s = new.s) →
      (relink ch old new s).refs[i.val] = s.refs[i.val]) ∧
    (new.role = .reference → ¬(old.pin = new.pin ∧ old.method = new.method ∧ old.g = new.g ∧ old.s = new.s) →
      (relink ch old new s).refs[i.val] = (s.refs[i.val]).invalidate) := by
  have howner : (relinkedUsers old new s).refs[i.val].owner = some ch := (relinkedUsers_owner old new i).trans hi
  have howned : slotOf ch (relinkedUsers old new s) ≠ none := fun h => slotOf_eq_none.mp h i howner
  rw [relink_eq]
  refine ⟨fun hnew => ?_, fun hnew hsame => ?_, fun hnew hchanged => ?_⟩
  · rw [if_pos ⟨hold, hnew⟩, onSlot_get, if_pos howner]
  · rw [if_neg fun h => h.2 hnew, if_neg fun h => howned h.2, if_neg, relinkedUsers_reference hold hnew]
    rintro ⟨-, -, h⟩
    obtain ⟨hpin, hmethod, hg, hs⟩ := hsame
    simp [hpin, hmethod, hg, hs] at h
  · rw [if_neg fun h => h.2 hnew, if_neg fun h => howned h.2, if_pos, onSlot_get, if_pos howner,
      relinkedUsers_reference hold hnew]
    refine ⟨hold, hnew, ?_⟩
    by_contra hsame
    simp only [not_or, not_not] at hsame
    exact hchanged hsame

/-- R69: a free slot is taken where it is the lowest and the channel becomes a REFERENCE, and left otherwise. -/
theorem relink_free {old new : Descriptor} {i : Fin 4} (hi : s.refs[i.val].owner = none) :
    (new.role = .reference → slotOf ch s = none → (∀ k : Fin 4, k < i → s.refs[k.val].owner ≠ none) →
      (relink ch old new s).refs[i.val] = { RefSlot.free with owner := some ch }) ∧
    (new.role ≠ .reference ∨ slotOf ch s ≠ none ∨ (∃ k : Fin 4, k < i ∧ s.refs[k.val].owner = none) →
      (relink ch old new s).refs[i.val] = s.refs[i.val]) := by
  have howner : ∀ k : Fin 4, (relinkedUsers old new s).refs[k.val].owner = s.refs[k.val].owner :=
    relinkedUsers_owner old new
  have hnot : ¬(relinkedUsers old new s).refs[i.val].owner = some ch := by simp [howner, hi]
  have hkept := relinkedUsers_free old new hi
  rw [relink_eq]
  refine ⟨fun hnew hslot hbelow => ?_, fun hleft => ?_⟩
  · rw [if_neg fun h => h.2 hnew, if_pos ⟨hnew, (slotOf_relinkedUsers old new).mpr hslot⟩]
    show (allocateSlot ch (relinkedUsers old new s).refs)[i.val] = _
    rw [allocateSlot_first ((howner i).trans hi) fun k hk => by rw [howner]; exact hbelow k hk, Vector.getElem_set_self]
  · split
    · rw [onSlot_get, if_neg hnot, hkept]
    split
    · next h =>
      obtain hnew | hslot | ⟨k, hk, hnone⟩ := hleft
      · exact absurd h.1 hnew
      · exact absurd ((slotOf_relinkedUsers old new).mp h.2) hslot
      · exact (allocateSlot_leaves (.inr ⟨k, hk, (howner k).trans hnone⟩)).trans hkept
    split
    · rw [onSlot_get, if_neg hnot, hkept]
    · exact hkept

/-! ### The other blocks -/

theorem applyCommit_refs (ch : ChannelId) (im : Image) (s : State) :
    (applyCommit ch im s).1.refs = (relink ch s.channels[ch.val].desc im.descriptor s).refs := by
  unfold applyCommit
  dsimp only
  split <;> split <;> simp

theorem applyCommit_alerts (ch : ChannelId) (im : Image) (s : State) : (applyCommit ch im s).1.alerts =
    if zoneReset s.channels[ch.val].desc im.descriptor then
      { s.alerts with entries := s.alerts.entries.filter (fun a => a.channel != ch) }
    else s.alerts := by
  unfold applyCommit
  dsimp only
  split <;> split <;> simp [removeAlert]

theorem applyCommit_on (h : ¬(im.descriptor.role = .unused ∨ im.descriptor.enabled = false)) :
    (applyCommit ch im s).1.queue = s.queue ∧ (applyCommit ch im s).1.scan = s.scan := by
  unfold applyCommit
  dsimp only
  rw [if_neg h]
  split <;> simp

theorem zoneReset_iff (old new : Descriptor) : zoneReset old new = false ↔ old.role = new.role ∧
    old.zoneMonitor = new.zoneMonitor ∧ old.lowT = new.lowT ∧ old.highT = new.highT ∧ old.hyst = new.hyst := by
  simp [zoneReset, and_assoc]

theorem rangeReset_iff (old new : Descriptor) : rangeReset old new = false ↔ old.method = new.method ∧
    old.g = new.g ∧ old.autoRange = new.autoRange := by
  simp [rangeReset, and_assoc]

theorem jobsRemoved_congr {named : QueuedJob → Bool} {u v t : State} (hqueue : u.queue = v.queue)
    (hscan : u.scan = v.scan) (hpending : u.pending = v.pending) (h : jobsRemoved named v t) :
    jobsRemoved named u t := by
  unfold jobsRemoved at h ⊢
  rw [hqueue, hscan, hpending]
  exact h

theorem jobsRemoved_recordOutcome {named : QueuedJob → Bool} {code : Byte} {r : Reply} {u t : State}
    (h : jobsRemoved named u t) : jobsRemoved named u (recordOutcome code r t) := by
  have hqueue : (recordOutcome code r t).queue = t.queue := rfl
  have hscan : (recordOutcome code r t).scan = t.scan := rfl
  have hflag : flagSet .pass (recordOutcome code r t) = flagSet .pass t := rfl
  unfold jobsRemoved at h ⊢
  rw [hqueue, hscan, hflag]
  exact h

/-- R35: the withdrawal reaches the scan alone, by its cursor. -/
theorem withdrawOffer_scan {u v : State} (h : u.scan = v.scan) :
    (withdrawOffer ch u).scan = (withdrawOffer ch v).scan := by
  unfold withdrawOffer
  rw [h]
  cases v.scan.cursor with
  | waiting n b =>
    dsimp only
    split
    · rfl
    · exact h
  | settled n => exact h
  | cleared => exact h
  | done => exact h

theorem withdrawn_blocks (ch : ChannelId) (s : State) :
    let withdrawn := match s.scan.cursor with
      | .waiting n c => if c = ch then s.withScan { s.scan with cursor := .settled n } else s
      | _ => s
    withdrawn.queue = s.queue ∧ withdrawn.pending = s.pending ∧ withdrawn.scan = (withdrawOffer ch s).scan := by
  unfold withdrawOffer
  cases s.scan.cursor with
  | waiting n b =>
    dsimp only
    split <;> exact ⟨rfl, rfl, rfl⟩
  | settled n => exact ⟨rfl, rfl, rfl⟩
  | cleared => exact ⟨rfl, rfl, rfl⟩
  | done => exact ⟨rfl, rfl, rfl⟩

/-- R35, R100: a channel that is switched off: its offer withdrawn, its jobs removed. -/
theorem applyCommit_removes (h : im.descriptor.role = .unused ∨ im.descriptor.enabled = false) (s : State) :
    jobsRemoved (fun j => j.channel == ch) (withdrawOffer ch s) (applyCommit ch im s).1 := by
  obtain ⟨hqueue, hpending, hscan⟩ := withdrawn_blocks ch s
  refine jobsRemoved_congr ?_ hscan.symm ?_ (applyCommit_off h s)
  · rw [hqueue]
    simp
  · rw [hpending]
    simp

end Apply

/-- Settles O18: the apply block by block, and the decision at the end of the job. -/
theorem commitApplies : Obligations.CommitApplies := by
  refine ⟨fun ch s h harg hengaged hvalid => ?_, fun c j dc s hends hworking hdeferred hstate => ?_⟩
  · intro old new sameRange sameZone sameEntry off linked withdrawn
    let p := pointerPast 0x18 s
    let r := applyCommit ch (Image.ofStaging s.staging) p
    have hfree : commitChannel p = decideCommit ch (Image.ofStaging s.staging) p :=
      commitChannel_free (s := p) harg hengaged
    have heffect : commitChannel p = (r.1, r.2) := by
      have hvalid' : validate ch (Image.ofStaging s.staging) p = none := hvalid
      rw [hfree, decideCommit, hvalid']
    have hview := hostView_commitChannel p
    rw [heffect] at hview
    have hchannel : ∀ b : ChannelId, r.1.channels[b.val] = if ch = b then { old with
        desc := new, rangeStep := if rangeReset old.desc new then 0 else old.rangeStep,
        zone := if zoneReset old.desc new then .unknown else old.zone } else s.channels[b.val] := fun b => by
      rw [applyCommit_channels, setChannel_get]
      rfl
    have hself := hchannel ch
    rw [if_pos rfl] at hself
    have hdesc : r.1.channels[ch.val].desc = new := by rw [hself]
    have hlast : r.1.channels[ch.val].lastStatus = old.lastStatus := by rw [hself]
    have hrange : r.1.channels[ch.val].rangeStep = if rangeReset old.desc new then 0 else old.rangeStep := by rw [hself]
    have hzone : r.1.channels[ch.val].zone = if zoneReset old.desc new then .unknown else old.zone := by rw [hself]
    have hrefs : r.1.refs = (relink ch old.desc new p).refs := applyCommit_refs _ _ _
    have halerts : r.1.alerts = _ := applyCommit_alerts ch (Image.ofStaging s.staging) p
    have hreply : r.2 = .done (if off then s.queue.jobs.countP (fun j => j.channel == ch) else 0) :=
      applyCommit_removed ch (Image.ofStaging s.staging) p
    have hstaging : r.1.staging = s.staging := by simp [r, p]
    have hseq : r.1.seq = s.seq := by simp [r, p]
    have hfifo : r.1.fifo = s.fifo := by simp [r, p]
    have hremoves : off → jobsRemoved (fun j => j.channel == ch) (withdrawOffer ch p) r.1 := fun hoff =>
      applyCommit_removes hoff p
    have hkeeps : ¬off → r.1.queue = s.queue ∧ r.1.scan = s.scan := fun hon => applyCommit_on (s := p) hon
    clear_value r
    refine ⟨recordOutcome 0x20 r.2 r.1, exec_decoded h rfl heffect, (hostView_recordOutcome _ _ _).trans hview, hstaging,
      hseq, hfifo, hdesc, fun b hb => (hchannel b).trans (if_neg hb.symm), hlast, fun hsame => ?_, fun hchanged => ?_,
      fun hsame => ?_, fun hchanged => ?_, fun i b hb hne => ?_, fun i hi hold => ?_, fun i hi => ?_, fun hoff => ?_,
      fun hon => ?_, fun hoff => ?_, fun hon => ?_⟩
    · rw [(rangeReset_iff old.desc new).mpr hsame] at hrange
      exact hrange
    · have hreset : rangeReset old.desc new = true := by
        rw [← Bool.not_eq_false, rangeReset_iff]
        exact hchanged
      rw [hreset] at hrange
      exact hrange
    · have hreset := (zoneReset_iff old.desc new).mpr hsame
      exact ⟨hzone.trans (if_neg (by simp [hreset])), halerts.trans (if_neg (Bool.eq_false_iff.mp hreset))⟩
    · have hreset : zoneReset old.desc new = true := by
        rw [← Bool.not_eq_false, zoneReset_iff]
        exact hchanged
      have hremoved : r.1.alerts = { s.alerts with entries := s.alerts.entries.filter (fun a => a.channel != ch) } :=
        halerts.trans (if_pos hreset)
      have hlatch : r.1.alerts.latch = s.alerts.latch := by rw [hremoved]
      have hentries : r.1.alerts.entries = s.alerts.entries.filter (fun a => a.channel != ch) := by rw [hremoved]
      exact ⟨hzone.trans (if_pos hreset), hlatch, hentries⟩
    · have hslot : r.1.refs[i.val] = (relinkedUsers old.desc new p).refs[i.val] := by
        rw [hrefs]
        exact relink_other (s := p) old.desc new hb hne
      exact hslot.trans (relinkedUsers_owned (s := p) old.desc new hb)
    · obtain ⟨hfreed, hkept, hinvalid⟩ := relink_own (s := p) (new := new) hi hold
      rw [← hrefs] at hfreed hkept hinvalid
      exact ⟨hfreed, hkept, hinvalid⟩
    · obtain ⟨htaken, hleft⟩ := relink_free (s := p) (ch := ch) (old := old.desc) (new := new) hi
      rw [← hrefs] at htaken hleft
      exact ⟨htaken, hleft⟩
    · obtain ⟨hqueue, hpending, hscan⟩ : withdrawn.queue = s.queue ∧ withdrawn.pending = s.pending ∧
          withdrawn.scan = (withdrawOffer ch s).scan := withdrawn_blocks ch s
      refine jobsRemoved_recordOutcome (jobsRemoved_congr (v := withdrawOffer ch p) ?_ ?_ ?_ (hremoves hoff))
      · rw [hqueue]
        simp [p]
      · exact hscan.trans (withdrawOffer_scan rfl)
      · rw [hpending]
        simp [p]
    · exact hkeeps hon
    · rw [if_pos hoff] at hreply
      rw [hreply]
      rfl
    · rw [if_neg hon] at hreply
      rw [hreply]
      rfl
  · intro answer new removed
    obtain ⟨st, u, hexec, hjob, hqueue, hscan, hdef, hcmd, -, -, hdesc, hlinks⟩ := exec_endsJob hends hworking
    have hvalidate : validate dc.channel dc.image u = answer := validate_congr hdesc hlinks dc.channel dc.image
    obtain ⟨hnone, hcommand, hrefused, happlied⟩ := jobEnd_decides st (hjob.trans hends.1) (hdef.trans hdeferred)
      (by rw [hscan]; exact hstate)
    rw [hvalidate, hcmd] at hrefused happlied
    rw [hqueue] at happlied
    refine ⟨_, hexec, hnone, hcommand, fun reason result hanswer => ?_, fun hanswer => ?_⟩
    · obtain ⟨houtcome, hkept⟩ := hrefused reason result hanswer
      exact ⟨houtcome, fun b => (hkept b).trans (hdesc b)⟩
    · obtain ⟨houtcome, hstored⟩ := happlied hanswer
      exact ⟨houtcome, fun b => (hstored b).trans (by rw [hdesc])⟩

end Sys2Proof.Machine
end

section
/-! The slow tick, in either order of the ageing and of the scan's share. -/

namespace Sys2Proof.Machine

section SlowTick

variable {s : State} {level : Bool}

/-! ### The state the scan's share finds -/

/-- R8, R9, R46: the blocks that a slow tick has reached before the scan's share, with the slots aged or not. -/
def slowTicked (level : Bool) (q : Sequencer) (slots : Vector RefSlot 4) (s : State) : State :=
  (((s.withTimebase { s.timebase with slowDivider := 0, stamp := s.timebase.stamp + 1 }).withPins
    { s.pins with trig := level }).withSeq q).withRefs slots

/-- R74: what holds of the scan's share on either side of the ageing holds of the slow tick. -/
theorem slowTick_ind {P : State → Prop} {q : Sequencer} (hc : clocked s = true)
    (hq : sequencerSlow ((s.withTimebase { s.timebase with slowDivider := 0 }).withPins { s.pins with trig := level }) =
      ((s.withTimebase { s.timebase with slowDivider := 0 }).withPins { s.pins with trig := level }).withSeq q)
    (hfree : ∀ t n, P t → P (t.withFreeIndex n)) (hslots : ∀ t slots, P t → P (t.withRefs slots))
    (h : ∀ slots, P (scanSlow (slowTicked level q slots s))) : P (slowTick level s) := by
  rw [slowTick, if_pos hc, hq]
  exact eitherOrder_ind hfree (h (mapTable RefSlot.aged s.refs)) (hslots _ _ (h s.refs))

theorem scanSlow_refs (s : State) : (scanSlow s).refs = s.refs := by simp [scanSlow]

/-- R72: the slots age once, whatever the order. -/
theorem slowTick_refs {q : Sequencer} (hc : clocked s = true)
    (hq : sequencerSlow ((s.withTimebase { s.timebase with slowDivider := 0 }).withPins { s.pins with trig := level }) =
      ((s.withTimebase { s.timebase with slowDivider := 0 }).withPins { s.pins with trig := level }).withSeq q) :
    (slowTick level s).refs = mapTable RefSlot.aged s.refs := by
  rw [slowTick, if_pos hc, hq]
  refine eitherOrder_ind (P := fun t => t.refs = mapTable RefSlot.aged s.refs) (fun _ _ h => h) (scanSlow_refs _) ?_
  exact congrArg (mapTable RefSlot.aged) (scanSlow_refs _)

theorem aged_eq (sl : RefSlot) :
    sl.aged = { sl with age := if sl.valid then min (sl.age + 1) 65535 else sl.age } := by
  unfold RefSlot.aged
  split <;> rfl

/-! ### A pass that starts at the tick -/

theorem passStarted_filter {number : BitVec 16} {mode : ScanMode} {u : State} {filtered : Bool} {stable : Nat}
    (h : passStarted number mode s u) :
    passStarted number mode s (u.withScan { u.scan with filtered := filtered, stable := stable }) := by
  unfold passStarted offerDecided offerStarted at h ⊢
  exact h

/-- R192: the filter length and the polarity that a TRIG setting names. -/
theorem trigSetting_fields : ∀ setting : Byte,
    filterLength setting = (match setting.toNat % 4 with | 0 => 0 | 1 => 1 | 2 => 4 | _ => 16) ∧
    polarityLevel setting = decide (setting.toNat / 16 % 2 = 0) := by decide

end SlowTick

/-- Settles O36: by what is due at the tick, and by the state of the scan. -/
theorem slowTickEffect : Obligations.SlowTickEffect := by
  refine ⟨fun level s hc => ?_, trigSetting_fields⟩
  intro sc w live runs expires qualifies due timer latched filtered stable counted settled quiet
  have hq : sequencerSlow
      ((s.withTimebase { s.timebase with slowDivider := 0 }).withPins { s.pins with trig := level }) =
      ((s.withTimebase { s.timebase with slowDivider := 0 }).withPins { s.pins with trig := level }).withSeq settled :=
    sequencerSlow_spec _
  refine ⟨slowTick level s, rfl, (hostView_slowTick s level).trans (if_pos hc), ?_, ?_, fun i => ?_, fun hdue => ?_,
    fun hdue hstate => ?_, fun hdue hstate => ?_⟩
  · exact slowTick_ind (P := fun t => t.staging = s.staging) hc hq (fun _ _ h => h) (fun _ _ h => h)
      (fun slots => by simp [scanSlow, slowTicked])
  · exact slowTick_ind (P := fun t => t.timebase = { s.timebase with slowDivider := 0, stamp := s.timebase.stamp + 1 })
      hc hq (fun _ _ h => h) (fun _ _ h => h) (fun slots => by simp [scanSlow, slowTicked])
  · rw [slowTick_refs hc hq, mapTable_get, aged_eq]
  · refine slowTick_ind (P := fun t => quiet t ∧ t.events = s.events ∧
      t.scan = { sc with timer := timer, filtered := filtered, stable := stable }) hc hq (fun _ _ h => h)
      (fun _ _ h => h) (fun slots => ?_)
    have hscan := (scanSlow_spec (slowTicked level settled slots s)).1 hdue
    rw [hscan]
    exact ⟨⟨rfl, rfl, rfl, rfl, rfl, rfl⟩, rfl, rfl⟩
  · refine slowTick_ind (P := fun t => quiet t ∧ t.events = { s.events with flags := s.events.flags ||| 0x08 } ∧
      t.scan = { sc with
        timer := timer, latched := latched, filtered := filtered, stable := stable,
        overrun := if sc.overrun = 255 then 255 else sc.overrun + 1 }) hc hq (fun _ _ h => h)
      (fun _ _ h => h) (fun slots => ?_)
    have hscan := (scanSlow_spec (slowTicked level settled slots s)).2.1 hdue hstate
    rw [hscan]
    exact ⟨⟨rfl, rfl, rfl, rfl, rfl, rfl⟩, rfl, rfl⟩
  · refine slowTick_ind (P := fun t => t.scan.timer = timer ∧ t.scan.latched = latched ∧ t.scan.filtered = filtered ∧
      t.scan.stable = stable ∧ t.scan.overrun = sc.overrun ∧ t.alerts = s.alerts ∧
      passStarted sc.passNumber sc.mode (s.withSeq settled) t) hc hq (fun _ _ h => h) (fun _ _ h => h) (fun slots => ?_)
    obtain ⟨f, n, hscan⟩ := (scanSlow_spec (slowTicked level settled slots s)).2.2 hdue hstate
    let u := (slowTicked level settled slots s).withScan
      { sc with timer := timer, latched := latched, filtered := f, stable := n }
    have hscan : scanSlow (slowTicked level settled slots s) =
        (passStart u).withScan { (passStart u).scan with filtered := filtered, stable := stable } := hscan
    have hmode : u.scan.mode ≠ .single := by
      intro hsingle
      have hmode : sc.mode = .single := hsingle
      simp [due, expires, runs, hmode] at hdue
    have hoverrun : (passStart u).scan.overrun = sc.overrun := congrArg QuietView.overrun (quietView_passStart u)
    have halerts : (passStart u).alerts = s.alerts := by
      simp [u, slowTicked]
    rw [hscan]
    refine ⟨passStart_timer hmode, passStart_latched u, rfl, rfl, hoverrun, halerts, passStarted_filter ?_⟩
    exact passStart_started (u := u) rfl rfl ⟨rfl, rfl, rfl, rfl, rfl, rfl⟩ rfl rfl rfl rfl rfl

end Sys2Proof.Machine
end

section
/-! The Arbiter's selections, and the job that follows a job end. -/

namespace Sys2Proof.Machine

section Selections

variable {s : State} {q : QueuedJob}

/-! ### The retake behind a job start -/

/-- R92, R93: a retake reaches the queued jobs, the cursor and the pass job count. -/
theorem retake_blocks (s : State) : (retake s).queue = { s.queue with jobs := (retake s).queue.jobs } ∧
    (retake s).scan = { s.scan with cursor := (retake s).scan.cursor, passCount := (retake s).scan.passCount } := by
  obtain ⟨hnone, hdecided⟩ := retake_spec s
  by_cases hrest : (∀ n ch, s.scan.cursor ≠ .waiting n ch) ∨ (∃ rest, s.pending = .measureNow :: .offerRetake :: rest)
  · rw [hnone hrest]
    exact ⟨rfl, rfl⟩
  · obtain ⟨hwaiting, hpending⟩ := not_or.mp hrest
    simp only [not_forall, not_not] at hwaiting
    obtain ⟨n, ch, hcursor⟩ := hwaiting
    rw [hdecided n ch hcursor fun rest h => hpending ⟨rest, h⟩]
    obtain ⟨-, hqueue, -, hscan⟩ := decideOffer_decided n ch s
    exact ⟨hqueue, hscan⟩

theorem jobStart_clamped (h : s.frontEnd = .clamped) : (jobStart q s).frontEnd = .clamped := by
  have hmarked : ∀ j : InFlight, ∀ t : State, (markJob true j t).frontEnd = t.frontEnd := fun j t => by simp
  unfold jobStart startPhase
  dsimp only
  rw [clampRequest_frontEnd]
  simp only [State.withSeq_frontEnd, hmarked, State.withQueue_frontEnd, h]
  rfl

/-- What a selection that starts `q` leaves, from a state `x` with the reservation made and `left` queued. -/
theorem jobStart_selected {x : State} {left : List QueuedJob} (hchannels : x.channels = s.channels)
    (hrefs : x.refs = s.refs) (htimebase : x.timebase = s.timebase) (hscan : x.scan = s.scan)
    (hpending : x.pending = s.pending) (hqueue : x.queue = { s.queue with jobs := left }) :
    let t := retake (jobStart q x)
    t.seq = { state := .discharge, job := some (jobRecord q s), work := phaseCopy (jobRecord q s).measured s } ∧
      t.queue = { s.queue with jobs := t.queue.jobs, available := false } ∧
      t.scan = { s.scan with cursor := t.scan.cursor, passCount := t.scan.passCount } ∧
      ((∀ n ch, s.scan.cursor ≠ .waiting n ch) ∨ (∃ rest, s.pending = .measureNow :: .offerRetake :: rest) →
        t.queue.jobs = left ∧ t.scan = s.scan) ∧
      ∀ n ch, s.scan.cursor = .waiting n ch → (∀ rest, s.pending ≠ .measureNow :: .offerRetake :: rest) →
        offerDecided s.scan.passNumber n ch left s t := by
  intro t
  have hstarted : (jobStart q x).scan = s.scan := by simp [hscan]
  have hfront : (jobStart q x).pending = s.pending := by simp [hpending]
  have hjobs : (jobStart q x).queue = { s.queue with jobs := left, available := false } := by simp [hqueue]
  have hseq : t.seq = (jobStart q x).seq := by simp [t]
  obtain ⟨hnone, hdecided⟩ := retake_spec (jobStart q x)
  obtain ⟨htqueue, htscan⟩ := retake_blocks (jobStart q x)
  rw [hstarted, hfront] at hnone hdecided
  rw [hstarted] at htscan
  rw [hjobs] at htqueue
  refine ⟨hseq.trans (jobStart_seq q hchannels hrefs htimebase), htqueue, htscan, fun hrest => ?_,
    fun n ch hcursor hnot => ?_⟩
  · have ht : t = jobStart q x := hnone hrest
    rw [ht, hjobs, hstarted]
    exact ⟨rfl, rfl⟩
  · have ht : t = decideOffer n ch (jobStart q x) := hdecided n ch hcursor hnot
    obtain ⟨hoffer, -⟩ := decideOffer_decided n ch (jobStart q x)
    rw [ht]
    unfold offerDecided at hoffer ⊢
    rw [hjobs, hstarted] at hoffer
    exact hoffer

/-! ### The state a job ends from -/

/-- R64, R60: every event that ends the job in flight is its job end, with the outcome record apart, from a state that
differs from the event's in the port, in the working copy, in a range step or in a slot. -/
theorem exec_jobEnd {c : Instr} {j : InFlight} (h : endsJob c j s) :
    ∃ st u cmd, exec c s = .next ((jobEnd st u).withCmd cmd) ∧ u.seq.job = some j ∧ clocked u = clocked s ∧
      u.queue = s.queue ∧ u.deferred = s.deferred ∧ u.scan = s.scan ∧ u.fifo = s.fifo := by
  have hfails : ∀ {st reason}, s.seq.job = some j → (∃ pe : PhaseEnd, pe ≠ .ok ∧ pe.status = st ∧
      pe.status.reason = reason ∧ exec c s = .next (phaseEnd pe s)) →
      ∃ st u cmd, exec c s = .next ((jobEnd st u).withCmd cmd) ∧ u.seq.job = some j ∧ clocked u = clocked s ∧
        u.queue = s.queue ∧ u.deferred = s.deferred ∧ u.scan = s.scan ∧ u.fifo = s.fifo := by
    rintro st reason hj ⟨pe, hpe, -, -, hexec⟩
    rw [phaseEnd_fails hj hpe] at hexec
    exact ⟨_, failedFrom pe j s, _, hexec, hj, rfl, rfl, rfl, rfl, rfl⟩
  obtain ⟨hj, ⟨rfl, htakes, hbusy⟩ | ⟨rfl, hs⟩ | ⟨hgate, hs, hcount⟩ | ⟨rfl, hs, hstep⟩⟩ := h
  · obtain ⟨cmd, hexec, -⟩ := exec_abortJob htakes hbusy
    exact ⟨_, pointerPast 0x18 s, cmd, hexec, hj, rfl, rfl, rfl, rfl, rfl⟩
  · exact hfails hj (exec_failing (.inl ⟨rfl, hs, rfl, rfl⟩))
  · obtain hzero | ⟨hphase, hlast⟩ := hcount
    · refine hfails hj (exec_failing (st := .under) (reason := .under) ?_)
      obtain ⟨hc, hm⟩ | ⟨hc, hm⟩ := hgate
      · exact .inr (.inl ⟨hc, hs, hm, hzero, rfl, rfl⟩)
      · exact .inr (.inr (.inl ⟨hc, hs, hm, hzero, rfl, rfl⟩))
    · by_cases hzero : s.seq.work.count = 0
      · refine hfails hj ⟨.under, by decide, rfl, rfl, ?_⟩
        rw [exec_gateClose hgate hs, sampleComplete_empty hzero]
      · let v := s.withSeq { s.seq with work := s.seq.work.sampled }
        have hend : sampleComplete s = jobEnd .ok (stepCommitted .ok j v) :=
          (sampleComplete_last (Nat.pos_of_ne_zero hzero) hlast).trans (phaseEnd_primary (s := v) hj hphase)
        exact ⟨_, stepCommitted .ok j v, _, (exec_gateClose hgate hs).trans (congrArg Host.Outcome.next hend), hj, rfl,
          rfl, rfl, rfl, rfl⟩
  · exact hfails hj (exec_failing (.inr (.inr (.inr ⟨rfl, hs, hstep, rfl, rfl⟩))))

end Selections

/-- Settles O45: the selection by the room in the FIFO, and the job behind a job end. -/
theorem arbiterSelects : Obligations.ArbiterSelects := by
  unfold Obligations.ArbiterSelects
  intro selected
  refine ⟨fun s => ⟨fun hnone => ?_, fun hready hstalled before after q hjobs hselected => ?_⟩,
    fun c j before after q s hends hc hd hstalled hjobs hselected => ?_⟩
  · refine congrArg Host.Outcome.next ?_
    obtain h | h | h := hnone
    · exact select_none (.inl h)
    · exact select_none (.inr h)
    · exact select_empty h
  · intro left d room
    have hselect : selectJob s.queue.jobs = some (q, left) := by
      rw [hjobs]
      exact selectJob_first hselected
    have hmade : exec .arbiterSelection s = .next (arbitrate s) :=
      congrArg Host.Outcome.next (select_made hready hstalled)
    refine ⟨fun hroom => ?_, fun hfull hhold => ?_⟩
    · obtain ⟨x, hstart, hchannels, hrefs, htimebase, hscan, hpending, hfront, hqueue, hfifo, hdrop⟩ : ∃ x : State,
          arbitrate s = retake (jobStart q x) ∧ x.channels = s.channels ∧ x.refs = s.refs ∧ x.timebase = s.timebase ∧
          x.scan = s.scan ∧ x.pending = s.pending ∧ x.frontEnd = s.frontEnd ∧
          x.queue = { s.queue with jobs := left, stalled := false } ∧
          x.fifo = (if room then { s.fifo with reserved := 1 }
            else { s.fifo with records := s.fifo.records.drop 1, gapPending := true, reserved := 1 }) ∧
          flagSet .drop x = (flagSet .drop s || !decide room) := by
        by_cases hslot : room
        · refine ⟨_, arbitrate_granted hselect hslot, rfl, rfl, rfl, rfl, rfl, rfl, rfl, (if_pos hslot).symm, ?_⟩
          simp [hslot, flagSet]
        · refine ⟨_, arbitrate_discards hselect (not_lt.mp hslot) (hroom.resolve_left hslot), rfl, rfl, rfl, rfl, rfl,
            rfl, rfl, (if_neg hslot).symm, ?_⟩
          have hraised : ∀ u : State, u.events = (raise .drop s).events → flagSet .drop u = true := fun u hu => by
            rw [flagSet_of_events hu, flagSet_raise]
            rfl
          exact (hraised _ rfl).trans (by simp [hslot])
      obtain ⟨hseq, htqueue, htscan, hleft, hoffer⟩ :=
        jobStart_selected (x := x) (q := q) (left := left) hchannels hrefs htimebase hscan hpending
          (by rw [hqueue, ← hstalled])
      have hview : quietView (arbitrate s) = quietView s := quietView_arbitrate s
      have hown : (jobStart q s).seq = _ := jobStart_seq (x := s) q rfl rfl rfl
      have hengaged : (retake (jobStart q x)).channels[q.channel.val].engaged = true := by
        simp [jobStart_engaged]
      have hclamped : s.frontEnd = .clamped → (retake (jobStart q x)).frontEnd = .clamped := fun h => by
        simp [jobStart_clamped (hfront.trans h)]
      have htfifo : (retake (jobStart q x)).fifo = x.fifo := by simp
      have htdrop : flagSet .drop (retake (jobStart q x)) = flagSet .drop x := flagSet_of_events (by simp) _
      rw [hstart] at hmade hview
      obtain ⟨hchannel, htag⟩ := jobRecord_spec s q
      exact ⟨_, jobRecord q s, hmade, hview, hseq, hseq.trans hown.symm, hchannel, htag, jobRecord_plain, hengaged,
        hclamped, htfifo.trans hfifo, htdrop.trans hdrop, htqueue, htscan, hleft, hoffer⟩
    · refine hmade.trans (congrArg Host.Outcome.next ?_)
      rw [arbitrate_refused hselect (not_lt.mp hfull) hhold, if_neg (by simp [hstalled])]
      rfl
  · obtain ⟨st, u, cmd, hexec, hj, hclocked, hqueue, hdeferred, hscan, hfifo⟩ := exec_jobEnd hends
    obtain ⟨hstarts, hstalls⟩ := jobEnd_next st hj (hclocked.trans hc) (hdeferred.trans hd)
      (by rw [hqueue, hstalled]) (by rw [hqueue, hjobs]) hselected
    rw [hfifo, hscan] at hstarts
    rw [hfifo, hqueue] at hstalls
    refine ⟨fun hroom => ?_, fun hfull hhold hdirect => ?_⟩
    · obtain ⟨k, hstate, hjob, hchannel, htag, hengaged, hreserved, havailable, hleft⟩ := hstarts hroom
      exact ⟨_, k, hexec, hstate, hjob, hchannel, htag, hengaged, hreserved, havailable, hleft⟩
    · obtain ⟨hseq, htqueue, hstall⟩ := hstalls hfull hhold hdirect
      exact ⟨_, hexec, hseq, htqueue, hstall⟩

end Sys2Proof.Machine
end

section
/-! The TB tick, in any order of the blocks that it reaches. -/

namespace Sys2Proof.Machine

section TbTick

variable {s : State} {level : Bool}

/-! ### The shares of a TB tick -/

/-- R8: a TB tick that is no slow tick. -/
theorem tbTick_plain (hc : clocked s = true) (h : s.timebase.slowDivider + 1 < 1024) : tbTick level s =
    anyOrder (sequencerShare s.seq.state false) (cursorShare s.scan.cursor) id ((s.withTimebase { s.timebase with
      prescaleDivider := 0, slowDivider := s.timebase.slowDivider + 1 }).withPins { s.pins with trig := level }) := by
  have hslow : decide (Config.slowTickLength ≤ s.timebase.slowDivider + 1) = false := decide_eq_false h.not_ge
  rw [tbTick, if_pos hc, hslow]
  rfl

/-- R8: a TB tick that is a slow tick. -/
theorem tbTick_slow (hc : clocked s = true) (h : 1024 ≤ s.timebase.slowDivider + 1) : tbTick level s =
    anyOrder (sequencerShare s.seq.state true) (cursorShare s.scan.cursor) slowShare ((s.withTimebase { s.timebase with
      prescaleDivider := 0, slowDivider := 0 }).withPins { s.pins with trig := level }) := by
  have hslow : decide (Config.slowTickLength ≤ s.timebase.slowDivider + 1) = true := decide_eq_true h
  rw [tbTick, if_pos hc, hslow]
  rfl

theorem cursorShare_rest (h : ∀ n, s.scan.cursor ≠ .settled n) : cursorShare s.scan.cursor = id := by
  cases hcursor : s.scan.cursor with
  | settled n => exact absurd hcursor (h n)
  | waiting n ch => rfl
  | cleared => rfl
  | done => rfl

/-- An item of the state that one of three shares changes, whatever their order. -/
theorem anyOrder_item {α : Type} {f : State → α} {g : α → α} {a b c : State → State}
    (hfree : ∀ t n, f (t.withFreeIndex n) = f t) (ha : ∀ t, f (a t) = f t) (hb : ∀ t, f (b t) = f t)
    (hc : ∀ t, f (c t) = g (f t)) (s : State) : f (anyOrder a b c s) = g (f s) := by
  refine oneOf_ind (P := fun t => f t = g (f s)) (fun t n h => (hfree t n).trans h) ?_ fun y hy => ?_
  · simp only [ha, hb, hc]
  · simp only [List.mem_cons, List.not_mem_nil, or_false] at hy
    obtain rfl | rfl | rfl | rfl | rfl := hy <;> simp only [ha, hb, hc]

theorem sequencerShare_timebase (before : SeqState) (slow : Bool) (s : State) :
    (sequencerShare before slow s).timebase = s.timebase ∧ (sequencerShare before slow s).staging = s.staging := by
  have hview := quietView_sequencerShare s before slow
  exact ⟨congrArg QuietView.timebase hview, congrArg QuietView.staging hview⟩

theorem cursorShare_timebase (before : Cursor) (s : State) :
    (cursorShare before s).timebase = s.timebase ∧ (cursorShare before s).staging = s.staging := by
  have hview := quietView_cursorShare s before
  exact ⟨congrArg QuietView.timebase hview, congrArg QuietView.staging hview⟩

theorem slowShare_timebase (s : State) : (slowShare s).timebase = { s.timebase with stamp := s.timebase.stamp + 1 } ∧
    (slowShare s).staging = s.staging := by
  have hscan : ∀ t, (scanSlow t).timebase = t.timebase ∧ (scanSlow t).staging = t.staging := fun t => by simp [scanSlow]
  refine eitherOrder_ind (P := fun t => t.timebase = { s.timebase with stamp := s.timebase.stamp + 1 } ∧
    t.staging = s.staging) (fun _ _ h => h) ?_ ?_
  · exact hscan (ageTick (stampTick s))
  · exact hscan (stampTick s)

/-- R7 to R9: the timebase after a tick. -/
theorem tbTick_timebase (hc : clocked s = true) : (tbTick level s).staging = s.staging ∧ (tbTick level s).timebase =
    if s.timebase.slowDivider + 1 < 1024
      then { s.timebase with prescaleDivider := 0, slowDivider := s.timebase.slowDivider + 1 }
      else { s.timebase with prescaleDivider := 0, slowDivider := 0, stamp := s.timebase.stamp + 1 } := by
  have hseq := sequencerShare_timebase s.seq.state
  have hcursor := cursorShare_timebase s.scan.cursor
  by_cases h : s.timebase.slowDivider + 1 < 1024
  · rw [if_pos h, tbTick_plain hc h]
    exact ⟨anyOrder_item (f := State.staging) (g := id) (fun _ _ => rfl) (fun t => (hseq false t).2)
        (fun t => (hcursor t).2) (fun _ => rfl) _,
      anyOrder_item (f := State.timebase) (g := id) (fun _ _ => rfl) (fun t => (hseq false t).1)
        (fun t => (hcursor t).1) (fun _ => rfl) _⟩
  · rw [if_neg h, tbTick_slow hc (not_lt.mp h)]
    exact ⟨anyOrder_item (f := State.staging) (g := id) (fun _ _ => rfl) (fun t => (hseq true t).2)
        (fun t => (hcursor t).2) (fun t => (slowShare_timebase t).2) _,
      anyOrder_item (f := State.timebase) (g := fun x => { x with stamp := x.stamp + 1 }) (fun _ _ => rfl)
        (fun t => (hseq true t).1) (fun t => (hcursor t).1) (fun t => (slowShare_timebase t).1) _⟩

/-! ### The Sequencer's count -/

theorem sequencerTb_discharge (h : s.seq.state = .discharge) : sequencerTb s =
    if s.seq.work.dischargeLength ≤ s.seq.work.dischargeCount + 1 then
      enterSettle (s.withSeq { s.seq with work := { s.seq.work with dischargeCount := s.seq.work.dischargeCount + 1 } })
    else s.withSeq { s.seq with work := { s.seq.work with dischargeCount := s.seq.work.dischargeCount + 1 } } := by
  simp only [sequencerTb, h]

theorem sequencerTb_arm (h : s.seq.state = .arm) : sequencerTb s =
    if timeoutLength s.seq.work ≤ s.seq.work.timeout + 1 then
      phaseEnd .openArm (s.withSeq { s.seq with work := { s.seq.work with timeout := s.seq.work.timeout + 1 } })
    else s.withSeq { s.seq with work := { s.seq.work with timeout := s.seq.work.timeout + 1 } } := by
  simp only [sequencerTb, h]

theorem sequencerTb_window (h : s.seq.state = .count) (hm : s.seq.work.method = .window) : sequencerTb s =
    if windowGate s.seq.work ≤ s.seq.work.gate + 1 then
      sampleComplete (s.withSeq { s.seq with
        work := { s.seq.work with gate := s.seq.work.gate + 1, timeout := s.seq.work.timeout + 1 } })
    else if timeoutLength s.seq.work ≤ s.seq.work.timeout + 1 then
      phaseEnd .openArm (s.withSeq { s.seq with
        work := { s.seq.work with gate := s.seq.work.gate + 1, timeout := s.seq.work.timeout + 1 } })
    else s.withSeq { s.seq with
      work := { s.seq.work with gate := s.seq.work.gate + 1, timeout := s.seq.work.timeout + 1 } } := by
  simp only [sequencerTb, h, hm]

theorem sequencerTb_period (h : s.seq.state = .count) (hm : s.seq.work.method = .period) : sequencerTb s =
    if Config.overflowCount ≤ s.seq.work.count + 1 then overflowed s
    else if timeoutLength s.seq.work ≤ s.seq.work.timeout + 1 then
      phaseEnd .openArm (s.withSeq { s.seq with
        work := { s.seq.work with count := s.seq.work.count + 1, timeout := s.seq.work.timeout + 1 } })
    else s.withSeq { s.seq with
      work := { s.seq.work with count := s.seq.work.count + 1, timeout := s.seq.work.timeout + 1 } } := by
  simp only [sequencerTb, h, hm]

/-- Table 3-1: the counts of a tick that completes none. -/
def countsAt (s : State) (v : Working) : Prop :=
  let w := s.seq.work
  s.seq.state = .discharge ∧ w.dischargeCount + 1 < w.dischargeLength ∧
      v = { w with dischargeCount := w.dischargeCount + 1 } ∨
    s.seq.state = .arm ∧ w.timeout + 1 < 1024 * 2 ^ w.e.val ∧ v = { w with timeout := w.timeout + 1 } ∨
    s.seq.state = .count ∧ w.method = .window ∧ w.gate + 1 < windowGate w ∧
      w.timeout + 1 < 1024 * 2 ^ w.e.val ∧ v = { w with gate := w.gate + 1, timeout := w.timeout + 1 } ∨
    s.seq.state = .count ∧ w.method = .period ∧ w.count + 1 < 1048576 ∧
      w.timeout + 1 < 1024 * 2 ^ w.e.val ∧ v = { w with count := w.count + 1, timeout := w.timeout + 1 }

/-- R45 to R52: a count that is not complete changes the working copy alone. -/
theorem sequencerTb_counts {v : Working} (h : countsAt s v) :
    sequencerTb s = s.withSeq { s.seq with work := v } := by
  obtain ⟨hs, hless, rfl⟩ | ⟨hs, hless, rfl⟩ | ⟨hs, hm, hgate, hless, rfl⟩ | ⟨hs, hm, hcount, hless, rfl⟩ := h
  · exact (sequencerTb_discharge hs).trans (if_neg hless.not_ge)
  · exact (sequencerTb_arm hs).trans (if_neg hless.not_ge)
  · exact (sequencerTb_window hs hm).trans ((if_neg hgate.not_ge).trans (if_neg hless.not_ge))
  · exact (sequencerTb_period hs hm).trans ((if_neg hcount.not_ge).trans (if_neg hless.not_ge))

theorem countsAt_busy {v : Working} (h : countsAt s v) : s.seq.state ≠ .idle ∧ s.seq.state ≠ .settle := by
  obtain ⟨hs, -⟩ | ⟨hs, -⟩ | ⟨hs, -⟩ | ⟨hs, -⟩ := h <;> simp [hs]

theorem sequencerShare_counts {v : Working} {u : State} (h : countsAt s v) (slow : Bool) (hu : u.seq = s.seq) :
    sequencerShare s.seq.state slow u = u.withSeq { s.seq with work := v } := by
  have hcounts : sequencerTb u = u.withSeq { u.seq with work := v } :=
    sequencerTb_counts (by rw [countsAt, hu]; exact h)
  rw [hu] at hcounts
  obtain ⟨hidle, hsettle⟩ := countsAt_busy h
  cases hs : s.seq.state with
  | idle => exact absurd hs hidle
  | settle => exact absurd hs hsettle
  | discharge => exact hcounts
  | arm => exact hcounts
  | count => exact hcounts

theorem sequencerShare_tb {before : SeqState} (hidle : before ≠ .idle) (hsettle : before ≠ .settle) :
    sequencerShare before false s = sequencerTb s := by
  cases before with
  | idle => exact absurd rfl hidle
  | settle => exact absurd rfl hsettle
  | discharge => rfl
  | arm => rfl
  | count => rfl

theorem sequencerSlow_rest (hs : s.seq.state ≠ .settle) : sequencerSlow s = s := by
  rw [sequencerSlow_spec, if_pos hs]
  rfl

/-- R46: the Sequencer after a slow tick in SETTLE. -/
def settledSeq (q : Sequencer) : Sequencer :=
  let counted := { q.work with settleCount := q.work.settleCount + 1 }
  if q.work.settle.toNat ≤ q.work.settleCount + 1 then { q with state := .arm, work := { counted with timeout := 0 } }
  else { q with work := counted }

theorem settledSeq_busy {q : Sequencer} (h : q.state ≠ .idle) : (settledSeq q).state ≠ .idle := by
  rw [settledSeq]
  split
  · simp
  · exact h

theorem sequencerSlow_settle {u : State} (hu : u.seq = s.seq) (hs : s.seq.state = .settle) :
    sequencerSlow u = u.withSeq (settledSeq s.seq) := by
  rw [sequencerSlow_spec, hu, if_neg (not_not.mpr hs)]
  rfl

/-! ### The orders that agree -/

/-- R116: the Sequencer's count and the cursor's move, in either order. -/
theorem anyOrder_cursor {a : State → State} {q : Sequencer} (hbusy : s.seq.state ≠ .idle) (hq : q.state ≠ .idle)
    (ha : ∀ u : State, u.seq = s.seq → a u = u.withSeq q) :
    anyOrder a (cursorShare s.scan.cursor) id s = cursorMove (s.withSeq q) := by
  have hboth : cursorShare s.scan.cursor (a s) = cursorMove (s.withSeq q) := by
    rw [ha s rfl]
    exact cursorShare_move (s.withSeq q)
  refine (anyOrder_noC ?_).trans hboth
  rw [hboth, cursorShare_move, ha _ (busy_cursorMove_seq hbusy), cursorMove_withSeq q hbusy hq]

/-- R8: the Sequencer's count and the other blocks' shares of a slow tick, in either order. -/
theorem anyOrder_slow {a : State → State} {q : Sequencer} (hbusy : s.seq.state ≠ .idle) (hq : q.state ≠ .idle)
    (ha : ∀ u : State, u.seq = s.seq → a u = u.withSeq q) : anyOrder a id slowShare s = slowShare (s.withSeq q) := by
  have hboth : slowShare (a s) = slowShare (s.withSeq q) := by rw [ha s rfl]
  refine (anyOrder_noB ?_).trans hboth
  rw [hboth, ha _ (busy_slowShare_seq hbusy), slowShare_withSeq q hbusy hq]

theorem anyOrder_alone (a : State → State) (s : State) : anyOrder a id id s = a s := anyOrder_noC rfl

end TbTick

/-- Settles O35: by what the tick completes, and by the blocks it reaches. -/
theorem tbTickEffect : Obligations.TbTickEffect := by
  refine ⟨fun level s => ⟨fun hc => ?_, fun hc => ?_⟩, fun level v s hc => ?_, fun level s hc hplain hrest => ?_⟩
  · obtain ⟨hstaging, htimebase⟩ := tbTick_timebase (level := level) hc
    exact ⟨_, rfl, (hostView_tbTick s level).trans (if_pos hc), hstaging, htimebase⟩
  · exact ⟨congrArg Host.Outcome.next (tbTick_stopped level hc), congrArg Host.Outcome.next (slowTick_stopped level hc)⟩
  · intro w hcount counted
    have hcases : (s.seq.state = .idle ∨ s.seq.state = .settle) ∧ v = w ∨ countsAt s v := hcount
    refine ⟨fun hplain => ?_, fun hslow hrest => ?_⟩
    · let base := (s.withTimebase { s.timebase with
        prescaleDivider := 0, slowDivider := s.timebase.slowDivider + 1 }).withPins { s.pins with trig := level }
      refine congrArg Host.Outcome.next ((tbTick_plain hc hplain).trans (Eq.trans ?_ (if_pos hc).symm))
      obtain ⟨hs, rfl⟩ | hcounts := hcases
      · have hid : sequencerShare s.seq.state false = id := by
          obtain hs | hs := hs <;> rw [hs] <;> rfl
        rw [hid]
        exact (anyOrder_noC (a := id) (b := cursorShare s.scan.cursor) (s := base) rfl).trans (cursorShare_move base)
      · exact anyOrder_cursor (s := base) (q := { s.seq with work := v }) (countsAt_busy hcounts).1
          (countsAt_busy hcounts).1 (fun u hu => sequencerShare_counts hcounts false hu)
    · let base := (s.withTimebase { s.timebase with
        prescaleDivider := 0, slowDivider := 0 }).withPins { s.pins with trig := level }
      refine congrArg Host.Outcome.next ((tbTick_slow hc hslow).trans (Eq.trans ?_ (if_pos hc).symm))
      rw [cursorShare_rest hrest]
      obtain ⟨hs | hs, rfl⟩ | hcounts := hcases
      · rw [hs]
        have hsame : sequencerSlow base = base := sequencerSlow_rest (by simp [base, hs])
        refine (anyOrder_noB (a := id) (c := slowShare) rfl).trans ?_
        exact congrArg slowShare hsame.symm
      · rw [hs]
        have hbusy : s.seq.state ≠ .idle := by simp [hs]
        have hslowSeq : ∀ u : State, u.seq = s.seq → sequencerSlow u = u.withSeq (settledSeq s.seq) :=
          fun u hu => sequencerSlow_settle hu hs
        have hafter : slowShare (sequencerSlow base) = slowShare (base.withSeq (settledSeq s.seq)) :=
          congrArg slowShare (hslowSeq base rfl)
        exact (anyOrder_slow (s := base) hbusy (settledSeq_busy hbusy) hslowSeq).trans hafter.symm
      · have hsame : sequencerSlow (base.withSeq { s.seq with work := v }) = base.withSeq { s.seq with work := v } :=
          sequencerSlow_rest (countsAt_busy hcounts).2
        refine (anyOrder_slow (s := base) (q := { s.seq with work := v }) (countsAt_busy hcounts).1
          (countsAt_busy hcounts).1 (fun u hu => sequencerShare_counts hcounts true hu)).trans ?_
        exact congrArg slowShare hsame.symm
  · intro base w counted answer
    have hanswer : answer = .next (sequencerShare s.seq.state false base) := by
      refine congrArg Host.Outcome.next ((tbTick_plain hc hplain).trans ?_)
      rw [cursorShare_rest hrest]
      exact anyOrder_alone _ _
    have hshare : ∀ b, s.seq.state = b → b ≠ .idle → b ≠ .settle → answer = .next (sequencerTb base) := by
      intro b hs hidle hsettle
      rw [hanswer, sequencerShare_tb (hs ▸ hidle) (hs ▸ hsettle)]
    refine ⟨fun hs hend => ?_, fun hs hend => ?_, fun hs hm => ⟨fun hgate => ?_, fun hgate hend => ?_⟩,
      fun hs hm => ⟨fun hcount => ?_, fun hcount hend => ?_⟩⟩
    · rw [hshare _ hs (by simp) (by simp), sequencerTb_discharge (s := base) hs]
      exact congrArg Host.Outcome.next ((if_pos hend).trans (if_pos hs).symm)
    · rw [hshare _ hs (by simp) (by simp), sequencerTb_arm (s := base) hs]
      exact congrArg Host.Outcome.next ((if_pos hend).trans (if_pos (Or.inl hs)).symm)
    · rw [hshare _ hs (by simp) (by simp), sequencerTb_window (s := base) hs hm]
      exact congrArg Host.Outcome.next ((if_pos hgate).trans (if_pos ⟨hs, hm⟩).symm)
    · rw [hshare _ hs (by simp) (by simp), sequencerTb_window (s := base) hs hm]
      exact congrArg Host.Outcome.next (((if_neg hgate.not_ge).trans (if_pos hend)).trans (if_pos (Or.inr hs)).symm)
    · rw [hshare _ hs (by simp) (by simp), sequencerTb_period (s := base) hs hm]
      exact congrArg Host.Outcome.next ((if_pos hcount).trans (if_pos hs).symm)
    · rw [hshare _ hs (by simp) (by simp), sequencerTb_period (s := base) hs hm]
      exact congrArg Host.Outcome.next (((if_neg hcount.not_ge).trans (if_pos hend)).trans (if_pos (Or.inr hs)).symm)

end Sys2Proof.Machine
end
